-- ==== Sys2Proof/Word.lean ====
section
/-! DEFINITION. The word type and its plainest arithmetic (00_scope R13, R14). -/

namespace Sys2Proof

/-- A 32-bit word: general registers, linear and physical addresses (R12: XLEN = LINW = 32). -/
abbrev Word := BitVec 32

/-- One byte of memory or of the instruction stream. -/
abbrev Byte := BitVec 8

/-- The access and operand widths 8, 16 and 32 bits (R13, R83). -/
inductive Width where
  | byte
  | word
  | dword
deriving DecidableEq, Repr

/-- Width in bits. -/
def Width.bits : Width → Nat
  | .byte => 8
  | .word => 16
  | .dword => 32

/-- Width in bytes. -/
def Width.bytes : Width → Nat
  | .byte => 1
  | .word => 2
  | .dword => 4

/-- The operand-size and address-size attribute: 16 or 32 bits (R135). -/
inductive Size where
  | s16
  | s32
deriving DecidableEq, Repr

/-- The access width of type code `v` (R151). -/
def Size.width : Size → Width
  | .s16 => .word
  | .s32 => .dword

/-- `osz/8` or `asz/8`. -/
def Size.bytes : Size → Nat
  | .s16 => 2
  | .s32 => 4

end Sys2Proof
end

