-- ==== Sys2Proof/Config.lean ====
section
/-! DEFINITION. The parameters of the block (00_scope R12), its fixed address map (20_memory R73), and the free values
(93_implementation_defined U1 to U6, U21, U22). -/

namespace Sys2Proof

/-- `LIMIT_FAULT_ERRCODE` (R12, R86): the error code of a limit violation. -/
inductive LimitErr where
  | zero
  | offset
deriving DecidableEq, Repr

/-- `SIZE_PREFIX_MODE` (R12, R134): what a repeated 0x66 or 0x67 does. -/
inductive SizePrefixMode where
  | idempotent
  | toggle
deriving DecidableEq, Repr

/-- `UNDEF_FLAGS` (R12, R235): the flags the 80386 leaves undefined. -/
inductive UndefFlags where
  | decided
  | anyValue
deriving DecidableEq, Repr

/-- The error code of a #SS that a frame write raises while an exception or interrupt is delivered. The spec says both: 0 in the
table of 60_exceptions R502 and in vector LM4, bit 0 = `ext` in R509 (log entry 12). -/
inductive FrameErr where
  | zero
  | ext
deriving DecidableEq, Repr

/-- The parameters that are not fixed numbers (R12). They never change while the machine runs. -/
structure Params where
  dramSize : Nat
  sliceBudget : Nat
  limitErr : LimitErr
  sizePrefix : SizePrefixMode
  undefFlags : UndefFlags
  frameErr : FrameErr
deriving DecidableEq, Repr

/-- The bounds R12 puts on the OPEN parameters. -/
def Params.wf (p : Params) : Bool :=
  decide (0xA0000 ≤ p.dramSize) && decide (p.dramSize ≤ 0xFFFC0000) && decide (1 ≤ p.sliceBudget)

namespace Config

/-- The MMIO window (R12, R73). -/
def vgaBase : Nat := 0xA0000
def vgaEnd : Nat := 0xBFFFF

/-- The second buffer (R12, R73). -/
def romBase : Nat := 0xC0000
def romSize : Nat := 0x40000
def romEnd : Nat := 0xFFFFF

/-- First address of the top-of-space alias (R12, R73). -/
def biosTopBase : Nat := 0xFFFC0000

/-- Longest instruction in bytes (R12, R144). -/
def maxInsnLen : Nat := 15

/-- What the DRAM and ROM buffers hold before anything is written, "fixed at launch" (10_state R51, U21), by the place a byte is
listed at (log entry 1): no body, nothing can rest on it. -/
opaque powerOnByte : Nat → Byte

/-- The `n`-th flag value left open (U1 to U6 under `UNDEF_FLAGS = any value`): no body, nothing can rest on it. -/
opaque freeBit : Nat → Bool

/-- The `n`-th answer of the MMIO device that no input lists (U22): no body, nothing can rest on it. -/
opaque mmioAnswer : Nat → Word

end Config

end Sys2Proof
end

