-- ==== Sys2Proof/Syntax.lean ====
section
/-! DEFINITION. The syntax of the admitted instruction set: one constructor of `Instr` for each instruction rule of
spec/opcode_table.json, its operand form an inductive type with one constructor for each row of the table. The eight rows
of a `+r` opcode are one form with a register operand, and the six rows of a segment push (five of a segment pop) are one
form with a segment operand, so (constructor, form, register) names exactly one row. -/

namespace Sys2Proof

/-- The eight general registers by number (10_state R21). At byte width the last four name AH, CH, DH, BH (R23). -/
inductive Reg where
  | ax | cx | dx | bx | sp | bp | si | di
deriving DecidableEq, Repr

/-- The six segment registers by number (10_state R30). -/
inductive SegReg where
  | es | cs | ss | ds | fs | gs
deriving DecidableEq, Repr

/-- The control registers that exist (10_state R38, R39). -/
inductive CtlReg where
  | cr0 | cr2 | cr3
deriving DecidableEq, Repr

/-- The debug registers (10_state R41). -/
inductive DbgReg where
  | dr0 | dr1 | dr2 | dr3 | dr4 | dr5 | dr6 | dr7
deriving DecidableEq, Repr

/-- The repeat tag (30_encoding R133). -/
inductive Repeat where
  | none
  | rep
  | repne
deriving DecidableEq, Repr

/-- What the prefixes and the code segment's default leave in the Instruction record (10_state R47; 30_encoding R133 to
R136, R142): the segment override if one was seen, the operand and address size, the repeat tag and the LOCK tag. -/
structure Attrs where
  seg : Option SegReg
  osz : Size
  asz : Size
  rep : Repeat
  lock : Bool
deriving DecidableEq, Repr

/-- The base and index pair of 16-bit addressing (30_encoding R165), in the order of the RM field. -/
inductive Base16 where
  | bxsi | bxdi | bpsi | bpdi | si | di | bp | bx
deriving DecidableEq, Repr

/-- A displacement, stored raw with its size (30_encoding R168). -/
inductive Disp (n : Nat) where
  | none
  | d8 (d : Byte)
  | full (d : BitVec n)
deriving DecidableEq, Repr

/-- A memory operand (30_encoding R165 to R169): a base with an optional displacement, or a raw displacement. -/
inductive MemRef where
  | base16 (b : Base16) (d : Disp 16)
  | abs16 (d : BitVec 16)
  | base32 (r : Reg) (d : Disp 32)
  | abs32 (d : Word)
deriving DecidableEq, Repr

/-- Method E: register-direct or memory (30_encoding R163). -/
inductive Rm where
  | reg (r : Reg)
  | mem (m : MemRef)
deriving DecidableEq, Repr

/-- The nine forms of the two-operand arithmetic and logic instructions (42_arithmetic_logic R330). -/
inductive AluForm where
  | ebGb (e : Rm) (g : Reg)
  | evGv (e : Rm) (g : Reg)
  | gbEb (g : Reg) (e : Rm)
  | gvEv (g : Reg) (e : Rm)
  | alIb (i : Byte)
  | eaxIv (i : Word)
  | ebIb (e : Rm) (i : Byte)
  | evIv (e : Rm) (i : Word)
  | evIb (e : Rm) (i : Byte)
deriving DecidableEq, Repr

/-- The six forms of TEST (42_arithmetic_logic R363). -/
inductive TestForm where
  | ebGb (e : Rm) (g : Reg)
  | evGv (e : Rm) (g : Reg)
  | alIb (i : Byte)
  | eaxIv (i : Word)
  | ebIb (e : Rm) (i : Byte)
  | evIv (e : Rm) (i : Word)
deriving DecidableEq, Repr

/-- INC and DEC (42_arithmetic_logic R336, R337). -/
inductive IncForm where
  | r (g : Reg)
  | eb (e : Rm)
  | ev (e : Rm)
deriving DecidableEq, Repr

/-- The one-operand forms of NEG, NOT, MUL, IMUL, DIV, IDIV (42_arithmetic_logic R338 to R364). -/
inductive UnaryForm where
  | eb (e : Rm)
  | ev (e : Rm)
deriving DecidableEq, Repr

/-- IMUL with two and three operands (42_arithmetic_logic R352). -/
inductive ImulForm where
  | gvEv (g : Reg) (e : Rm)
  | gvEvIv (g : Reg) (e : Rm) (i : Word)
  | gvEvIb (g : Reg) (e : Rm) (i : Byte)
deriving DecidableEq, Repr

/-- The six forms of the shifts and rotates (43_shift_rotate R390). -/
inductive ShiftForm where
  | ebIb (e : Rm) (i : Byte)
  | evIb (e : Rm) (i : Byte)
  | eb1 (e : Rm)
  | ev1 (e : Rm)
  | ebCL (e : Rm)
  | evCL (e : Rm)
deriving DecidableEq, Repr

/-- MOV between registers, memory and immediates (41_data_movement R271). -/
inductive MovForm where
  | ebGb (e : Rm) (g : Reg)
  | evGv (e : Rm) (g : Reg)
  | gbEb (g : Reg) (e : Rm)
  | gvEv (g : Reg) (e : Rm)
  | rbIb (g : Reg) (i : Byte)
  | rvIv (g : Reg) (i : Word)
  | ebIb (e : Rm) (i : Byte)
  | evIv (e : Rm) (i : Word)
deriving DecidableEq, Repr

/-- MOV with a direct memory offset (41_data_movement R272). -/
inductive MoffsForm where
  | alOb (o : Word)
  | eaxOv (o : Word)
  | obAl (o : Word)
  | ovEax (o : Word)
deriving DecidableEq, Repr

/-- XCHG (41_data_movement R275). -/
inductive XchgForm where
  | ebGb (e : Rm) (g : Reg)
  | evGv (e : Rm) (g : Reg)
  | eaxR (g : Reg)
deriving DecidableEq, Repr

/-- MOVZX and MOVSX (41_data_movement R278, R279). -/
inductive ExtForm where
  | gvEb (g : Reg) (e : Rm)
  | gvEw (g : Reg) (e : Rm)
deriving DecidableEq, Repr

/-- PUSH (41_data_movement R292). -/
inductive PushForm where
  | r (g : Reg)
  | iv (i : Word)
  | ib (i : Byte)
  | ev (e : Rm)
deriving DecidableEq, Repr

/-- POP (41_data_movement R294). -/
inductive PopForm where
  | r (g : Reg)
  | ev (e : Rm)
deriving DecidableEq, Repr

/-- The element size of a string instruction: the `b` and the `v` row (44_string R410). -/
inductive StrForm where
  | b
  | v
deriving DecidableEq, Repr

/-- A relative target: `Jb` or `Jv` (30_encoding R160). -/
inductive RelForm where
  | jb (d : Byte)
  | jv (d : Word)
deriving DecidableEq, Repr

/-- The admitted instructions, one constructor for each instruction rule of spec/opcode_table.json. -/
inductive Instr where
  /-- ADD, R331. -/
  | add (a : Attrs) (f : AluForm)
  /-- OR, R361. -/
  | or (a : Attrs) (f : AluForm)
  /-- ADC, R332. -/
  | adc (a : Attrs) (f : AluForm)
  /-- SBB, R334. -/
  | sbb (a : Attrs) (f : AluForm)
  /-- AND, R360. -/
  | and (a : Attrs) (f : AluForm)
  /-- SUB, R333. -/
  | sub (a : Attrs) (f : AluForm)
  /-- XOR, R362. -/
  | xor (a : Attrs) (f : AluForm)
  /-- CMP, R335. -/
  | cmp (a : Attrs) (f : AluForm)
  /-- INC, R336. -/
  | inc (a : Attrs) (f : IncForm)
  /-- DEC, R337. -/
  | dec (a : Attrs) (f : IncForm)
  /-- NEG, R338. -/
  | neg (a : Attrs) (f : UnaryForm)
  /-- MUL, R350. -/
  | mul (a : Attrs) (f : UnaryForm)
  /-- IMUL, R351. -/
  | imulOne (a : Attrs) (f : UnaryForm)
  /-- IMUL, R352. -/
  | imul (a : Attrs) (f : ImulForm)
  /-- DIV, R353. -/
  | div (a : Attrs) (f : UnaryForm)
  /-- IDIV, R354. -/
  | idiv (a : Attrs) (f : UnaryForm)
  /-- TEST, R363. -/
  | test (a : Attrs) (f : TestForm)
  /-- NOT, R364. -/
  | not (a : Attrs) (f : UnaryForm)
  /-- ROL, R391. -/
  | rol (a : Attrs) (f : ShiftForm)
  /-- ROR, R392. -/
  | ror (a : Attrs) (f : ShiftForm)
  /-- RCL, R393. -/
  | rcl (a : Attrs) (f : ShiftForm)
  /-- RCR, R394. -/
  | rcr (a : Attrs) (f : ShiftForm)
  /-- SHL, R395. -/
  | shl (a : Attrs) (f : ShiftForm)
  /-- SHR, R396. -/
  | shr (a : Attrs) (f : ShiftForm)
  /-- SAR, R397. -/
  | sar (a : Attrs) (f : ShiftForm)
  /-- MOV, R271. -/
  | mov (a : Attrs) (f : MovForm)
  /-- MOV, R272. -/
  | movMoffs (a : Attrs) (f : MoffsForm)
  /-- MOV, R273. -/
  | movFromSeg (a : Attrs) (e : Rm) (g : SegReg)
  /-- MOV, R274. -/
  | movToSeg (a : Attrs) (g : SegReg) (e : Rm)
  /-- XCHG, R275. -/
  | xchg (a : Attrs) (f : XchgForm)
  /-- NOP, R276. -/
  | nop (a : Attrs)
  /-- LEA, R277. -/
  | lea (a : Attrs) (g : Reg) (m : MemRef)
  /-- MOVZX, R278. -/
  | movzx (a : Attrs) (f : ExtForm)
  /-- MOVSX, R279. -/
  | movsx (a : Attrs) (f : ExtForm)
  /-- CBW, R280. -/
  | cbw (a : Attrs)
  /-- CWD, R281. -/
  | cwd (a : Attrs)
  /-- XLAT, R282. -/
  | xlat (a : Attrs)
  /-- PUSH, R292. -/
  | push (a : Attrs) (f : PushForm)
  /-- PUSH, R293. -/
  | pushSeg (a : Attrs) (g : SegReg)
  /-- POP, R294. -/
  | pop (a : Attrs) (f : PopForm)
  /-- POP, R295. -/
  | popSeg (a : Attrs) (g : SegReg)
  /-- PUSHA, R296. -/
  | pusha (a : Attrs)
  /-- POPA, R297. -/
  | popa (a : Attrs)
  /-- LDS, R300. -/
  | lds (a : Attrs) (g : Reg) (m : MemRef)
  /-- LES, R301. -/
  | les (a : Attrs) (g : Reg) (m : MemRef)
  /-- LSS, R302. -/
  | lss (a : Attrs) (g : Reg) (m : MemRef)
  /-- LFS, R303. -/
  | lfs (a : Attrs) (g : Reg) (m : MemRef)
  /-- LGS, R304. -/
  | lgs (a : Attrs) (g : Reg) (m : MemRef)
  /-- MOVS, R413. -/
  | movs (a : Attrs) (f : StrForm)
  /-- CMPS, R414. -/
  | cmps (a : Attrs) (f : StrForm)
  /-- STOS, R415. -/
  | stos (a : Attrs) (f : StrForm)
  /-- LODS, R416. -/
  | lods (a : Attrs) (f : StrForm)
  /-- SCAS, R417. -/
  | scas (a : Attrs) (f : StrForm)
  /-- JMP, R431. -/
  | jmpRel (a : Attrs) (f : RelForm)
  /-- JMP, R432. -/
  | jmpInd (a : Attrs) (e : Rm)
  /-- JMP, R433. -/
  | jmpFar (a : Attrs) (off : Word) (sel : BitVec 16)
  /-- JMP, R434. -/
  | jmpFarInd (a : Attrs) (m : MemRef)
  /-- JO, R436. -/
  | jo (a : Attrs) (f : RelForm)
  /-- JNO, R437. -/
  | jno (a : Attrs) (f : RelForm)
  /-- JB, R438. -/
  | jb (a : Attrs) (f : RelForm)
  /-- JAE, R439. -/
  | jae (a : Attrs) (f : RelForm)
  /-- JE, R440. -/
  | je (a : Attrs) (f : RelForm)
  /-- JNE, R441. -/
  | jne (a : Attrs) (f : RelForm)
  /-- JBE, R442. -/
  | jbe (a : Attrs) (f : RelForm)
  /-- JA, R443. -/
  | ja (a : Attrs) (f : RelForm)
  /-- JS, R444. -/
  | js (a : Attrs) (f : RelForm)
  /-- JNS, R445. -/
  | jns (a : Attrs) (f : RelForm)
  /-- JP, R446. -/
  | jp (a : Attrs) (f : RelForm)
  /-- JNP, R447. -/
  | jnp (a : Attrs) (f : RelForm)
  /-- JL, R448. -/
  | jl (a : Attrs) (f : RelForm)
  /-- JGE, R449. -/
  | jge (a : Attrs) (f : RelForm)
  /-- JLE, R450. -/
  | jle (a : Attrs) (f : RelForm)
  /-- JG, R451. -/
  | jg (a : Attrs) (f : RelForm)
  /-- JCXZ, R452. -/
  | jcxz (a : Attrs) (d : Byte)
  /-- LOOP, R453. -/
  | loop (a : Attrs) (d : Byte)
  /-- LOOPE, R454. -/
  | loope (a : Attrs) (d : Byte)
  /-- LOOPNE, R455. -/
  | loopne (a : Attrs) (d : Byte)
  /-- CALL, R456. -/
  | callRel (a : Attrs) (d : Word)
  /-- CALL, R457. -/
  | callInd (a : Attrs) (e : Rm)
  /-- CALL, R458. -/
  | callFar (a : Attrs) (off : Word) (sel : BitVec 16)
  /-- CALL, R459. -/
  | callFarInd (a : Attrs) (m : MemRef)
  /-- RET, R460. -/
  | ret (a : Attrs)
  /-- RET, R461. -/
  | retImm (a : Attrs) (i : BitVec 16)
  /-- RETF, R462. -/
  | retf (a : Attrs)
  /-- RETF, R463. -/
  | retfImm (a : Attrs) (i : BitVec 16)
  /-- INT, R464. -/
  | int (a : Attrs) (i : Byte)
  /-- INT3, R465. -/
  | int3 (a : Attrs)
  /-- IRET, R466. -/
  | iret (a : Attrs)
  /-- INTO, R467. -/
  | into (a : Attrs)
  /-- SETO, R591. -/
  | seto (a : Attrs) (e : Rm)
  /-- SETNO, R592. -/
  | setno (a : Attrs) (e : Rm)
  /-- SETB, R593. -/
  | setb (a : Attrs) (e : Rm)
  /-- SETAE, R594. -/
  | setae (a : Attrs) (e : Rm)
  /-- SETE, R595. -/
  | sete (a : Attrs) (e : Rm)
  /-- SETNE, R596. -/
  | setne (a : Attrs) (e : Rm)
  /-- SETBE, R597. -/
  | setbe (a : Attrs) (e : Rm)
  /-- SETA, R598. -/
  | seta (a : Attrs) (e : Rm)
  /-- SETS, R599. -/
  | sets (a : Attrs) (e : Rm)
  /-- SETNS, R600. -/
  | setns (a : Attrs) (e : Rm)
  /-- SETP, R601. -/
  | setp (a : Attrs) (e : Rm)
  /-- SETNP, R602. -/
  | setnp (a : Attrs) (e : Rm)
  /-- SETL, R603. -/
  | setl (a : Attrs) (e : Rm)
  /-- SETGE, R604. -/
  | setge (a : Attrs) (e : Rm)
  /-- SETLE, R605. -/
  | setle (a : Attrs) (e : Rm)
  /-- SETG, R606. -/
  | setg (a : Attrs) (e : Rm)
  /-- CLC, R250. -/
  | clc (a : Attrs)
  /-- STC, R251. -/
  | stc (a : Attrs)
  /-- CMC, R252. -/
  | cmc (a : Attrs)
  /-- CLD, R253. -/
  | cld (a : Attrs)
  /-- STD, R254. -/
  | std (a : Attrs)
  /-- CLI, R255. -/
  | cli (a : Attrs)
  /-- STI, R256. -/
  | sti (a : Attrs)
  /-- PUSHF, R257. -/
  | pushf (a : Attrs)
  /-- POPF, R258. -/
  | popf (a : Attrs)
  /-- LAHF, R259. -/
  | lahf (a : Attrs)
  /-- SAHF, R260. -/
  | sahf (a : Attrs)
  /-- HLT, R481. -/
  | hlt (a : Attrs)
  /-- SGDT, R483. -/
  | sgdt (a : Attrs) (m : MemRef)
  /-- LGDT, R484. -/
  | lgdt (a : Attrs) (m : MemRef)
  /-- SIDT, R485. -/
  | sidt (a : Attrs) (m : MemRef)
  /-- LIDT, R486. -/
  | lidt (a : Attrs) (m : MemRef)
  /-- SLDT, R487. -/
  | sldt (a : Attrs) (e : Rm)
  /-- LLDT, R488. -/
  | lldt (a : Attrs) (e : Rm)
  /-- LMSW, R490. -/
  | lmsw (a : Attrs) (e : Rm)
  /-- SMSW, R491. -/
  | smsw (a : Attrs) (e : Rm)
  /-- MOV, R492. -/
  | movFromCr (a : Attrs) (r : Reg) (c : CtlReg)
  /-- MOV, R493. -/
  | movToCr (a : Attrs) (c : CtlReg) (r : Reg)
  /-- MOV, R494. -/
  | movFromDr (a : Attrs) (r : Reg) (c : DbgReg)
  /-- MOV, R495. -/
  | movToDr (a : Attrs) (c : DbgReg) (r : Reg)
deriving DecidableEq, Repr

/-- The attributes of an instruction. -/
def Instr.attrs : Instr → Attrs
  | .add a _ => a
  | .or a _ => a
  | .adc a _ => a
  | .sbb a _ => a
  | .and a _ => a
  | .sub a _ => a
  | .xor a _ => a
  | .cmp a _ => a
  | .inc a _ => a
  | .dec a _ => a
  | .neg a _ => a
  | .mul a _ => a
  | .imulOne a _ => a
  | .imul a _ => a
  | .div a _ => a
  | .idiv a _ => a
  | .test a _ => a
  | .not a _ => a
  | .rol a _ => a
  | .ror a _ => a
  | .rcl a _ => a
  | .rcr a _ => a
  | .shl a _ => a
  | .shr a _ => a
  | .sar a _ => a
  | .mov a _ => a
  | .movMoffs a _ => a
  | .movFromSeg a _ _ => a
  | .movToSeg a _ _ => a
  | .xchg a _ => a
  | .nop a => a
  | .lea a _ _ => a
  | .movzx a _ => a
  | .movsx a _ => a
  | .cbw a => a
  | .cwd a => a
  | .xlat a => a
  | .push a _ => a
  | .pushSeg a _ => a
  | .pop a _ => a
  | .popSeg a _ => a
  | .pusha a => a
  | .popa a => a
  | .lds a _ _ => a
  | .les a _ _ => a
  | .lss a _ _ => a
  | .lfs a _ _ => a
  | .lgs a _ _ => a
  | .movs a _ => a
  | .cmps a _ => a
  | .stos a _ => a
  | .lods a _ => a
  | .scas a _ => a
  | .jmpRel a _ => a
  | .jmpInd a _ => a
  | .jmpFar a _ _ => a
  | .jmpFarInd a _ => a
  | .jo a _ => a
  | .jno a _ => a
  | .jb a _ => a
  | .jae a _ => a
  | .je a _ => a
  | .jne a _ => a
  | .jbe a _ => a
  | .ja a _ => a
  | .js a _ => a
  | .jns a _ => a
  | .jp a _ => a
  | .jnp a _ => a
  | .jl a _ => a
  | .jge a _ => a
  | .jle a _ => a
  | .jg a _ => a
  | .jcxz a _ => a
  | .loop a _ => a
  | .loope a _ => a
  | .loopne a _ => a
  | .callRel a _ => a
  | .callInd a _ => a
  | .callFar a _ _ => a
  | .callFarInd a _ => a
  | .ret a => a
  | .retImm a _ => a
  | .retf a => a
  | .retfImm a _ => a
  | .int a _ => a
  | .int3 a => a
  | .iret a => a
  | .into a => a
  | .seto a _ => a
  | .setno a _ => a
  | .setb a _ => a
  | .setae a _ => a
  | .sete a _ => a
  | .setne a _ => a
  | .setbe a _ => a
  | .seta a _ => a
  | .sets a _ => a
  | .setns a _ => a
  | .setp a _ => a
  | .setnp a _ => a
  | .setl a _ => a
  | .setge a _ => a
  | .setle a _ => a
  | .setg a _ => a
  | .clc a => a
  | .stc a => a
  | .cmc a => a
  | .cld a => a
  | .std a => a
  | .cli a => a
  | .sti a => a
  | .pushf a => a
  | .popf a => a
  | .lahf a => a
  | .sahf a => a
  | .hlt a => a
  | .sgdt a _ => a
  | .lgdt a _ => a
  | .sidt a _ => a
  | .lidt a _ => a
  | .sldt a _ => a
  | .lldt a _ => a
  | .lmsw a _ => a
  | .smsw a _ => a
  | .movFromCr a _ _ => a
  | .movToCr a _ _ => a
  | .movFromDr a _ _ => a
  | .movToDr a _ _ => a

/-- Why `decode` aborts (60_exceptions R531; 30_encoding R170 for `sib`). -/
inductive DecodeErr where
  /-- No primary entry and no extension group (30_encoding R139, R145, R192). -/
  | unknownOpcode
  /-- An extension group with no entry for this `nnn` (R139, R192, R194). -/
  | unknownExtension
  /-- `mod` = 3 where the instruction needs a memory operand (R164). -/
  | memoryRequired
  /-- `mod` other than 3 where the instruction needs a register (R158). -/
  | registerRequired
  /-- `nnn` names no segment register, or CS as a MOV destination (R154). -/
  | badSegment
  /-- `nnn` names no control register (R155). -/
  | badControl
  /-- An operand that needs a SIB byte (R170): reported as UnimplementedFeature. -/
  | sib
  /-- More than 15 bytes (R144). -/
  | tooLong
  /-- SLDT or LLDT outside protected mode (46_system R487, R488). -/
  | outsideProtected
deriving DecidableEq, Repr

/-- The sixteen conditions (40_lazy_flags R240), in the order of their numbers. -/
inductive Cond where
  | o | no | b | ae | e | ne | be | a | s | ns | p | np | l | ge | le | g
deriving DecidableEq, Repr

end Sys2Proof
end

