-- ==== Sys2Proof/WellFormed.lean ====
section
/-! DEFINITION. Which terms of the syntax an encoding can produce: the addressing form matches the address size (30_encoding
R135, R165 to R170), an operand of size `osz` fits it, and the forms the tables give to another row are left out. -/

namespace Sys2Proof

/-- An immediate or offset of the size attribute fits it (30_encoding R151, R160 to R162). -/
def Size.fits : Size → Word → Bool
  | .s16, v => decide (v.toNat < 65536)
  | .s32, _ => true

/-- The addressing form exists at this address size (30_encoding R165 to R170): no SIB base, and the two cells of the
tables that name a raw displacement are not a base without displacement. -/
def MemRef.wf (asz : Size) : MemRef → Bool
  | .base16 b d => decide (asz = .s16) && !(decide (b = .bp) && decide (d = .none))
  | .abs16 _ => decide (asz = .s16)
  | .base32 r d => decide (asz = .s32) && decide (r ≠ .sp) && !(decide (r = .bp) && decide (d = .none))
  | .abs32 _ => decide (asz = .s32)

def Rm.wf (asz : Size) : Rm → Bool
  | .reg _ => true
  | .mem m => m.wf asz

def AluForm.wf (a : Attrs) : AluForm → Bool
  | .ebGb e _ | .evGv e _ | .gbEb _ e | .gvEv _ e | .ebIb e _ | .evIb e _ => e.wf a.asz
  | .alIb _ => true
  | .eaxIv i => a.osz.fits i
  | .evIv e i => e.wf a.asz && a.osz.fits i

def TestForm.wf (a : Attrs) : TestForm → Bool
  | .ebGb e _ | .evGv e _ | .ebIb e _ => e.wf a.asz
  | .alIb _ => true
  | .eaxIv i => a.osz.fits i
  | .evIv e i => e.wf a.asz && a.osz.fits i

def IncForm.wf (a : Attrs) : IncForm → Bool
  | .r _ => true
  | .eb e | .ev e => e.wf a.asz

def UnaryForm.wf (a : Attrs) : UnaryForm → Bool
  | .eb e | .ev e => e.wf a.asz

def ImulForm.wf (a : Attrs) : ImulForm → Bool
  | .gvEv _ e | .gvEvIb _ e _ => e.wf a.asz
  | .gvEvIv _ e i => e.wf a.asz && a.osz.fits i

def ShiftForm.wf (a : Attrs) : ShiftForm → Bool
  | .ebIb e _ | .evIb e _ | .eb1 e | .ev1 e | .ebCL e | .evCL e => e.wf a.asz

def MovForm.wf (a : Attrs) : MovForm → Bool
  | .ebGb e _ | .evGv e _ | .gbEb _ e | .gvEv _ e | .ebIb e _ => e.wf a.asz
  | .rbIb _ _ => true
  | .rvIv _ i => a.osz.fits i
  | .evIv e i => e.wf a.asz && a.osz.fits i

def MoffsForm.wf (a : Attrs) : MoffsForm → Bool
  | .alOb o | .eaxOv o | .obAl o | .ovEax o => a.asz.fits o

/-- The exchange of eAX with itself is the NOP row (41_data_movement R276). -/
def XchgForm.wf (a : Attrs) : XchgForm → Bool
  | .ebGb e _ | .evGv e _ => e.wf a.asz
  | .eaxR g => decide (g ≠ .ax)

def ExtForm.wf (a : Attrs) : ExtForm → Bool
  | .gvEb _ e | .gvEw _ e => e.wf a.asz

def PushForm.wf (a : Attrs) : PushForm → Bool
  | .r _ | .ib _ => true
  | .iv i => a.osz.fits i
  | .ev e => e.wf a.asz

def PopForm.wf (a : Attrs) : PopForm → Bool
  | .r _ => true
  | .ev e => e.wf a.asz

def RelForm.wf (a : Attrs) : RelForm → Bool
  | .jb _ => true
  | .jv d => a.osz.fits d

/-- The instruction is one the encoding tables can produce; CS is no destination of MOV (30_encoding R154) or POP
(41_data_movement R295). -/
def Instr.wf : Instr → Bool
  | .add a f => f.wf a
  | .or a f => f.wf a
  | .adc a f => f.wf a
  | .sbb a f => f.wf a
  | .and a f => f.wf a
  | .sub a f => f.wf a
  | .xor a f => f.wf a
  | .cmp a f => f.wf a
  | .inc a f => f.wf a
  | .dec a f => f.wf a
  | .neg a f => f.wf a
  | .mul a f => f.wf a
  | .imulOne a f => f.wf a
  | .imul a f => f.wf a
  | .div a f => f.wf a
  | .idiv a f => f.wf a
  | .test a f => f.wf a
  | .not a f => f.wf a
  | .rol a f => f.wf a
  | .ror a f => f.wf a
  | .rcl a f => f.wf a
  | .rcr a f => f.wf a
  | .shl a f => f.wf a
  | .shr a f => f.wf a
  | .sar a f => f.wf a
  | .mov a f => f.wf a
  | .movMoffs a f => f.wf a
  | .movFromSeg a e _ => e.wf a.asz
  | .movToSeg a g e => decide (g ≠ .cs) && e.wf a.asz
  | .xchg a f => f.wf a
  | .nop _ => true
  | .lea a _ m => m.wf a.asz
  | .movzx a f => f.wf a
  | .movsx a f => f.wf a
  | .cbw _ => true
  | .cwd _ => true
  | .xlat _ => true
  | .push a f => f.wf a
  | .pushSeg _ _ => true
  | .pop a f => f.wf a
  | .popSeg _ g => decide (g ≠ .cs)
  | .pusha _ => true
  | .popa _ => true
  | .lds a _ m => m.wf a.asz
  | .les a _ m => m.wf a.asz
  | .lss a _ m => m.wf a.asz
  | .lfs a _ m => m.wf a.asz
  | .lgs a _ m => m.wf a.asz
  | .movs _ _ => true
  | .cmps _ _ => true
  | .stos _ _ => true
  | .lods _ _ => true
  | .scas _ _ => true
  | .jmpRel a f => f.wf a
  | .jmpInd a e => e.wf a.asz
  | .jmpFar a off _ => a.osz.fits off
  | .jmpFarInd a m => m.wf a.asz
  | .jo a f => f.wf a
  | .jno a f => f.wf a
  | .jb a f => f.wf a
  | .jae a f => f.wf a
  | .je a f => f.wf a
  | .jne a f => f.wf a
  | .jbe a f => f.wf a
  | .ja a f => f.wf a
  | .js a f => f.wf a
  | .jns a f => f.wf a
  | .jp a f => f.wf a
  | .jnp a f => f.wf a
  | .jl a f => f.wf a
  | .jge a f => f.wf a
  | .jle a f => f.wf a
  | .jg a f => f.wf a
  | .jcxz _ _ => true
  | .loop _ _ => true
  | .loope _ _ => true
  | .loopne _ _ => true
  | .callRel a d => a.osz.fits d
  | .callInd a e => e.wf a.asz
  | .callFar a off _ => a.osz.fits off
  | .callFarInd a m => m.wf a.asz
  | .ret _ => true
  | .retImm _ _ => true
  | .retf _ => true
  | .retfImm _ _ => true
  | .int _ _ => true
  | .int3 _ => true
  | .iret _ => true
  | .into _ => true
  | .seto a e => e.wf a.asz
  | .setno a e => e.wf a.asz
  | .setb a e => e.wf a.asz
  | .setae a e => e.wf a.asz
  | .sete a e => e.wf a.asz
  | .setne a e => e.wf a.asz
  | .setbe a e => e.wf a.asz
  | .seta a e => e.wf a.asz
  | .sets a e => e.wf a.asz
  | .setns a e => e.wf a.asz
  | .setp a e => e.wf a.asz
  | .setnp a e => e.wf a.asz
  | .setl a e => e.wf a.asz
  | .setge a e => e.wf a.asz
  | .setle a e => e.wf a.asz
  | .setg a e => e.wf a.asz
  | .clc _ => true
  | .stc _ => true
  | .cmc _ => true
  | .cld _ => true
  | .std _ => true
  | .cli _ => true
  | .sti _ => true
  | .pushf _ => true
  | .popf _ => true
  | .lahf _ => true
  | .sahf _ => true
  | .hlt _ => true
  | .sgdt a m => m.wf a.asz
  | .lgdt a m => m.wf a.asz
  | .sidt a m => m.wf a.asz
  | .lidt a m => m.wf a.asz
  | .sldt a e => e.wf a.asz
  | .lldt a e => e.wf a.asz
  | .lmsw a e => e.wf a.asz
  | .smsw a e => e.wf a.asz
  | .movFromCr _ _ _ => true
  | .movToCr _ _ _ => true
  | .movFromDr _ _ _ => true
  | .movToDr _ _ _ => true

end Sys2Proof
end

