-- ==== Sys2Proof/Decode.lean ====
section
/-! DEFINITION. The decoder (30_encoding R130 to R195), total on any list of bytes, and the encoder. -/

namespace Sys2Proof

/-- What reading instruction bytes gives: a value and the bytes not yet read, a decode abort and the bytes not yet read, or
a need for more bytes than the list has. -/
inductive Parse (α : Type) where
  | ok (x : α) (rest : List Byte)
  | err (e : DecodeErr) (rest : List Byte)
  | more
deriving DecidableEq, Repr

def Parse.andThen {α β : Type} (p : Parse α) (f : α → List Byte → Parse β) : Parse β :=
  match p with
  | .ok x rest => f x rest
  | .err e rest => .err e rest
  | .more => .more

def Parse.map {α β : Type} (p : Parse α) (f : α → β) : Parse β :=
  p.andThen fun x rest => .ok (f x) rest

/-! ### Fields -/

def getByte : List Byte → Parse Byte
  | [] => .more
  | b :: rest => .ok b rest

/-- A little-endian 16-bit field (R130, R131). -/
def getU16 : List Byte → Parse (BitVec 16)
  | b0 :: b1 :: rest => .ok (b1 ++ b0) rest
  | _ => .more

/-- A little-endian 32-bit field (R130, R131). -/
def getU32 : List Byte → Parse Word
  | b0 :: b1 :: b2 :: b3 :: rest => .ok (b3 ++ b2 ++ b1 ++ b0) rest
  | _ => .more

/-- A field of the size attribute, zero-extended (type code `v`, R151). -/
def getSized (sz : Size) (bs : List Byte) : Parse Word :=
  match sz with
  | .s16 => (getU16 bs).map fun v => v.setWidth 32
  | .s32 => getU32 bs

/-- The ModR/M byte (R140). -/
structure ModRM where
  md : BitVec 2
  nnn : BitVec 3
  rm : BitVec 3
deriving DecidableEq, Repr

def ModRM.ofByte (b : Byte) : ModRM :=
  { md := b.extractLsb' 6 2, nnn := b.extractLsb' 3 3, rm := b.extractLsb' 0 3 }

/-! ### Register numbers -/

/-- General register numbers (10_state R21). -/
def regOf (n : BitVec 3) : Reg :=
  match n.toNat with
  | 0 => .ax
  | 1 => .cx
  | 2 => .dx
  | 3 => .bx
  | 4 => .sp
  | 5 => .bp
  | 6 => .si
  | _ => .di

/-- Segment register numbers; 6 and 7 name none (10_state R30; R154). -/
def segOf (n : BitVec 3) : Option SegReg :=
  match n.toNat with
  | 0 => some .es
  | 1 => some .cs
  | 2 => some .ss
  | 3 => some .ds
  | 4 => some .fs
  | 5 => some .gs
  | _ => none

/-- Control register numbers; only 0, 2 and 3 name one (R155). -/
def ctlOf (n : BitVec 3) : Option CtlReg :=
  match n.toNat with
  | 0 => some .cr0
  | 2 => some .cr2
  | 3 => some .cr3
  | _ => none

/-- Debug register numbers (R156). -/
def dbgOf (n : BitVec 3) : DbgReg :=
  match n.toNat with
  | 0 => .dr0
  | 1 => .dr1
  | 2 => .dr2
  | 3 => .dr3
  | 4 => .dr4
  | 5 => .dr5
  | 6 => .dr6
  | _ => .dr7

/-- The base and index pair of an RM value (R165). -/
def base16Of (n : BitVec 3) : Base16 :=
  match n.toNat with
  | 0 => .bxsi
  | 1 => .bxdi
  | 2 => .bpsi
  | 3 => .bpdi
  | 4 => .si
  | 5 => .di
  | 6 => .bp
  | _ => .bx

/-- Condition numbers: the low four bits of the opcode (40_lazy_flags R240). -/
def condOf (n : Nat) : Cond :=
  match n with
  | 0 => .o
  | 1 => .no
  | 2 => .b
  | 3 => .ae
  | 4 => .e
  | 5 => .ne
  | 6 => .be
  | 7 => .a
  | 8 => .s
  | 9 => .ns
  | 10 => .p
  | 11 => .np
  | 12 => .l
  | 13 => .ge
  | 14 => .le
  | _ => .g

/-! ### Prefixes -/

/-- What the prefix loop has seen (R133, R134): the last segment override, the state of the two size attributes relative
to the default, the last repeat tag, and LOCK. -/
structure PrefixSeen where
  seg : Option SegReg
  osz : Bool
  asz : Bool
  rep : Repeat
  lock : Bool
deriving DecidableEq, Repr

def PrefixSeen.empty : PrefixSeen :=
  { seg := none, osz := false, asz := false, rep := .none, lock := false }

/-- What 0x66 or 0x67 does to its attribute (R134, `SIZE_PREFIX_MODE`). -/
def toggled (mode : SizePrefixMode) (seen : Bool) : Bool :=
  match mode with
  | .idempotent => true
  | .toggle => !seen

/-- The effect of a prefix byte, or none when the byte is no prefix (R133). -/
def prefixStep (mode : SizePrefixMode) (p : PrefixSeen) (b : Byte) : Option PrefixSeen :=
  if b = 0x26 then some { p with seg := some .es }
  else if b = 0x2E then some { p with seg := some .cs }
  else if b = 0x36 then some { p with seg := some .ss }
  else if b = 0x3E then some { p with seg := some .ds }
  else if b = 0x64 then some { p with seg := some .fs }
  else if b = 0x65 then some { p with seg := some .gs }
  else if b = 0x66 then some { p with osz := toggled mode p.osz }
  else if b = 0x67 then some { p with asz := toggled mode p.asz }
  else if b = 0xF0 then some { p with lock := true }
  else if b = 0xF2 then some { p with rep := .repne }
  else if b = 0xF3 then some { p with rep := .rep }
  else none

/-- "Loop consuming prefixes ... stop at first non-prefix byte" (R133): the prefixes seen and the opcode byte. -/
def scanPrefixes (mode : SizePrefixMode) (p : PrefixSeen) : List Byte → Parse (PrefixSeen × Byte)
  | [] => .more
  | b :: rest =>
    match prefixStep mode p b with
    | some p' => scanPrefixes mode p' rest
    | none => .ok (p, b) rest

/-- A size attribute: true means 32 bits (R132, R135). -/
def sizeOf (attr : Bool) : Size :=
  if attr then .s32 else .s16

/-- The attributes of the Instruction from the prefixes and the code segment's default (R132, R135, R142). -/
def PrefixSeen.attrs (p : PrefixSeen) (big : Bool) : Attrs :=
  { seg := p.seg, osz := sizeOf (big ^^ p.osz), asz := sizeOf (big ^^ p.asz), rep := p.rep, lock := p.lock }

/-! ### Operands -/

/-- The memory form of a ModR/M byte with `mod` other than 3 (R165 to R170). -/
def decodeMemForm (asz : Size) (m : ModRM) (bs : List Byte) : Parse MemRef :=
  match asz with
  | .s16 =>
    if m.md = 0 then
      if m.rm = 6 then (getU16 bs).map .abs16
      else .ok (.base16 (base16Of m.rm) .none) bs
    else if m.md = 1 then (getByte bs).map fun d => .base16 (base16Of m.rm) (.d8 d)
    else (getU16 bs).map fun d => .base16 (base16Of m.rm) (.full d)
  | .s32 =>
    if m.rm = 4 then .err .sib bs
    else if m.md = 0 then
      if m.rm = 5 then (getU32 bs).map .abs32
      else .ok (.base32 (regOf m.rm) .none) bs
    else if m.md = 1 then (getByte bs).map fun d => .base32 (regOf m.rm) (.d8 d)
    else (getU32 bs).map fun d => .base32 (regOf m.rm) (.full d)

/-- Method E (R163). -/
def decodeE (asz : Size) (m : ModRM) (bs : List Byte) : Parse Rm :=
  if m.md = 3 then .ok (.reg (regOf m.rm)) bs
  else (decodeMemForm asz m bs).map .mem

/-- Method M (R164). -/
def decodeM (asz : Size) (m : ModRM) (bs : List Byte) : Parse MemRef :=
  if m.md = 3 then .err .memoryRequired bs
  else decodeMemForm asz m bs

/-- Method R (R158). -/
def decodeR (m : ModRM) (bs : List Byte) : Parse Reg :=
  if m.md = 3 then .ok (regOf m.rm) bs else .err .registerRequired bs

/-- Method S (R154). -/
def decodeS (m : ModRM) (bs : List Byte) : Parse SegReg :=
  match segOf m.nnn with
  | some g => .ok g bs
  | none => .err .badSegment bs

/-- Method S as a destination: CS is refused (R154). -/
def decodeSDest (m : ModRM) (bs : List Byte) : Parse SegReg :=
  match segOf m.nnn with
  | some .cs => .err .badSegment bs
  | some g => .ok g bs
  | none => .err .badSegment bs

/-- Method C (R155). -/
def decodeC (m : ModRM) (bs : List Byte) : Parse CtlReg :=
  match ctlOf m.nnn with
  | some c => .ok c bs
  | none => .err .badControl bs

/-- The ModR/M byte is read at most once, directly after the opcode byte (R141). -/
def withModRM {α : Type} (bs : List Byte) (k : ModRM → List Byte → Parse α) : Parse α :=
  (getByte bs).andThen fun b rest => k (ModRM.ofByte b) rest

/-- A row whose operands are an E and a G operand, in either order. -/
def rowEG (a : Attrs) (bs : List Byte) (mk : Rm → Reg → Instr) : Parse Instr :=
  withModRM bs fun m rest => (decodeE a.asz m rest).map fun e => mk e (regOf m.nnn)

/-- A row with an E operand alone. -/
def rowE (a : Attrs) (bs : List Byte) (mk : Rm → Instr) : Parse Instr :=
  withModRM bs fun m rest => (decodeE a.asz m rest).map mk

/-- A row with a G and an M operand. -/
def rowGM (a : Attrs) (bs : List Byte) (mk : Reg → MemRef → Instr) : Parse Instr :=
  withModRM bs fun m rest => (decodeM a.asz m rest).map fun x => mk (regOf m.nnn) x

/-- An E operand and a byte immediate, inside an extension group. -/
def tailEIb (a : Attrs) (m : ModRM) (bs : List Byte) (mk : Rm → Byte → Instr) : Parse Instr :=
  (decodeE a.asz m bs).andThen fun e rest => (getByte rest).map fun i => mk e i

/-- An E operand and an immediate of `osz` bits, inside an extension group. -/
def tailEIv (a : Attrs) (m : ModRM) (bs : List Byte) (mk : Rm → Word → Instr) : Parse Instr :=
  (decodeE a.asz m bs).andThen fun e rest => (getSized a.osz rest).map fun i => mk e i

/-- An E operand alone, inside an extension group. -/
def tailE (a : Attrs) (m : ModRM) (bs : List Byte) (mk : Rm → Instr) : Parse Instr :=
  (decodeE a.asz m bs).map mk

/-- An M operand alone, inside an extension group. -/
def tailM (a : Attrs) (m : ModRM) (bs : List Byte) (mk : MemRef → Instr) : Parse Instr :=
  (decodeM a.asz m bs).map mk

/-- A far pointer: the offset of `osz` bits, then the selector (R161). -/
def rowAp (a : Attrs) (bs : List Byte) (mk : Word → BitVec 16 → Instr) : Parse Instr :=
  (getSized a.osz bs).andThen fun off rest => (getU16 rest).map fun sel => mk off sel

/-! ### Row numbers of the regular families -/

/-- The row numbers of the eight two-operand instructions (42_arithmetic_logic R330). -/
def aluOf (x : Nat) : Attrs → AluForm → Instr :=
  match x with
  | 0 => .add
  | 1 => .or
  | 2 => .adc
  | 3 => .sbb
  | 4 => .and
  | 5 => .sub
  | 6 => .xor
  | _ => .cmp

/-- The `nnn` values of the shift groups; 6 is refused (43_shift_rotate R390, R398). -/
def shiftOf (x : Nat) : Option (Attrs → ShiftForm → Instr) :=
  match x with
  | 0 => some .rol
  | 1 => some .ror
  | 2 => some .rcl
  | 3 => some .rcr
  | 4 => some .shl
  | 5 => some .shr
  | 7 => some .sar
  | _ => none

/-- The conditional jump of a condition (45_control_transfer R436 to R451). -/
def Cond.jcc : Cond → Attrs → RelForm → Instr
  | .o => .jo
  | .no => .jno
  | .b => .jb
  | .ae => .jae
  | .e => .je
  | .ne => .jne
  | .be => .jbe
  | .a => .ja
  | .s => .js
  | .ns => .jns
  | .p => .jp
  | .np => .jnp
  | .l => .jl
  | .ge => .jge
  | .le => .jle
  | .g => .jg

/-- The SETcc of a condition (47_setcc R591 to R606). -/
def Cond.setcc : Cond → Attrs → Rm → Instr
  | .o => .seto
  | .no => .setno
  | .b => .setb
  | .ae => .setae
  | .e => .sete
  | .ne => .setne
  | .be => .setbe
  | .a => .seta
  | .s => .sets
  | .ns => .setns
  | .p => .setp
  | .np => .setnp
  | .l => .setl
  | .ge => .setge
  | .le => .setle
  | .g => .setg

/-! ### The opcode map -/

/-- The six ALU rows `8x+0` to `8x+5` (42_arithmetic_logic R330). -/
def decodeAluRow (a : Attrs) (mk : Attrs → AluForm → Instr) (k : Nat) (bs : List Byte) : Parse Instr :=
  match k with
  | 0 => rowEG a bs fun e g => mk a (.ebGb e g)
  | 1 => rowEG a bs fun e g => mk a (.evGv e g)
  | 2 => rowEG a bs fun e g => mk a (.gbEb g e)
  | 3 => rowEG a bs fun e g => mk a (.gvEv g e)
  | 4 => (getByte bs).map fun i => mk a (.alIb i)
  | _ => (getSized a.osz bs).map fun i => mk a (.eaxIv i)

/-- Group 0xF6 and 0xF7 (R194). -/
def decodeUnaryGroup (a : Attrs) (wide : Bool) (bs : List Byte) : Parse Instr :=
  withModRM bs fun m rest =>
    let one (mk : Attrs → UnaryForm → Instr) : Parse Instr :=
      tailE a m rest fun e => mk a (if wide then .ev e else .eb e)
    match m.nnn.toNat with
    | 0 => if wide then tailEIv a m rest fun e i => .test a (.evIv e i)
           else tailEIb a m rest fun e i => .test a (.ebIb e i)
    | 2 => one .not
    | 3 => one .neg
    | 4 => one .mul
    | 5 => one .imulOne
    | 6 => one .div
    | 7 => one .idiv
    | _ => .err .unknownExtension rest

/-- A shift group with the form of its opcode (R194). -/
def decodeShiftGroup (m : ModRM) (rest : List Byte)
    (row : (Attrs → ShiftForm → Instr) → Parse Instr) : Parse Instr :=
  match shiftOf m.nnn.toNat with
  | some mk => row mk
  | none => .err .unknownExtension rest

/-- Group 0xFF (R194). -/
def decodeGroupFF (a : Attrs) (bs : List Byte) : Parse Instr :=
  withModRM bs fun m rest =>
    match m.nnn.toNat with
    | 0 => tailE a m rest fun e => .inc a (.ev e)
    | 1 => tailE a m rest fun e => .dec a (.ev e)
    | 2 => tailE a m rest (.callInd a)
    | 3 => tailM a m rest (.callFarInd a)
    | 4 => tailE a m rest (.jmpInd a)
    | 5 => tailM a m rest (.jmpFarInd a)
    | 6 => tailE a m rest fun e => .push a (.ev e)
    | _ => .err .unknownExtension rest

/-- One-byte opcodes 0x00 to 0x3F: the ALU rows, and PUSH and POP of ES, CS, SS, DS (R191). -/
def decodeLow (a : Attrs) (op : Nat) (bs : List Byte) : Parse Instr :=
  if op % 8 < 6 then decodeAluRow a (aluOf (op / 8)) (op % 8) bs
  else
    match op with
    | 0x06 => .ok (.pushSeg a .es) bs
    | 0x07 => .ok (.popSeg a .es) bs
    | 0x0E => .ok (.pushSeg a .cs) bs
    | 0x16 => .ok (.pushSeg a .ss) bs
    | 0x17 => .ok (.popSeg a .ss) bs
    | 0x1E => .ok (.pushSeg a .ds) bs
    | 0x1F => .ok (.popSeg a .ds) bs
    | _ => .err .unknownOpcode bs

/-- One-byte opcodes 0x60 to 0x6F (R191). -/
def decodeRow6 (a : Attrs) (op : Nat) (bs : List Byte) : Parse Instr :=
  match op with
  | 0x60 => .ok (.pusha a) bs
  | 0x61 => .ok (.popa a) bs
  | 0x68 => (getSized a.osz bs).map fun i => .push a (.iv i)
  | 0x69 => withModRM bs fun m rest => tailEIv a m rest fun e i => .imul a (.gvEvIv (regOf m.nnn) e i)
  | 0x6A => (getByte bs).map fun i => .push a (.ib i)
  | 0x6B => withModRM bs fun m rest => tailEIb a m rest fun e i => .imul a (.gvEvIb (regOf m.nnn) e i)
  | _ => .err .unknownOpcode bs

/-- One-byte opcodes 0x80 to 0x8F (R191, R194). -/
def decodeRow8 (a : Attrs) (op : Nat) (bs : List Byte) : Parse Instr :=
  match op with
  | 0x80 => withModRM bs fun m rest => tailEIb a m rest fun e i => aluOf m.nnn.toNat a (.ebIb e i)
  | 0x81 => withModRM bs fun m rest => tailEIv a m rest fun e i => aluOf m.nnn.toNat a (.evIv e i)
  | 0x83 => withModRM bs fun m rest => tailEIb a m rest fun e i => aluOf m.nnn.toNat a (.evIb e i)
  | 0x84 => rowEG a bs fun e g => .test a (.ebGb e g)
  | 0x85 => rowEG a bs fun e g => .test a (.evGv e g)
  | 0x86 => rowEG a bs fun e g => .xchg a (.ebGb e g)
  | 0x87 => rowEG a bs fun e g => .xchg a (.evGv e g)
  | 0x88 => rowEG a bs fun e g => .mov a (.ebGb e g)
  | 0x89 => rowEG a bs fun e g => .mov a (.evGv e g)
  | 0x8A => rowEG a bs fun e g => .mov a (.gbEb g e)
  | 0x8B => rowEG a bs fun e g => .mov a (.gvEv g e)
  | 0x8C => withModRM bs fun m rest =>
      (decodeE a.asz m rest).andThen fun e rest => (decodeS m rest).map fun g => .movFromSeg a e g
  | 0x8D => rowGM a bs (.lea a)
  | 0x8E => withModRM bs fun m rest =>
      (decodeSDest m rest).andThen fun g rest => (decodeE a.asz m rest).map fun e => .movToSeg a g e
  | 0x8F => withModRM bs fun m rest =>
      if m.nnn = 0 then tailE a m rest fun e => .pop a (.ev e) else .err .unknownExtension rest
  | _ => .err .unknownOpcode bs

/-- One-byte opcodes 0x90 to 0x9F (R191). -/
def decodeRow9 (a : Attrs) (op : Nat) (bs : List Byte) : Parse Instr :=
  if op = 0x90 then .ok (.nop a) bs
  else if op < 0x98 then .ok (.xchg a (.eaxR (regOf (BitVec.ofNat 3 op)))) bs
  else
    match op with
    | 0x98 => .ok (.cbw a) bs
    | 0x99 => .ok (.cwd a) bs
    | 0x9A => rowAp a bs (.callFar a)
    | 0x9C => .ok (.pushf a) bs
    | 0x9D => .ok (.popf a) bs
    | 0x9E => .ok (.sahf a) bs
    | 0x9F => .ok (.lahf a) bs
    | _ => .err .unknownOpcode bs

/-- One-byte opcodes 0xA0 to 0xAF (R191). -/
def decodeRowA (a : Attrs) (op : Nat) (bs : List Byte) : Parse Instr :=
  match op with
  | 0xA0 => (getSized a.asz bs).map fun o => .movMoffs a (.alOb o)
  | 0xA1 => (getSized a.asz bs).map fun o => .movMoffs a (.eaxOv o)
  | 0xA2 => (getSized a.asz bs).map fun o => .movMoffs a (.obAl o)
  | 0xA3 => (getSized a.asz bs).map fun o => .movMoffs a (.ovEax o)
  | 0xA4 => .ok (.movs a .b) bs
  | 0xA5 => .ok (.movs a .v) bs
  | 0xA6 => .ok (.cmps a .b) bs
  | 0xA7 => .ok (.cmps a .v) bs
  | 0xA8 => (getByte bs).map fun i => .test a (.alIb i)
  | 0xA9 => (getSized a.osz bs).map fun i => .test a (.eaxIv i)
  | 0xAA => .ok (.stos a .b) bs
  | 0xAB => .ok (.stos a .v) bs
  | 0xAC => .ok (.lods a .b) bs
  | 0xAD => .ok (.lods a .v) bs
  | 0xAE => .ok (.scas a .b) bs
  | _ => .ok (.scas a .v) bs

/-- One-byte opcodes 0xC0 to 0xCF (R191, R194). -/
def decodeRowC (a : Attrs) (op : Nat) (bs : List Byte) : Parse Instr :=
  match op with
  | 0xC0 => withModRM bs fun m rest =>
      decodeShiftGroup m rest fun mk => tailEIb a m rest fun e i => mk a (.ebIb e i)
  | 0xC1 => withModRM bs fun m rest =>
      decodeShiftGroup m rest fun mk => tailEIb a m rest fun e i => mk a (.evIb e i)
  | 0xC2 => (getU16 bs).map fun i => .retImm a i
  | 0xC3 => .ok (.ret a) bs
  | 0xC4 => rowGM a bs (.les a)
  | 0xC5 => rowGM a bs (.lds a)
  | 0xC6 => withModRM bs fun m rest =>
      if m.nnn = 0 then tailEIb a m rest fun e i => .mov a (.ebIb e i) else .err .unknownExtension rest
  | 0xC7 => withModRM bs fun m rest =>
      if m.nnn = 0 then tailEIv a m rest fun e i => .mov a (.evIv e i) else .err .unknownExtension rest
  | 0xCA => (getU16 bs).map fun i => .retfImm a i
  | 0xCB => .ok (.retf a) bs
  | 0xCC => .ok (.int3 a) bs
  | 0xCD => (getByte bs).map fun i => .int a i
  | 0xCE => .ok (.into a) bs
  | 0xCF => .ok (.iret a) bs
  | _ => .err .unknownOpcode bs

/-- One-byte opcodes 0xD0 to 0xDF (R191, R194). -/
def decodeRowD (a : Attrs) (op : Nat) (bs : List Byte) : Parse Instr :=
  match op with
  | 0xD0 => withModRM bs fun m rest =>
      decodeShiftGroup m rest fun mk => tailE a m rest fun e => mk a (.eb1 e)
  | 0xD1 => withModRM bs fun m rest =>
      decodeShiftGroup m rest fun mk => tailE a m rest fun e => mk a (.ev1 e)
  | 0xD2 => withModRM bs fun m rest =>
      decodeShiftGroup m rest fun mk => tailE a m rest fun e => mk a (.ebCL e)
  | 0xD3 => withModRM bs fun m rest =>
      decodeShiftGroup m rest fun mk => tailE a m rest fun e => mk a (.evCL e)
  | 0xD7 => .ok (.xlat a) bs
  | _ => .err .unknownOpcode bs

/-- One-byte opcodes 0xE0 to 0xEF (R191). -/
def decodeRowE (a : Attrs) (op : Nat) (bs : List Byte) : Parse Instr :=
  match op with
  | 0xE0 => (getByte bs).map fun d => .loopne a d
  | 0xE1 => (getByte bs).map fun d => .loope a d
  | 0xE2 => (getByte bs).map fun d => .loop a d
  | 0xE3 => (getByte bs).map fun d => .jcxz a d
  | 0xE8 => (getSized a.osz bs).map fun d => .callRel a d
  | 0xE9 => (getSized a.osz bs).map fun d => .jmpRel a (.jv d)
  | 0xEA => rowAp a bs (.jmpFar a)
  | 0xEB => (getByte bs).map fun d => .jmpRel a (.jb d)
  | _ => .err .unknownOpcode bs

/-- One-byte opcodes 0xF0 to 0xFF that are no prefix (R191, R194). -/
def decodeRowF (a : Attrs) (op : Nat) (bs : List Byte) : Parse Instr :=
  match op with
  | 0xF4 => .ok (.hlt a) bs
  | 0xF5 => .ok (.cmc a) bs
  | 0xF6 => decodeUnaryGroup a false bs
  | 0xF7 => decodeUnaryGroup a true bs
  | 0xF8 => .ok (.clc a) bs
  | 0xF9 => .ok (.stc a) bs
  | 0xFA => .ok (.cli a) bs
  | 0xFB => .ok (.sti a) bs
  | 0xFC => .ok (.cld a) bs
  | 0xFD => .ok (.std a) bs
  | 0xFE => withModRM bs fun m rest =>
      match m.nnn.toNat with
      | 0 => tailE a m rest fun e => .inc a (.eb e)
      | 1 => tailE a m rest fun e => .dec a (.eb e)
      | _ => .err .unknownExtension rest
  | 0xFF => decodeGroupFF a bs
  | _ => .err .unknownOpcode bs

/-- The one-byte map: primary table and extension groups (R139, R191, R194). -/
def decodeOne (a : Attrs) (op : Byte) (bs : List Byte) : Parse Instr :=
  let n := op.toNat
  if n < 0x40 then decodeLow a n bs
  else if n < 0x48 then .ok (.inc a (.r (regOf (BitVec.ofNat 3 n)))) bs
  else if n < 0x50 then .ok (.dec a (.r (regOf (BitVec.ofNat 3 n)))) bs
  else if n < 0x58 then .ok (.push a (.r (regOf (BitVec.ofNat 3 n)))) bs
  else if n < 0x60 then .ok (.pop a (.r (regOf (BitVec.ofNat 3 n)))) bs
  else if n < 0x70 then decodeRow6 a n bs
  else if n < 0x80 then (getByte bs).map fun d => (condOf (n - 0x70)).jcc a (.jb d)
  else if n < 0x90 then decodeRow8 a n bs
  else if n < 0xA0 then decodeRow9 a n bs
  else if n < 0xB0 then decodeRowA a n bs
  else if n < 0xB8 then (getByte bs).map fun i => .mov a (.rbIb (regOf (BitVec.ofNat 3 n)) i)
  else if n < 0xC0 then (getSized a.osz bs).map fun i => .mov a (.rvIv (regOf (BitVec.ofNat 3 n)) i)
  else if n < 0xD0 then decodeRowC a n bs
  else if n < 0xE0 then decodeRowD a n bs
  else if n < 0xF0 then decodeRowE a n bs
  else decodeRowF a n bs

/-- The rows of the two-byte map outside the Jcc and SETcc ranges (R194, R195). -/
def decodeTwoRow (a : Attrs) (op : Nat) (bs : List Byte) : Parse Instr :=
  match op with
  | 0x00 => withModRM bs fun m rest =>
      match m.nnn.toNat with
      | 0 => tailE a m rest (.sldt a)
      | 2 => tailE a m rest (.lldt a)
      | _ => .err .unknownExtension rest
  | 0x01 => withModRM bs fun m rest =>
      match m.nnn.toNat with
      | 0 => tailM a m rest (.sgdt a)
      | 1 => tailM a m rest (.sidt a)
      | 2 => tailM a m rest (.lgdt a)
      | 3 => tailM a m rest (.lidt a)
      | 4 => tailE a m rest (.smsw a)
      | 6 => tailE a m rest (.lmsw a)
      | _ => .err .unknownExtension rest
  | 0x20 => withModRM bs fun m rest =>
      (decodeR m rest).andThen fun r rest => (decodeC m rest).map fun c => .movFromCr a r c
  | 0x21 => withModRM bs fun m rest => (decodeR m rest).map fun r => .movFromDr a r (dbgOf m.nnn)
  | 0x22 => withModRM bs fun m rest =>
      (decodeC m rest).andThen fun c rest => (decodeR m rest).map fun r => .movToCr a c r
  | 0x23 => withModRM bs fun m rest => (decodeR m rest).map fun r => .movToDr a (dbgOf m.nnn) r
  | 0xA0 => .ok (.pushSeg a .fs) bs
  | 0xA1 => .ok (.popSeg a .fs) bs
  | 0xA8 => .ok (.pushSeg a .gs) bs
  | 0xA9 => .ok (.popSeg a .gs) bs
  | 0xAF => rowEG a bs fun e g => .imul a (.gvEv g e)
  | 0xB2 => rowGM a bs (.lss a)
  | 0xB4 => rowGM a bs (.lfs a)
  | 0xB5 => rowGM a bs (.lgs a)
  | 0xB6 => rowEG a bs fun e g => .movzx a (.gvEb g e)
  | 0xB7 => rowEG a bs fun e g => .movzx a (.gvEw g e)
  | 0xBE => rowEG a bs fun e g => .movsx a (.gvEb g e)
  | 0xBF => rowEG a bs fun e g => .movsx a (.gvEw g e)
  | _ => .err .unknownOpcode bs

/-- The two-byte map, after the escape 0x0F (R138, R195). The `nnn` field of SETcc is ignored (47_setcc R590). -/
def decodeTwo (a : Attrs) (op : Byte) (bs : List Byte) : Parse Instr :=
  let n := op.toNat
  if 0x80 ≤ n ∧ n < 0x90 then (getSized a.osz bs).map fun d => (condOf (n - 0x80)).jcc a (.jv d)
  else if 0x90 ≤ n ∧ n < 0xA0 then rowE a bs fun e => (condOf (n - 0x90)).setcc a e
  else decodeTwoRow a n bs

/-- What follows the prefixes: the opcode byte, or the escape and the opcode byte (R138). -/
def decodeOpcode (a : Attrs) (op : Byte) (bs : List Byte) : Parse Instr :=
  if op = 0x0F then (getByte bs).andThen fun op2 rest => decodeTwo a op2 rest
  else decodeOne a op bs

/-- `decode` on a list of bytes (R132): `big` is the code segment's default, for both attributes. -/
def decode (mode : SizePrefixMode) (big : Bool) (bs : List Byte) : Parse Instr :=
  (scanPrefixes mode .empty bs).andThen fun p rest => decodeOpcode (p.1.attrs big) p.2 rest

/-! ### The encoder -/

def Reg.num : Reg → Nat
  | .ax => 0
  | .cx => 1
  | .dx => 2
  | .bx => 3
  | .sp => 4
  | .bp => 5
  | .si => 6
  | .di => 7

def SegReg.num : SegReg → Nat
  | .es => 0
  | .cs => 1
  | .ss => 2
  | .ds => 3
  | .fs => 4
  | .gs => 5

def CtlReg.num : CtlReg → Nat
  | .cr0 => 0
  | .cr2 => 2
  | .cr3 => 3

def DbgReg.num : DbgReg → Nat
  | .dr0 => 0
  | .dr1 => 1
  | .dr2 => 2
  | .dr3 => 3
  | .dr4 => 4
  | .dr5 => 5
  | .dr6 => 6
  | .dr7 => 7

def Base16.num : Base16 → Nat
  | .bxsi => 0
  | .bxdi => 1
  | .bpsi => 2
  | .bpdi => 3
  | .si => 4
  | .di => 5
  | .bp => 6
  | .bx => 7

/-- An opcode byte. -/
def opByte (n : Nat) : Byte := BitVec.ofNat 8 n

/-- The ModR/M byte of its three fields (R140). -/
def modrmByte (md nnn rm : Nat) : Byte := BitVec.ofNat 8 (md * 64 + nnn * 8 + rm)

def putU16 (v : BitVec 16) : List Byte := [v.extractLsb' 0 8, v.extractLsb' 8 8]

def putU32 (v : Word) : List Byte :=
  [v.extractLsb' 0 8, v.extractLsb' 8 8, v.extractLsb' 16 8, v.extractLsb' 24 8]

def putSized (sz : Size) (v : Word) : List Byte :=
  match sz with
  | .s16 => putU16 (v.setWidth 16)
  | .s32 => putU32 v

/-- ModR/M and displacement of a memory operand (R165 to R169). -/
def encodeM (nnn : Nat) : MemRef → List Byte
  | .base16 b .none => [modrmByte 0 nnn b.num]
  | .base16 b (.d8 d) => [modrmByte 1 nnn b.num, d]
  | .base16 b (.full d) => modrmByte 2 nnn b.num :: putU16 d
  | .abs16 d => modrmByte 0 nnn 6 :: putU16 d
  | .base32 r .none => [modrmByte 0 nnn r.num]
  | .base32 r (.d8 d) => [modrmByte 1 nnn r.num, d]
  | .base32 r (.full d) => modrmByte 2 nnn r.num :: putU32 d
  | .abs32 d => modrmByte 0 nnn 5 :: putU32 d

/-- ModR/M and displacement of an E operand (R163). -/
def encodeE (nnn : Nat) : Rm → List Byte
  | .reg r => [modrmByte 3 nnn r.num]
  | .mem m => encodeM nnn m

def encodeAlu (x : Nat) (a : Attrs) : AluForm → List Byte
  | .ebGb e g => opByte (8 * x) :: encodeE g.num e
  | .evGv e g => opByte (8 * x + 1) :: encodeE g.num e
  | .gbEb g e => opByte (8 * x + 2) :: encodeE g.num e
  | .gvEv g e => opByte (8 * x + 3) :: encodeE g.num e
  | .alIb i => [opByte (8 * x + 4), i]
  | .eaxIv i => opByte (8 * x + 5) :: putSized a.osz i
  | .ebIb e i => 0x80 :: (encodeE x e ++ [i])
  | .evIv e i => 0x81 :: (encodeE x e ++ putSized a.osz i)
  | .evIb e i => 0x83 :: (encodeE x e ++ [i])

def encodeUnary (x : Nat) : UnaryForm → List Byte
  | .eb e => 0xF6 :: encodeE x e
  | .ev e => 0xF7 :: encodeE x e

def encodeShift (x : Nat) : ShiftForm → List Byte
  | .ebIb e i => 0xC0 :: (encodeE x e ++ [i])
  | .evIb e i => 0xC1 :: (encodeE x e ++ [i])
  | .eb1 e => 0xD0 :: encodeE x e
  | .ev1 e => 0xD1 :: encodeE x e
  | .ebCL e => 0xD2 :: encodeE x e
  | .evCL e => 0xD3 :: encodeE x e

/-- INC (`x` = 0) and DEC (`x` = 1). -/
def encodeInc (x : Nat) : IncForm → List Byte
  | .r g => [opByte (0x40 + 8 * x + g.num)]
  | .eb e => 0xFE :: encodeE x e
  | .ev e => 0xFF :: encodeE x e

/-- A conditional jump of condition number `c`. -/
def encodeJcc (c : Nat) (a : Attrs) : RelForm → List Byte
  | .jb d => [opByte (0x70 + c), d]
  | .jv d => 0x0F :: opByte (0x80 + c) :: putSized a.osz d

/-- A SETcc of condition number `c`; the ignored `nnn` is written 0 (47_setcc R590). -/
def encodeSetcc (c : Nat) (e : Rm) : List Byte := 0x0F :: opByte (0x90 + c) :: encodeE 0 e

def encodeMov (a : Attrs) : MovForm → List Byte
  | .ebGb e g => 0x88 :: encodeE g.num e
  | .evGv e g => 0x89 :: encodeE g.num e
  | .gbEb g e => 0x8A :: encodeE g.num e
  | .gvEv g e => 0x8B :: encodeE g.num e
  | .rbIb g i => [opByte (0xB0 + g.num), i]
  | .rvIv g i => opByte (0xB8 + g.num) :: putSized a.osz i
  | .ebIb e i => 0xC6 :: (encodeE 0 e ++ [i])
  | .evIv e i => 0xC7 :: (encodeE 0 e ++ putSized a.osz i)

def encodeMoffs (a : Attrs) : MoffsForm → List Byte
  | .alOb o => 0xA0 :: putSized a.asz o
  | .eaxOv o => 0xA1 :: putSized a.asz o
  | .obAl o => 0xA2 :: putSized a.asz o
  | .ovEax o => 0xA3 :: putSized a.asz o

def encodeTest (a : Attrs) : TestForm → List Byte
  | .ebGb e g => 0x84 :: encodeE g.num e
  | .evGv e g => 0x85 :: encodeE g.num e
  | .alIb i => [0xA8, i]
  | .eaxIv i => 0xA9 :: putSized a.osz i
  | .ebIb e i => 0xF6 :: (encodeE 0 e ++ [i])
  | .evIv e i => 0xF7 :: (encodeE 0 e ++ putSized a.osz i)

def encodeImul (a : Attrs) : ImulForm → List Byte
  | .gvEv g e => 0x0F :: 0xAF :: encodeE g.num e
  | .gvEvIv g e i => 0x69 :: (encodeE g.num e ++ putSized a.osz i)
  | .gvEvIb g e i => 0x6B :: (encodeE g.num e ++ [i])

def encodeXchg : XchgForm → List Byte
  | .ebGb e g => 0x86 :: encodeE g.num e
  | .evGv e g => 0x87 :: encodeE g.num e
  | .eaxR g => [opByte (0x90 + g.num)]

/-- MOVZX (`op` = 0xB6) and MOVSX (`op` = 0xBE). -/
def encodeExt (op : Nat) : ExtForm → List Byte
  | .gvEb g e => 0x0F :: opByte op :: encodeE g.num e
  | .gvEw g e => 0x0F :: opByte (op + 1) :: encodeE g.num e

def encodePush (a : Attrs) : PushForm → List Byte
  | .r g => [opByte (0x50 + g.num)]
  | .iv i => 0x68 :: putSized a.osz i
  | .ib i => [0x6A, i]
  | .ev e => 0xFF :: encodeE 6 e

def encodePop : PopForm → List Byte
  | .r g => [opByte (0x58 + g.num)]
  | .ev e => 0x8F :: encodeE 0 e

def encodePushSeg : SegReg → List Byte
  | .es => [0x06]
  | .cs => [0x0E]
  | .ss => [0x16]
  | .ds => [0x1E]
  | .fs => [0x0F, 0xA0]
  | .gs => [0x0F, 0xA8]

/-- There is no POP CS (41_data_movement R295): its term is ill-formed and has no bytes. -/
def encodePopSeg : SegReg → List Byte
  | .es => [0x07]
  | .cs => []
  | .ss => [0x17]
  | .ds => [0x1F]
  | .fs => [0x0F, 0xA1]
  | .gs => [0x0F, 0xA9]

/-- A string instruction with byte opcode `op` and word opcode `op + 1`. -/
def encodeStr (op : Nat) : StrForm → List Byte
  | .b => [opByte op]
  | .v => [opByte (op + 1)]

def encodeJmpRel (a : Attrs) : RelForm → List Byte
  | .jb d => [0xEB, d]
  | .jv d => 0xE9 :: putSized a.osz d

/-- The bytes after the prefixes (R191, R194, R195). -/
def encodeBody : Instr → List Byte
  | .add a f => encodeAlu 0 a f
  | .or a f => encodeAlu 1 a f
  | .adc a f => encodeAlu 2 a f
  | .sbb a f => encodeAlu 3 a f
  | .and a f => encodeAlu 4 a f
  | .sub a f => encodeAlu 5 a f
  | .xor a f => encodeAlu 6 a f
  | .cmp a f => encodeAlu 7 a f
  | .inc _ f => encodeInc 0 f
  | .dec _ f => encodeInc 1 f
  | .neg _ f => encodeUnary 3 f
  | .mul _ f => encodeUnary 4 f
  | .imulOne _ f => encodeUnary 5 f
  | .imul a f => encodeImul a f
  | .div _ f => encodeUnary 6 f
  | .idiv _ f => encodeUnary 7 f
  | .test a f => encodeTest a f
  | .not _ f => encodeUnary 2 f
  | .rol _ f => encodeShift 0 f
  | .ror _ f => encodeShift 1 f
  | .rcl _ f => encodeShift 2 f
  | .rcr _ f => encodeShift 3 f
  | .shl _ f => encodeShift 4 f
  | .shr _ f => encodeShift 5 f
  | .sar _ f => encodeShift 7 f
  | .mov a f => encodeMov a f
  | .movMoffs a f => encodeMoffs a f
  | .movFromSeg _ e g => 0x8C :: encodeE g.num e
  | .movToSeg _ g e => 0x8E :: encodeE g.num e
  | .xchg _ f => encodeXchg f
  | .nop _ => [0x90]
  | .lea _ g m => 0x8D :: encodeM g.num m
  | .movzx _ f => encodeExt 0xB6 f
  | .movsx _ f => encodeExt 0xBE f
  | .cbw _ => [0x98]
  | .cwd _ => [0x99]
  | .xlat _ => [0xD7]
  | .push a f => encodePush a f
  | .pushSeg _ g => encodePushSeg g
  | .pop _ f => encodePop f
  | .popSeg _ g => encodePopSeg g
  | .pusha _ => [0x60]
  | .popa _ => [0x61]
  | .lds _ g m => 0xC5 :: encodeM g.num m
  | .les _ g m => 0xC4 :: encodeM g.num m
  | .lss _ g m => 0x0F :: 0xB2 :: encodeM g.num m
  | .lfs _ g m => 0x0F :: 0xB4 :: encodeM g.num m
  | .lgs _ g m => 0x0F :: 0xB5 :: encodeM g.num m
  | .movs _ f => encodeStr 0xA4 f
  | .cmps _ f => encodeStr 0xA6 f
  | .stos _ f => encodeStr 0xAA f
  | .lods _ f => encodeStr 0xAC f
  | .scas _ f => encodeStr 0xAE f
  | .jmpRel a f => encodeJmpRel a f
  | .jmpInd _ e => 0xFF :: encodeE 4 e
  | .jmpFar a off sel => 0xEA :: (putSized a.osz off ++ putU16 sel)
  | .jmpFarInd _ m => 0xFF :: encodeM 5 m
  | .jo a f => encodeJcc 0 a f
  | .jno a f => encodeJcc 1 a f
  | .jb a f => encodeJcc 2 a f
  | .jae a f => encodeJcc 3 a f
  | .je a f => encodeJcc 4 a f
  | .jne a f => encodeJcc 5 a f
  | .jbe a f => encodeJcc 6 a f
  | .ja a f => encodeJcc 7 a f
  | .js a f => encodeJcc 8 a f
  | .jns a f => encodeJcc 9 a f
  | .jp a f => encodeJcc 10 a f
  | .jnp a f => encodeJcc 11 a f
  | .jl a f => encodeJcc 12 a f
  | .jge a f => encodeJcc 13 a f
  | .jle a f => encodeJcc 14 a f
  | .jg a f => encodeJcc 15 a f
  | .jcxz _ d => [0xE3, d]
  | .loop _ d => [0xE2, d]
  | .loope _ d => [0xE1, d]
  | .loopne _ d => [0xE0, d]
  | .callRel a d => 0xE8 :: putSized a.osz d
  | .callInd _ e => 0xFF :: encodeE 2 e
  | .callFar a off sel => 0x9A :: (putSized a.osz off ++ putU16 sel)
  | .callFarInd _ m => 0xFF :: encodeM 3 m
  | .ret _ => [0xC3]
  | .retImm _ i => 0xC2 :: putU16 i
  | .retf _ => [0xCB]
  | .retfImm _ i => 0xCA :: putU16 i
  | .int _ i => [0xCD, i]
  | .int3 _ => [0xCC]
  | .iret _ => [0xCF]
  | .into _ => [0xCE]
  | .seto _ e => encodeSetcc 0 e
  | .setno _ e => encodeSetcc 1 e
  | .setb _ e => encodeSetcc 2 e
  | .setae _ e => encodeSetcc 3 e
  | .sete _ e => encodeSetcc 4 e
  | .setne _ e => encodeSetcc 5 e
  | .setbe _ e => encodeSetcc 6 e
  | .seta _ e => encodeSetcc 7 e
  | .sets _ e => encodeSetcc 8 e
  | .setns _ e => encodeSetcc 9 e
  | .setp _ e => encodeSetcc 10 e
  | .setnp _ e => encodeSetcc 11 e
  | .setl _ e => encodeSetcc 12 e
  | .setge _ e => encodeSetcc 13 e
  | .setle _ e => encodeSetcc 14 e
  | .setg _ e => encodeSetcc 15 e
  | .clc _ => [0xF8]
  | .stc _ => [0xF9]
  | .cmc _ => [0xF5]
  | .cld _ => [0xFC]
  | .std _ => [0xFD]
  | .cli _ => [0xFA]
  | .sti _ => [0xFB]
  | .pushf _ => [0x9C]
  | .popf _ => [0x9D]
  | .lahf _ => [0x9F]
  | .sahf _ => [0x9E]
  | .hlt _ => [0xF4]
  | .sgdt _ m => 0x0F :: 0x01 :: encodeM 0 m
  | .lgdt _ m => 0x0F :: 0x01 :: encodeM 2 m
  | .sidt _ m => 0x0F :: 0x01 :: encodeM 1 m
  | .lidt _ m => 0x0F :: 0x01 :: encodeM 3 m
  | .sldt _ e => 0x0F :: 0x00 :: encodeE 0 e
  | .lldt _ e => 0x0F :: 0x00 :: encodeE 2 e
  | .lmsw _ e => 0x0F :: 0x01 :: encodeE 6 e
  | .smsw _ e => 0x0F :: 0x01 :: encodeE 4 e
  | .movFromCr _ r c => [0x0F, 0x20, modrmByte 3 c.num r.num]
  | .movToCr _ c r => [0x0F, 0x22, modrmByte 3 c.num r.num]
  | .movFromDr _ r c => [0x0F, 0x21, modrmByte 3 c.num r.num]
  | .movToDr _ c r => [0x0F, 0x23, modrmByte 3 c.num r.num]

def segPrefix : Option SegReg → List Byte
  | none => []
  | some .es => [0x26]
  | some .cs => [0x2E]
  | some .ss => [0x36]
  | some .ds => [0x3E]
  | some .fs => [0x64]
  | some .gs => [0x65]

def repPrefix : Repeat → List Byte
  | .none => []
  | .rep => [0xF3]
  | .repne => [0xF2]

/-- The prefixes that give these attributes under the default `big`, each at most once: segment, 0x66, 0x67, LOCK, repeat
(R133 to R135). -/
def encodePrefixes (big : Bool) (a : Attrs) : List Byte :=
  segPrefix a.seg ++ (if a.osz = sizeOf big then [] else [0x66]) ++ (if a.asz = sizeOf big then [] else [0x67]) ++
    (if a.lock then [0xF0] else []) ++ repPrefix a.rep

/-- The bytes of an instruction in a code segment whose default is `big`. -/
def encode (big : Bool) (i : Instr) : List Byte :=
  encodePrefixes big i.attrs ++ encodeBody i

/-! ### The opcode table's words -/

/-- The bytes the 24-bit key of spec/opcode_table.json stands for (R193): bits 23 to 16 the escape (0x0F or 0), bits 15 to
8 the opcode, bits 7 to 0 the ModR/M byte, then zeros up to the longest instruction. -/
def tableBytes (w : Nat) : List Byte :=
  let esc := w / 65536 % 256
  (if esc = 0 then [] else [opByte esc]) ++ [opByte (w / 256), opByte w] ++
    List.replicate (if esc = 0 then 13 else 12) 0

/-- The instruction the decoder reads from a word of the opcode table, in a 16-bit code segment. The table gives every row
the same 24-bit key, so the number of bits does not matter. -/
def decodeTableWord (_nbits w : Nat) : Option Instr :=
  match decode .idempotent false (tableBytes w) with
  | .ok i _ => some i
  | .err _ _ => none
  | .more => none

end Sys2Proof
end

