-- ==== Sys2Proof/Machine/Bits.lean ====
section
/-! DEFINITION. Bit-field helpers over words: truncation, sign extension, single bits (00_scope R13, R14). -/

namespace Sys2Proof.Machine

/-- `trunc_N(v)` (R13), kept zero-extended in a 32-bit word. -/
def trunc (w : Width) (v : Word) : Word :=
  match w with
  | .byte => v &&& 0xFF
  | .word => v &&& 0xFFFF
  | .dword => v

/-- `trunc_asz`, `trunc_osz`. -/
def truncSize (sz : Size) (v : Word) : Word := trunc sz.width v

/-- `mask(N)` (R13). -/
def maskOf (w : Width) : Word := trunc w 0xFFFFFFFF

/-- `msb(N)` (R13). -/
def msbWord (w : Width) : Word :=
  match w with
  | .byte => 0x80
  | .word => 0x8000
  | .dword => 0x80000000

/-- Bit `N-1` of the low `N` bits. -/
def signBit (w : Width) (v : Word) : Bool := v.getLsbD (w.bits - 1)

/-- Bit `N-2`. -/
def secondBit (w : Width) (v : Word) : Bool := v.getLsbD (w.bits - 2)

/-- `sext_32` of the low `N` bits (R14). -/
def sext (w : Width) (v : Word) : Word :=
  match w with
  | .byte => (v.setWidth 8).signExtend 32
  | .word => (v.setWidth 16).signExtend 32
  | .dword => v

/-- `signed_N` of the low `N` bits (R13). -/
def signed (w : Width) (v : Word) : Int := (sext w v).toInt

/-- A byte immediate sign-extended to 32 bits (R14; 30_encoding R159, R160, R168). -/
def sextByte (v : Byte) : Word := v.signExtend 32

/-- `trunc_N` of an integer, as a word. -/
def ofIntTrunc (w : Width) (v : Int) : Word := trunc w (BitVec.ofInt 32 v)

/-- A word with bit `i` replaced. -/
def setBit (v : Word) (i : Nat) (b : Bool) : Word :=
  if b then v ||| (1#32 <<< i) else v &&& ~~~(1#32 <<< i)

/-- The bits of `v` where `m` has a 1, those of `old` elsewhere. -/
def mergeBits (old v m : Word) : Word := (old &&& ~~~m) ||| (v &&& m)

/-- One bit as a word: "only ever 0 or 1" (10_state R28). -/
def bitWord (b : Bool) : Word := if b then 1 else 0

/-- Even parity of the low byte (40_lazy_flags R225). -/
def evenParity (v : Word) : Bool :=
  !(v.getLsbD 0 ^^ v.getLsbD 1 ^^ v.getLsbD 2 ^^ v.getLsbD 3 ^^ v.getLsbD 4 ^^ v.getLsbD 5 ^^ v.getLsbD 6 ^^
    v.getLsbD 7)

/-- Byte `i` of a word, little-endian. -/
def byteOf (v : Word) (i : Nat) : Byte := v.extractLsb' (8 * i) 8

/-- The word of up to four bytes, little-endian (20_memory R76). -/
def wordOfBytes : List Byte → Word
  | [] => 0
  | b :: bs => b.setWidth 32 ||| (wordOfBytes bs <<< 8)

end Sys2Proof.Machine
end

