-- ==== Sys2Proof/Machine/State.lean ====
section
/-! DEFINITION. The state of the block (10_state R20 to R50) as plain data, and the state after reset (R50). -/

namespace Sys2Proof.Machine

/-- The eight general registers (R21). -/
structure Regs where
  eax : Word
  ecx : Word
  edx : Word
  ebx : Word
  esp : Word
  ebp : Word
  esi : Word
  edi : Word
deriving DecidableEq, Repr

/-- The six lazily evaluated flags (R28, R221). -/
inductive Flag where
  | cf | pf | af | zf | sf | ovf
deriving DecidableEq, Repr

/-- One bit for each lazy flag (R28). -/
structure Dirty where
  cf : Bool
  pf : Bool
  af : Bool
  zf : Bool
  sf : Bool
  ovf : Bool
deriving DecidableEq, Repr

/-- `insnLast`: which row of the formula table applies (R28, R230). -/
inductive FlagKind where
  | none | add | adc | sub | sbb | cmp | neg | inc | dec | logic | mul | imul | shl | shr | sar
deriving DecidableEq, Repr

/-- The LazyFlagRegister (R28): the stored EFLAGS bits, the dirty mask and the snapshot. -/
structure LazyFlags where
  value : Word
  dirty : Dirty
  insnLast : FlagKind
  sizeLast : Width
  resLast : Word
  valLast1 : Word
  valLast2 : Word
deriving DecidableEq, Repr

/-- The descriptor cache of a segment register (R32). -/
structure SegCache where
  base : Word
  limitScaled : Word
  dpl : BitVec 2
  type : BitVec 4
  present : Bool
  accessType : Byte
  granularity : Bool
  big : Bool
  valid : Bool
deriving DecidableEq, Repr

/-- A segment register (R30): the selector value and the descriptor cache. -/
structure SegRegister where
  value : BitVec 16
  cache : SegCache
deriving DecidableEq, Repr

/-- The six segment registers (R30). -/
structure Segs where
  es : SegRegister
  cs : SegRegister
  ss : SegRegister
  ds : SegRegister
  fs : SegRegister
  gs : SegRegister
deriving DecidableEq, Repr

/-- LDTR (R34). DEDUCED (log entry 22): of the cache only the fields some rule reads. -/
structure LdtRegister where
  value : BitVec 16
  base : Word
  limitScaled : Word
  valid : Bool
deriving DecidableEq, Repr

/-- GDTR and IDTR (R35, R36). -/
structure TableRegister where
  base : Word
  limit : BitVec 16
deriving DecidableEq, Repr

/-- CR0, CR2, CR3 (R38, R39). -/
structure CtlRegs where
  cr0 : Word
  cr2 : Word
  cr3 : Word
deriving DecidableEq, Repr

/-- DR0 to DR7 (R41). -/
structure DbgRegs where
  dr0 : Word
  dr1 : Word
  dr2 : Word
  dr3 : Word
  dr4 : Word
  dr5 : Word
  dr6 : Word
  dr7 : Word
deriving DecidableEq, Repr

/-- One call of the MMIO handler (20_memory R78): direction, address, size, value. -/
structure VgaCall where
  isWrite : Bool
  addr : Word
  size : Width
  value : Word
deriving DecidableEq, Repr

/-- `vgaHandler` (R42) and, the model's own (log entry 5), the oracle behind it: the answers the device will give, the
calls made so far, oldest first, and the number of reads that found no listed answer. -/
structure Vga where
  registered : Bool
  answers : List Word
  log : List VgaCall
  reads : Nat
deriving DecidableEq, Repr

/-- `runState` (R46). -/
inductive RunState where
  | idle | running | yielded | halted | aborted
deriving DecidableEq, Repr

/-- What an UnimplementedFeature abort names (60_exceptions R534). -/
inductive Feature where
  | paging
  | sib
  | expandDown
  | gateOrTask (type : BitVec 4)
  | returnToOuterLevel
  | interLevelInterrupt
  | taskGate
  | taskReturn
  | returnToV8086
  | v8086Interrupt
deriving DecidableEq, Repr

/-- `abortInfo` (R46; 60_exceptions R530 to R535): the category of a fatal error and its detail (log entry 16).
A decode error names its reason and the instruction's bytes that decoding had read (30_encoding R145). -/
inductive AbortInfo where
  | decodeError (e : DecodeErr) (bytes : List Byte)
  | memoryFault (s : SegReg) (off : Word)
  | memoryFaultIvt (v : Byte)
  | configurationError
  | unimplemented (f : Feature)
  | outOfBounds (addr : Word) (size : Width)
deriving DecidableEq, Repr

/-- The scheduler (R46), with the number of halted events emitted (60_exceptions R528, log entry 19). -/
structure Sched where
  runState : RunState
  sliceCount : Nat
  shutdown : Bool
  abortInfo : Option AbortInfo
  haltEvents : Nat
deriving DecidableEq, Repr

/-- What the host presents (R49): the pause request, and the vectors the interrupt collaborator has pending, next first
(60_exceptions R520, log entry 10). -/
structure Inputs where
  pauseReq : Bool
  intr : List Byte
deriving DecidableEq, Repr

/-- The whole state (R20). `start` is the start offset of the executing Instruction (R47, log entry 8), `cfg` the
parameters (00_scope R12), `freeCount` the model's counter of free flag values (log entry 4). `mem` lists bytes of the DRAM
buffer at their physical address and of the ROM buffer at 0xC0000 plus their offset (R42, log entry 1). -/
structure State where
  regs : Regs
  eip : Word
  start : Word
  flags : LazyFlags
  segs : Segs
  ldtr : LdtRegister
  gdtr : TableRegister
  idtr : TableRegister
  ctl : CtlRegs
  dbg : DbgRegs
  cpl : BitVec 2
  mem : List Host.Cell
  a20 : Bool
  vga : Vga
  sched : Sched
  inputs : Inputs
  cfg : Params
  freeCount : Nat
deriving DecidableEq, Repr

/-- A CPU exception raised inside an instruction (60_exceptions R501). All four are contributory (R512). -/
inductive Exc where
  | de
  | np (err : Word)
  | ss (err : Word)
  | gp (err : Word)
deriving DecidableEq, Repr

/-- How a piece of an instruction ends (60_exceptions R500): normally with a value, by `raise`, or by `abort`. -/
inductive Res (α : Type) where
  | ok (x : α) (s : State)
  | raised (e : Exc) (s : State)
  | aborted (k : AbortInfo) (s : State)
deriving DecidableEq, Repr

/-- No step of this model faults: the spec's fatal errors leave a state, ABORTED (60_exceptions R530), and are next states
(log entry 6). -/
inductive Fault where
deriving DecidableEq, Repr

/-- The one refusal: an instruction this model gives no meaning. Raised by the arms of `exec` alone; safe. -/
inductive Refusal where
  /-- Raised by an arm of `exec` for an instruction without a meaning; safe, the machine stops. No arm uses it. -/
  | notModelled (mnemonic : String)
deriving DecidableEq, Repr

/-! ### Reset (R50) -/

def Regs.reset : Regs :=
  { eax := 0, ecx := 0, edx := 0, ebx := 0, esp := 0, ebp := 0, esi := 0, edi := 0 }

def Dirty.none : Dirty :=
  { cf := false, pf := false, af := false, zf := false, sf := false, ovf := false }

def LazyFlags.reset : LazyFlags :=
  { value := 0x00000002, dirty := Dirty.none, insnLast := .none, sizeLast := .byte, resLast := 0, valLast1 := 0,
    valLast2 := 0 }

/-- The cache of R50 with the given base. -/
def SegCache.reset (base : Word) : SegCache :=
  { base := base, limitScaled := 0xFFFF, dpl := 0, type := 0x3, present := true, accessType := 0x93,
    granularity := false, big := false, valid := true }

def SegRegister.reset (value : BitVec 16) (base : Word) : SegRegister :=
  { value := value, cache := SegCache.reset base }

def Segs.reset : Segs :=
  { es := .reset 0 0, cs := .reset 0xF000 0x000F0000, ss := .reset 0 0, ds := .reset 0 0, fs := .reset 0 0,
    gs := .reset 0 0 }

/-- The parameters of State.reset: the decided values of R12; for the two OPEN ones, DESIGN CHOICE (log entry 2). -/
def Params.reset : Params :=
  { dramSize := 0x100000, sliceBudget := 4096, limitErr := .zero, sizePrefix := .idempotent, undefFlags := .decided,
    frameErr := .zero }

/-- The state right after power-on reset (R50, R51; 70_reset_and_hazards R550, R552). -/
def State.reset : State :=
  { regs := Regs.reset
    eip := 0x0000FFF0
    start := 0
    flags := LazyFlags.reset
    segs := Segs.reset
    ldtr := { value := 0, base := 0, limitScaled := 0xFFFF, valid := false }
    gdtr := { base := 0, limit := 0xFFFF }
    idtr := { base := 0, limit := 0x03FF }
    ctl := { cr0 := 0, cr2 := 0, cr3 := 0 }
    dbg := { dr0 := 0, dr1 := 0, dr2 := 0, dr3 := 0, dr4 := 0, dr5 := 0, dr6 := 0, dr7 := 0 }
    cpl := 0
    mem := []
    a20 := true
    vga := { registered := false, answers := [], log := [], reads := 0 }
    sched := { runState := .idle, sliceCount := 0, shutdown := false, abortInfo := none, haltEvents := 0 }
    inputs := { pauseReq := false, intr := [] }
    cfg := Params.reset
    freeCount := 0 }

end Sys2Proof.Machine
end

