-- ==== Sys2Proof/Machine/Registers.lean ====
section
/-! DEFINITION. Reading and writing the register files (10_state R21 to R41): the one home of every register. -/

namespace Sys2Proof.Machine

/-! ### General registers (R21 to R24) -/

def Regs.get (g : Regs) : Reg → Word
  | .ax => g.eax
  | .cx => g.ecx
  | .dx => g.edx
  | .bx => g.ebx
  | .sp => g.esp
  | .bp => g.ebp
  | .si => g.esi
  | .di => g.edi

def Regs.set (g : Regs) (r : Reg) (v : Word) : Regs :=
  match r with
  | .ax => { g with eax := v }
  | .cx => { g with ecx := v }
  | .dx => { g with edx := v }
  | .bx => { g with ebx := v }
  | .sp => { g with esp := v }
  | .bp => { g with ebp := v }
  | .si => { g with esi := v }
  | .di => { g with edi := v }

/-- The 32-bit register that holds byte register `r`: AH, CH, DH, BH live in the first four (R23). -/
def byteHome : Reg → Reg
  | .ax | .sp => .ax
  | .cx | .bp => .cx
  | .dx | .si => .dx
  | .bx | .di => .bx

/-- Byte register `r` is bits 15:8 of its home (R23). -/
def isHighByte : Reg → Bool
  | .ax | .cx | .dx | .bx => false
  | .sp | .bp | .si | .di => true

/-- `reg32(i)`. -/
def reg32 (s : State) (r : Reg) : Word := s.regs.get r

/-- `reg(i, N)` (R21 to R23), zero-extended. -/
def getReg (s : State) (w : Width) (r : Reg) : Word :=
  match w with
  | .byte => if isHighByte r then (reg32 s (byteHome r) >>> 8) &&& 0xFF else reg32 s (byteHome r) &&& 0xFF
  | .word => reg32 s r &&& 0xFFFF
  | .dword => reg32 s r

/-- What a write of width `N` leaves in the 32-bit register (R24): exactly the bits of the alias change. -/
def writeReg32 (w : Width) (high : Bool) (old v : Word) : Word :=
  match w with
  | .byte => if high then (old &&& 0xFFFF00FF) ||| ((v &&& 0xFF) <<< 8) else (old &&& 0xFFFFFF00) ||| (v &&& 0xFF)
  | .word => (old &&& 0xFFFF0000) ||| (v &&& 0xFFFF)
  | .dword => v

/-- The 32-bit register that a write of width `N` to register `r` changes (R21 to R23). -/
def regHome (w : Width) (r : Reg) : Reg :=
  match w with
  | .byte => byteHome r
  | .word => r
  | .dword => r

/-- `reg(i, N) <- v` (R24). -/
def setReg (s : State) (w : Width) (r : Reg) (v : Word) : State :=
  { s with regs := s.regs.set (regHome w r) (writeReg32 w (isHighByte r) (reg32 s (regHome w r)) v) }

/-- `reg(i, osz)`, `reg(i, asz)`. -/
def getRegSize (s : State) (sz : Size) (r : Reg) : Word := getReg s sz.width r

def setRegSize (s : State) (sz : Size) (r : Reg) (v : Word) : State := setReg s sz.width r v

/-! ### Segment registers (R30, R31) -/

def Segs.get (g : Segs) : SegReg → SegRegister
  | .es => g.es
  | .cs => g.cs
  | .ss => g.ss
  | .ds => g.ds
  | .fs => g.fs
  | .gs => g.gs

def Segs.set (g : Segs) (r : SegReg) (v : SegRegister) : Segs :=
  match r with
  | .es => { g with es := v }
  | .cs => { g with cs := v }
  | .ss => { g with ss := v }
  | .ds => { g with ds := v }
  | .fs => { g with fs := v }
  | .gs => { g with gs := v }

/-- `Sreg[s]`. -/
def getSeg (s : State) (r : SegReg) : SegRegister := s.segs.get r

def setSeg (s : State) (r : SegReg) (v : SegRegister) : State :=
  { s with segs := s.segs.set r v }

/-- `selector.index` (R31). -/
def selIndex (v : BitVec 16) : Nat := (v >>> 3).toNat

/-- `selector.table = 1`: the LDT (R31). -/
def selLocal (v : BitVec 16) : Bool := v.getLsbD 2

/-- `selector.rpl` (R31). -/
def selRpl (v : BitVec 16) : BitVec 2 := v.extractLsb' 0 2

/-- A null selector: index 0 in the GDT (20_memory R100). -/
def selNull (v : BitVec 16) : Bool := v &&& 0xFFFC == 0

/-- `selectorValue & 0xFFFC`, the error code of a selector fault (20_memory R92). -/
def selError (v : BitVec 16) : Word := (v &&& 0xFFFC).setWidth 32

/-! ### Control and debug registers (R38 to R41) -/

def CtlRegs.get (g : CtlRegs) : CtlReg → Word
  | .cr0 => g.cr0
  | .cr2 => g.cr2
  | .cr3 => g.cr3

def CtlRegs.set (g : CtlRegs) (r : CtlReg) (v : Word) : CtlRegs :=
  match r with
  | .cr0 => { g with cr0 := v }
  | .cr2 => { g with cr2 := v }
  | .cr3 => { g with cr3 := v }

def setCtl (s : State) (r : CtlReg) (v : Word) : State :=
  { s with ctl := s.ctl.set r v }

def DbgRegs.get (g : DbgRegs) : DbgReg → Word
  | .dr0 => g.dr0
  | .dr1 => g.dr1
  | .dr2 => g.dr2
  | .dr3 => g.dr3
  | .dr4 => g.dr4
  | .dr5 => g.dr5
  | .dr6 => g.dr6
  | .dr7 => g.dr7

def DbgRegs.set (g : DbgRegs) (r : DbgReg) (v : Word) : DbgRegs :=
  match r with
  | .dr0 => { g with dr0 := v }
  | .dr1 => { g with dr1 := v }
  | .dr2 => { g with dr2 := v }
  | .dr3 => { g with dr3 := v }
  | .dr4 => { g with dr4 := v }
  | .dr5 => { g with dr5 := v }
  | .dr6 => { g with dr6 := v }
  | .dr7 => { g with dr7 := v }

def setDbg (s : State) (r : DbgReg) (v : Word) : State :=
  { s with dbg := s.dbg.set r v }

/-! ### Mode predicates (R45) -/

/-- `PE`, bit 0 of CR0 (R38). -/
def pe (s : State) : Bool := s.ctl.cr0.getLsbD 0

/-- `PG`, bit 31 of CR0 (R38). -/
def pg (s : State) : Bool := s.ctl.cr0.getLsbD 31

/-- EFLAGS.VM, bit 17 (R27). -/
def vmFlag (s : State) : Bool := s.flags.value.getLsbD 17

def isReal (s : State) : Bool := !pe s

def isProt (s : State) : Bool := pe s && !vmFlag s

def isV86 (s : State) : Bool := pe s && vmFlag s

/-- EFLAGS.IOPL, bits 13:12 (R27). -/
def iopl (s : State) : BitVec 2 := s.flags.value.extractLsb' 12 2

/-! ### Other fields -/

def setEip (s : State) (v : Word) : State := { s with eip := v }

def setLdtr (s : State) (v : LdtRegister) : State := { s with ldtr := v }

def setGdtr (s : State) (v : TableRegister) : State := { s with gdtr := v }

def setIdtr (s : State) (v : TableRegister) : State := { s with idtr := v }

def setCpl (s : State) (v : BitVec 2) : State := { s with cpl := v }

def setFlags (s : State) (v : LazyFlags) : State := { s with flags := v }

def setMem (s : State) (v : List Host.Cell) : State := { s with mem := v }

end Sys2Proof.Machine
end

