-- ==== Sys2Proof/Machine/Flags.lean ====
section
/-! DEFINITION. The lazy condition-flag evaluator (40_lazy_flags R220 to R240). -/

namespace Sys2Proof.Machine

/-! ### Bits and the dirty mask -/

/-- `pos(f)` (R221; 10_state R27). -/
def Flag.pos : Flag → Nat
  | .cf => 0
  | .pf => 2
  | .af => 4
  | .zf => 6
  | .sf => 7
  | .ovf => 11

def Dirty.get (d : Dirty) : Flag → Bool
  | .cf => d.cf
  | .pf => d.pf
  | .af => d.af
  | .zf => d.zf
  | .sf => d.sf
  | .ovf => d.ovf

def Dirty.set (d : Dirty) (f : Flag) (b : Bool) : Dirty :=
  match f with
  | .cf => { d with cf := b }
  | .pf => { d with pf := b }
  | .af => { d with af := b }
  | .zf => { d with zf := b }
  | .sf => { d with sf := b }
  | .ovf => { d with ovf := b }

/-- All six bits set (R226). -/
def Dirty.all : Dirty :=
  { cf := true, pf := true, af := true, zf := true, sf := true, ovf := true }

/-! ### The formula table (R225, R230 to R233) -/

/-- CF by `insnLast` (R230, R233). DEDUCED (log entry 13): none for the rows the table leaves out. -/
def formulaCf (k : FlagKind) (w : Width) (a b r : Word) : Option Bool :=
  match k with
  | .add => some (decide (r < a))
  | .adc =>
    let cin := trunc w (r - a - b)
    some (if cin = 0 then decide (r < a) else decide (r ≤ a))
  | .sub | .cmp => some (decide (a < b))
  | .sbb =>
    let cin := trunc w (a - b - r)
    some (if cin = 0 then decide (a < b) else decide (a < r) || decide (b = maskOf w))
  | .neg => some (decide (r ≠ 0))
  | .logic => some false
  | .mul => some (decide (a.toNat * b.toNat / 2 ^ w.bits ≠ 0))
  | .imul => some (decide (signed w a * signed w b ≠ signed w r))
  | .none | .inc | .dec | .shl | .shr | .sar => none

/-- AF by `insnLast` (R231). -/
def formulaAf (k : FlagKind) (a b r : Word) : Option Bool :=
  match k with
  | .add | .adc | .sub | .sbb | .cmp => some ((a ^^^ b ^^^ r).getLsbD 4)
  | .neg => some (decide (r &&& 0xF ≠ 0))
  | .inc => some (decide (r &&& 0xF = 0))
  | .dec => some (decide (r &&& 0xF = 0xF))
  | .logic | .mul | .imul | .shl | .shr | .sar => some false
  | .none => none

/-- OF by `insnLast` (R232). -/
def formulaOf (k : FlagKind) (w : Width) (a b r : Word) : Option Bool :=
  match k with
  | .add | .adc => some (signBit w ((a ^^^ r) &&& (b ^^^ r)))
  | .sub | .sbb | .cmp => some (signBit w ((a ^^^ b) &&& (a ^^^ r)))
  | .neg | .inc => some (decide (r = msbWord w))
  | .dec => some (decide (r = msbWord w - 1))
  | .logic => some false
  | .mul | .imul => formulaCf k w a b r
  | .none | .shl | .shr | .sar => none

/-- `Formula(f, insnLast, sizeLast, valLast1, valLast2, resLast)` (R224, R225, R230 to R232): PF, ZF and SF are uniform
over all kinds. -/
def formula (f : Flag) (k : FlagKind) (w : Width) (v1 v2 res : Word) : Option Bool :=
  let a := trunc w v1
  let b := trunc w v2
  let r := trunc w res
  match f with
  | .pf => some (evenParity r)
  | .zf => some (decide (r = 0))
  | .sf => some (signBit w r)
  | .cf => formulaCf k w a b r
  | .af => formulaAf k a b r
  | .ovf => formulaOf k w a b r

/-! ### The flag register's operations -/

/-- `SetFlag(f, b)` (R223). -/
def LazyFlags.setFlag (l : LazyFlags) (f : Flag) (b : Bool) : LazyFlags :=
  { l with value := setBit l.value f.pos b, dirty := l.dirty.set f false }

/-- The value `Flag(f)` returns (R224). A dirty flag whose row the table leaves out keeps its stored bit; R234 says it is
never read (log entry 13). -/
def LazyFlags.flagValue (l : LazyFlags) (f : Flag) : Bool :=
  if l.dirty.get f then
    (formula f l.insnLast l.sizeLast l.valLast1 l.valLast2 l.resLast).getD (l.value.getLsbD f.pos)
  else l.value.getLsbD f.pos

/-- What `Flag(f)` leaves: the value cached, the dirty bit clear (R224). -/
def LazyFlags.evaluate (l : LazyFlags) (f : Flag) : LazyFlags :=
  if l.dirty.get f then l.setFlag f (l.flagValue f) else l

/-- `LazyStore(kind, N, v1, v2, res)` (R226). -/
def LazyFlags.lazyStore (l : LazyFlags) (k : FlagKind) (w : Width) (v1 v2 res : Word) : LazyFlags :=
  { l with insnLast := k, sizeLast := w, valLast1 := v1, valLast2 := v2, resLast := res, dirty := Dirty.all }

/-- All six flags evaluated (R228). -/
def LazyFlags.evaluateAll (l : LazyFlags) : LazyFlags :=
  (((((l.evaluate .cf).evaluate .pf).evaluate .af).evaluate .zf).evaluate .sf).evaluate .ovf

/-- The implemented bits of EFLAGS (R228; 10_state R27). -/
def eflagsImplemented : Word := 0x00037FD5

/-- The EFLAGS image `ReadFlags()` returns (R228). -/
def LazyFlags.image (l : LazyFlags) : Word :=
  (l.evaluateAll.value &&& eflagsImplemented) ||| 0x00000002

/-- One lazy flag of `WriteFlags(v, m)` (R229). -/
def LazyFlags.writeFlag (l : LazyFlags) (v m : Word) (f : Flag) : LazyFlags :=
  if m.getLsbD f.pos then l.setFlag f (v.getLsbD f.pos) else l

/-- The implemented bits that are not lazy: TF, IF, DF, IOPL, NT, RF, VM (10_state R29). -/
def eflagsPlain : Word := 0x00037700

/-- `WriteFlags(v, m)` (R229). -/
def LazyFlags.writeFlags (l : LazyFlags) (v m : Word) : LazyFlags :=
  let l6 := (((((l.writeFlag v m .cf).writeFlag v m .pf).writeFlag v m .af).writeFlag v m .zf).writeFlag v m .sf).writeFlag
    v m .ovf
  { l6 with value := mergeBits l6.value v (m &&& eflagsPlain) }

/-- A stored bit of EFLAGS that is not lazy, by position (10_state R29). -/
def LazyFlags.setPlain (l : LazyFlags) (i : Nat) (b : Bool) : LazyFlags :=
  { l with value := setBit l.value i b }

/-! ### On the state -/

/-- `Flag(f)`: the value (R224). -/
def flagOf (s : State) (f : Flag) : Bool := s.flags.flagValue f

/-- `Flag(f)`: what the read leaves, "a write of hidden state, and of nothing else" (R224). -/
def touchFlag (s : State) (f : Flag) : State := setFlags s (s.flags.evaluate f)

def touchFlags (s : State) (fs : List Flag) : State := fs.foldl touchFlag s

/-- `SetFlag(f, b)` (R223). -/
def setFlag (s : State) (f : Flag) (b : Bool) : State := setFlags s (s.flags.setFlag f b)

/-- `LazyStore` (R226). -/
def lazyStore (s : State) (k : FlagKind) (w : Width) (v1 v2 res : Word) : State :=
  setFlags s (s.flags.lazyStore k w v1 v2 res)

/-- `ReadFlags()`: the image (R228). -/
def flagsImage (s : State) : Word := s.flags.image

/-- `ReadFlags()`: what it leaves, all six flags clean (R228). -/
def touchAllFlags (s : State) : State := setFlags s s.flags.evaluateAll

/-- `WriteFlags(v, m)` (R229). -/
def writeFlags (s : State) (v m : Word) : State := setFlags s (s.flags.writeFlags v m)

def ifPos : Nat := 9
def tfPos : Nat := 8
def dfPos : Nat := 10
def ntPos : Nat := 14
def rfPos : Nat := 16

/-- A plain bit of EFLAGS (10_state R29). -/
def plainFlag (s : State) (i : Nat) : Bool := s.flags.value.getLsbD i

def setPlainFlag (s : State) (i : Nat) (b : Bool) : State := setFlags s (s.flags.setPlain i b)

/-! ### Flags the 80386 leaves undefined (R235; 93_implementation_defined U1 to U6) -/

/-- One flag gets a free value: under `UNDEF_FLAGS = any value` nothing constrains it (log entry 4); under the decided
values, the default, the state is as it was. -/
def leaveFree (s : State) (f : Flag) : State :=
  match s.cfg.undefFlags with
  | .decided => s
  | .anyValue => { setFlag s f (Config.freeBit s.freeCount) with freeCount := s.freeCount + 1 }

def leaveAllFree (s : State) (fs : List Flag) : State := fs.foldl leaveFree s

/-! ### Condition codes (R240) -/

/-- The flags a condition names (R240). DEDUCED (log entry 21): both are read even where the first one decides. -/
def Cond.flags : Cond → List Flag
  | .o | .no => [.ovf]
  | .b | .ae => [.cf]
  | .e | .ne => [.zf]
  | .be | .a => [.cf, .zf]
  | .s | .ns => [.sf]
  | .p | .np => [.pf]
  | .l | .ge => [.sf, .ovf]
  | .le | .g => [.zf, .sf, .ovf]

/-- The truth of a condition (R240). -/
def condHolds (c : Cond) (s : State) : Bool :=
  match c with
  | .o => flagOf s .ovf
  | .no => !flagOf s .ovf
  | .b => flagOf s .cf
  | .ae => !flagOf s .cf
  | .e => flagOf s .zf
  | .ne => !flagOf s .zf
  | .be => flagOf s .cf || flagOf s .zf
  | .a => !flagOf s .cf && !flagOf s .zf
  | .s => flagOf s .sf
  | .ns => !flagOf s .sf
  | .p => flagOf s .pf
  | .np => !flagOf s .pf
  | .l => flagOf s .sf != flagOf s .ovf
  | .ge => flagOf s .sf == flagOf s .ovf
  | .le => flagOf s .zf || (flagOf s .sf != flagOf s .ovf)
  | .g => !flagOf s .zf && (flagOf s .sf == flagOf s .ovf)

/-- Evaluating a condition clears the dirty bits of the flags it names (R240). -/
def touchCond (c : Cond) (s : State) : State := touchFlags s (Cond.flags c)

end Sys2Proof.Machine
end

