-- ==== Sys2Proof/Machine/Mem.lean ====
section
/-! DEFINITION. Memory from the bottom up: the byte list and its canonical form, the physical map (20_memory R72 to R78),
the linear layer (R80, R81) and access through a segment register (R84 to R88). -/

namespace Sys2Proof.Machine

/-! ### How a piece of an instruction goes on -/

/-- Statements run in the order written; a `raise` or an `abort` ends the instruction there (00_scope R16). -/
def Res.andThen {α β : Type} (r : Res α) (f : α → State → Res β) : Res β :=
  match r with
  | .ok x s => f x s
  | .raised e s => .raised e s
  | .aborted k s => .aborted k s

/-! ### Bytes -/

/-- What a byte nothing has listed reads as: a free value, fixed at launch (10_state R51, log entry 1). -/
def unlistedByte (a : Nat) : Byte := Config.powerOnByte a

/-- The byte at an address. -/
def Mem.read : List Host.Cell → Nat → Byte
  | [], a => unlistedByte a
  | (k, v) :: m, a => if k = a then v else Mem.read m a

/-- Write one byte, keeping the canonical form. -/
def Mem.write : List Host.Cell → Nat → Byte → List Host.Cell
  | [], a, v => [(a, v)]
  | (k, x) :: m, a, v =>
    if a < k then (a, v) :: (k, x) :: m
    else if a = k then (a, v) :: m
    else (k, x) :: Mem.write m a v

/-- Every address of the list is above `b`, and the addresses rise strictly. -/
def Mem.wfAbove : Option Nat → List Host.Cell → Bool
  | _, [] => true
  | b, (k, _) :: m =>
    (match b with
      | none => true
      | some x => decide (x < k)) && Mem.wfAbove (some k) m

/-- The canonical form: addresses strictly rising. An unlisted address has no value of its own, so no entry can repeat it
(log entry 1): the list holds exactly the bytes that something has written. -/
def Memory.wf (m : List Host.Cell) : Bool := Mem.wfAbove none m

/-- A little-endian load of consecutive bytes (R76). -/
def loadBytes (m : List Host.Cell) (a : Nat) : Width → Word
  | .byte => wordOfBytes [Mem.read m a]
  | .word => wordOfBytes [Mem.read m a, Mem.read m (a + 1)]
  | .dword => wordOfBytes [Mem.read m a, Mem.read m (a + 1), Mem.read m (a + 2), Mem.read m (a + 3)]

/-- A little-endian store of consecutive bytes (R77). -/
def storeBytes (m : List Host.Cell) (a : Nat) (w : Width) (v : Word) : List Host.Cell :=
  match w with
  | .byte => Mem.write m a (byteOf v 0)
  | .word => Mem.write (Mem.write m a (byteOf v 0)) (a + 1) (byteOf v 1)
  | .dword =>
    Mem.write (Mem.write (Mem.write (Mem.write m a (byteOf v 0)) (a + 1) (byteOf v 1)) (a + 2) (byteOf v 2)) (a + 3)
      (byteOf v 3)

/-! ### The physical map (R72 to R75) -/

/-- The regions of R73. -/
inductive Region where
  | vga | rom | dram | biosTop
deriving DecidableEq, Repr

/-- Classification in the order of R73. -/
def classify (dramSize a : Nat) : Option Region :=
  if Config.vgaBase ≤ a ∧ a ≤ Config.vgaEnd then some .vga
  else if Config.romBase ≤ a ∧ a ≤ Config.romEnd then some .rom
  else if a < dramSize then some .dram
  else if Config.biosTopBase ≤ a then some .biosTop
  else none

/-- The A20 mask (R72). -/
def maskA20 (a20 : Bool) (addr : Word) : Word := if a20 then addr else addr &&& 0xFFEFFFFF

/-- `mapPhysical(addrPhysical, size)` (R72 to R75): the region and the address after the A20 mask, or none when the access is
out of bounds. -/
def mapPhysical (s : State) (addr : Word) (w : Width) : Option (Region × Nat) :=
  let a := (maskA20 s.a20 addr).toNat
  let last := a + w.bytes - 1
  match classify s.cfg.dramSize a with
  | none => none
  | some r =>
    if last ≤ 0xFFFFFFFF ∧ classify s.cfg.dramSize last = some r ∧ (r = .vga → s.vga.registered = true) then some (r, a)
    else none

/-- Where a byte of a buffer-backed region is listed: DRAM at its address, ROM and its alias at 0xC0000 plus the offset in
the ROM buffer (R73). -/
def homeOf (r : Region) (a : Nat) : Nat :=
  match r with
  | .vga | .rom | .dram => a
  | .biosTop => Config.romBase + a % Config.romSize

/-! ### The MMIO device (R78) -/

/-- The device's next answer: a listed one, else a free value (log entry 5). -/
def vgaAnswer (v : Vga) : Word :=
  match v.answers with
  | x :: _ => x
  | [] => Config.mmioAnswer v.reads

def vgaAfterAnswer (v : Vga) : Vga :=
  match v.answers with
  | _ :: xs => { v with answers := xs }
  | [] => { v with reads := v.reads + 1 }

def vgaRecord (s : State) (v : Vga) (c : VgaCall) : State :=
  { s with vga := { v with log := v.log ++ [c] } }

/-- `vgaHandler.read` (R76): the answer truncated to the size, and the call recorded. -/
def vgaRead (s : State) (a : Nat) (w : Width) : Res Word :=
  let x := trunc w (vgaAnswer s.vga)
  .ok x (vgaRecord s (vgaAfterAnswer s.vga) { isWrite := false, addr := BitVec.ofNat 32 a, size := w, value := x })

/-- `vgaHandler.write` (R77). -/
def vgaWrite (s : State) (a : Nat) (w : Width) (v : Word) : Res Unit :=
  .ok () (vgaRecord s s.vga { isWrite := true, addr := BitVec.ofNat 32 a, size := w, value := trunc w v })

/-! ### Physical and linear access -/

/-- `MemRead(addr, n)` (R76). -/
def memRead (s : State) (addr : Word) (w : Width) : Res Word :=
  match mapPhysical s addr w with
  | none => .aborted (.outOfBounds addr w) s
  | some (.vga, a) => vgaRead s a w
  | some (r, a) => .ok (loadBytes s.mem (homeOf r a) w) s

/-- `MemWrite(addr, n, v)` (R77). -/
def memWrite (s : State) (addr : Word) (w : Width) (v : Word) : Res Unit :=
  match mapPhysical s addr w with
  | none => .aborted (.outOfBounds addr w) s
  | some (.vga, a) => vgaWrite s a w v
  | some (r, a) => .ok () (setMem s (storeBytes s.mem (homeOf r a) w v))

/-- `LinRead(addr, n)` (R80, R81). -/
def linRead (s : State) (addr : Word) (w : Width) : Res Word :=
  if pg s then .aborted (.unimplemented .paging) s else memRead s addr w

/-- `LinWrite(addr, n, v)` (R80, R81). -/
def linWrite (s : State) (addr : Word) (w : Width) (v : Word) : Res Unit :=
  if pg s then .aborted (.unimplemented .paging) s else memWrite s addr w v

/-! ### Access through a segment register (R84 to R88) -/

/-- `SegFault(s, err)` (R86): an exception in protected mode, an abort in real mode. -/
def segFault {α : Type} (s : State) (r : SegReg) (off err : Word) : Res α :=
  if pe s then .raised (if r = .ss then .ss err else .gp err) s else .aborted (.memoryFault r off) s

/-- `errLimit`, the error code of a limit violation (R86, `LIMIT_FAULT_ERRCODE`). -/
def errLimit (s : State) (off : Word) : Word :=
  match s.cfg.limitErr with
  | .zero => 0
  | .offset => off

/-- `addrLinear` (R84), truncated to 32 bits. -/
def linearOf (s : State) (r : SegReg) (off : Word) : Word := (getSeg s r).cache.base + off

/-- `SegRead(s, off, n)` (R84): the valid bit, then the first byte's offset against the limit (R87). -/
def segRead (s : State) (r : SegReg) (off : Word) (w : Width) : Res Word :=
  if !(getSeg s r).cache.valid then segFault s r off 0
  else if (getSeg s r).cache.limitScaled < off then segFault s r off (errLimit s off)
  else linRead s (linearOf s r off) w

/-- `SegWrite(s, off, n, v)` (R85). -/
def segWrite (s : State) (r : SegReg) (off : Word) (w : Width) (v : Word) : Res Unit :=
  if !(getSeg s r).cache.valid then segFault s r off 0
  else if (getSeg s r).cache.limitScaled < off then segFault s r off (errLimit s off)
  else linWrite s (linearOf s r off) w v

end Sys2Proof.Machine
end

