-- ==== Sys2Proof/Machine/Ops.lean ====
section
/-! DEFINITION. The shared operations: checks, the stack (41_data_movement R290, R291), descriptors and selector loads
(20_memory R90 to R112), far transfers (45_control_transfer R468), taking an exception or interrupt (60_exceptions R505 to
R513), the return from one (45_control_transfer R466), and how an instruction ends. -/

namespace Sys2Proof.Machine

/-! ### Checks -/

/-- `if c: raise e`. -/
def raiseIf (c : Bool) (e : Exc) (s : State) : Res Unit :=
  if c then .raised e s else .ok () s

/-- `if c: abort k`. -/
def abortIf (c : Bool) (k : AbortInfo) (s : State) : Res Unit :=
  if c then .aborted k s else .ok () s

/-- "Privileged": `if PE = 1 and CPL != 0: raise #GP(0)` (46_system R480). -/
def privileged (s : State) : Res Unit :=
  raiseIf (pe s && decide (s.cpl ≠ 0)) (.gp 0) s

/-- `if V86 and IOPL < 3: raise #GP(0)` (40_lazy_flags R257, R258; 45_control_transfer R464, R466). -/
def v86Guard (s : State) : Res Unit :=
  raiseIf (isV86 s && decide (iopl s ≠ 3)) (.gp 0) s

/-- `if PE = 1 and CPL > IOPL: raise #GP(0)` (40_lazy_flags R255, R256). -/
def ioplGuard (s : State) : Res Unit :=
  raiseIf (pe s && decide (iopl s < s.cpl)) (.gp 0) s

/-! ### The stack (41_data_movement R290, R291) -/

/-- The stack pointer is ESP when SS.cache.big = 1 (R290). -/
def stackBig (s : State) : Bool := (getSeg s .ss).cache.big

/-- The stack pointer at its width, zero-extended. -/
def stackPtr (s : State) : Word := if stackBig s then reg32 s .sp else getReg s .word .sp

/-- `wrap` at the width of the pointer (R290, R291). -/
def wrapSp (s : State) (v : Word) : Word := if stackBig s then v else v &&& 0xFFFF

/-- Write the pointer at its width: ESP[31:16] is unchanged when SS is not big (R290). -/
def setStackPtr (s : State) (v : Word) : State :=
  setReg s (if stackBig s then .dword else .word) .sp v

/-- The slot `k` bytes below the pointer. -/
def slotBelow (s : State) (k : Nat) : Word := wrapSp s (stackPtr s - BitVec.ofNat 32 k)

/-- The slot `k` bytes above the pointer. -/
def slotAbove (s : State) (k : Nat) : Word := wrapSp s (stackPtr s + BitVec.ofNat 32 k)

/-- `Push(v, N)` (R290): the write comes before the pointer update. -/
def push (s : State) (sz : Size) (v : Word) : Res Unit :=
  (segWrite s .ss (slotBelow s sz.bytes) sz.width v).andThen fun _ s' =>
    .ok () (setStackPtr s' (slotBelow s sz.bytes))

/-- `Peek(N, k)` (R291). -/
def peek (s : State) (sz : Size) (k : Nat) : Res Word :=
  segRead s .ss (slotAbove s k) sz.width

/-- `Drop(k)` (R291). -/
def drop (s : State) (k : Nat) : State := setStackPtr s (slotAbove s k)

/-- `Pop(N)` (R291). -/
def pop (s : State) (sz : Size) : Res Word :=
  (peek s sz 0).andThen fun v s => .ok v (drop s sz.bytes)

/-! ### Descriptors (20_memory R90 to R93) -/

/-- The 8 bytes of a descriptor, little-endian (R90). -/
abbrev Descriptor := BitVec 64

/-- The 20-bit limit (R90). -/
def descLimit (d : Descriptor) : Word :=
  (d.extractLsb' 0 16).setWidth 32 ||| ((d.extractLsb' 48 4).setWidth 32 <<< 16)

def descBase (d : Descriptor) : Word :=
  (d.extractLsb' 16 24).setWidth 32 ||| ((d.extractLsb' 56 8).setWidth 32 <<< 24)

def descType (d : Descriptor) : BitVec 4 := d.extractLsb' 40 4

def descS (d : Descriptor) : Bool := d.getLsbD 44

def descDpl (d : Descriptor) : BitVec 2 := d.extractLsb' 45 2

def descP (d : Descriptor) : Bool := d.getLsbD 47

def descBig (d : Descriptor) : Bool := d.getLsbD 54

def descG (d : Descriptor) : Bool := d.getLsbD 55

/-- The access-rights byte, bits 47:40 (R90, R105). -/
def descAccess (d : Descriptor) : Byte := d.extractLsb' 40 8

/-- `limitScaled` (R91). -/
def descLimitScaled (d : Descriptor) : Word :=
  if descG d then (descLimit d <<< 12) ||| 0xFFF else descLimit d

/-- The classification of R93. -/
def isCode (d : Descriptor) : Bool := descS d && (descType d).getLsbD 3

def isData (d : Descriptor) : Bool := descS d && !(descType d).getLsbD 3

def isWritable (d : Descriptor) : Bool := isData d && (descType d).getLsbD 1

def isReadable (d : Descriptor) : Bool := isData d || (isCode d && (descType d).getLsbD 1)

def isConforming (d : Descriptor) : Bool := isCode d && (descType d).getLsbD 2

def isExpandDown (d : Descriptor) : Bool := isData d && (descType d).getLsbD 2

/-- Bit 0 of every error code raised while an exception or external interrupt is delivered (60_exceptions R502, R509). -/
def extBit (ext : Bool) : Word := bitWord ext

/-- `(sel and 0xFFFC) or ext` (60_exceptions R502). -/
def selFault (sel : BitVec 16) (ext : Bool) : Word := selError sel ||| extBit ext

/-- The base and the limit of the table a selector names, or none for an LDT selector while LDTR is invalid (R92). -/
def tableOf (s : State) (sel : BitVec 16) : Option (Word × Nat) :=
  if selLocal sel then
    if s.ldtr.valid then some (s.ldtr.base, s.ldtr.limitScaled.toNat) else none
  else some (s.gdtr.base, s.gdtr.limit.toNat)

/-- Two 4-byte linear reads, the low half first (R83, R92; 60_exceptions R509). -/
def readQuad (s : State) (a : Word) : Res Descriptor :=
  (linRead s a .dword).andThen fun lo s =>
    (linRead s (a + 4) .dword).andThen fun hi s => .ok (hi ++ lo) s

/-- `fetchRawDescriptor(sel, #GP)` (R92): the descriptor and its linear address. -/
def fetchRawDescriptor (s : State) (sel : BitVec 16) (ext : Bool) : Res (Descriptor × Word) :=
  match tableOf s sel with
  | none => .raised (.gp (selFault sel ext)) s
  | some (base, limit) =>
    if limit < selIndex sel * 8 + 7 then .raised (.gp (selFault sel ext)) s
    else
      let a := base + BitVec.ofNat 32 (selIndex sel * 8)
      (readQuad s a).andThen fun d s => .ok (d, a) s

/-! ### Loading a segment register (20_memory R95 to R113) -/

/-- Real mode and V8086 mode (R96): the base is recomputed, access rights and limit stay. -/
def loadSegReal (s : State) (r : SegReg) (v : BitVec 16) : State :=
  setSeg s r { value := v, cache := { (getSeg s r).cache with base := v.setWidth 32 <<< 4, present := true, valid := true } }

/-- The segment register a successful load leaves (R105). -/
def loadedSeg (v : BitVec 16) (d : Descriptor) : SegRegister :=
  { value := v
    cache :=
      { base := descBase d, limitScaled := descLimitScaled d, dpl := descDpl d, type := descType d ||| 1, present := true,
        accessType := descAccess d ||| 1, granularity := descG d, big := descBig d, valid := true } }

/-- The Accessed-bit write of `commit`: only when the bit is 0, one byte at descriptor byte 5 (R105). -/
def markAccessed (s : State) (d : Descriptor) (a : Word) : Res Unit :=
  if d.getLsbD 40 then .ok () s else linWrite s (a + 5) .byte ((descAccess d ||| 1).setWidth 32)

/-- `commit(s, v, d, a)` (R105). -/
def commitSeg (s : State) (r : SegReg) (v : BitVec 16) (d : Descriptor) (a : Word) : Res Unit :=
  (markAccessed s d a).andThen fun _ s => .ok () (setSeg s r (loadedSeg v d))

/-- Loading SS in protected mode (R101, R104). -/
def loadSs (s : State) (v : BitVec 16) : Res Unit :=
  if selNull v then .raised (.gp 0) s
  else if selRpl v ≠ s.cpl then .raised (.gp (selError v)) s
  else (fetchRawDescriptor s v false).andThen fun da s =>
    if !isWritable da.1 then .raised (.gp (selError v)) s
    else if isExpandDown da.1 then .aborted (.unimplemented .expandDown) s
    else if descDpl da.1 ≠ s.cpl then .raised (.gp (selError v)) s
    else if !descP da.1 then .raised (.ss (selError v)) s
    else commitSeg s .ss v da.1 da.2

/-- `max(RPL, CPL)` (R103). -/
def maxRplCpl (s : State) (v : BitVec 16) : BitVec 2 := if selRpl v < s.cpl then s.cpl else selRpl v

/-- Loading DS, ES, FS, GS in protected mode (R103, R104). -/
def loadData (s : State) (r : SegReg) (v : BitVec 16) : Res Unit :=
  if selNull v then
    .ok () (setSeg s r { value := v, cache := { (getSeg s r).cache with valid := false } })
  else (fetchRawDescriptor s v false).andThen fun da s =>
    if !isReadable da.1 then .raised (.gp (selError v)) s
    else if isExpandDown da.1 then .aborted (.unimplemented .expandDown) s
    else if descDpl da.1 < maxRplCpl s v then .raised (.gp (selError v)) s
    else if !descP da.1 then .raised (.np (selError v)) s
    else commitSeg s r v da.1 da.2

/-- The kind of a CS load (R107). -/
inductive CsKind where
  | jump
  | ret
  | int
deriving DecidableEq, Repr

/-- The privilege rules of a CS load (R107). -/
def csPrivilege (s : State) (v : BitVec 16) (d : Descriptor) (kind : CsKind) (err : Word) : Res Unit :=
  match kind with
  | .jump =>
    if isConforming d then raiseIf (decide (s.cpl < descDpl d)) (.gp err) s
    else raiseIf (decide (s.cpl < selRpl v) || decide (descDpl d ≠ s.cpl)) (.gp err) s
  | .ret =>
    (raiseIf (decide (selRpl v < s.cpl)) (.gp err) s).andThen fun _ s =>
      (abortIf (decide (s.cpl < selRpl v)) (.unimplemented .returnToOuterLevel) s).andThen fun _ s =>
        if isConforming d then raiseIf (decide (selRpl v < descDpl d)) (.gp err) s
        else raiseIf (decide (descDpl d ≠ selRpl v)) (.gp err) s
  | .int =>
    (raiseIf (decide (s.cpl < descDpl d)) (.gp err) s).andThen fun _ s =>
      abortIf (!isConforming d && decide (descDpl d < s.cpl)) (.unimplemented .interLevelInterrupt) s

/-- The selector a CS load stores: its RPL is the old CPL (R107). -/
def csSelector (s : State) (v : BitVec 16) : BitVec 16 := (v &&& 0xFFFC) ||| s.cpl.setWidth 16

/-- Loading CS in protected mode (R107, R108). `ext` is bit 0 of its error codes (60_exceptions R509). -/
def loadCs (s : State) (v : BitVec 16) (kind : CsKind) (ext : Bool) : Res Unit :=
  if selNull v then .raised (.gp (extBit ext)) s
  else (fetchRawDescriptor s v ext).andThen fun da s =>
    if !descS da.1 then .aborted (.unimplemented (.gateOrTask (descType da.1))) s
    else if !isCode da.1 then .raised (.gp (selFault v ext)) s
    else (csPrivilege s v da.1 kind (selFault v ext)).andThen fun _ s =>
      if !descP da.1 then .raised (.np (selFault v ext)) s
      else (commitSeg s .cs (csSelector s v) da.1 da.2).andThen fun _ s =>
        .ok () (setCpl s (selRpl (getSeg s .cs).value))

/-- `LoadSeg(s, v, kind)` (R95). -/
def loadSeg (s : State) (r : SegReg) (v : BitVec 16) (kind : CsKind) (ext : Bool) : Res Unit :=
  if isProt s then
    match r with
    | .cs => loadCs s v kind ext
    | .ss => loadSs s v
    | .ds => loadData s .ds v
    | .es => loadData s .es v
    | .fs => loadData s .fs v
    | .gs => loadData s .gs v
  else .ok () (loadSegReal s r v)

/-- A selector load by an instruction that is no far transfer. -/
def loadSegPlain (s : State) (r : SegReg) (v : Word) : Res Unit :=
  loadSeg s r (v.setWidth 16) .jump false

/-- Loading the LDTR (R110). -/
def loadLdtr (s : State) (v : BitVec 16) : Res Unit :=
  if selNull v then .ok () (setLdtr s { s.ldtr with value := v, valid := false })
  else if selLocal v then .raised (.gp (selError v)) s
  else (fetchRawDescriptor s v false).andThen fun da s =>
    if descS da.1 || decide (descType da.1 ≠ 2) then .raised (.gp (selError v)) s
    else if !descP da.1 then .raised (.np (selError v)) s
    else .ok () (setLdtr s
      { value := v, base := descBase da.1, limitScaled := descLimitScaled da.1, valid := true })

/-- The V8086 transition resets access rights and limit of a segment register (R98). No rule reaches it (10_state R45). -/
def v8086Seg (g : SegRegister) : SegRegister :=
  { g with cache := { SegCache.reset g.cache.base with valid := g.cache.valid } }

def v8086Transition (s : State) : State :=
  { s with
    segs :=
      { es := v8086Seg s.segs.es, cs := v8086Seg s.segs.cs, ss := v8086Seg s.segs.ss, ds := v8086Seg s.segs.ds,
        fs := v8086Seg s.segs.fs, gs := v8086Seg s.segs.gs } }

/-! ### Far transfers (45_control_transfer R468) -/

/-- `FarTransfer(sel, off, kind)`: `off` is already `osz` bits wide. -/
def farTransfer (s : State) (sel : BitVec 16) (off : Word) (kind : CsKind) : Res Unit :=
  (loadSeg s .cs sel kind false).andThen fun _ s => .ok () (setEip s off)

/-! ### Taking an exception or an interrupt (60_exceptions R505 to R513) -/

/-- `kind` of `Deliver` (R505). -/
inductive EventKind where
  | soft
  | exc
  | ext
deriving DecidableEq, Repr

/-- Real-mode delivery (R507): three 16-bit words through the table at IDTR.base. -/
def deliverReal (s : State) (v : Byte) (ret : Word) : Res Unit :=
  if s.idtr.limit.toNat < 4 * v.toNat + 3 then .aborted (.memoryFaultIvt v) s
  else
    let a := s.idtr.base + BitVec.ofNat 32 (4 * v.toNat)
    (linRead s a .word).andThen fun off s =>
    (linRead s (a + 2) .word).andThen fun sel s =>
    (push (touchAllFlags s) .s16 (flagsImage s)).andThen fun _ s =>
    (push s .s16 ((getSeg s .cs).value.setWidth 32)).andThen fun _ s =>
    (push s .s16 ret).andThen fun _ s =>
    .ok () (setEip (loadSegReal (setPlainFlag (setPlainFlag s ifPos false) tfPos false) .cs (sel.setWidth 16)) off)

/-- Fields of an IDT gate (R510). -/
def gateSelector (g : Descriptor) : BitVec 16 := g.extractLsb' 16 16

def gateOffset (g : Descriptor) : Word :=
  (g.extractLsb' 0 16).setWidth 32 ||| ((g.extractLsb' 48 16).setWidth 32 <<< 16)

/-- The gate types the block knows: 5 task gate, 6 and 7 of 16 bits, 14 and 15 of 32 bits (R509, R510). -/
def gateTypeKnown (g : Descriptor) : Bool :=
  descType g == 5 || descType g == 6 || descType g == 7 || descType g == 14 || descType g == 15

/-- The gate's width (R509). -/
def gateSize (g : Descriptor) : Size := if descType g == 14 || descType g == 15 then .s32 else .s16

/-- An interrupt gate clears IF (R509). -/
def gateClearsIf (g : Descriptor) : Bool := descType g == 6 || descType g == 14

/-- The error code of a fault of delivery itself, `8 * v + 2 + ext` (R502, R509). -/
def gateError (v : Byte) (ext : Bool) : Word := BitVec.ofNat 32 (8 * v.toNat + 2) + extBit ext

/-- The checks on the gate, in the order of R509. -/
def gateChecks (s : State) (g : Descriptor) (v : Byte) (kind : EventKind) (ext : Bool) : Res Unit :=
  if descS g || !gateTypeKnown g then .raised (.gp (gateError v ext)) s
  else if descType g == 5 then .aborted (.unimplemented .taskGate) s
  else if decide (kind = .soft) && decide (descDpl g < s.cpl) then .raised (.gp (gateError v ext)) s
  else if !descP g then .raised (.np (gateError v ext)) s
  else .ok () s

/-- The optional fourth slot of the frame (R509, R511). -/
def pushErrorSlot (s : State) (sz : Size) (err : Option Word) : Res Unit :=
  match err with
  | none => .ok () s
  | some e => segWrite s .ss (slotBelow s (4 * sz.bytes)) sz.width e

/-- The error code of a #SS that a frame write raises (log entry 12): as raised, or with bit 0 = `ext` (R509). -/
def frameFault (s : State) (ext : Bool) (e : Exc) : Exc :=
  match s.cfg.frameErr, e with
  | .ext, .ss c => .ss (c ||| extBit ext)
  | _, e => e

/-- A frame write inside a delivery. -/
def frameRes (ext : Bool) (r : Res Unit) : Res Unit :=
  match r with
  | .ok x s => .ok x s
  | .raised e s => .raised (frameFault s ext e) s
  | .aborted k s => .aborted k s

/-- The frame of R509: flags, CS, return offset, and the error code where the exception has one. The pointer moves later. -/
def writeFrame (s : State) (sz : Size) (ret : Word) (err : Option Word) : Res Unit :=
  (segWrite (touchAllFlags s) .ss (slotBelow s sz.bytes) sz.width (flagsImage s)).andThen fun _ s =>
  (segWrite s .ss (slotBelow s (2 * sz.bytes)) sz.width ((getSeg s .cs).value.setWidth 32)).andThen fun _ s =>
  (segWrite s .ss (slotBelow s (3 * sz.bytes)) sz.width ret).andThen fun _ s =>
  pushErrorSlot s sz err

/-- The flags delivery clears (R509). -/
def clearGateFlags (s : State) (g : Descriptor) : State :=
  let s := if gateClearsIf g then setPlainFlag s ifPos false else s
  setPlainFlag (setPlainFlag (setPlainFlag s tfPos false) ntPos false) rfPos false

/-- Protected-mode delivery (R509). -/
def deliverProt (s : State) (v : Byte) (kind : EventKind) (err : Option Word) (ret : Word) : Res Unit :=
  let ext := decide (kind ≠ .soft)
  let code := if kind = .exc then err else none
  if s.idtr.limit.toNat < 8 * v.toNat + 7 then .raised (.gp (gateError v ext)) s
  else
    (readQuad s (s.idtr.base + BitVec.ofNat 32 (8 * v.toNat))).andThen fun g s =>
    (gateChecks s g v kind ext).andThen fun _ s =>
    (frameRes ext (writeFrame s (gateSize g) ret code)).andThen fun _ s =>
    (loadSeg s .cs (gateSelector g) .int ext).andThen fun _ s =>
    let s := setStackPtr s (slotBelow s ((if code.isSome then 4 else 3) * (gateSize g).bytes))
    .ok () (setEip (clearGateFlags s g) (truncSize (gateSize g) (gateOffset g)))

/-- `Deliver(v, kind, err, ret)` (R505). -/
def deliver (s : State) (v : Byte) (kind : EventKind) (err : Option Word) (ret : Word) : Res Unit :=
  if isReal s then deliverReal s v ret
  else if isProt s then deliverProt s v kind err ret
  else .aborted (.unimplemented .v8086Interrupt) s

/-- The vector of an exception (R501). -/
def Exc.vector : Exc → Byte
  | .de => 0
  | .np _ => 11
  | .ss _ => 12
  | .gp _ => 13

/-- Its error code (R501, R511). -/
def Exc.error : Exc → Option Word
  | .de => none
  | .np e | .ss e | .gp e => some e

/-- `abort Kind(info)` (R530): ABORTED, the information latched, EIP back at the instruction's start. -/
def abortState (s : State) (k : AbortInfo) : State :=
  { s with eip := s.start, sched := { s.sched with runState := .aborted, abortInfo := some k } }

/-- HALTED, and the halted event (R528). -/
def haltState (s : State) (shutdown : Bool) : State :=
  { s with sched := { s.sched with runState := .halted, shutdown := shutdown, haltEvents := s.sched.haltEvents + 1 } }

/-- What a second exception during the delivery of a contributory one leads to: #DF, and shutdown when #DF cannot be
delivered (R512, R513). -/
def doubleFault (s : State) (ret : Word) : State :=
  match deliver s 8 .exc (some 0) ret with
  | .ok _ s' => s'
  | .aborted k s' => abortState s' k
  | .raised _ s' => haltState s' true

/-- `raise #XX(err)` inside an instruction (R505): EIP goes back to its start, which is the saved EIP (R506), and the
exception is delivered. TAKING AN EXCEPTION is this one operation. -/
def takeException (s : State) (e : Exc) : State :=
  match deliver (setEip s s.start) (Exc.vector e) .exc (Exc.error e) s.start with
  | .ok _ s' => s'
  | .aborted k s' => abortState s' k
  | .raised _ s' => doubleFault s' s.start

/-- A software interrupt or trap: saved EIP is the next instruction (R505, R506; 45_control_transfer R464, R465, R467). -/
def softInterrupt (s : State) (v : Byte) : Res Unit := deliver s v .soft none s.eip

/-- How an instruction ends (R500). -/
def settle (r : Res Unit) : State :=
  match r with
  | .ok _ s => s
  | .raised e s => takeException s e
  | .aborted k s => abortState s k

/-- The outcome of an instruction: an exception and an abort are next states (log entry 6). -/
def complete (r : Res Unit) : Host.Outcome State Fault Refusal := .next (settle r)

/-- Taking an external interrupt (R522): the next vector is acknowledged and delivered with the EIP of the boundary as return
address; a fault of this delivery is delivered as itself with the same return address (R512, log entry 23). -/
def takeInterrupt (s : State) (v : Byte) : State :=
  let s := { s with start := s.eip, inputs := { s.inputs with intr := s.inputs.intr.tail } }
  settle (deliver s v .ext none s.eip)

/-! ### The return from an exception or interrupt (45_control_transfer R466) -/

/-- The EFLAGS bits POPF and IRET may load (40_lazy_flags R258; 45_control_transfer R466): IF and IOPL by privilege. -/
def loadableFlags (s : State) : Word :=
  0x00004DD5 ||| (if isReal s || decide (s.cpl ≤ iopl s) then 0x00000200 else 0) |||
    (if isReal s || decide (s.cpl = 0) then 0x00003000 else 0)

/-- IRET loads RF too when the operand size is 32 (R466). -/
def iretMask (s : State) (osz : Size) : Word :=
  loadableFlags s ||| (if osz = .s32 then 0x00010000 else 0)

/-- IRET (R466). -/
def returnFromInterrupt (s : State) (osz : Size) : Res Unit :=
  (v86Guard s).andThen fun _ s =>
  (abortIf (isProt s && plainFlag s ntPos) (.unimplemented .taskReturn) s).andThen fun _ s =>
  (peek s osz 0).andThen fun off s =>
  (peek s osz osz.bytes).andThen fun sel s =>
  (peek s osz (2 * osz.bytes)).andThen fun f s =>
  (abortIf (isProt s && decide (osz = .s32) && f.getLsbD 17) (.unimplemented .returnToV8086) s).andThen fun _ s =>
  let m := iretMask s osz
  (farTransfer s (sel.setWidth 16) off .ret).andThen fun _ s =>
  .ok () (writeFlags (drop s (3 * osz.bytes)) f m)

end Sys2Proof.Machine
end

