-- ==== Sys2Proof/Machine/Operands.lean ====
section
/-! DEFINITION. Operands: effective addresses (30_encoding R165 to R169, R181), the accessors ReadOp and WriteOp (R180 to
R185), and the operands each form of the syntax names. -/

namespace Sys2Proof.Machine

/-- An operand record (10_state R48) as its accessor sees it (R180): a register of a width, a memory operand of a width, or an
immediate already extended. -/
inductive Operand where
  | reg (w : Width) (r : Reg)
  | mem (w : Width) (m : MemRef)
  | imm (v : Word)
deriving DecidableEq, Repr

/-! ### Effective addresses -/

/-- Base plus index of the 16-bit table (R165). -/
def base16Value (s : State) : Base16 → Word
  | .bxsi => getReg s .word .bx + getReg s .word .si
  | .bxdi => getReg s .word .bx + getReg s .word .di
  | .bpsi => getReg s .word .bp + getReg s .word .si
  | .bpdi => getReg s .word .bp + getReg s .word .di
  | .si => getReg s .word .si
  | .di => getReg s .word .di
  | .bp => getReg s .word .bp
  | .bx => getReg s .word .bx

/-- `signExtend(displacement, displacementSize, asz/8)` (R168, R181); truncation to the address width comes last. -/
def dispValue {n : Nat} : Disp n → Word
  | .none => 0
  | .d8 d => sextByte d
  | .full d => d.setWidth 32

/-- `EA(op, extra)` (R181). -/
def effAddr (s : State) (m : MemRef) (extra : Nat) : Word :=
  match m with
  | .base16 b d => (base16Value s b + BitVec.ofNat 32 extra + dispValue d) &&& 0xFFFF
  | .abs16 d => (BitVec.ofNat 32 extra + d.setWidth 32) &&& 0xFFFF
  | .base32 r d => reg32 s r + BitVec.ofNat 32 extra + dispValue d
  | .abs32 d => BitVec.ofNat 32 extra + d

/-- The default segment of a memory form: SS when BP or EBP is in the address (R165, R166, R167, R169). -/
def defaultSeg : MemRef → SegReg
  | .base16 .bpsi _ | .base16 .bpdi _ | .base16 .bp _ => .ss
  | .base32 .bp _ => .ss
  | _ => .ds

/-- `seg(op)` (R166, R184): an override always wins (R143). -/
def segFor (a : Attrs) (m : MemRef) : SegReg := a.seg.getD (defaultSeg m)

/-- `insn.segreg` of an instruction whose memory operand is implied: DS unless overridden (R142). -/
def implicitSeg (a : Attrs) : SegReg := a.seg.getD .ds

/-! ### Accessors -/

/-- `ReadOp(op)` (R182). -/
def readOp (a : Attrs) (s : State) : Operand → Res Word
  | .reg w r => .ok (getReg s w r) s
  | .mem w m => segRead s (segFor a m) (effAddr s m 0) w
  | .imm v => .ok v s

/-- `WriteOp(op, v)` (R183). No admitted entry has an immediate destination. -/
def writeOp (a : Attrs) (s : State) (op : Operand) (v : Word) : Res Unit :=
  match op with
  | .reg w r => .ok () (setReg s w r v)
  | .mem w m => segWrite s (segFor a m) (effAddr s m 0) w v
  | .imm _ => .ok () s

/-- A far pointer in memory: the offset, then the 16-bit selector (R83; 41_data_movement R299). -/
def readFar (a : Attrs) (s : State) (m : MemRef) : Res (Word × BitVec 16) :=
  (segRead s (segFor a m) (effAddr s m 0) a.osz.width).andThen fun off s =>
  (segRead s (segFor a m) (effAddr s m a.osz.bytes) .word).andThen fun sel s =>
  .ok (off, sel.setWidth 16) s

/-! ### The operands of the forms -/

/-- An E operand of width `w` (R163). -/
def rmOp (w : Width) : Rm → Operand
  | .reg r => .reg w r
  | .mem m => .mem w m

/-- A byte immediate extended to the first operand's size (R159). -/
def immByte (w : Width) (i : Byte) : Operand := .imm (trunc w (sextByte i))

/-- The operand an O method names (R162). -/
def moffsRef (asz : Size) (o : Word) : MemRef :=
  match asz with
  | .s16 => .abs16 (o.setWidth 16)
  | .s32 => .abs32 o

/-- Width, destination and source of a two-operand form (42_arithmetic_logic R330). -/
structure TwoOperands where
  width : Width
  dst : Operand
  src : Operand
deriving DecidableEq, Repr

def AluForm.operands (a : Attrs) : AluForm → TwoOperands
  | .ebGb e g => ⟨.byte, rmOp .byte e, .reg .byte g⟩
  | .evGv e g => ⟨a.osz.width, rmOp a.osz.width e, .reg a.osz.width g⟩
  | .gbEb g e => ⟨.byte, .reg .byte g, rmOp .byte e⟩
  | .gvEv g e => ⟨a.osz.width, .reg a.osz.width g, rmOp a.osz.width e⟩
  | .alIb i => ⟨.byte, .reg .byte .ax, immByte .byte i⟩
  | .eaxIv i => ⟨a.osz.width, .reg a.osz.width .ax, .imm (trunc a.osz.width i)⟩
  | .ebIb e i => ⟨.byte, rmOp .byte e, immByte .byte i⟩
  | .evIv e i => ⟨a.osz.width, rmOp a.osz.width e, .imm (trunc a.osz.width i)⟩
  | .evIb e i => ⟨a.osz.width, rmOp a.osz.width e, immByte a.osz.width i⟩

def TestForm.operands (a : Attrs) : TestForm → TwoOperands
  | .ebGb e g => ⟨.byte, rmOp .byte e, .reg .byte g⟩
  | .evGv e g => ⟨a.osz.width, rmOp a.osz.width e, .reg a.osz.width g⟩
  | .alIb i => ⟨.byte, .reg .byte .ax, immByte .byte i⟩
  | .eaxIv i => ⟨a.osz.width, .reg a.osz.width .ax, .imm (trunc a.osz.width i)⟩
  | .ebIb e i => ⟨.byte, rmOp .byte e, immByte .byte i⟩
  | .evIv e i => ⟨a.osz.width, rmOp a.osz.width e, .imm (trunc a.osz.width i)⟩

def MovForm.operands (a : Attrs) : MovForm → TwoOperands
  | .ebGb e g => ⟨.byte, rmOp .byte e, .reg .byte g⟩
  | .evGv e g => ⟨a.osz.width, rmOp a.osz.width e, .reg a.osz.width g⟩
  | .gbEb g e => ⟨.byte, .reg .byte g, rmOp .byte e⟩
  | .gvEv g e => ⟨a.osz.width, .reg a.osz.width g, rmOp a.osz.width e⟩
  | .rbIb g i => ⟨.byte, .reg .byte g, immByte .byte i⟩
  | .rvIv g i => ⟨a.osz.width, .reg a.osz.width g, .imm (trunc a.osz.width i)⟩
  | .ebIb e i => ⟨.byte, rmOp .byte e, immByte .byte i⟩
  | .evIv e i => ⟨a.osz.width, rmOp a.osz.width e, .imm (trunc a.osz.width i)⟩

def MoffsForm.operands (a : Attrs) : MoffsForm → TwoOperands
  | .alOb o => ⟨.byte, .reg .byte .ax, .mem .byte (moffsRef a.asz o)⟩
  | .eaxOv o => ⟨a.osz.width, .reg a.osz.width .ax, .mem a.osz.width (moffsRef a.asz o)⟩
  | .obAl o => ⟨.byte, .mem .byte (moffsRef a.asz o), .reg .byte .ax⟩
  | .ovEax o => ⟨a.osz.width, .mem a.osz.width (moffsRef a.asz o), .reg a.osz.width .ax⟩

def XchgForm.operands (a : Attrs) : XchgForm → TwoOperands
  | .ebGb e g => ⟨.byte, rmOp .byte e, .reg .byte g⟩
  | .evGv e g => ⟨a.osz.width, rmOp a.osz.width e, .reg a.osz.width g⟩
  | .eaxR g => ⟨a.osz.width, .reg a.osz.width .ax, .reg a.osz.width g⟩

/-- IMUL's destination and its two factors (42_arithmetic_logic R352). -/
structure ImulOperands where
  dst : Operand
  src1 : Operand
  src2 : Operand
deriving DecidableEq, Repr

def ImulForm.operands (a : Attrs) : ImulForm → ImulOperands
  | .gvEv g e => ⟨.reg a.osz.width g, .reg a.osz.width g, rmOp a.osz.width e⟩
  | .gvEvIv g e i => ⟨.reg a.osz.width g, rmOp a.osz.width e, .imm (trunc a.osz.width i)⟩
  | .gvEvIb g e i => ⟨.reg a.osz.width g, rmOp a.osz.width e, immByte a.osz.width i⟩

/-- Width and operand of a one-operand form. -/
structure OneOperand where
  width : Width
  op : Operand
deriving DecidableEq, Repr

def UnaryForm.operand (a : Attrs) : UnaryForm → OneOperand
  | .eb e => ⟨.byte, rmOp .byte e⟩
  | .ev e => ⟨a.osz.width, rmOp a.osz.width e⟩

def IncForm.operand (a : Attrs) : IncForm → OneOperand
  | .r g => ⟨a.osz.width, .reg a.osz.width g⟩
  | .eb e => ⟨.byte, rmOp .byte e⟩
  | .ev e => ⟨a.osz.width, rmOp a.osz.width e⟩

/-- Width, operand and count operand of a shift (43_shift_rotate R390); an `Ib` extends to the first operand (30_encoding
R159). -/
def ShiftForm.operands (a : Attrs) : ShiftForm → TwoOperands
  | .ebIb e i => ⟨.byte, rmOp .byte e, immByte .byte i⟩
  | .evIb e i => ⟨a.osz.width, rmOp a.osz.width e, immByte a.osz.width i⟩
  | .eb1 e => ⟨.byte, rmOp .byte e, .imm 1⟩
  | .ev1 e => ⟨a.osz.width, rmOp a.osz.width e, .imm 1⟩
  | .ebCL e => ⟨.byte, rmOp .byte e, .reg .byte .cx⟩
  | .evCL e => ⟨a.osz.width, rmOp a.osz.width e, .reg .byte .cx⟩

/-- The source of a MOVZX or MOVSX (41_data_movement R278, R279). -/
def ExtForm.source : ExtForm → OneOperand
  | .gvEb _ e => ⟨.byte, rmOp .byte e⟩
  | .gvEw _ e => ⟨.word, rmOp .word e⟩

def ExtForm.target : ExtForm → Reg
  | .gvEb g _ => g
  | .gvEw g _ => g

/-- The operand of a PUSH (41_data_movement R292); an `Ib` extends to `osz` (30_encoding R159). -/
def PushForm.operand (a : Attrs) : PushForm → Operand
  | .r g => .reg a.osz.width g
  | .iv i => .imm (trunc a.osz.width i)
  | .ib i => immByte a.osz.width i
  | .ev e => rmOp a.osz.width e

/-- The element width of a string instruction (44_string R410). -/
def StrForm.width (a : Attrs) : StrForm → Width
  | .b => .byte
  | .v => a.osz.width

/-- `signExtend(immed, immedSize, 4)` of a relative offset (30_encoding R160). -/
def RelForm.offset (a : Attrs) : RelForm → Word
  | .jb d => sextByte d
  | .jv d => sext a.osz.width d

end Sys2Proof.Machine
end

