-- ==== Sys2Proof/Machine/Arith.lean ====
section
/-! DEFINITION. Integer arithmetic and logic (42_arithmetic_logic R330 to R370). -/

namespace Sys2Proof.Machine

/-! ### The two-operand form (R330) -/

/-- The two-operand form that writes its result: read both, compute modulo 2^N, write, store the snapshot. `op` is given the
carry flag, which the form reads only when `useCf` is set (R332, R334). -/
def aluWrite (a : Attrs) (t : TwoOperands) (kind : FlagKind) (useCf : Bool) (op : Word → Word → Word → Word) (s : State) :
    Res Unit :=
  (readOp a s t.dst).andThen fun x s =>
  (readOp a s t.src).andThen fun y s =>
  let c := bitWord (flagOf s .cf)
  let s := if useCf then touchFlag s .cf else s
  let r := trunc t.width (op x y c)
  (writeOp a s t.dst r).andThen fun _ s => .ok () (lazyStore s kind t.width x y r)

/-- The two-operand form that writes nothing: CMP and TEST (R330). -/
def aluTest (a : Attrs) (t : TwoOperands) (kind : FlagKind) (op : Word → Word → Word) (s : State) : Res Unit :=
  (readOp a s t.dst).andThen fun x s =>
  (readOp a s t.src).andThen fun y s =>
  .ok () (lazyStore s kind t.width x y (trunc t.width (op x y)))

/-- The logic form: as `aluWrite`, with AF left undefined by the 80386 (R235, U1). -/
def logicWrite (a : Attrs) (t : TwoOperands) (op : Word → Word → Word) (s : State) : Res Unit :=
  (aluWrite a t .logic false (fun x y _ => op x y) s).andThen fun _ s => .ok () (leaveFree s .af)

/-- ADD (R331). -/
def execAdd (a : Attrs) (f : AluForm) (s : State) : Host.Outcome State Fault Refusal :=
  complete (aluWrite a (AluForm.operands a f) .add false (fun x y _ => x + y) s)

/-- ADC (R332). -/
def execAdc (a : Attrs) (f : AluForm) (s : State) : Host.Outcome State Fault Refusal :=
  complete (aluWrite a (AluForm.operands a f) .adc true (fun x y c => x + y + c) s)

/-- SUB (R333). -/
def execSub (a : Attrs) (f : AluForm) (s : State) : Host.Outcome State Fault Refusal :=
  complete (aluWrite a (AluForm.operands a f) .sub false (fun x y _ => x - y) s)

/-- SBB (R334). -/
def execSbb (a : Attrs) (f : AluForm) (s : State) : Host.Outcome State Fault Refusal :=
  complete (aluWrite a (AluForm.operands a f) .sbb true (fun x y c => x - y - c) s)

/-- CMP (R335). -/
def execCmp (a : Attrs) (f : AluForm) (s : State) : Host.Outcome State Fault Refusal :=
  complete (aluTest a (AluForm.operands a f) .cmp (fun x y => x - y) s)

/-- AND (R360). -/
def execAnd (a : Attrs) (f : AluForm) (s : State) : Host.Outcome State Fault Refusal :=
  complete (logicWrite a (AluForm.operands a f) (fun x y => x &&& y) s)

/-- OR (R361). -/
def execOr (a : Attrs) (f : AluForm) (s : State) : Host.Outcome State Fault Refusal :=
  complete (logicWrite a (AluForm.operands a f) (fun x y => x ||| y) s)

/-- XOR (R362). -/
def execXor (a : Attrs) (f : AluForm) (s : State) : Host.Outcome State Fault Refusal :=
  complete (logicWrite a (AluForm.operands a f) (fun x y => x ^^^ y) s)

/-- TEST (R363). -/
def execTest (a : Attrs) (f : TestForm) (s : State) : Host.Outcome State Fault Refusal :=
  complete ((aluTest a (TestForm.operands a f) .logic (fun x y => x &&& y) s).andThen fun _ s => .ok () (leaveFree s .af))

/-! ### One operand -/

/-- INC and DEC: CF is preserved by reading it before the snapshot and putting it back (R336, R337; 40_lazy_flags R227). -/
def stepOperand (a : Attrs) (t : OneOperand) (kind : FlagKind) (op : Word → Word) (s : State) : Res Unit :=
  (readOp a s t.op).andThen fun x s =>
  let r := trunc t.width (op x)
  let c := flagOf s .cf
  (writeOp a (touchFlag s .cf) t.op r).andThen fun _ s => .ok () (setFlag (lazyStore s kind t.width x 1 r) .cf c)

/-- INC (R336). -/
def execInc (a : Attrs) (f : IncForm) (s : State) : Host.Outcome State Fault Refusal :=
  complete (stepOperand a (IncForm.operand a f) .inc (fun x => x + 1) s)

/-- DEC (R337). -/
def execDec (a : Attrs) (f : IncForm) (s : State) : Host.Outcome State Fault Refusal :=
  complete (stepOperand a (IncForm.operand a f) .dec (fun x => x - 1) s)

/-- NEG (R338). -/
def execNeg (a : Attrs) (f : UnaryForm) (s : State) : Host.Outcome State Fault Refusal :=
  complete ((readOp a s (UnaryForm.operand a f).op).andThen fun x s =>
    let r := trunc (UnaryForm.operand a f).width (0 - x)
    (writeOp a s (UnaryForm.operand a f).op r).andThen fun _ s =>
      .ok () (lazyStore s .neg (UnaryForm.operand a f).width x 0 r))

/-- NOT (R364): no flag is touched. -/
def execNot (a : Attrs) (f : UnaryForm) (s : State) : Host.Outcome State Fault Refusal :=
  complete ((readOp a s (UnaryForm.operand a f).op).andThen fun x s =>
    writeOp a s (UnaryForm.operand a f).op (x ^^^ maskOf (UnaryForm.operand a f).width))

/-! ### Multiply (R350 to R352) -/

/-- The accumulator of a width: AL, AX or EAX. -/
def accumulator (s : State) (w : Width) : Word := getReg s w .ax

/-- Where a double-width value goes: AX; DX and AX; EDX and EAX (R350). -/
def setDouble (s : State) (w : Width) (p : BitVec 64) : State :=
  match w with
  | .byte => setReg s .word .ax (p.setWidth 32)
  | .word => setReg (setReg s .word .dx ((p >>> 16).setWidth 32)) .word .ax (p.setWidth 32)
  | .dword => setReg (setReg s .dword .dx ((p >>> 32).setWidth 32)) .dword .ax (p.setWidth 32)

/-- The flags MUL and IMUL leave undefined on an 80386 (R235, U1, U2). -/
def mulUndefined : List Flag := [.sf, .zf, .pf, .af]

/-- MUL (R350). -/
def execMul (a : Attrs) (f : UnaryForm) (s : State) : Host.Outcome State Fault Refusal :=
  complete ((readOp a s (UnaryForm.operand a f).op).andThen fun y s =>
    let w := (UnaryForm.operand a f).width
    let x := accumulator s w
    let p : BitVec 64 := x.setWidth 64 * y.setWidth 64
    .ok () (leaveAllFree (lazyStore (setDouble s w p) .mul w x y (trunc w (p.setWidth 32))) mulUndefined))

/-- IMUL with one operand (R351). -/
def execImulOne (a : Attrs) (f : UnaryForm) (s : State) : Host.Outcome State Fault Refusal :=
  complete ((readOp a s (UnaryForm.operand a f).op).andThen fun y s =>
    let w := (UnaryForm.operand a f).width
    let x := accumulator s w
    let p : BitVec 64 := BitVec.ofInt 64 (signed w x * signed w y)
    .ok () (leaveAllFree (lazyStore (setDouble s w p) .imul w x y (trunc w (p.setWidth 32))) mulUndefined))

/-- IMUL with two and three operands (R352). -/
def execImul (a : Attrs) (f : ImulForm) (s : State) : Host.Outcome State Fault Refusal :=
  complete ((readOp a s (ImulForm.operands a f).src1).andThen fun x s =>
    (readOp a s (ImulForm.operands a f).src2).andThen fun y s =>
    let w := a.osz.width
    let r := ofIntTrunc w (signed w x * signed w y)
    (writeOp a s (ImulForm.operands a f).dst r).andThen fun _ s =>
      .ok () (leaveAllFree (lazyStore s .imul w x y r) mulUndefined))

/-! ### Divide (R353, R354) -/

/-- The dividend: AX; DX and AX; EDX and EAX (R353), as a number of 2N bits. -/
def dividend (s : State) (w : Width) : Nat :=
  match w with
  | .byte => (getReg s .word .ax).toNat
  | .word => (getReg s .word .dx).toNat * 65536 + (getReg s .word .ax).toNat
  | .dword => (getReg s .dword .dx).toNat * 4294967296 + (getReg s .dword .ax).toNat

/-- The dividend as a signed number of 2N bits (R354). -/
def signedDividend (s : State) (w : Width) : Int :=
  if dividend s w < 2 ^ (2 * w.bits - 1) then (dividend s w : Int) else (dividend s w : Int) - 2 ^ (2 * w.bits)

/-- Quotient and remainder go to AL and AH, AX and DX, EAX and EDX (R353). -/
def setQuotient (s : State) (w : Width) (q m : Word) : State :=
  match w with
  | .byte => setReg (setReg s .byte .ax q) .byte .sp m
  | .word => setReg (setReg s .word .ax q) .word .dx m
  | .dword => setReg (setReg s .dword .ax q) .dword .dx m

/-- The flags DIV and IDIV leave undefined on an 80386 (R353, U5). -/
def divUndefined : List Flag := [.cf, .pf, .af, .zf, .sf, .ovf]

/-- DIV (R353). -/
def execDiv (a : Attrs) (f : UnaryForm) (s : State) : Host.Outcome State Fault Refusal :=
  complete ((readOp a s (UnaryForm.operand a f).op).andThen fun y s =>
    let w := (UnaryForm.operand a f).width
    let d := dividend s w
    (raiseIf (decide (y = 0)) .de s).andThen fun _ s =>
    (raiseIf (decide ((maskOf w).toNat < d / y.toNat)) .de s).andThen fun _ s =>
    .ok () (leaveAllFree
      (setQuotient s w (BitVec.ofNat 32 (d / y.toNat)) (BitVec.ofNat 32 (d % y.toNat))) divUndefined))

/-- The quotient does not fit: outside -2^(N-1) to 2^(N-1) - 1 (R354). -/
def quotientOverflows (w : Width) (q : Int) : Bool :=
  decide (q < -(2 ^ (w.bits - 1))) || decide (2 ^ (w.bits - 1) ≤ q)

/-- IDIV (R354): the quotient truncates toward zero, the remainder has the sign of the dividend. -/
def execIdiv (a : Attrs) (f : UnaryForm) (s : State) : Host.Outcome State Fault Refusal :=
  complete ((readOp a s (UnaryForm.operand a f).op).andThen fun y s =>
    let w := (UnaryForm.operand a f).width
    let d := signedDividend s w
    let b := signed w y
    (raiseIf (decide (y = 0)) .de s).andThen fun _ s =>
    (raiseIf (quotientOverflows w (d.tdiv b)) .de s).andThen fun _ s =>
    .ok () (leaveAllFree
      (setQuotient s w (ofIntTrunc w (d.tdiv b)) (ofIntTrunc w (d - d.tdiv b * b))) divUndefined))

end Sys2Proof.Machine
end

