-- ==== Sys2Proof/Machine/Control.lean ====
section
/-! DEFINITION. Control transfer (45_control_transfer R430 to R468). While an instruction executes, `eip` already holds
the offset of the next one (R430; 10_state R26). -/

namespace Sys2Proof.Machine

/-! ### Jumps -/

/-- A relative target (R430): truncated to 16 bits when `osz` = 16. -/
def relTarget (a : Attrs) (s : State) (d : Word) : Word := truncSize a.osz (s.eip + d)

/-- `EIP <- t` for a relative target. -/
def jumpRel (a : Attrs) (d : Word) (s : State) : State := setEip s (relTarget a s d)

/-- JMP, relative (R431). -/
def execJmpRel (a : Attrs) (f : RelForm) (s : State) : Host.Outcome State Fault Refusal :=
  complete (.ok () (jumpRel a (RelForm.offset a f) s))

/-- JMP, near indirect (R432). -/
def execJmpInd (a : Attrs) (e : Rm) (s : State) : Host.Outcome State Fault Refusal :=
  complete ((readOp a s (rmOp a.osz.width e)).andThen fun t s => .ok () (setEip s t))

/-- JMP, far direct (R433). -/
def execJmpFar (a : Attrs) (off : Word) (sel : BitVec 16) (s : State) : Host.Outcome State Fault Refusal :=
  complete (farTransfer s sel (truncSize a.osz off) .jump)

/-- JMP, far indirect (R434). -/
def execJmpFarInd (a : Attrs) (m : MemRef) (s : State) : Host.Outcome State Fault Refusal :=
  complete ((readFar a s m).andThen fun p s => farTransfer s p.2 p.1 .jump)

/-- The common form of Jcc (R435): the flags the condition names become clean; taken, EIP is the target. -/
def jumpCond (c : Cond) (a : Attrs) (f : RelForm) (s : State) : Res Unit :=
  .ok () (if condHolds c s then jumpRel a (RelForm.offset a f) (touchCond c s) else touchCond c s)

/-- JO (R436). -/
def execJo (a : Attrs) (f : RelForm) (s : State) : Host.Outcome State Fault Refusal :=
  complete (jumpCond .o a f s)

/-- JNO (R437). -/
def execJno (a : Attrs) (f : RelForm) (s : State) : Host.Outcome State Fault Refusal :=
  complete (jumpCond .no a f s)

/-- JB (R438). -/
def execJb (a : Attrs) (f : RelForm) (s : State) : Host.Outcome State Fault Refusal :=
  complete (jumpCond .b a f s)

/-- JAE (R439). -/
def execJae (a : Attrs) (f : RelForm) (s : State) : Host.Outcome State Fault Refusal :=
  complete (jumpCond .ae a f s)

/-- JE (R440). -/
def execJe (a : Attrs) (f : RelForm) (s : State) : Host.Outcome State Fault Refusal :=
  complete (jumpCond .e a f s)

/-- JNE (R441). -/
def execJne (a : Attrs) (f : RelForm) (s : State) : Host.Outcome State Fault Refusal :=
  complete (jumpCond .ne a f s)

/-- JBE (R442). -/
def execJbe (a : Attrs) (f : RelForm) (s : State) : Host.Outcome State Fault Refusal :=
  complete (jumpCond .be a f s)

/-- JA (R443). -/
def execJa (a : Attrs) (f : RelForm) (s : State) : Host.Outcome State Fault Refusal :=
  complete (jumpCond .a a f s)

/-- JS (R444). -/
def execJs (a : Attrs) (f : RelForm) (s : State) : Host.Outcome State Fault Refusal :=
  complete (jumpCond .s a f s)

/-- JNS (R445). -/
def execJns (a : Attrs) (f : RelForm) (s : State) : Host.Outcome State Fault Refusal :=
  complete (jumpCond .ns a f s)

/-- JP (R446). -/
def execJp (a : Attrs) (f : RelForm) (s : State) : Host.Outcome State Fault Refusal :=
  complete (jumpCond .p a f s)

/-- JNP (R447). -/
def execJnp (a : Attrs) (f : RelForm) (s : State) : Host.Outcome State Fault Refusal :=
  complete (jumpCond .np a f s)

/-- JL (R448). -/
def execJl (a : Attrs) (f : RelForm) (s : State) : Host.Outcome State Fault Refusal :=
  complete (jumpCond .l a f s)

/-- JGE (R449). -/
def execJge (a : Attrs) (f : RelForm) (s : State) : Host.Outcome State Fault Refusal :=
  complete (jumpCond .ge a f s)

/-- JLE (R450). -/
def execJle (a : Attrs) (f : RelForm) (s : State) : Host.Outcome State Fault Refusal :=
  complete (jumpCond .le a f s)

/-- JG (R451). -/
def execJg (a : Attrs) (f : RelForm) (s : State) : Host.Outcome State Fault Refusal :=
  complete (jumpCond .g a f s)

/-- `CNT`: CX or ECX by the address size (R452 to R455). -/
def loopCount (a : Attrs) (s : State) : Word := getRegSize s a.asz .cx

/-- `CNT <- trunc_asz(CNT - 1)` (R453). -/
def loopDec (a : Attrs) (s : State) : State := setRegSize s a.asz .cx (loopCount a s - 1)

/-- JCXZ, and JECXZ when `asz` = 32 (R452). -/
def execJcxz (a : Attrs) (d : Byte) (s : State) : Host.Outcome State Fault Refusal :=
  complete (.ok () (if loopCount a s = 0 then jumpRel a (sextByte d) s else s))

/-- LOOP (R453). -/
def execLoop (a : Attrs) (d : Byte) (s : State) : Host.Outcome State Fault Refusal :=
  complete (.ok () (if loopCount a (loopDec a s) ≠ 0 then jumpRel a (sextByte d) (loopDec a s) else loopDec a s))

/-- LOOPE and LOOPNE (R454, R455): ZF is read whatever the count is (log entry 21). -/
def loopCond (a : Attrs) (d : Byte) (want : Bool) (s : State) : State :=
  let t := touchFlag (loopDec a s) .zf
  if loopCount a t ≠ 0 ∧ flagOf s .zf = want then jumpRel a (sextByte d) t else t

/-- LOOPE (R454). -/
def execLoope (a : Attrs) (d : Byte) (s : State) : Host.Outcome State Fault Refusal :=
  complete (.ok () (loopCond a d true s))

/-- LOOPNE (R455). -/
def execLoopne (a : Attrs) (d : Byte) (s : State) : Host.Outcome State Fault Refusal :=
  complete (.ok () (loopCond a d false s))

/-! ### Calls and returns -/

/-- CALL, relative (R456). -/
def execCallRel (a : Attrs) (d : Word) (s : State) : Host.Outcome State Fault Refusal :=
  complete ((push s a.osz s.eip).andThen fun _ s => .ok () (jumpRel a (sext a.osz.width d) s))

/-- CALL, near indirect (R457): the target is read before the push. -/
def execCallInd (a : Attrs) (e : Rm) (s : State) : Host.Outcome State Fault Refusal :=
  complete ((readOp a s (rmOp a.osz.width e)).andThen fun t s =>
    (push s a.osz s.eip).andThen fun _ s => .ok () (setEip s t))

/-- The far call (R458): both slots are written before the CS load is checked, and the pointer moves last. -/
def farCall (a : Attrs) (off : Word) (sel : BitVec 16) (s : State) : Res Unit :=
  (segWrite s .ss (slotBelow s a.osz.bytes) a.osz.width ((getSeg s .cs).value.setWidth 32)).andThen fun _ s =>
  (segWrite s .ss (slotBelow s (2 * a.osz.bytes)) a.osz.width s.eip).andThen fun _ s =>
  (farTransfer s sel off .jump).andThen fun _ s =>
  .ok () (setStackPtr s (slotBelow s (2 * a.osz.bytes)))

/-- CALL, far direct (R458). -/
def execCallFar (a : Attrs) (off : Word) (sel : BitVec 16) (s : State) : Host.Outcome State Fault Refusal :=
  complete (farCall a (truncSize a.osz off) sel s)

/-- CALL, far indirect (R459): the pointer is read before any write. -/
def execCallFarInd (a : Attrs) (m : MemRef) (s : State) : Host.Outcome State Fault Refusal :=
  complete ((readFar a s m).andThen fun p s => farCall a p.1 p.2 s)

/-- A near return with a stack adjustment of `k` bytes (R460, R461). -/
def nearReturn (a : Attrs) (k : Nat) (s : State) : Res Unit :=
  (pop s a.osz).andThen fun t s => .ok () (setEip (drop s k) t)

/-- RET (R460). -/
def execRet (a : Attrs) (s : State) : Host.Outcome State Fault Refusal := complete (nearReturn a 0 s)

/-- RET with an immediate (R461). -/
def execRetImm (a : Attrs) (i : BitVec 16) (s : State) : Host.Outcome State Fault Refusal :=
  complete (nearReturn a i.toNat s)

/-- A far return with a stack adjustment of `k` bytes (R462, R463). -/
def farReturn (a : Attrs) (k : Nat) (s : State) : Res Unit :=
  (peek s a.osz 0).andThen fun off s =>
  (peek s a.osz a.osz.bytes).andThen fun sel s =>
  (farTransfer s (sel.setWidth 16) off .ret).andThen fun _ s =>
  .ok () (drop s (2 * a.osz.bytes + k))

/-- RETF (R462). -/
def execRetf (a : Attrs) (s : State) : Host.Outcome State Fault Refusal := complete (farReturn a 0 s)

/-- RETF with an immediate (R463). -/
def execRetfImm (a : Attrs) (i : BitVec 16) (s : State) : Host.Outcome State Fault Refusal :=
  complete (farReturn a i.toNat s)

/-! ### Software interrupts and interrupt return -/

/-- INT n (R464). -/
def execInt (v : Byte) (s : State) : Host.Outcome State Fault Refusal :=
  complete ((v86Guard s).andThen fun _ s => softInterrupt s v)

/-- INT3 (R465): #BP, a trap. -/
def execInt3 (s : State) : Host.Outcome State Fault Refusal := complete (softInterrupt s 3)

/-- INTO (R467): #OF, a trap, when OF = 1. -/
def execInto (s : State) : Host.Outcome State Fault Refusal :=
  complete (if flagOf s .ovf then softInterrupt (touchFlag s .ovf) 4 else .ok () (touchFlag s .ovf))

/-- IRET, and IRETD when `osz` = 32 (R466). -/
def execIret (a : Attrs) (s : State) : Host.Outcome State Fault Refusal := complete (returnFromInterrupt s a.osz)

end Sys2Proof.Machine
end

