-- ==== Sys2Proof/Machine/DataMove.lean ====
section
/-! DEFINITION. Data movement, stack and far-pointer loads (41_data_movement R271 to R304). No instruction of this file
reads or writes a flag. -/

namespace Sys2Proof.Machine

/-- `WriteOp(op1, ReadOp(op2))` (R271, R272). -/
def moveOp (a : Attrs) (t : TwoOperands) (s : State) : Res Unit :=
  (readOp a s t.src).andThen fun v s => writeOp a s t.dst v

/-- MOV (R271). -/
def execMov (a : Attrs) (f : MovForm) (s : State) : Host.Outcome State Fault Refusal :=
  complete (moveOp a (MovForm.operands a f) s)

/-- MOV with a direct memory offset (R272). -/
def execMovMoffs (a : Attrs) (f : MoffsForm) (s : State) : Host.Outcome State Fault Refusal :=
  complete (moveOp a (MoffsForm.operands a f) s)

/-- MOV from a segment register (R273): 16 bits whatever `osz` is. -/
def execMovFromSeg (a : Attrs) (e : Rm) (g : SegReg) (s : State) : Host.Outcome State Fault Refusal :=
  complete (writeOp a s (rmOp .word e) ((getSeg s g).value.setWidth 32))

/-- MOV to a segment register (R274). -/
def execMovToSeg (a : Attrs) (g : SegReg) (e : Rm) (s : State) : Host.Outcome State Fault Refusal :=
  complete ((readOp a s (rmOp .word e)).andThen fun v s => loadSegPlain s g v)

/-- Both operands are read, then both are written (R275). -/
def exchangeOps (a : Attrs) (t : TwoOperands) (s : State) : Res Unit :=
  (readOp a s t.dst).andThen fun x s =>
  (readOp a s t.src).andThen fun y s =>
  (writeOp a s t.dst y).andThen fun _ s => writeOp a s t.src x

/-- XCHG (R275). -/
def execXchg (a : Attrs) (f : XchgForm) (s : State) : Host.Outcome State Fault Refusal :=
  complete (exchangeOps a (XchgForm.operands a f) s)

/-- NOP (R276). -/
def execNop (s : State) : Host.Outcome State Fault Refusal := complete (.ok () s)

/-- LEA (R277): no memory is accessed and no limit is checked. -/
def execLea (a : Attrs) (g : Reg) (m : MemRef) (s : State) : Host.Outcome State Fault Refusal :=
  complete (.ok () (setRegSize s a.osz g (effAddr s m 0)))

/-- MOVZX (R278). -/
def execMovzx (a : Attrs) (f : ExtForm) (s : State) : Host.Outcome State Fault Refusal :=
  complete ((readOp a s (ExtForm.source f).op).andThen fun v s =>
    .ok () (setRegSize s a.osz (ExtForm.target f) (trunc (ExtForm.source f).width v)))

/-- MOVSX (R279). -/
def execMovsx (a : Attrs) (f : ExtForm) (s : State) : Host.Outcome State Fault Refusal :=
  complete ((readOp a s (ExtForm.source f).op).andThen fun v s =>
    .ok () (setRegSize s a.osz (ExtForm.target f) (sext (ExtForm.source f).width v)))

/-- CBW, and CWDE when `osz` = 32 (R280). -/
def execCbw (a : Attrs) (s : State) : Host.Outcome State Fault Refusal :=
  complete (.ok () (match a.osz with
    | .s16 => setReg s .word .ax (sext .byte (getReg s .byte .ax))
    | .s32 => setReg s .dword .ax (sext .word (getReg s .word .ax))))

/-- CWD, and CDQ when `osz` = 32 (R281). -/
def execCwd (a : Attrs) (s : State) : Host.Outcome State Fault Refusal :=
  complete (.ok () (setRegSize s a.osz .dx
    (if signBit a.osz.width (getRegSize s a.osz .ax) then maskOf a.osz.width else 0)))

/-- XLAT (R282). -/
def execXlat (a : Attrs) (s : State) : Host.Outcome State Fault Refusal :=
  complete ((segRead s (implicitSeg a) (truncSize a.asz (getRegSize s a.asz .bx + getReg s .byte .ax)) .byte).andThen
    fun v s => .ok () (setReg s .byte .ax v))

/-- PUSH (R292): the operand is read before the push, so PUSH eSP pushes the old value. -/
def execPush (a : Attrs) (f : PushForm) (s : State) : Host.Outcome State Fault Refusal :=
  complete ((readOp a s (PushForm.operand a f)).andThen fun v s => push s a.osz v)

/-- PUSH of a segment register (R293): the selector zero-extended to `osz`. -/
def execPushSeg (a : Attrs) (g : SegReg) (s : State) : Host.Outcome State Fault Refusal :=
  complete (push s a.osz ((getSeg s g).value.setWidth 32))

/-- POP (R294): a register is written after the pointer moves, memory before. -/
def execPop (a : Attrs) (f : PopForm) (s : State) : Host.Outcome State Fault Refusal :=
  complete ((peek s a.osz 0).andThen fun v s =>
    match f with
    | .r g => .ok () (setRegSize (drop s a.osz.bytes) a.osz g v)
    | .ev (.reg g) => .ok () (setRegSize (drop s a.osz.bytes) a.osz g v)
    | .ev (.mem m) =>
      (writeOp a s (.mem a.osz.width m) v).andThen fun _ s => .ok () (drop s a.osz.bytes))

/-- POP of a segment register (R295). -/
def execPopSeg (a : Attrs) (g : SegReg) (s : State) : Host.Outcome State Fault Refusal :=
  complete ((peek s a.osz 0).andThen fun v s =>
    (loadSegPlain s g v).andThen fun _ s => .ok () (drop s a.osz.bytes))

/-- The registers in number order, eAX first (10_state R21). -/
def regOrder : List Reg := [.ax, .cx, .dx, .bx, .sp, .bp, .si, .di]

/-- What PUSHA stores for a register: the old pointer in the slot of eSP (R296). DEDUCED (log entry 20): a 16-bit pointer is
zero-extended at `osz` = 32. -/
def pushaValue (s : State) (sz : Size) (r : Reg) : Word :=
  if r = .sp then stackPtr s else getRegSize s sz r

/-- The writes of PUSHA, slot `i` onwards (R296). -/
def pushaWrites (sz : Size) : Nat → List Reg → State → Res Unit
  | _, [], s => .ok () s
  | i, r :: rs, s =>
    (segWrite s .ss (slotBelow s (sz.bytes * (i + 1))) sz.width (pushaValue s sz r)).andThen fun _ s =>
      pushaWrites sz (i + 1) rs s

/-- PUSHA (R296): the pointer moves after the last write. -/
def execPusha (a : Attrs) (s : State) : Host.Outcome State Fault Refusal :=
  complete ((pushaWrites a.osz 0 regOrder s).andThen fun _ s =>
    .ok () (setStackPtr s (slotBelow s (8 * a.osz.bytes))))

/-- The reads of POPA, slot `i` onwards (R297). -/
def popaReads (sz : Size) : Nat → List Reg → State → Res (List (Reg × Word))
  | _, [], s => .ok [] s
  | i, r :: rs, s =>
    (peek s sz (sz.bytes * i)).andThen fun v s =>
    (popaReads sz (i + 1) rs s).andThen fun vs s => .ok ((r, v) :: vs) s

/-- The register writes of POPA: the slot of eSP is discarded (R297). -/
def popaStore (sz : Size) (s : State) (rv : Reg × Word) : State :=
  if rv.1 = .sp then s else setRegSize s sz rv.1 rv.2

/-- POPA (R297): every read comes before every register write. -/
def execPopa (a : Attrs) (s : State) : Host.Outcome State Fault Refusal :=
  complete ((popaReads a.osz 0 regOrder.reverse s).andThen fun vs s =>
    .ok () (drop (vs.foldl (popaStore a.osz) s) (8 * a.osz.bytes)))

/-- The common form of LDS, LES, LSS, LFS, LGS (R299): the register is written last. -/
def loadFarPointer (a : Attrs) (r : SegReg) (g : Reg) (m : MemRef) (s : State) : Res Unit :=
  (readFar a s m).andThen fun p s =>
  (loadSeg s r p.2 .jump false).andThen fun _ s => .ok () (setRegSize s a.osz g p.1)

/-- LDS (R300). -/
def execLds (a : Attrs) (g : Reg) (m : MemRef) (s : State) : Host.Outcome State Fault Refusal :=
  complete (loadFarPointer a .ds g m s)

/-- LES (R301). -/
def execLes (a : Attrs) (g : Reg) (m : MemRef) (s : State) : Host.Outcome State Fault Refusal :=
  complete (loadFarPointer a .es g m s)

/-- LSS (R302). -/
def execLss (a : Attrs) (g : Reg) (m : MemRef) (s : State) : Host.Outcome State Fault Refusal :=
  complete (loadFarPointer a .ss g m s)

/-- LFS (R303). -/
def execLfs (a : Attrs) (g : Reg) (m : MemRef) (s : State) : Host.Outcome State Fault Refusal :=
  complete (loadFarPointer a .fs g m s)

/-- LGS (R304). -/
def execLgs (a : Attrs) (g : Reg) (m : MemRef) (s : State) : Host.Outcome State Fault Refusal :=
  complete (loadFarPointer a .gs g m s)

end Sys2Proof.Machine
end

