-- ==== Sys2Proof/Machine/FlagInstr.lean ====
section
/-! DEFINITION. The flag instructions (40_lazy_flags R250 to R260). -/

namespace Sys2Proof.Machine

/-- CLC (R250). -/
def execClc (s : State) : Host.Outcome State Fault Refusal := complete (.ok () (setFlag s .cf false))

/-- STC (R251). -/
def execStc (s : State) : Host.Outcome State Fault Refusal := complete (.ok () (setFlag s .cf true))

/-- CMC (R252): the flag is evaluated, then complemented. -/
def execCmc (s : State) : Host.Outcome State Fault Refusal :=
  complete (.ok () (setFlag (touchFlag s .cf) .cf (!flagOf s .cf)))

/-- CLD (R253). -/
def execCld (s : State) : Host.Outcome State Fault Refusal := complete (.ok () (setPlainFlag s dfPos false))

/-- STD (R254). -/
def execStd (s : State) : Host.Outcome State Fault Refusal := complete (.ok () (setPlainFlag s dfPos true))

/-- CLI (R255). -/
def execCli (s : State) : Host.Outcome State Fault Refusal :=
  complete ((ioplGuard s).andThen fun _ s => .ok () (setPlainFlag s ifPos false))

/-- STI (R256): no interrupt shadow. -/
def execSti (s : State) : Host.Outcome State Fault Refusal :=
  complete ((ioplGuard s).andThen fun _ s => .ok () (setPlainFlag s ifPos true))

/-- The image PUSHF stores: VM and RF cleared in the 32-bit form (R257). -/
def pushfImage (osz : Size) (v : Word) : Word :=
  match osz with
  | .s16 => v &&& 0xFFFF
  | .s32 => v &&& 0x00FCFFFF

/-- PUSHF (R257). -/
def execPushf (a : Attrs) (s : State) : Host.Outcome State Fault Refusal :=
  complete ((v86Guard s).andThen fun _ s =>
    push (touchAllFlags s) a.osz (pushfImage a.osz (flagsImage s)))

/-- POPF (R258). -/
def execPopf (a : Attrs) (s : State) : Host.Outcome State Fault Refusal :=
  complete ((v86Guard s).andThen fun _ s =>
    (pop s a.osz).andThen fun v s => .ok () (writeFlags s v (loadableFlags s)))

/-- LAHF (R259): AH is byte register 4 (10_state R23). -/
def execLahf (s : State) : Host.Outcome State Fault Refusal :=
  complete (.ok () (setReg (touchAllFlags s) .byte .sp (flagsImage s)))

/-- SAHF (R260). -/
def execSahf (s : State) : Host.Outcome State Fault Refusal :=
  complete (.ok () (writeFlags s (getReg s .byte .sp) 0x000000D5))

end Sys2Proof.Machine
end

