-- ==== Sys2Proof/Machine/SetCc.lean ====
section
/-! DEFINITION. Conditional byte set (47_setcc R590 to R606). -/

namespace Sys2Proof.Machine

/-- The common form of SETcc (R590): the flags the condition names become clean, the byte written is 0x01 or 0x00. -/
def setCond (c : Cond) (a : Attrs) (e : Rm) (s : State) : Res Unit :=
  writeOp a (touchCond c s) (rmOp .byte e) (bitWord (condHolds c s))

/-- SETO (R591). -/
def execSeto (a : Attrs) (e : Rm) (s : State) : Host.Outcome State Fault Refusal :=
  complete (setCond .o a e s)

/-- SETNO (R592). -/
def execSetno (a : Attrs) (e : Rm) (s : State) : Host.Outcome State Fault Refusal :=
  complete (setCond .no a e s)

/-- SETB (R593). -/
def execSetb (a : Attrs) (e : Rm) (s : State) : Host.Outcome State Fault Refusal :=
  complete (setCond .b a e s)

/-- SETAE (R594). -/
def execSetae (a : Attrs) (e : Rm) (s : State) : Host.Outcome State Fault Refusal :=
  complete (setCond .ae a e s)

/-- SETE (R595). -/
def execSete (a : Attrs) (e : Rm) (s : State) : Host.Outcome State Fault Refusal :=
  complete (setCond .e a e s)

/-- SETNE (R596). -/
def execSetne (a : Attrs) (e : Rm) (s : State) : Host.Outcome State Fault Refusal :=
  complete (setCond .ne a e s)

/-- SETBE (R597). -/
def execSetbe (a : Attrs) (e : Rm) (s : State) : Host.Outcome State Fault Refusal :=
  complete (setCond .be a e s)

/-- SETA (R598). -/
def execSeta (a : Attrs) (e : Rm) (s : State) : Host.Outcome State Fault Refusal :=
  complete (setCond .a a e s)

/-- SETS (R599). -/
def execSets (a : Attrs) (e : Rm) (s : State) : Host.Outcome State Fault Refusal :=
  complete (setCond .s a e s)

/-- SETNS (R600). -/
def execSetns (a : Attrs) (e : Rm) (s : State) : Host.Outcome State Fault Refusal :=
  complete (setCond .ns a e s)

/-- SETP (R601). -/
def execSetp (a : Attrs) (e : Rm) (s : State) : Host.Outcome State Fault Refusal :=
  complete (setCond .p a e s)

/-- SETNP (R602). -/
def execSetnp (a : Attrs) (e : Rm) (s : State) : Host.Outcome State Fault Refusal :=
  complete (setCond .np a e s)

/-- SETL (R603). -/
def execSetl (a : Attrs) (e : Rm) (s : State) : Host.Outcome State Fault Refusal :=
  complete (setCond .l a e s)

/-- SETGE (R604). -/
def execSetge (a : Attrs) (e : Rm) (s : State) : Host.Outcome State Fault Refusal :=
  complete (setCond .ge a e s)

/-- SETLE (R605). -/
def execSetle (a : Attrs) (e : Rm) (s : State) : Host.Outcome State Fault Refusal :=
  complete (setCond .le a e s)

/-- SETG (R606). -/
def execSetg (a : Attrs) (e : Rm) (s : State) : Host.Outcome State Fault Refusal :=
  complete (setCond .g a e s)

end Sys2Proof.Machine
end

