-- ==== Sys2Proof/Machine/Shift.lean ====
section
/-! DEFINITION. Shifts and rotates (43_shift_rotate R390 to R398). -/

namespace Sys2Proof.Machine

/-- The common form (R390): the operand is read, the count is masked to 5 bits, and a count of 0 changes nothing. `body`
is the instruction's rule on the operand and the masked count. -/
def shiftForm (a : Attrs) (t : TwoOperands) (body : Word → Nat → State → Res Unit) (s : State) : Res Unit :=
  (readOp a s t.dst).andThen fun x s =>
  (readOp a s t.src).andThen fun y s =>
  let c := (y &&& 0x1F).toNat
  if c = 0 then .ok () s else body x c s

/-- The flags a rotate leaves undefined on an 80386: OF for a count above 1, and both CF and OF when the effective count is 0
(R235, U3, U6). -/
def rotateUndefined (c k : Nat) : List Flag :=
  if k = 0 then [.cf, .ovf] else if 1 < c then [.ovf] else []

/-- The flags a shift leaves undefined on an 80386: AF, OF for a count above 1, and CF of SHL and SHR for a byte or word
operand and a count of at least the width (R235, U1, U3, U4). -/
def shiftUndefined (w : Width) (c : Nat) (sar : Bool) : List Flag :=
  [Flag.af] ++ (if 1 < c then [.ovf] else []) ++
    (if !sar && decide (w ≠ .dword) && decide (w.bits ≤ c) then [.cf] else [])

/-- The end of a rotate: the result is written, then CF and OF are stored (R391 to R394). -/
def rotateEnd (a : Attrs) (t : TwoOperands) (r : Word) (cf ovf : Bool) (undef : List Flag) (s : State) : Res Unit :=
  (writeOp a s t.dst r).andThen fun _ s => .ok () (leaveAllFree (setFlag (setFlag s .cf cf) .ovf ovf) undef)

/-- The end of a shift: the result, the snapshot, then CF and OF (R395 to R397). -/
def shiftEnd (a : Attrs) (t : TwoOperands) (kind : FlagKind) (x : Word) (c : Nat) (r : Word) (cf ovf : Bool)
    (s : State) : Res Unit :=
  (writeOp a s t.dst r).andThen fun _ s =>
    .ok () (leaveAllFree
      (setFlag (setFlag (lazyStore s kind t.width x (BitVec.ofNat 32 c) r) .cf cf) .ovf ovf)
      (shiftUndefined t.width c (decide (kind = .sar))))

/-- `trunc_N((a << k) or (a >> (N - k)))` (R391). -/
def rolResult (w : Width) (x : Word) (k : Nat) : Word :=
  trunc w ((x <<< k) ||| (x >>> (w.bits - k)))

/-- `trunc_N((a >> k) or (a << (N - k)))` (R392). -/
def rorResult (w : Width) (x : Word) (k : Nat) : Word :=
  trunc w ((x >>> k) ||| (x <<< (w.bits - k)))

/-- ROL (R391). -/
def execRol (a : Attrs) (f : ShiftForm) (s : State) : Host.Outcome State Fault Refusal :=
  complete (shiftForm a (ShiftForm.operands a f) (fun x c s =>
    let t := ShiftForm.operands a f
    let k := c % t.width.bits
    let r := rolResult t.width x k
    rotateEnd a t r (r.getLsbD 0) (signBit t.width r ^^ r.getLsbD 0) (rotateUndefined c k) s) s)

/-- ROR (R392). -/
def execRor (a : Attrs) (f : ShiftForm) (s : State) : Host.Outcome State Fault Refusal :=
  complete (shiftForm a (ShiftForm.operands a f) (fun x c s =>
    let t := ShiftForm.operands a f
    let k := c % t.width.bits
    let r := rorResult t.width x k
    rotateEnd a t r (signBit t.width r) (signBit t.width r ^^ secondBit t.width r) (rotateUndefined c k) s) s)

/-- The N+1-bit value with CF on top (R393). -/
def withCarry (w : Width) (cf : Bool) (x : Word) : BitVec 64 :=
  x.setWidth 64 ||| ((bitWord cf).setWidth 64 <<< w.bits)

/-- `trunc_{N+1}`. -/
def truncPlusOne (w : Width) (v : BitVec 64) : BitVec 64 :=
  v &&& (((1 : BitVec 64) <<< (w.bits + 1)) - 1)

/-- The rotate left of the N+1-bit value (R393). -/
def rclResult (w : Width) (v : BitVec 64) (k : Nat) : BitVec 64 :=
  truncPlusOne w ((v <<< k) ||| (v >>> (w.bits + 1 - k)))

/-- The rotate right of the N+1-bit value (R394). -/
def rcrResult (w : Width) (v : BitVec 64) (k : Nat) : BitVec 64 :=
  truncPlusOne w ((v >>> k) ||| (v <<< (w.bits + 1 - k)))

/-- RCL (R393). -/
def execRcl (a : Attrs) (f : ShiftForm) (s : State) : Host.Outcome State Fault Refusal :=
  complete (shiftForm a (ShiftForm.operands a f) (fun x c s =>
    let t := ShiftForm.operands a f
    let k := c % (t.width.bits + 1)
    let y := rclResult t.width (withCarry t.width (flagOf s .cf) x) k
    let r := trunc t.width (y.setWidth 32)
    let cf := y.getLsbD t.width.bits
    rotateEnd a t r cf (signBit t.width r ^^ cf) (rotateUndefined c k) (touchFlag s .cf)) s)

/-- RCR (R394). -/
def execRcr (a : Attrs) (f : ShiftForm) (s : State) : Host.Outcome State Fault Refusal :=
  complete (shiftForm a (ShiftForm.operands a f) (fun x c s =>
    let t := ShiftForm.operands a f
    let k := c % (t.width.bits + 1)
    let y := rcrResult t.width (withCarry t.width (flagOf s .cf) x) k
    let r := trunc t.width (y.setWidth 32)
    rotateEnd a t r (y.getLsbD t.width.bits) (signBit t.width r ^^ secondBit t.width r) (rotateUndefined c k)
      (touchFlag s .cf)) s)

/-- SHL (R395): the last bit shifted out is bit N of the unbounded product. -/
def execShl (a : Attrs) (f : ShiftForm) (s : State) : Host.Outcome State Fault Refusal :=
  complete (shiftForm a (ShiftForm.operands a f) (fun x c s =>
    let t := ShiftForm.operands a f
    let v : BitVec 64 := x.setWidth 64 <<< c
    let r := trunc t.width (v.setWidth 32)
    let cf := v.getLsbD t.width.bits
    shiftEnd a t .shl x c r cf (signBit t.width r ^^ cf) s) s)

/-- SHR (R396). -/
def execShr (a : Attrs) (f : ShiftForm) (s : State) : Host.Outcome State Fault Refusal :=
  complete (shiftForm a (ShiftForm.operands a f) (fun x c s =>
    let t := ShiftForm.operands a f
    let r := x >>> c
    let cf := decide (c ≤ t.width.bits) && x.getLsbD (c - 1)
    shiftEnd a t .shr x c r cf (signBit t.width r ^^ secondBit t.width r) s) s)

/-- SAR (R397): the operand is taken as an unbounded two's-complement integer. -/
def execSar (a : Attrs) (f : ShiftForm) (s : State) : Host.Outcome State Fault Refusal :=
  complete (shiftForm a (ShiftForm.operands a f) (fun x c s =>
    let t := ShiftForm.operands a f
    let r := ofIntTrunc t.width (signed t.width x >>> c)
    let cf := (sext t.width x).getLsbD (c - 1)
    shiftEnd a t .sar x c r cf false s) s)

end Sys2Proof.Machine
end

