-- ==== Sys2Proof/Machine/Strings.lean ====
section
/-! DEFINITION. String instructions and the repeat prefixes (44_string R410 to R419). -/

namespace Sys2Proof.Machine

/-! ### Common rules -/

/-- `SRC`: SI or ESI (R410). -/
def srcIndex (a : Attrs) (s : State) : Word := getRegSize s a.asz .si

/-- `DST`: DI or EDI (R410). -/
def dstIndex (a : Attrs) (s : State) : Word := getRegSize s a.asz .di

/-- The index after one element (R411): up when DF = 0, down when DF = 1, wrapping at `asz` bits. -/
def advanceIndex (a : Attrs) (w : Width) (r : Reg) (s : State) : State :=
  setRegSize s a.asz r
    (if plainFlag s dfPos then getRegSize s a.asz r - BitVec.ofNat 32 w.bytes
     else getRegSize s a.asz r + BitVec.ofNat 32 w.bytes)

/-- `CNT`: CX or ECX (R412). -/
def repCount (a : Attrs) (s : State) : Word := getRegSize s a.asz .cx

/-- `CNT <- trunc_asz(CNT - 1)`. -/
def decCount (a : Attrs) (s : State) : State := setRegSize s a.asz .cx (repCount a s - 1)

/-- The early end of a repeated CMPS or SCAS (R412), read after the count went down. -/
def repStops (tag : Repeat) (compare : Bool) (s : State) : Bool :=
  match tag with
  | .none => false
  | .rep => compare && !flagOf s .zf
  | .repne => compare && flagOf s .zf

/-- Reading ZF for that test leaves it clean (40_lazy_flags R224). -/
def repTouch (compare : Bool) (s : State) : State := if compare then touchFlag s .zf else s

/-- The loop of R412. Its fuel is the count on entry, which bounds the iterations (R418). -/
def repeatLoop (a : Attrs) (compare : Bool) (one : State → Res Unit) : Nat → State → Res Unit
  | 0, s => .ok () s
  | fuel + 1, s =>
    if repCount a s = 0 then .ok () s
    else
      (one s).andThen fun _ s =>
        if repStops a.rep compare (decCount a s) then .ok () (repTouch compare (decCount a s))
        else repeatLoop a compare one fuel (repTouch compare (decCount a s))

/-- One iteration without a repeat prefix, the loop with one (R412). -/
def repeated (a : Attrs) (compare : Bool) (one : State → Res Unit) (s : State) : Res Unit :=
  match a.rep with
  | .none => one s
  | .rep | .repne => repeatLoop a compare one (repCount a s).toNat s

/-! ### One iteration of each instruction -/

/-- MOVS (R413). -/
def movsOnce (a : Attrs) (w : Width) (s : State) : Res Unit :=
  (segRead s (implicitSeg a) (srcIndex a s) w).andThen fun v s =>
  (segWrite s .es (dstIndex a s) w v).andThen fun _ s =>
  .ok () (advanceIndex a w .di (advanceIndex a w .si s))

/-- CMPS (R414): the source element is the minuend. -/
def cmpsOnce (a : Attrs) (w : Width) (s : State) : Res Unit :=
  (segRead s (implicitSeg a) (srcIndex a s) w).andThen fun x s =>
  (segRead s .es (dstIndex a s) w).andThen fun y s =>
  .ok () (advanceIndex a w .di (advanceIndex a w .si (lazyStore s .cmp w x y (trunc w (x - y)))))

/-- STOS (R415). -/
def stosOnce (a : Attrs) (w : Width) (s : State) : Res Unit :=
  (segWrite s .es (dstIndex a s) w (getReg s w .ax)).andThen fun _ s => .ok () (advanceIndex a w .di s)

/-- LODS (R416). -/
def lodsOnce (a : Attrs) (w : Width) (s : State) : Res Unit :=
  (segRead s (implicitSeg a) (srcIndex a s) w).andThen fun v s =>
  .ok () (advanceIndex a w .si (setReg s w .ax v))

/-- SCAS (R417): no segment prefix applies. -/
def scasOnce (a : Attrs) (w : Width) (s : State) : Res Unit :=
  (segRead s .es (dstIndex a s) w).andThen fun y s =>
  .ok () (advanceIndex a w .di
    (lazyStore s .cmp w (getReg s w .ax) y (trunc w (getReg s w .ax - y))))

/-! ### The instructions -/

/-- MOVS (R413). -/
def execMovs (a : Attrs) (f : StrForm) (s : State) : Host.Outcome State Fault Refusal :=
  complete (repeated a false (movsOnce a (StrForm.width a f)) s)

/-- CMPS (R414). -/
def execCmps (a : Attrs) (f : StrForm) (s : State) : Host.Outcome State Fault Refusal :=
  complete (repeated a true (cmpsOnce a (StrForm.width a f)) s)

/-- STOS (R415). -/
def execStos (a : Attrs) (f : StrForm) (s : State) : Host.Outcome State Fault Refusal :=
  complete (repeated a false (stosOnce a (StrForm.width a f)) s)

/-- LODS (R416). -/
def execLods (a : Attrs) (f : StrForm) (s : State) : Host.Outcome State Fault Refusal :=
  complete (repeated a false (lodsOnce a (StrForm.width a f)) s)

/-- SCAS (R417). -/
def execScas (a : Attrs) (f : StrForm) (s : State) : Host.Outcome State Fault Refusal :=
  complete (repeated a true (scasOnce a (StrForm.width a f)) s)

end Sys2Proof.Machine
end

