-- ==== Sys2Proof/Machine/System.lean ====
section
/-! DEFINITION. System instructions (46_system R480 to R496). No instruction of this file reads or writes a flag. -/

namespace Sys2Proof.Machine

/-- HLT (R481): HALTED, the halted event, and `shutdown` 0. -/
def execHlt (s : State) : Host.Outcome State Fault Refusal :=
  complete ((privileged s).andThen fun _ s => .ok () (haltState s false))

/-- The limit, then the base, as one pseudo-descriptor in memory (R483): all 32 bits of the base whatever `osz` is. -/
def storeTable (a : Attrs) (m : MemRef) (t : TableRegister) (s : State) : Res Unit :=
  (segWrite s (segFor a m) (effAddr s m 0) .word (t.limit.setWidth 32)).andThen fun _ s =>
    segWrite s (segFor a m) (effAddr s m 2) .dword t.base

/-- The pseudo-descriptor LGDT and LIDT read (R484): 24 bits of base when `osz` = 16. -/
def loadTable (a : Attrs) (m : MemRef) (s : State) : Res TableRegister :=
  (segRead s (segFor a m) (effAddr s m 0) .word).andThen fun lim s =>
  (segRead s (segFor a m) (effAddr s m 2) .dword).andThen fun base s =>
  .ok { base := if a.osz = .s16 then base &&& 0x00FFFFFF else base, limit := lim.setWidth 16 } s

/-- SGDT (R483). -/
def execSgdt (a : Attrs) (m : MemRef) (s : State) : Host.Outcome State Fault Refusal :=
  complete (storeTable a m s.gdtr s)

/-- LGDT (R484). -/
def execLgdt (a : Attrs) (m : MemRef) (s : State) : Host.Outcome State Fault Refusal :=
  complete ((privileged s).andThen fun _ s => (loadTable a m s).andThen fun t s => .ok () (setGdtr s t))

/-- SIDT (R485). -/
def execSidt (a : Attrs) (m : MemRef) (s : State) : Host.Outcome State Fault Refusal :=
  complete (storeTable a m s.idtr s)

/-- LIDT (R486). -/
def execLidt (a : Attrs) (m : MemRef) (s : State) : Host.Outcome State Fault Refusal :=
  complete ((privileged s).andThen fun _ s => (loadTable a m s).andThen fun t s => .ok () (setIdtr s t))

/-- `if not PROT: abort DecodeError` (R487, R488). -/
def protectedOnly (s : State) : Res Unit := abortIf (!isProt s) (.decodeError .outsideProtected []) s

/-- SLDT (R487). -/
def execSldt (a : Attrs) (e : Rm) (s : State) : Host.Outcome State Fault Refusal :=
  complete ((protectedOnly s).andThen fun _ s => writeOp a s (rmOp .word e) (s.ldtr.value.setWidth 32))

/-- LLDT (R488). -/
def execLldt (a : Attrs) (e : Rm) (s : State) : Host.Outcome State Fault Refusal :=
  complete ((protectedOnly s).andThen fun _ s =>
    (privileged s).andThen fun _ s =>
    (readOp a s (rmOp .word e)).andThen fun v s => loadLdtr s (v.setWidth 16))

/-- CR0 after LMSW (R490): bits 3:1 from the operand, PE set or kept. -/
def lmswValue (cr0 v : Word) : Word := mergeBits cr0 v 0xE ||| (v &&& 1)

/-- LMSW (R490). -/
def execLmsw (a : Attrs) (e : Rm) (s : State) : Host.Outcome State Fault Refusal :=
  complete ((privileged s).andThen fun _ s =>
    (readOp a s (rmOp .word e)).andThen fun v s => .ok () (setCtl s .cr0 (lmswValue s.ctl.cr0 v)))

/-- SMSW (R491). -/
def execSmsw (a : Attrs) (e : Rm) (s : State) : Host.Outcome State Fault Refusal :=
  complete (writeOp a s (rmOp .word e) (s.ctl.cr0 &&& 0xFFFF))

/-- MOV from a control register (R492): always 32 bits. -/
def execMovFromCr (r : Reg) (c : CtlReg) (s : State) : Host.Outcome State Fault Refusal :=
  complete ((privileged s).andThen fun _ s => .ok () (setReg s .dword r (s.ctl.get c)))

/-- MOV to a control register (R493). -/
def execMovToCr (c : CtlReg) (r : Reg) (s : State) : Host.Outcome State Fault Refusal :=
  complete ((privileged s).andThen fun _ s => .ok () (setCtl s c (reg32 s r)))

/-- MOV from a debug register (R494). -/
def execMovFromDr (r : Reg) (c : DbgReg) (s : State) : Host.Outcome State Fault Refusal :=
  complete ((privileged s).andThen fun _ s => .ok () (setReg s .dword r (s.dbg.get c)))

/-- MOV to a debug register (R495). -/
def execMovToDr (c : DbgReg) (r : Reg) (s : State) : Host.Outcome State Fault Refusal :=
  complete ((privileged s).andThen fun _ s => .ok () (setDbg s c (reg32 s r)))

end Sys2Proof.Machine
end

