-- ==== Sys2Proof/Machine/Dispatch.lean ====
section
/-! DEFINITION. One arm for each instruction of the syntax. -/

namespace Sys2Proof.Machine

/-- What executing an instruction does (the rules of files 40 to 47). -/
def exec (i : Instr) (s : State) : Host.Outcome State Fault Refusal :=
  match i with
  | .add a f => Sys2Proof.Machine.execAdd a f s
  | .or a f => Sys2Proof.Machine.execOr a f s
  | .adc a f => Sys2Proof.Machine.execAdc a f s
  | .sbb a f => Sys2Proof.Machine.execSbb a f s
  | .and a f => Sys2Proof.Machine.execAnd a f s
  | .sub a f => Sys2Proof.Machine.execSub a f s
  | .xor a f => Sys2Proof.Machine.execXor a f s
  | .cmp a f => Sys2Proof.Machine.execCmp a f s
  | .inc a f => Sys2Proof.Machine.execInc a f s
  | .dec a f => Sys2Proof.Machine.execDec a f s
  | .neg a f => Sys2Proof.Machine.execNeg a f s
  | .mul a f => Sys2Proof.Machine.execMul a f s
  | .imulOne a f => Sys2Proof.Machine.execImulOne a f s
  | .imul a f => Sys2Proof.Machine.execImul a f s
  | .div a f => Sys2Proof.Machine.execDiv a f s
  | .idiv a f => Sys2Proof.Machine.execIdiv a f s
  | .test a f => Sys2Proof.Machine.execTest a f s
  | .not a f => Sys2Proof.Machine.execNot a f s
  | .rol a f => Sys2Proof.Machine.execRol a f s
  | .ror a f => Sys2Proof.Machine.execRor a f s
  | .rcl a f => Sys2Proof.Machine.execRcl a f s
  | .rcr a f => Sys2Proof.Machine.execRcr a f s
  | .shl a f => Sys2Proof.Machine.execShl a f s
  | .shr a f => Sys2Proof.Machine.execShr a f s
  | .sar a f => Sys2Proof.Machine.execSar a f s
  | .mov a f => Sys2Proof.Machine.execMov a f s
  | .movMoffs a f => Sys2Proof.Machine.execMovMoffs a f s
  | .movFromSeg a e g => Sys2Proof.Machine.execMovFromSeg a e g s
  | .movToSeg a g e => Sys2Proof.Machine.execMovToSeg a g e s
  | .xchg a f => Sys2Proof.Machine.execXchg a f s
  | .nop _ => Sys2Proof.Machine.execNop s
  | .lea a g m => Sys2Proof.Machine.execLea a g m s
  | .movzx a f => Sys2Proof.Machine.execMovzx a f s
  | .movsx a f => Sys2Proof.Machine.execMovsx a f s
  | .cbw a => Sys2Proof.Machine.execCbw a s
  | .cwd a => Sys2Proof.Machine.execCwd a s
  | .xlat a => Sys2Proof.Machine.execXlat a s
  | .push a f => Sys2Proof.Machine.execPush a f s
  | .pushSeg a g => Sys2Proof.Machine.execPushSeg a g s
  | .pop a f => Sys2Proof.Machine.execPop a f s
  | .popSeg a g => Sys2Proof.Machine.execPopSeg a g s
  | .pusha a => Sys2Proof.Machine.execPusha a s
  | .popa a => Sys2Proof.Machine.execPopa a s
  | .lds a g m => Sys2Proof.Machine.execLds a g m s
  | .les a g m => Sys2Proof.Machine.execLes a g m s
  | .lss a g m => Sys2Proof.Machine.execLss a g m s
  | .lfs a g m => Sys2Proof.Machine.execLfs a g m s
  | .lgs a g m => Sys2Proof.Machine.execLgs a g m s
  | .movs a f => Sys2Proof.Machine.execMovs a f s
  | .cmps a f => Sys2Proof.Machine.execCmps a f s
  | .stos a f => Sys2Proof.Machine.execStos a f s
  | .lods a f => Sys2Proof.Machine.execLods a f s
  | .scas a f => Sys2Proof.Machine.execScas a f s
  | .jmpRel a f => Sys2Proof.Machine.execJmpRel a f s
  | .jmpInd a e => Sys2Proof.Machine.execJmpInd a e s
  | .jmpFar a off sel => Sys2Proof.Machine.execJmpFar a off sel s
  | .jmpFarInd a m => Sys2Proof.Machine.execJmpFarInd a m s
  | .jo a f => Sys2Proof.Machine.execJo a f s
  | .jno a f => Sys2Proof.Machine.execJno a f s
  | .jb a f => Sys2Proof.Machine.execJb a f s
  | .jae a f => Sys2Proof.Machine.execJae a f s
  | .je a f => Sys2Proof.Machine.execJe a f s
  | .jne a f => Sys2Proof.Machine.execJne a f s
  | .jbe a f => Sys2Proof.Machine.execJbe a f s
  | .ja a f => Sys2Proof.Machine.execJa a f s
  | .js a f => Sys2Proof.Machine.execJs a f s
  | .jns a f => Sys2Proof.Machine.execJns a f s
  | .jp a f => Sys2Proof.Machine.execJp a f s
  | .jnp a f => Sys2Proof.Machine.execJnp a f s
  | .jl a f => Sys2Proof.Machine.execJl a f s
  | .jge a f => Sys2Proof.Machine.execJge a f s
  | .jle a f => Sys2Proof.Machine.execJle a f s
  | .jg a f => Sys2Proof.Machine.execJg a f s
  | .jcxz a d => Sys2Proof.Machine.execJcxz a d s
  | .loop a d => Sys2Proof.Machine.execLoop a d s
  | .loope a d => Sys2Proof.Machine.execLoope a d s
  | .loopne a d => Sys2Proof.Machine.execLoopne a d s
  | .callRel a d => Sys2Proof.Machine.execCallRel a d s
  | .callInd a e => Sys2Proof.Machine.execCallInd a e s
  | .callFar a off sel => Sys2Proof.Machine.execCallFar a off sel s
  | .callFarInd a m => Sys2Proof.Machine.execCallFarInd a m s
  | .ret a => Sys2Proof.Machine.execRet a s
  | .retImm a n => Sys2Proof.Machine.execRetImm a n s
  | .retf a => Sys2Proof.Machine.execRetf a s
  | .retfImm a n => Sys2Proof.Machine.execRetfImm a n s
  | .int _ n => Sys2Proof.Machine.execInt n s
  | .int3 _ => Sys2Proof.Machine.execInt3 s
  | .iret a => Sys2Proof.Machine.execIret a s
  | .into _ => Sys2Proof.Machine.execInto s
  | .seto a e => Sys2Proof.Machine.execSeto a e s
  | .setno a e => Sys2Proof.Machine.execSetno a e s
  | .setb a e => Sys2Proof.Machine.execSetb a e s
  | .setae a e => Sys2Proof.Machine.execSetae a e s
  | .sete a e => Sys2Proof.Machine.execSete a e s
  | .setne a e => Sys2Proof.Machine.execSetne a e s
  | .setbe a e => Sys2Proof.Machine.execSetbe a e s
  | .seta a e => Sys2Proof.Machine.execSeta a e s
  | .sets a e => Sys2Proof.Machine.execSets a e s
  | .setns a e => Sys2Proof.Machine.execSetns a e s
  | .setp a e => Sys2Proof.Machine.execSetp a e s
  | .setnp a e => Sys2Proof.Machine.execSetnp a e s
  | .setl a e => Sys2Proof.Machine.execSetl a e s
  | .setge a e => Sys2Proof.Machine.execSetge a e s
  | .setle a e => Sys2Proof.Machine.execSetle a e s
  | .setg a e => Sys2Proof.Machine.execSetg a e s
  | .clc _ => Sys2Proof.Machine.execClc s
  | .stc _ => Sys2Proof.Machine.execStc s
  | .cmc _ => Sys2Proof.Machine.execCmc s
  | .cld _ => Sys2Proof.Machine.execCld s
  | .std _ => Sys2Proof.Machine.execStd s
  | .cli _ => Sys2Proof.Machine.execCli s
  | .sti _ => Sys2Proof.Machine.execSti s
  | .pushf a => Sys2Proof.Machine.execPushf a s
  | .popf a => Sys2Proof.Machine.execPopf a s
  | .lahf _ => Sys2Proof.Machine.execLahf s
  | .sahf _ => Sys2Proof.Machine.execSahf s
  | .hlt _ => Sys2Proof.Machine.execHlt s
  | .sgdt a m => Sys2Proof.Machine.execSgdt a m s
  | .lgdt a m => Sys2Proof.Machine.execLgdt a m s
  | .sidt a m => Sys2Proof.Machine.execSidt a m s
  | .lidt a m => Sys2Proof.Machine.execLidt a m s
  | .sldt a e => Sys2Proof.Machine.execSldt a e s
  | .lldt a e => Sys2Proof.Machine.execLldt a e s
  | .lmsw a e => Sys2Proof.Machine.execLmsw a e s
  | .smsw a e => Sys2Proof.Machine.execSmsw a e s
  | .movFromCr _ r c => Sys2Proof.Machine.execMovFromCr r c s
  | .movToCr _ c r => Sys2Proof.Machine.execMovToCr c r s
  | .movFromDr _ r c => Sys2Proof.Machine.execMovFromDr r c s
  | .movToDr _ c r => Sys2Proof.Machine.execMovToDr c r s

end Sys2Proof.Machine
end

