-- ==== Sys2Proof/Machine/Fetch.lean ====
section
/-! DEFINITION. Instruction fetch through CS and decoding of what was fetched (30_encoding R131, R132, R144). -/

namespace Sys2Proof.Machine

/-- Up to `n` instruction bytes from offset `off`, one `SegRead` through CS per byte in increasing offset order (R131): the
bytes read, and the state after the last read or the fault that stopped it. -/
def fetchBytes : Nat → Word → State → List Byte × Res Unit
  | 0, _, s => ([], .ok () s)
  | n + 1, off, s =>
    match segRead s .cs off .byte with
    | .ok v s' =>
      let more := fetchBytes n (off + 1) s'
      (byteOf v 0 :: more.1, more.2)
    | .raised e s' => ([], .raised e s')
    | .aborted k s' => ([], .aborted k s')

/-- `DecodeError(bytes)`: the category of a decode abort (30_encoding R145; 60_exceptions R531, R534), with the bytes decoding had
read. SIB is an unimplemented feature (30_encoding R170). -/
def decodeAbort (e : DecodeErr) (bytes : List Byte) : AbortInfo :=
  match e with
  | .sib => .unimplemented .sib
  | .unknownOpcode => .decodeError .unknownOpcode bytes
  | .unknownExtension => .decodeError .unknownExtension bytes
  | .memoryRequired => .decodeError .memoryRequired bytes
  | .registerRequired => .decodeError .registerRequired bytes
  | .badSegment => .decodeError .badSegment bytes
  | .badControl => .decodeError .badControl bytes
  | .tooLong => .decodeError .tooLong bytes
  | .outsideProtected => .decodeError .outsideProtected bytes

/-- `decode` at CS:EIP (R132): the instruction and its length. Decoding looks at no more than 15 bytes (R144); the state it
leaves is that of fetching exactly the bytes it consumed. When it needs a byte the fetch could not read, the outcome is the
fetch's fault, and when it needs a 16th byte, too-long. -/
def fetchDecode (s : State) : Res (Instr × Nat) :=
  let ahead := fetchBytes Config.maxInsnLen s.eip s
  match decode s.cfg.sizePrefix (getSeg s .cs).cache.big ahead.1 with
  | .ok i rest =>
    let len := ahead.1.length - rest.length
    (fetchBytes len s.eip s).2.andThen fun _ s => .ok (i, len) s
  | .err e rest =>
    let len := ahead.1.length - rest.length
    (fetchBytes len s.eip s).2.andThen fun _ s => .aborted (decodeAbort e (ahead.1.take len)) s
  | .more => ahead.2.andThen fun _ s => .aborted (.decodeError .tooLong ahead.1) s

end Sys2Proof.Machine
end

