-- ==== Sys2Proof/Machine/Scheduler.lean ====
section
/-! DEFINITION. The fetch-decode-execute scheduler, one instruction boundary at a time (60_exceptions R520 to R529). -/

namespace Sys2Proof.Machine

def setStart (s : State) (v : Word) : State := { s with start := v }

def setRunState (s : State) (r : RunState) : State := { s with sched := { s.sched with runState := r } }

def setSliceCount (s : State) (n : Nat) : State := { s with sched := { s.sched with sliceCount := n } }

def clearPause (s : State) : State := { s with inputs := { s.inputs with pauseReq := false } }

/-- After an instruction (R526): it counts, one that raised included, and a used-up budget ends the slice. An aborted one does
not count (log entry 6). -/
def endInstr (s : State) : State :=
  if s.sched.runState = .aborted then s
  else
    let s := setSliceCount s (s.sched.sliceCount + 1)
    if s.sched.runState = .running ∧ s.cfg.sliceBudget ≤ s.sched.sliceCount then setRunState s .yielded else s

def endOutcome (o : Host.Outcome State Fault Refusal) : Host.Outcome State Fault Refusal :=
  match o with
  | .next s => .next (endInstr s)
  | .fault r => .fault r
  | .refused r => .refused r

/-- Fetch, decode and execute one instruction (R526): EIP already holds the next offset while it executes (10_state R26). -/
def runInstr (s : State) : Host.Outcome State Fault Refusal :=
  match fetchDecode (setStart s s.eip) with
  | .ok (i, len) s => endOutcome (exec i (setEip s (s.eip + BitVec.ofNat 32 len)))
  | .raised e s => .next (endInstr (takeException s e))
  | .aborted k s => .next (endInstr (abortState s k))

/-- One pass of the loop of `slice()` (R526): the budget, then a pause request, then an instruction. -/
def runLoop (s : State) : Host.Outcome State Fault Refusal :=
  if s.cfg.sliceBudget ≤ s.sched.sliceCount then .next (setRunState s .yielded)
  else if s.inputs.pauseReq then .next (clearPause (setRunState s .idle))
  else runInstr s

/-- `intr = 1 and EFLAGS.IF = 1`, and no shutdown (R521, R526): the vector that is taken. -/
def pendingInterrupt (s : State) : Option Byte :=
  if !s.sched.shutdown && plainFlag s ifPos then s.inputs.intr.head? else none

/-- The start of a slice (R504, R524, R526): the host has called or resumed `run()` (log entry 7). A pending pause comes first
and leaves the block IDLE (R504, R525), but does not end HALTED (log entry 11); then an enabled interrupt is taken, which is
this step; a halted block without one stays halted. -/
def enterSlice (s : State) : Host.Outcome State Fault Refusal :=
  let s := setSliceCount s 0
  if s.inputs.pauseReq ∧ s.sched.runState ≠ .halted then .next (clearPause (setRunState s .idle))
  else
    match pendingInterrupt s with
    | some v => .next (takeInterrupt (setRunState s .running) v)
    | none => if s.sched.runState = .halted then .next s else runLoop (setRunState s .running)

/-- One step of the block by its run state (R525). -/
def schedule (s : State) : Host.Outcome State Fault Refusal :=
  match s.sched.runState with
  | .aborted => .next s
  | .running => runLoop s
  | .idle | .yielded | .halted => enterSlice s

end Sys2Proof.Machine
end

