-- ==== Sys2Proof/Machine/HostInterface.lean ====
section
/-! DEFINITION. What the host can do between slices (00_scope R11; 60_exceptions R527, R529): functions on the state. -/

namespace Sys2Proof.Machine

/-- The host acts between slices (R529). DESIGN CHOICE (log entry 15): an action at another time changes nothing. -/
def betweenSlices (s : State) : Bool := decide (s.sched.runState ≠ .running)

/-- A fatal error of a host action: no instruction is running, EIP stays (log entry 23). HALTED is left only by an enabled interrupt
or `reset()` (60_exceptions R525), a shutdown only by `reset()` (R513): there nothing changes (DEDUCED, log entry 24). DESIGN CHOICE
(log entry 24): in ABORTED it replaces the latched information. -/
def hostAbort (s : State) (k : AbortInfo) : State :=
  if s.sched.runState = .halted then s
  else { s with sched := { s.sched with runState := .aborted, abortInfo := some k } }

/-- `reset()` (70_reset_and_hazards R551): every item of 10_state R50 takes its reset value, a pending pause is dropped;
memory, the registered handler, the parameters and what the outside presents stay. -/
def hostReset (s : State) : State :=
  { State.reset with
    mem := s.mem
    vga := s.vga
    cfg := s.cfg
    freeCount := s.freeCount
    inputs := { pauseReq := false, intr := s.inputs.intr }
    sched := { State.reset.sched with haltEvents := s.sched.haltEvents } }

/-- `pause()` is a request, observed at an instruction boundary (60_exceptions R527). -/
def hostPause (s : State) : State := { s with inputs := { s.inputs with pauseReq := true } }

/-- The A20 input (70_reset_and_hazards R566). -/
def hostSetA20 (s : State) (b : Bool) : State := if betweenSlices s then { s with a20 := b } else s

/-- `registerMemoryHandlers` (20_memory R79): one device, one window, legal while IDLE or YIELDED. -/
def hostRegisterHandlers (s : State) (addrBegin addrEnd : Nat) (isVga : Bool) : State :=
  if s.sched.runState = .idle ∨ s.sched.runState = .yielded then
    if addrBegin = Config.vgaBase ∧ addrEnd = Config.vgaEnd ∧ isVga = true then
      { s with vga := { s.vga with registered := true } }
    else hostAbort s .configurationError
  else s

/-- The host's reads go through `MemRead` (20_memory R71): the value, none where it aborts or the time is illegal, and the state
after the read, with the call of the device recorded or the abort made (log entries 15, 24). -/
def hostMemRead (s : State) (addr : Word) (w : Width) : Option Word × State :=
  if betweenSlices s then
    match memRead s addr w with
    | .ok v s => (some v, s)
    | .raised _ s => (none, s)
    | .aborted k s => (none, hostAbort s k)
  else (none, s)

/-- The host's writes go through `MemWrite` (20_memory R71; 70_reset_and_hazards R556). An abort: log entries 15, 24. -/
def hostMemWrite (s : State) (addr : Word) (w : Width) (v : Word) : State :=
  if betweenSlices s then
    match memWrite s addr w v with
    | .ok _ s => s
    | .raised _ s => s
    | .aborted k s => hostAbort s k
  else s

/-- The interrupt collaborator changes what it has pending (60_exceptions R520, R529; U36): it raises `intr` with a list of
vectors, the next first, withdraws or replaces requests, or lowers `intr` with the empty list (log entry 10). -/
def hostSetInterrupts (s : State) (vs : List Byte) : State :=
  if betweenSlices s then { s with inputs := { s.inputs with intr := vs } } else s

/-- The interrupt collaborator presents one more vector (R520). -/
def hostRequestInterrupt (s : State) (v : Byte) : State := hostSetInterrupts s (s.inputs.intr ++ [v])

/-- The device will give one more answer (20_memory R78, log entry 5). -/
def hostAnswer (s : State) (v : Word) : State :=
  { s with vga := { s.vga with answers := s.vga.answers ++ [v] } }

/-- One byte of a program image at a linear address: stored where a fetch of that address reads it; an address in no buffer
takes nothing. -/
def placeByte (s : State) (addr : Word) (b : Byte) : State :=
  match mapPhysical s addr .byte with
  | none => s
  | some (.vga, _) => s
  | some (r, a) => setMem s (Mem.write s.mem (homeOf r a) b)

def placeBytes (s : State) (addr : Word) : List Byte → State
  | [] => s
  | b :: bs => placeBytes (placeByte s addr b) (addr + 1) bs

/-- The word's bytes at CS:EIP, and the block at the start of a slice with no pause pending, so that the next step fetches and
runs them (log entry 7). -/
def placeFetchWord (s : State) (w : Nat) : State :=
  clearPause (setRunState (setSliceCount (placeBytes s (linearOf s .cs s.eip) (tableBytes w)) 0) .running)

end Sys2Proof.Machine
end

