-- ==== Sys2Proof/Machine/Step.lean ====
section
/-! DEFINITION. One step of the machine. -/

namespace Sys2Proof.Machine

/-- One step (60_exceptions R525, R526): Machine/Scheduler.lean says what it does. -/
def step (s : State) : Host.Outcome State Fault Refusal := schedule s

/-- `s` with the instruction of an opcode-table word stored where `step` fetches next (log entry 7). -/
def State.withFetchWord (s : State) (_nbits w : Nat) : State := placeFetchWord s w

end Sys2Proof.Machine
end

