-- ==== Sys2Proof/Safety.lean ====
section
/-! DEFINITION. The words statements are made in: which accesses the machine can make, what an instruction leaves unchanged,
the invariant of every step, and a run that is still live. -/

namespace Sys2Proof.Machine

/-! ### Which accesses can be made: hypotheses on the state and the operands alone -/

/-- An access of width `w` at a linear address is made: paging is off and the bytes lie in one mapped region (20_memory R74,
R75, R80). -/
def canAccessLinear (s : State) (addr : Word) (w : Width) : Prop :=
  pg s = false ∧ (mapPhysical s addr w).isSome = true

/-- An access of width `w` at `r:off` is made: the register is not in the NullSelector state and the first byte is within the
limit (R84, R87, R88), and the linear access is made. -/
def canAccess (s : State) (r : SegReg) (off : Word) (w : Width) : Prop :=
  (getSeg s r).cache.valid = true ∧ off ≤ (getSeg s r).cache.limitScaled ∧ canAccessLinear s (linearOf s r off) w

/-- An operand can be read and written: a register or an immediate always, memory when the access is made. -/
def Operand.ready (a : Attrs) (s : State) : Operand → Prop
  | .reg _ _ => True
  | .mem w m => canAccess s (segFor a m) (effAddr s m 0) w
  | .imm _ => True

/-- Both operands of a form are ready. -/
def TwoOperands.ready (a : Attrs) (s : State) (t : TwoOperands) : Prop := t.dst.ready a s ∧ t.src.ready a s

/-- The far pointer in memory can be read (R83; 41_data_movement R299). -/
def farReady (a : Attrs) (s : State) (m : MemRef) : Prop :=
  canAccess s (segFor a m) (effAddr s m 0) a.osz.width ∧ canAccess s (segFor a m) (effAddr s m a.osz.bytes) .word

/-- The pseudo-descriptor in memory can be read and written (46_system R483, R484). -/
def tableReady (a : Attrs) (s : State) (m : MemRef) : Prop :=
  canAccess s (segFor a m) (effAddr s m 0) .word ∧ canAccess s (segFor a m) (effAddr s m 2) .dword

/-- The stack slot `k` bytes below the pointer can be written (41_data_movement R290). -/
def canStore (s : State) (sz : Size) (k : Nat) : Prop := canAccess s .ss (slotBelow s k) sz.width

/-- The stack slot `k` bytes above the pointer can be read (41_data_movement R291). -/
def canFetch (s : State) (sz : Size) (k : Nat) : Prop := canAccess s .ss (slotAbove s k) sz.width

/-- A selector names no descriptor (20_memory R92): its index is beyond the limit of its table, or it is an LDT selector while
LDTR is invalid. -/
def selectorOutside (s : State) (v : BitVec 16) : Prop :=
  if v.getLsbD 2 = true then s.ldtr.valid = false ∨ s.ldtr.limitScaled.toNat < v.toNat / 8 * 8 + 7
  else s.gdtr.limit.toNat < v.toNat / 8 * 8 + 7

/-- A privileged instruction may run: real mode, or CPL = 0 (46_system R480). -/
def mayPrivileged (s : State) : Prop := pe s = false ∨ s.cpl = 0

/-- An instruction that V8086 mode guards with IOPL may run (40_lazy_flags R257, R258; 45_control_transfer R464, R466). -/
def mayV86 (s : State) : Prop := isV86 s = false ∨ iopl s = 3

/-! ### Where an operand's bytes are listed -/

/-- Where the first byte of an access at a linear address is listed, or none when no buffer backs it (20_memory R73). -/
def bufferHome (s : State) (addr : Word) (w : Width) : Option Nat :=
  match mapPhysical s addr w with
  | none => none
  | some (.vga, _) => none
  | some (g, a) => some (homeOf g a)

/-- Where the first byte of an access at `r:off` is listed. -/
def storeHome (s : State) (r : SegReg) (off : Word) (w : Width) : Option Nat := bufferHome s (linearOf s r off) w

def Operand.home (a : Attrs) (s : State) : Operand → Option Nat
  | .reg _ _ => none
  | .mem w m => storeHome s (segFor a m) (effAddr s m 0) w
  | .imm _ => none

def Operand.width : Operand → Width
  | .reg w _ => w
  | .mem w _ => w
  | .imm _ => .dword

/-- The 32-bit registers a write of the operand changes. -/
def Operand.changes : Operand → List Reg
  | .reg w r => [regHome w r]
  | .mem _ _ => []
  | .imm _ => []

/-! ### What an instruction leaves unchanged -/

/-- Every general register but the listed ones. -/
def keepsRegs (but : List Reg) (s t : State) : Prop := ∀ r, r ∉ but → reg32 t r = reg32 s r

/-- Every byte of memory. -/
def keepsMemory (s t : State) : Prop := ∀ x, Mem.read t.mem x = Mem.read s.mem x

/-- Every byte of memory but the `w` bytes from `home`; all of memory when there is no home. -/
def keepsMemoryBut (home : Option Nat) (w : Width) (s t : State) : Prop :=
  ∀ x, (∀ b, home = some b → x < b ∨ b + w.bytes ≤ x) → Mem.read t.mem x = Mem.read s.mem x

/-- Every byte of memory but the listed stores, each its home and its width. -/
def keepsMemoryButAll (stores : List (Option Nat × Width)) (s t : State) : Prop :=
  ∀ x, (∀ p, p ∈ stores → ∀ b, p.1 = some b → x < b ∨ b + p.2.bytes ≤ x) → Mem.read t.mem x = Mem.read s.mem x

/-- Every bit of EFLAGS that is not a status flag: TF, IF, DF, IOPL, NT, RF, VM and the reserved bits (10_state R27). -/
def keepsPlainFlags (s t : State) : Prop :=
  ∀ i, i ∉ [0, 2, 4, 6, 7, 11] → t.flags.value.getLsbD i = s.flags.value.getLsbD i

/-- Every flag: the six status flags as `Flag` reads them, and every other bit. -/
def keepsFlags (s t : State) : Prop := (∀ f, flagOf t f = flagOf s f) ∧ keepsPlainFlags s t

/-- Segment, descriptor-table, control and debug registers, CPL, the parameters, A20 and the scheduler. -/
structure KeepsSystem (s t : State) : Prop where
  segs : t.segs = s.segs
  ldtr : t.ldtr = s.ldtr
  gdtr : t.gdtr = s.gdtr
  idtr : t.idtr = s.idtr
  ctl : t.ctl = s.ctl
  dbg : t.dbg = s.dbg
  cpl : t.cpl = s.cpl
  a20 : t.a20 = s.a20
  registered : t.vga.registered = s.vga.registered
  sched : t.sched = s.sched
  inputs : t.inputs = s.inputs
  cfg : t.cfg = s.cfg
  start : t.start = s.start

/-- What reading leaves: everything but the device's record (20_memory R76). -/
structure ReadFrame (s t : State) : Prop where
  regs : t.regs = s.regs
  mem : t.mem = s.mem
  flags : t.flags = s.flags
  eip : t.eip = s.eip
  system : KeepsSystem s t

/-- What the listed stores leave: the registers, the other bytes of memory, EIP, every flag and every system register. -/
structure StoresFrame (stores : List (Option Nat × Width)) (s t : State) : Prop where
  regs : t.regs = s.regs
  memory : keepsMemoryButAll stores s t
  flags : keepsFlags s t
  eip : t.eip = s.eip
  system : KeepsSystem s t

/-- The flag register is all that differs. -/
def onlyFlags (s t : State) : Prop := t = { s with flags := t.flags }

/-- ZF, SF and PF follow the `w`-bit result `r` (40_lazy_flags R225): `r` is 0, its sign bit, an even number of ones in its low
byte. -/
structure ResultFlags (w : Width) (r : Word) (t : State) : Prop where
  zf : flagOf t .zf = decide (r = 0)
  sf : flagOf t .sf = r.getLsbD (w.bits - 1)
  pf : flagOf t .pf = decide ((List.range 8).countP (fun i => r.getLsbD i) % 2 = 0)

/-- One status flag takes a value, and every other bit of EFLAGS reads as before. -/
structure SetsStatusFlag (f : Flag) (b : Bool) (s t : State) : Prop where
  only : onlyFlags s t
  value : flagOf t f = b
  others : ∀ g, g ≠ f → flagOf t g = flagOf s g
  plain : keepsPlainFlags s t

/-- One stored bit of EFLAGS takes a value, and every other bit reads as before. -/
structure SetsPlainFlag (i : Nat) (b : Bool) (s t : State) : Prop where
  only : onlyFlags s t
  value : plainFlag t i = b
  others : ∀ j, j ≠ i → plainFlag t j = plainFlag s j
  status : ∀ f, flagOf t f = flagOf s f

/-- EIP, and at most the stored form of the flags, is all that differs: every flag reads as before. -/
structure OnlyJumps (s t : State) : Prop where
  only : t = { s with eip := t.eip, flags := t.flags }
  flags : keepsFlags s t

/-- What an instruction leaves that writes the operand `op` and no other register or memory: the other registers, the other
bytes of memory, EIP, every system register, and EFLAGS but for the six status flags. -/
structure OperandFrame (a : Attrs) (op : Operand) (s t : State) : Prop where
  regs : keepsRegs op.changes s t
  memory : keepsMemoryBut (op.home a s) op.width s t
  plain : keepsPlainFlags s t
  system : KeepsSystem s t
  eip : t.eip = s.eip

/-- What an instruction leaves that writes the listed registers and no memory. -/
structure RegsFrame (but : List Reg) (s t : State) : Prop where
  regs : keepsRegs but s t
  memory : keepsMemory s t
  plain : keepsPlainFlags s t
  system : KeepsSystem s t
  eip : t.eip = s.eip

/-- What a push of `w` at `k` bytes below the pointer leaves: every register but ESP, every byte but the slot's. -/
structure StackFrame (s t : State) (k : Nat) (w : Width) : Prop where
  regs : keepsRegs [.sp] s t
  memory : keepsMemoryBut (storeHome s .ss (slotBelow s k) w) w s t
  flags : keepsFlags s t
  system : KeepsSystem s t

/-- What loading the segment registers `rs` leaves: every other register of the machine but the general registers and EIP. -/
structure SegFrame (rs : List SegReg) (s t : State) : Prop where
  segs : ∀ q, q ∉ rs → getSeg t q = getSeg s q
  flags : keepsFlags s t
  ldtr : t.ldtr = s.ldtr
  gdtr : t.gdtr = s.gdtr
  idtr : t.idtr = s.idtr
  ctl : t.ctl = s.ctl
  dbg : t.dbg = s.dbg
  cpl : t.cpl = s.cpl
  a20 : t.a20 = s.a20
  sched : t.sched = s.sched
  inputs : t.inputs = s.inputs
  cfg : t.cfg = s.cfg

/-- The bytes at CS:EIP onwards are `bs`, each in a buffer and within the limit of CS (30_encoding R131). -/
def holdsCode (s : State) (bs : List Byte) : Prop :=
  ∀ k (h : k < bs.length), canAccess s .cs (s.eip + BitVec.ofNat 32 k) .byte ∧
    ∃ b, storeHome s .cs (s.eip + BitVec.ofNat 32 k) .byte = some b ∧ Mem.read s.mem b = bs[k]

/-- A slice is running, its budget is not used up and no pause is pending: the next step runs an instruction
(60_exceptions R526). -/
def runsNext (s : State) : Prop :=
  s.sched.runState = .running ∧ s.sched.sliceCount < s.cfg.sliceBudget ∧ s.inputs.pauseReq = false

/-- An instruction ends as its last piece `r` does (60_exceptions R500): normally in `f` of the state, by taking the exception, or
by the abort. -/
structure EndsAs (o : Host.Outcome State Fault Refusal) (r : Res Unit) (f : State → State) : Prop where
  normal : ∀ t, r = .ok () t → o = .next (f t)
  raised : ∀ e t, r = .raised e t → o = .next (takeException t e)
  aborted : ∀ k t, r = .aborted k t → o = .next (abortState t k)

/-- An instruction whose access `r` fails ends there (60_exceptions R503, R514; 41_data_movement R270): it takes the exception, or
makes the abort, in a state in which nothing but the listed stores has been written. -/
structure FailsAs {α : Type} (stores : List (Option Nat × Width)) (s : State) (o : Host.Outcome State Fault Refusal)
    (r : Res α) : Prop where
  raised : ∀ e t, r = .raised e t → o = .next (takeException t e) ∧ StoresFrame stores s t
  aborted : ∀ k t, r = .aborted k t → o = .next (abortState t k) ∧ StoresFrame stores s t

/-- The privilege rule of a CS load (20_memory R107). -/
def csAllowed (s : State) (v : BitVec 16) (d : Descriptor) : CsKind → Prop
  | .jump => if isConforming d = true then descDpl d ≤ s.cpl else selRpl v ≤ s.cpl ∧ descDpl d = s.cpl
  | .ret => selRpl v = s.cpl ∧ if isConforming d = true then descDpl d ≤ selRpl v else descDpl d = selRpl v
  | .int => if isConforming d = true then descDpl d ≤ s.cpl else descDpl d = s.cpl

/-! ### Accesses in order -/

/-- The operands, read in order (00_scope R16). -/
def readOps (a : Attrs) : List Operand → State → Res (List Word)
  | [], s => .ok [] s
  | op :: ops, s => (readOp a s op).andThen fun x s => (readOps a ops s).andThen fun xs s => .ok (x :: xs) s

/-- Two parts of a memory operand, read in order: the second `k` bytes above the first (30_encoding R181). -/
def readParts (a : Attrs) (m : MemRef) (w : Width) (k : Nat) (w' : Width) (s : State) : Res (Word × Word) :=
  (segRead s (segFor a m) (effAddr s m 0) w).andThen fun x s =>
    (segRead s (segFor a m) (effAddr s m k) w').andThen fun y s => .ok (x, y) s

/-- Stack slots above the pointer, read in order, at the given distances (41_data_movement R291). -/
def peekAll (sz : Size) : List Nat → State → Res (List Word)
  | [], s => .ok [] s
  | k :: ks, s => (peek s sz k).andThen fun x s => (peekAll sz ks s).andThen fun xs s => .ok (x :: xs) s

/-- Consecutive stack slots below the pointer of `s₀`, written in order from slot `i` on; the pointer moves later
(41_data_movement R296; 45_control_transfer R458; 60_exceptions R509). -/
def storeSlots (s₀ : State) (sz : Size) : Nat → List Word → State → Res Unit
  | _, [], s => .ok () s
  | i, v :: vs, s =>
    (segWrite s .ss (slotBelow s₀ ((i + 1) * sz.bytes)) sz.width v).andThen fun _ s => storeSlots s₀ sz (i + 1) vs s

/-- Where the first `n` slots below the pointer are. -/
def slotStores (s : State) (sz : Size) (n : Nat) : List (Option Nat × Width) :=
  (List.range n).map fun i => (storeHome s .ss (slotBelow s ((i + 1) * sz.bytes)) sz.width, sz.width)

/-- An instruction that stores the values `vs` into stack slots, from the state `u` on, ends at the first store that fails, with the
slots before it stored. -/
def FailsInSlots (s : State) (o : Host.Outcome State Fault Refusal) (sz : Size) (vs : List Word) (u : State) : Prop :=
  ∀ i (h : i < vs.length) t, storeSlots s sz 0 (vs.take i) u = .ok () t →
    FailsAs (slotStores s sz i) s o (segWrite t .ss (slotBelow s ((i + 1) * sz.bytes)) sz.width vs[i])

/-! ### The invariant -/

/-- What every step keeps, from every state that meets it: memory in its canonical form; the reserved bits of EFLAGS as 10_state
R27 says they read, VM among the zeros (R45); CPL 0 (20_memory R108); a dirty flag has a formula (40_lazy_flags R234);
the abort information is latched exactly in ABORTED (60_exceptions R530); a shutdown is HALTED (R513). -/
structure Inv (s : State) : Prop where
  memory : Memory.wf s.mem = true
  reserved : s.flags.value &&& ~~~(0x00017FD5 : Word) = 2
  cpl : s.cpl = 0
  dirty : ∀ f, s.flags.dirty.get f = true →
    (formula f s.flags.insnLast s.flags.sizeLast s.flags.valLast1 s.flags.valLast2 s.flags.resLast).isSome = true
  aborted : s.sched.abortInfo.isSome = decide (s.sched.runState = .aborted)
  shutdown : s.sched.shutdown = true → s.sched.runState = .halted

/-- A run that goes on: neither a fatal error nor a shutdown has ended it (60_exceptions R513, R530). -/
def live (s : State) : Prop := s.sched.runState ≠ .aborted ∧ s.sched.shutdown = false

end Sys2Proof.Machine
end

