-- ==== Sys2Proof/Certificates/Slice0/Obligations.lean ====
section
/-! DEFINITION. The statements for the provers. -/

open Sys2Proof Sys2Proof.Machine

/-! ### Encoding and fetch -/

/-- Ten words written out from spec/30_encoding.md (R191, R194, R195 and the addressing tables R165 to R169) decode to the
instructions they stand for, in a 16-bit code segment. -/
def Obligations.SpecWordsDecode : Prop :=
  decode .idempotent false [0x89, 0xC3] = .ok (.mov ⟨none, .s16, .s16, .none, false⟩ (.evGv (.reg .bx) .ax)) [] ∧
  decode .idempotent false [0x83, 0xC3, 0xFF] = .ok (.add ⟨none, .s16, .s16, .none, false⟩ (.evIb (.reg .bx) 0xFF)) [] ∧
  decode .idempotent false [0xD3, 0xE0] = .ok (.shl ⟨none, .s16, .s16, .none, false⟩ (.evCL (.reg .ax))) [] ∧
  decode .idempotent false [0xF3, 0xA4] = .ok (.movs ⟨none, .s16, .s16, .rep, false⟩ .b) [] ∧
  decode .idempotent false [0x0F, 0x84, 0x10, 0x00] = .ok (.je ⟨none, .s16, .s16, .none, false⟩ (.jv 0x10)) [] ∧
  decode .idempotent false [0xEA, 0x5B, 0xE0, 0x00, 0xF0] =
    .ok (.jmpFar ⟨none, .s16, .s16, .none, false⟩ 0xE05B 0xF000) [] ∧
  decode .idempotent false [0x0F, 0x94, 0xC0] = .ok (.sete ⟨none, .s16, .s16, .none, false⟩ (.reg .ax)) [] ∧
  decode .idempotent false [0x66, 0x9C] = .ok (.pushf ⟨none, .s32, .s16, .none, false⟩) [] ∧
  decode .idempotent false [0x0F, 0x22, 0xD8] = .ok (.movToCr ⟨none, .s16, .s16, .none, false⟩ .cr3 .ax) [] ∧
  decode .idempotent false [0x26, 0x67, 0x8B, 0x45, 0x08] =
    .ok (.mov ⟨some .es, .s16, .s32, .none, false⟩ (.gvEv .ax (.mem (.base32 .bp (.d8 0x08))))) []

/-- Decoding the encoding of a well-formed instruction gives it back, with every operand at every value the encoding admits,
in both code-segment defaults and both readings of repeated size prefixes, whatever bytes follow; and the encoding has
between 1 and the 15 bytes an instruction may have (30_encoding R144). -/
def Obligations.DecodeOfEncode : Prop :=
  ∀ (mode : SizePrefixMode) (big : Bool) (i : Instr), i.wf = true →
    (∀ rest : List Byte, decode mode big (encode big i ++ rest) = .ok i rest) ∧
    1 ≤ (encode big i).length ∧ (encode big i).length ≤ Config.maxInsnLen

/-- Where the bytes at CS:EIP decode to `i`, a step executes `i` with EIP already behind it (60_exceptions R526, 10_state
R26). What `endOutcome` adds: the instruction counts, and a used-up budget ends the slice in YIELDED; that an aborted one does
not count is the model's (log entry 6). The other ends of a slice (R525 to R527): a budget used up, a pause. A slice of an IDLE
or YIELDED block without a pause or an enabled interrupt starts with the count 0 (log entry 7). -/
def Obligations.StepRunsDecoded : Prop :=
  (∀ (s s1 : State) (i : Instr) (len : Nat), runsNext s → fetchDecode (setStart s s.eip) = .ok (i, len) s1 →
    step s = endOutcome (exec i (setEip s1 (s1.eip + BitVec.ofNat 32 len)))) ∧
  (∀ t : State, ∃ u, endOutcome (.next t) = .next u ∧
    (t.sched.runState = .aborted → u = t) ∧
    (t.sched.runState ≠ .aborted → u = { t with sched := { t.sched with
      sliceCount := t.sched.sliceCount + 1
      runState := if t.sched.runState = .running ∧ t.cfg.sliceBudget ≤ t.sched.sliceCount + 1 then .yielded
        else t.sched.runState } })) ∧
  (∀ s : State, s.sched.runState = .running → s.cfg.sliceBudget ≤ s.sched.sliceCount →
    step s = .next { s with sched := { s.sched with runState := .yielded } }) ∧
  (∀ s : State, s.sched.runState = .running → s.sched.sliceCount < s.cfg.sliceBudget → s.inputs.pauseReq = true →
    step s = .next { s with sched := { s.sched with runState := .idle }, inputs := { s.inputs with pauseReq := false } }) ∧
  ∀ s : State, (s.sched.runState = .idle ∨ s.sched.runState = .yielded) → s.inputs.pauseReq = false →
    (s.sched.shutdown = true ∨ plainFlag s ifPos = false ∨ s.inputs.intr = []) →
    step s = step { s with sched := { s.sched with runState := .running, sliceCount := 0 } }

/-- Where memory holds the encoding of a well-formed instruction at CS:EIP, a step executes exactly that instruction. -/
def Obligations.StepRunsEncoded : Prop :=
  ∀ (s : State) (i : Instr), runsNext s → i.wf = true → holdsCode s (encode (getSeg s .cs).cache.big i) →
    step s = endOutcome (exec i
      (setEip (setStart s s.eip) (s.eip + BitVec.ofNat 32 (encode (getSeg s .cs).cache.big i).length)))

/-- Bytes that decode to nothing abort: the block is ABORTED with the bytes decoding had read and the reason, EIP at the
instruction, nothing else changed (30_encoding R144, R145; 60_exceptions R530, R531). Which reason is named, and that the bytes
are those read, is the model's (log entries 16, 17). An instruction whose bytes are not all fetched (30_encoding R131): when the
held bytes need one more and the read of that byte raises or aborts, the exception is taken or the abort made with nothing
written, the instruction's first byte as the saved EIP (60_exceptions R506); a byte beyond the limit of CS is #GP in protected
mode and an abort in real mode. -/
def Obligations.UndecodableAborts : Prop :=
  (∀ (s : State) (bs : List Byte), runsNext s → bs.length = Config.maxInsnLen → holdsCode s bs →
    (∀ e rest, decode s.cfg.sizePrefix (getSeg s .cs).cache.big bs = .err e rest →
      step s = .next (abortState (setStart s s.eip) (decodeAbort e (bs.take (bs.length - rest.length))))) ∧
    (decode s.cfg.sizePrefix (getSeg s .cs).cache.big bs = .more →
      step s = .next (abortState (setStart s s.eip) (.decodeError .tooLong bs)))) ∧
  ∀ (s : State) (bs : List Byte) (o : Word), runsNext s → bs.length < Config.maxInsnLen → holdsCode s bs →
    decode s.cfg.sizePrefix (getSeg s .cs).cache.big bs = .more → o = s.eip + BitVec.ofNat 32 bs.length →
    (∀ e t, segRead (setStart s s.eip) .cs o .byte = .raised e t →
      step s = endOutcome (.next (takeException t e)) ∧ t = setStart s s.eip) ∧
    (∀ k t, segRead (setStart s s.eip) .cs o .byte = .aborted k t →
      step s = .next (abortState t k) ∧ t = setStart s s.eip) ∧
    ((getSeg s .cs).cache.valid = true → (getSeg s .cs).cache.limitScaled < o →
      (pe s = true → step s = endOutcome (.next (takeException (setStart s s.eip) (.gp (errLimit s o))))) ∧
      (pe s = false → step s = .next (abortState (setStart s s.eip) (.memoryFault .cs o))))

/-! ### Reset and whole-machine rules -/

/-- What `reset()` leaves, in any state: the values of 10_state R50, and memory and the registered handler untouched (R51); and
the first fetch is at physical 0xFFFF0, offset 0x3FFF0 of the ROM buffer (70_reset_and_hazards R552). -/
def Obligations.ResetValues : Prop :=
  (∀ s : State,
    (hostReset s).regs = ⟨0, 0, 0, 0, 0, 0, 0, 0⟩ ∧ (hostReset s).eip = 0x0000FFF0 ∧
    (hostReset s).flags = ⟨2, Dirty.none, .none, .byte, 0, 0, 0⟩ ∧
    getSeg (hostReset s) .cs = ⟨0xF000, ⟨0x000F0000, 0xFFFF, 0, 3, true, 0x93, false, false, true⟩⟩ ∧
    (∀ r, r ≠ .cs → getSeg (hostReset s) r = ⟨0, ⟨0, 0xFFFF, 0, 3, true, 0x93, false, false, true⟩⟩) ∧
    (hostReset s).ldtr = ⟨0, 0, 0xFFFF, false⟩ ∧ (hostReset s).gdtr = ⟨0, 0xFFFF⟩ ∧ (hostReset s).idtr = ⟨0, 0x03FF⟩ ∧
    (hostReset s).ctl = ⟨0, 0, 0⟩ ∧ (hostReset s).dbg = ⟨0, 0, 0, 0, 0, 0, 0, 0⟩ ∧ (hostReset s).cpl = 0 ∧
    (hostReset s).a20 = true ∧ (hostReset s).sched.runState = .idle ∧ (hostReset s).sched.sliceCount = 0 ∧
    (hostReset s).sched.shutdown = false ∧ (hostReset s).sched.abortInfo = none ∧
    (hostReset s).inputs.pauseReq = false ∧ (hostReset s).mem = s.mem ∧ (hostReset s).vga = s.vga ∧
    isReal (hostReset s) = true) ∧
  hostReset State.reset = State.reset ∧
  linearOf State.reset .cs State.reset.eip = 0x000FFFF0 ∧
  mapPhysical State.reset 0x000FFFF0 .byte = some (.rom, Config.romBase + 0x3FFF0)

/-- The state after reset meets the invariant. -/
def Obligations.ResetMeetsInvariant : Prop := Inv State.reset

/-- Every step keeps the invariant: canonical memory, the reserved bits of EFLAGS, CPL 0 and VM 0, formulas for dirty flags,
and what the scheduler's states mean. -/
def Obligations.StepKeepsInvariant : Prop :=
  ∀ (s t : State), Inv s → step s = .next t → Inv t

/-- An instruction ends normally, by an exception or by an abort, and each of the three is a next state (60_exceptions R500):
no instruction and no step is refused or faults. ABORTED is left by no step (R525, R530), a shutdown by no step and no
interrupt (R513), HALTED by no step without an enabled interrupt (R524, R525). That an abort is a next state is log entry 6, that
a step in HALTED starts a slice log entry 7. No action of the host but `reset()` leaves HALTED either: an access that aborts
there changes nothing (log entry 24). -/
def Obligations.EveryInstructionAnswers : Prop :=
  (∀ (i : Instr) (s : State), ∃ t, exec i s = .next t) ∧ (∀ s : State, ∃ t, step s = .next t) ∧
  (∀ s : State, s.sched.runState = .aborted → step s = .next s) ∧
  (∀ s : State, s.sched.runState = .halted → s.sched.shutdown = true → step s = .next (setSliceCount s 0)) ∧
  (∀ (s : State) (x v : Word) (w : Width) (b e : Nat) (d c : Bool) (vs : List Byte), s.sched.runState = .halted →
    (hostMemRead s x w).2.sched = s.sched ∧ (hostMemWrite s x w v).sched = s.sched ∧
    (hostRegisterHandlers s b e d).sched = s.sched ∧ (hostSetA20 s c).sched = s.sched ∧
    (hostSetInterrupts s vs).sched = s.sched ∧ (hostPause s).sched = s.sched) ∧
  ∀ s : State, s.sched.runState = .halted → (plainFlag s ifPos = false ∨ s.inputs.intr = []) →
    step s = .next (setSliceCount s 0)

/-- Who writes the system registers: debug registers MOV DR alone, control registers MOV CR and LMSW alone, GDTR, IDTR and LDTR
LGDT, LIDT and LLDT alone, whatever else an instruction does, an exception it takes included; and no instruction changes
the parameters, A20, the inputs or the registered device. -/
def Obligations.SystemRegistersHaveFewWriters : Prop :=
  ∀ (i : Instr) (s t : State), exec i s = .next t →
    ((∀ a c r, i ≠ .movToDr a c r) → t.dbg = s.dbg) ∧
    ((∀ a c r, i ≠ .movToCr a c r) → (∀ a e, i ≠ .lmsw a e) → t.ctl = s.ctl) ∧
    ((∀ a m, i ≠ .lgdt a m) → t.gdtr = s.gdtr) ∧ ((∀ a m, i ≠ .lidt a m) → t.idtr = s.idtr) ∧
    ((∀ a e, i ≠ .lldt a e) → t.ldtr = s.ldtr) ∧
    t.cfg = s.cfg ∧ t.a20 = s.a20 ∧ t.inputs = s.inputs ∧ t.vga.registered = s.vga.registered ∧ t.start = s.start

/-! ### Memory -/

/-- A store to a buffer changes exactly its bytes, and a load of the same width at the same address gives the value truncated
to the width (20_memory R76, R77). -/
def Obligations.StoreThenLoad : Prop :=
  ∀ (s : State) (addr : Word) (w : Width) (v : Word) (b : Nat), Memory.wf s.mem = true → bufferHome s addr w = some b →
    ∃ t, memWrite s addr w v = .ok () t ∧ memRead t addr w = .ok (trunc w v) t ∧
      keepsMemoryBut (some b) w s t ∧ t = { s with mem := t.mem } ∧
      ∀ i, i < w.bytes → Mem.read t.mem (b + i) = byteOf v i

/-- An access to the VGA window is one call of the device, recorded in order, and touches no buffer (R76, R77, R78). The rules say
that a read may give any value; that it is the next of a list of answers in the state, which the read shortens, is the model's
choice (DESIGN CHOICE, log entry 5). -/
def Obligations.DeviceCallsAreRecorded : Prop :=
  ∀ (s : State) (addr : Word) (w : Width) (v : Word) (a : Nat), mapPhysical s addr w = some (.vga, a) →
    (∃ t, memWrite s addr w v = .ok () t ∧ t.mem = s.mem ∧
      t.vga.log = s.vga.log ++ [⟨true, BitVec.ofNat 32 a, w, trunc w v⟩]) ∧
    ∃ x t, memRead s addr w = .ok x t ∧ t.mem = s.mem ∧
      t.vga.log = s.vga.log ++ [⟨false, BitVec.ofNat 32 a, w, x⟩] ∧
      ∀ y ys, s.vga.answers = y :: ys → x = trunc w y ∧ t.vga.answers = ys

/-- With A20 disabled bit 20 of the address does not matter (R72); the alias at the top of the address space reaches the bytes
of the ROM window (R73). -/
def Obligations.AddressAliases : Prop :=
  (∀ (s : State) (addr : Word) (w : Width), s.a20 = false →
    mapPhysical s addr w = mapPhysical s (addr &&& 0xFFEFFFFF) w) ∧
  ∀ (s : State) (k : Nat) (w : Width), s.a20 = true → s.cfg.wf = true → pg s = false → k + w.bytes ≤ Config.romSize →
    linRead s (BitVec.ofNat 32 (Config.biosTopBase + k)) w = linRead s (BitVec.ofNat 32 (Config.romBase + k)) w

/-- The checks of an access through a segment register (R84 to R88) and of a linear access (R81): NullSelector and limit
violations are #SS or #GP in protected mode and an abort in real mode, and paging aborts; nothing is changed. And the
instruction whose access fails, for every form that makes one (41_data_movement R270; 60_exceptions R503, R514): the first of its
accesses, in the order of its rule (00_scope R16), that raises or aborts is how the instruction ends, with nothing written but
the stack slots, or the first half of SGDT and SIDT, that the rule had stored before. The write of an operand that was read at
the same address does not fail. -/
def Obligations.AccessChecks : Prop :=
  (∀ (s : State) (r : SegReg) (off : Word) (w : Width) (v : Word), (getSeg s r).cache.valid = false →
    segRead s r off w = segFault s r off 0 ∧ segWrite s r off w v = segFault s r off 0) ∧
  (∀ (s : State) (r : SegReg) (off : Word) (w : Width) (v : Word), (getSeg s r).cache.valid = true →
    (getSeg s r).cache.limitScaled < off →
    segRead s r off w = segFault s r off (errLimit s off) ∧ segWrite s r off w v = segFault s r off (errLimit s off)) ∧
  (∀ (s : State) (r : SegReg) (off err : Word), pe s = true →
    (segFault s r off err : Res Unit) = .raised (if r = .ss then .ss err else .gp err) s) ∧
  (∀ (s : State) (r : SegReg) (off err : Word), pe s = false →
    (segFault s r off err : Res Unit) = .aborted (.memoryFault r off) s) ∧
  (∀ (s : State) (addr : Word) (w : Width) (v : Word), pg s = true →
    linRead s addr w = .aborted (.unimplemented .paging) s ∧ linWrite s addr w v = .aborted (.unimplemented .paging) s) ∧
  (∀ (a : Attrs) (op : Operand) (s t : State) (x v : Word), readOp a s op = .ok x t → ∃ u, writeOp a t op v = .ok () u) ∧
  ∀ (a : Attrs) (s : State),
    -- operands that are read, then written at the same place or not at all
    (∀ mk f, mk ∈ [Instr.add, .adc, .sub, .sbb, .cmp, .and, .or, .xor] →
      FailsAs [] s (exec (mk a f) s) (readOps a [(AluForm.operands a f).dst, (AluForm.operands a f).src] s)) ∧
    (∀ f, FailsAs [] s (exec (.test a f) s) (readOps a [(TestForm.operands a f).dst, (TestForm.operands a f).src] s)) ∧
    (∀ mk f, mk ∈ [Instr.inc, .dec] → FailsAs [] s (exec (mk a f) s) (readOp a s (IncForm.operand a f).op)) ∧
    (∀ mk f, mk ∈ [Instr.neg, .not, .mul, .imulOne, .div, .idiv] →
      FailsAs [] s (exec (mk a f) s) (readOp a s (UnaryForm.operand a f).op)) ∧
    (∀ f, FailsAs [] s (exec (.imul a f) s)
      (readOps a [(ImulForm.operands a f).src1, (ImulForm.operands a f).src2] s)) ∧
    (∀ mk f, mk ∈ [Instr.rol, .ror, .rcl, .rcr, .shl, .shr, .sar] →
      FailsAs [] s (exec (mk a f) s) (readOps a [(ShiftForm.operands a f).dst, (ShiftForm.operands a f).src] s)) ∧
    (∀ f, FailsAs [] s (exec (.xchg a f) s) (readOps a [(XchgForm.operands a f).dst, (XchgForm.operands a f).src] s)) ∧
    (∀ f, FailsAs [] s (exec (.movzx a f) s) (readOp a s (ExtForm.source f).op) ∧
      FailsAs [] s (exec (.movsx a f) s) (readOp a s (ExtForm.source f).op)) ∧
    FailsAs [] s (exec (.xlat a) s)
      (segRead s (implicitSeg a) (truncSize a.asz (getRegSize s a.asz .bx + getReg s .byte .ax)) .byte) ∧
    (∀ e, FailsAs [] s (exec (.jmpInd a e) s) (readOp a s (rmOp a.osz.width e))) ∧
    -- operands that are written without having been read
    (∀ f, FailsAs [] s (exec (.mov a f) s) (readOp a s (MovForm.operands a f).src) ∧
      ∀ v t, readOp a s (MovForm.operands a f).src = .ok v t →
        FailsAs [] s (exec (.mov a f) s) (writeOp a t (MovForm.operands a f).dst v)) ∧
    (∀ f, FailsAs [] s (exec (.movMoffs a f) s) (readOp a s (MoffsForm.operands a f).src) ∧
      ∀ v t, readOp a s (MoffsForm.operands a f).src = .ok v t →
        FailsAs [] s (exec (.movMoffs a f) s) (writeOp a t (MoffsForm.operands a f).dst v)) ∧
    (∀ e g, FailsAs [] s (exec (.movFromSeg a e g) s) (writeOp a s (rmOp .word e) ((getSeg s g).value.setWidth 32)) ∧
      FailsAs [] s (exec (.movToSeg a g e) s) (readOp a s (rmOp .word e))) ∧
    (∀ (c : Cond) e, FailsAs [] s (exec (c.setcc a e) s)
      (writeOp a (touchCond c s) (rmOp .byte e) (if condHolds c s then 1 else 0))) ∧
    (∀ e, FailsAs [] s (exec (.smsw a e) s) (writeOp a s (rmOp .word e) (s.ctl.cr0 &&& 0xFFFF)) ∧
      (mayPrivileged s → FailsAs [] s (exec (.lmsw a e) s) (readOp a s (rmOp .word e))) ∧
      (isProt s = true → FailsAs [] s (exec (.sldt a e) s) (writeOp a s (rmOp .word e) (s.ldtr.value.setWidth 32))) ∧
      (isProt s = true → s.cpl = 0 → FailsAs [] s (exec (.lldt a e) s) (readOp a s (rmOp .word e)))) ∧
    -- pointers and pseudo-descriptors in memory
    (∀ mk g m, mk ∈ [Instr.lds, .les, .lss, .lfs, .lgs] →
      FailsAs [] s (exec (mk a g m) s) (readParts a m a.osz.width a.osz.bytes .word s)) ∧
    (∀ mk m, mk ∈ [Instr.jmpFarInd, .callFarInd] →
      FailsAs [] s (exec (mk a m) s) (readParts a m a.osz.width a.osz.bytes .word s)) ∧
    (∀ mk m, mk ∈ [Instr.lgdt, .lidt] → mayPrivileged s →
      FailsAs [] s (exec (mk a m) s) (readParts a m .word 2 .dword s)) ∧
    (∀ mk r m, (mk = Instr.sgdt ∧ r = s.gdtr ∨ mk = Instr.sidt ∧ r = s.idtr) →
      FailsAs [] s (exec (mk a m) s) (segWrite s (segFor a m) (effAddr s m 0) .word (r.limit.setWidth 32)) ∧
      ∀ t, segWrite s (segFor a m) (effAddr s m 0) .word (r.limit.setWidth 32) = .ok () t →
        FailsAs [(storeHome s (segFor a m) (effAddr s m 0) .word, .word)] s (exec (mk a m) s)
          (segWrite t (segFor a m) (effAddr s m 2) .dword r.base)) ∧
    -- stack slots that are written
    (∀ f, FailsAs [] s (exec (.push a f) s) (readOp a s (PushForm.operand a f)) ∧
      ∀ v t, readOp a s (PushForm.operand a f) = .ok v t → FailsInSlots s (exec (.push a f) s) a.osz [v] t) ∧
    (∀ g, FailsInSlots s (exec (.pushSeg a g) s) a.osz [(getSeg s g).value.setWidth 32] s) ∧
    FailsInSlots s (exec (.pusha a) s) a.osz [reg32 s .ax, reg32 s .cx, reg32 s .dx, reg32 s .bx,
      if stackBig s = true then reg32 s .sp else reg32 s .sp &&& 0xFFFF, reg32 s .bp, reg32 s .si, reg32 s .di] s ∧
    (mayV86 s → FailsInSlots s (exec (.pushf a) s) a.osz [pushfImage a.osz (flagsImage s)] (touchAllFlags s)) ∧
    (∀ d, FailsInSlots s (exec (.callRel a d) s) a.osz [s.eip] s) ∧
    (∀ e, FailsAs [] s (exec (.callInd a e) s) (readOp a s (rmOp a.osz.width e)) ∧
      ∀ v t, readOp a s (rmOp a.osz.width e) = .ok v t → FailsInSlots s (exec (.callInd a e) s) a.osz [s.eip] t) ∧
    (∀ off v, FailsInSlots s (exec (.callFar a off v) s) a.osz [(getSeg s .cs).value.setWidth 32, s.eip] s) ∧
    (∀ m x t, readParts a m a.osz.width a.osz.bytes .word s = .ok x t →
      FailsInSlots s (exec (.callFarInd a m) s) a.osz [(getSeg s .cs).value.setWidth 32, s.eip] t) ∧
    -- stack slots that are read
    (∀ f, FailsAs [] s (exec (.pop a f) s) (peek s a.osz 0)) ∧
    (∀ m v t, peek s a.osz 0 = .ok v t →
      FailsAs [] s (exec (.pop a (.ev (.mem m))) s) (writeOp a t (.mem a.osz.width m) v)) ∧
    (∀ g, FailsAs [] s (exec (.popSeg a g) s) (peek s a.osz 0)) ∧
    FailsAs [] s (exec (.popa a) s) (peekAll a.osz ((List.range 8).map fun i => i * a.osz.bytes) s) ∧
    (mayV86 s → FailsAs [] s (exec (.popf a) s) (peek s a.osz 0) ∧
      ((isProt s = false ∨ plainFlag s ntPos = false) →
        FailsAs [] s (exec (.iret a) s) (peekAll a.osz [0, a.osz.bytes, 2 * a.osz.bytes] s))) ∧
    (∀ i, FailsAs [] s (exec (.ret a) s) (peek s a.osz 0) ∧ FailsAs [] s (exec (.retImm a i) s) (peek s a.osz 0) ∧
      FailsAs [] s (exec (.retf a) s) (peekAll a.osz [0, a.osz.bytes] s) ∧
      FailsAs [] s (exec (.retfImm a i) s) (peekAll a.osz [0, a.osz.bytes] s)) ∧
    -- string elements, the first of a repetition included
    ∀ f, (a.rep = .none ∨ repCount a s ≠ 0) →
      FailsAs [] s (exec (.movs a f) s) (segRead s (implicitSeg a) (srcIndex a s) (StrForm.width a f)) ∧
      FailsAs [] s (exec (.cmps a f) s) (segRead s (implicitSeg a) (srcIndex a s) (StrForm.width a f)) ∧
      FailsAs [] s (exec (.lods a f) s) (segRead s (implicitSeg a) (srcIndex a s) (StrForm.width a f)) ∧
      FailsAs [] s (exec (.scas a f) s) (segRead s .es (dstIndex a s) (StrForm.width a f)) ∧
      FailsAs [] s (exec (.stos a f) s)
        (segWrite s .es (dstIndex a s) (StrForm.width a f) (getReg s (StrForm.width a f) .ax)) ∧
      ∀ v t, segRead s (implicitSeg a) (srcIndex a s) (StrForm.width a f) = .ok v t →
        FailsAs [] s (exec (.movs a f) s) (segWrite t .es (dstIndex a s) (StrForm.width a f) v) ∧
        FailsAs [] s (exec (.cmps a f) s) (segRead t .es (dstIndex a s) (StrForm.width a f))

/-! ### Registers and flags -/

/-- "A write of width N to a general register changes exactly the N bits of the alias" (10_state R24): the alias reads the value
truncated, the other bits of the 32-bit register and the other registers are unchanged. The aliases (R21 to R23): byte registers 0
to 3 are the low bytes of EAX, ECX, EDX, EBX, byte registers 4 to 7 (AH, CH, DH, BH) their second bytes, a word register is the
low half of its 32-bit register. -/
def Obligations.RegisterWriteChangesItsBits : Prop :=
  (∀ (s : State) (r h : Reg) (high : Bool),
    (r, h, high) ∈ [(Reg.ax, Reg.ax, false), (.cx, .cx, false), (.dx, .dx, false), (.bx, .bx, false),
      (.sp, .ax, true), (.bp, .cx, true), (.si, .dx, true), (.di, .bx, true)] →
    regHome .byte r = h ∧ isHighByte r = high ∧
    (getReg s .byte r).toNat = (if high then (reg32 s h).toNat / 256 else (reg32 s h).toNat) % 256 ∧
    regHome .word r = r ∧ (getReg s .word r).toNat = (reg32 s r).toNat % 65536 ∧
    regHome .dword r = r ∧ getReg s .dword r = reg32 s r) ∧
  ∀ (s : State) (w : Width) (r : Reg) (v : Word),
    getReg (setReg s w r v) w r = trunc w v ∧
    (∀ q, q ≠ regHome w r → reg32 (setReg s w r v) q = reg32 s q) ∧
    ∀ i, i < 32 →
      (match w with
        | .byte => if isHighByte r then ¬(8 ≤ i ∧ i < 16) else 8 ≤ i
        | .word => 16 ≤ i
        | .dword => False) →
      (reg32 (setReg s w r v) (regHome w r)).getLsbD i = (reg32 s (regHome w r)).getLsbD i

/-- Reading a flag changes no flag's value and leaves the flag clean (40_lazy_flags R224, R237), and the lazy evaluator is
invisible (R236): after a snapshot every flag has its formula's value, after `SetFlag` that flag has the value set, and
the others keep theirs. -/
def Obligations.LazyFlagsAreInvisible : Prop :=
  (∀ (s : State) (f g : Flag), flagOf (touchFlag s f) g = flagOf s g ∧
    (touchFlag s f).flags.dirty.get f = false ∧ onlyFlags s (touchFlag s f)) ∧
  (∀ (s : State) (f g : Flag) (b : Bool), flagOf (setFlag s f b) g = if g = f then b else flagOf s g) ∧
  ∀ (s : State) (k : FlagKind) (w : Width) (x y r : Word) (g : Flag) (b : Bool),
    formula g k w x y r = some b → flagOf (lazyStore s k w x y r) g = b

/-- `ReadFlags` after `WriteFlags(v, m)`: the implemented bits of `m` come from `v`, every other bit is as before, and the lazy
flags outside `m` keep their dirty bit (R229). `ReadFlags` is the stored bits after all six are evaluated, the implemented
ones and bit 1 (R228). -/
def Obligations.FlagsImageAfterWrite : Prop :=
  ∀ (s : State) (v m : Word),
    flagsImage (writeFlags s v m) = mergeBits (flagsImage s) v (m &&& eflagsImplemented) ∧
    (∀ f, (writeFlags s v m).flags.dirty.get f = (s.flags.dirty.get f && !m.getLsbD f.pos)) ∧
    onlyFlags s (writeFlags s v m) ∧
    flagsImage s = ((touchAllFlags s).flags.value &&& 0x00037FD5) ||| 0x00000002 ∧
    flagsImage (touchAllFlags s) = flagsImage s ∧ (touchAllFlags s).flags.dirty = Dirty.none ∧
    onlyFlags s (touchAllFlags s)

/-- The formula rows ADD and ADC mean carry out, carry out of bit 3, and signed overflow of the N-bit sum (R230 to R233); ZF, SF
and PF follow the sum (R225). -/
def Obligations.AdditionFlags : Prop :=
  ∀ (s : State) (w : Width) (x y : Word) (c : Bool) (k : FlagKind), x.toNat < 2 ^ w.bits → y.toNat < 2 ^ w.bits →
    (k = .adc ∨ (k = .add ∧ c = false)) →
    let t := lazyStore s k w x y (trunc w (x + y + bitWord c))
    flagOf t .cf = decide (2 ^ w.bits ≤ x.toNat + y.toNat + c.toNat) ∧
    flagOf t .af = decide (16 ≤ x.toNat % 16 + y.toNat % 16 + c.toNat) ∧
    flagOf t .zf = decide ((x.toNat + y.toNat + c.toNat) % 2 ^ w.bits = 0) ∧
    flagOf t .ovf = decide (signed w x + signed w y + c.toInt < -2 ^ (w.bits - 1) ∨
      2 ^ (w.bits - 1) ≤ signed w x + signed w y + c.toInt) ∧
    ResultFlags w (trunc w (x + y + bitWord c)) t

/-- The rows SUB, CMP, SBB and NEG mean borrow, borrow from bit 4, and signed overflow of the N-bit difference (R230 to R233); ZF, SF
and PF follow the difference (R225). -/
def Obligations.SubtractionFlags : Prop :=
  (∀ (s : State) (w : Width) (x y : Word) (c : Bool) (k : FlagKind), x.toNat < 2 ^ w.bits → y.toNat < 2 ^ w.bits →
    (k = .sbb ∨ (k = .sub ∧ c = false) ∨ (k = .cmp ∧ c = false)) →
    let t := lazyStore s k w x y (trunc w (x - y - bitWord c))
    flagOf t .cf = decide (x.toNat < y.toNat + c.toNat) ∧
    flagOf t .af = decide (x.toNat % 16 < y.toNat % 16 + c.toNat) ∧
    flagOf t .zf = decide ((x.toNat + 2 * 2 ^ w.bits - y.toNat - c.toNat) % 2 ^ w.bits = 0) ∧
    flagOf t .ovf = decide (signed w x - signed w y - c.toInt < -2 ^ (w.bits - 1) ∨
      2 ^ (w.bits - 1) ≤ signed w x - signed w y - c.toInt) ∧
    ResultFlags w (trunc w (x - y - bitWord c)) t) ∧
  ∀ (s : State) (w : Width) (x : Word), x.toNat < 2 ^ w.bits →
    let t := lazyStore s .neg w x 0 (trunc w (0 - x))
    flagOf t .cf = decide (x ≠ 0) ∧ flagOf t .af = decide (x.toNat % 16 ≠ 0) ∧ flagOf t .zf = decide (x = 0) ∧
    flagOf t .ovf = decide (x = msbWord w) ∧ ResultFlags w (trunc w (0 - x)) t

/-- The rows MUL and IMUL set CF and OF exactly when the product does not fit its low half (R230, R232), with AF 0 (R231), and INC,
DEC set OF on signed overflow and keep CF (R227); ZF, SF and PF follow the low half and the result (R225). -/
def Obligations.MultiplyAndStepFlags : Prop :=
  (∀ (s : State) (w : Width) (x y : Word) (f : Flag), x.toNat < 2 ^ w.bits → y.toNat < 2 ^ w.bits → (f = .cf ∨ f = .ovf) →
    flagOf (lazyStore s .mul w x y (trunc w (x * y))) f = decide (2 ^ w.bits ≤ x.toNat * y.toNat) ∧
    flagOf (lazyStore s .imul w x y (trunc w (x * y))) f =
      decide (signed w x * signed w y < -2 ^ (w.bits - 1) ∨ 2 ^ (w.bits - 1) ≤ signed w x * signed w y)) ∧
  (∀ (s : State) (w : Width) (x y : Word) (k : FlagKind), (k = .mul ∨ k = .imul) →
    let t := lazyStore s k w x y (trunc w (x * y))
    flagOf t .af = false ∧ ResultFlags w (trunc w (x * y)) t) ∧
  ∀ (s : State) (w : Width) (x : Word) (c : Bool), x.toNat < 2 ^ w.bits →
    (∀ k r, (k = .inc ∧ r = trunc w (x + 1)) ∨ (k = .dec ∧ r = trunc w (x - 1)) →
      flagOf (setFlag (lazyStore s k w x 1 r) .cf c) .cf = c ∧ ResultFlags w r (setFlag (lazyStore s k w x 1 r) .cf c)) ∧
    flagOf (setFlag (lazyStore s .inc w x 1 (trunc w (x + 1))) .cf c) .ovf = decide (2 ^ (w.bits - 1) ≤ signed w x + 1) ∧
    flagOf (setFlag (lazyStore s .inc w x 1 (trunc w (x + 1))) .cf c) .af = decide (x.toNat % 16 = 15) ∧
    flagOf (setFlag (lazyStore s .dec w x 1 (trunc w (x - 1))) .cf c) .ovf =
      decide (signed w x - 1 < -2 ^ (w.bits - 1)) ∧
    flagOf (setFlag (lazyStore s .dec w x 1 (trunc w (x - 1))) .cf c) .af = decide (x.toNat % 16 = 0)

/-- CLC, STC, CMC, CLD, STD change one flag and nothing else (R250 to R254); CLI and STI do where CPL is at most IOPL or
the mode is real, and raise #GP(0) elsewhere (R255, R256). -/
def Obligations.FlagInstructions : Prop :=
  ∀ (a : Attrs) (s : State),
    (∃ t, exec (.clc a) s = .next t ∧ SetsStatusFlag .cf false s t) ∧
    (∃ t, exec (.stc a) s = .next t ∧ SetsStatusFlag .cf true s t) ∧
    (∃ t, exec (.cmc a) s = .next t ∧ SetsStatusFlag .cf (!flagOf s .cf) s t) ∧
    (∃ t, exec (.cld a) s = .next t ∧ SetsPlainFlag dfPos false s t) ∧
    (∃ t, exec (.std a) s = .next t ∧ SetsPlainFlag dfPos true s t) ∧
    ((pe s = false ∨ s.cpl ≤ iopl s) →
      (∃ t, exec (.cli a) s = .next t ∧ SetsPlainFlag ifPos false s t) ∧
      ∃ t, exec (.sti a) s = .next t ∧ SetsPlainFlag ifPos true s t) ∧
    (pe s = true → iopl s < s.cpl →
      exec (.cli a) s = .next (takeException s (.gp 0)) ∧ exec (.sti a) s = .next (takeException s (.gp 0)))

/-- PUSHF pushes the EFLAGS image, POPF loads the bits its mode allows, LAHF and SAHF move the low byte of EFLAGS to and from
AH (R257 to R260). The bits POPF may load are CF, PF, AF, ZF, SF, TF, DF, OF, NT, IF by CPL and IOPL, IOPL by CPL (R258). The
image PUSHF stores is the low 16 bits, or 32 bits with VM, RF and the bits above 23 cleared (R257). In V8086 mode with IOPL
below 3 PUSHF and POPF raise #GP(0). -/
def Obligations.FlagTransfers : Prop :=
  (∀ (v : Word) (i : Nat), (pushfImage .s16 v).getLsbD i = (v.getLsbD i && decide (i < 16)) ∧
    (pushfImage .s32 v).getLsbD i = (v.getLsbD i && decide (i < 24 ∧ i ≠ 16 ∧ i ≠ 17))) ∧
  ∀ (a : Attrs) (s : State),
    (¬mayV86 s → exec (.pushf a) s = .next (takeException s (.gp 0)) ∧
      exec (.popf a) s = .next (takeException s (.gp 0))) ∧
    (mayV86 s → canStore s a.osz a.osz.bytes →
      ∃ u, segWrite (touchAllFlags s) .ss (slotBelow s a.osz.bytes) a.osz.width (pushfImage a.osz (flagsImage s)) =
          .ok () u ∧
        exec (.pushf a) s = .next (setStackPtr u (slotBelow s a.osz.bytes)) ∧
        StackFrame s (setStackPtr u (slotBelow s a.osz.bytes)) a.osz.bytes a.osz.width ∧ u.eip = s.eip) ∧
    (mayV86 s → canFetch s a.osz 0 →
      ∃ v u, peek s a.osz 0 = .ok v u ∧ ReadFrame s u ∧
        exec (.popf a) s = .next (writeFlags (drop u a.osz.bytes) v (loadableFlags s)) ∧
        keepsRegs [.sp] s (writeFlags (drop u a.osz.bytes) v (loadableFlags s))) ∧
    (∃ t, exec (.lahf a) s = .next t ∧ getReg t .byte .sp = flagsImage s &&& 0xFF ∧ RegsFrame [.ax] s t ∧
      getReg t .byte .ax = getReg s .byte .ax ∧ ∀ f, flagOf t f = flagOf s f) ∧
    (∀ i, (loadableFlags s).getLsbD i = true ↔ i ∈ [0, 2, 4, 6, 7, 8, 10, 11, 14] ∨
      (i = 9 ∧ (pe s = false ∨ s.cpl ≤ iopl s)) ∨ ((i = 12 ∨ i = 13) ∧ (pe s = false ∨ s.cpl = 0))) ∧
    ∃ t, exec (.sahf a) s = .next t ∧ onlyFlags s t ∧ flagsImage t = mergeBits (flagsImage s) (getReg s .byte .sp) 0xD5

/-! ### Data movement -/

/-- MOV writes the source's value to the destination and nothing else (41_data_movement R271, R272); MOV from a segment register
writes 16 bits (R273). -/
def Obligations.MoveResults : Prop :=
  ∀ (a : Attrs) (s : State),
    (∀ f, (MovForm.operands a f).ready a s →
      ∃ v u t, readOp a s (MovForm.operands a f).src = .ok v u ∧ writeOp a u (MovForm.operands a f).dst v = .ok () t ∧
        exec (.mov a f) s = .next t ∧ OperandFrame a (MovForm.operands a f).dst s t ∧ t.flags = s.flags) ∧
    (∀ f, (MoffsForm.operands a f).ready a s →
      ∃ v u t, readOp a s (MoffsForm.operands a f).src = .ok v u ∧
        writeOp a u (MoffsForm.operands a f).dst v = .ok () t ∧
        exec (.movMoffs a f) s = .next t ∧ OperandFrame a (MoffsForm.operands a f).dst s t ∧ t.flags = s.flags) ∧
    ∀ e g, (rmOp .word e).ready a s →
      ∃ t, writeOp a s (rmOp .word e) ((getSeg s g).value.setWidth 32) = .ok () t ∧ exec (.movFromSeg a e g) s = .next t ∧
        OperandFrame a (rmOp .word e) s t ∧ t.flags = s.flags

/-- XCHG reads both operands, then writes both (R275); NOP changes nothing (R276). -/
def Obligations.ExchangeResults : Prop :=
  ∀ (a : Attrs) (s : State),
    (∀ f, (XchgForm.operands a f).ready a s →
      ∃ x y s1 s2 s3 t, readOp a s (XchgForm.operands a f).dst = .ok x s1 ∧
        readOp a s1 (XchgForm.operands a f).src = .ok y s2 ∧ writeOp a s2 (XchgForm.operands a f).dst y = .ok () s3 ∧
        writeOp a s3 (XchgForm.operands a f).src x = .ok () t ∧ exec (.xchg a f) s = .next t ∧
        keepsRegs ((XchgForm.operands a f).dst.changes ++ (XchgForm.operands a f).src.changes) s t ∧
        keepsMemoryBut ((XchgForm.operands a f).dst.home a s) (XchgForm.operands a f).dst.width s t ∧
        KeepsSystem s t ∧ t.flags = s.flags) ∧
    exec (.nop a) s = .next s

/-- LEA, MOVZX, MOVSX, CBW, CWD and XLAT write one register (R277 to R282). And the addresses of memory operands (30_encoding R165,
R167 to R169, R181): the sum of the registers of the addressing form, the displacement sign-extended and the extra offset, modulo
2^16 or 2^32; the segment (R165, R166, R169, R184) is the override, else SS for a form with BP or EBP and DS for the others. -/
def Obligations.RegisterResults : Prop :=
  (∀ (s : State) (b : Base16) (rs : List Reg) (d : Disp 16) (e : Int) (x : BitVec 16) (k : Nat),
    (b, rs) ∈ [(Base16.bxsi, [Reg.bx, Reg.si]), (.bxdi, [.bx, .di]), (.bpsi, [.bp, .si]), (.bpdi, [.bp, .di]),
      (.si, [.si]), (.di, [.di]), (.bp, [.bp]), (.bx, [.bx])] →
    (d = .none ∧ e = 0 ∨ (∃ y, d = .d8 y ∧ e = y.toInt) ∨ ∃ y, d = .full y ∧ e = y.toInt) →
    ((effAddr s (.base16 b d) k).toNat : Int) =
      ((rs.map fun r => ((reg32 s r).toNat % 65536 : Int)).sum + k + e) % 65536 ∧
    (effAddr s (.abs16 x) k).toNat = (x.toNat + k) % 65536) ∧
  (∀ (s : State) (r : Reg) (d : Disp 32) (e : Int) (x : Word) (k : Nat),
    (d = .none ∧ e = 0 ∨ (∃ y, d = .d8 y ∧ e = y.toInt) ∨ ∃ y, d = .full y ∧ e = y.toInt) →
    ((effAddr s (.base32 r d) k).toNat : Int) = ((reg32 s r).toNat + k + e) % 2 ^ 32 ∧
    (effAddr s (.abs32 x) k).toNat = (x.toNat + k) % 2 ^ 32) ∧
  (∀ (a : Attrs) (g : SegReg) (b : Base16) (d : Disp 16) (r : Reg) (d' : Disp 32) (x : BitVec 16) (y : Word) (m : MemRef),
    (a.seg = some g → segFor a m = g ∧ implicitSeg a = g) ∧
    (a.seg = none → segFor a (.base16 b d) = (if b ∈ [.bpsi, .bpdi, .bp] then .ss else .ds) ∧
      segFor a (.base32 r d') = (if r = .bp then .ss else .ds) ∧ segFor a (.abs16 x) = .ds ∧
      segFor a (.abs32 y) = .ds ∧ implicitSeg a = .ds)) ∧
  ∀ (a : Attrs) (s : State),
    (∀ g m, exec (.lea a g m) s = .next (setRegSize s a.osz g (effAddr s m 0))) ∧
    (∀ f, (ExtForm.source f).op.ready a s →
      ∃ v u, readOp a s (ExtForm.source f).op = .ok v u ∧ ReadFrame s u ∧ v.toNat < 2 ^ (ExtForm.source f).width.bits ∧
        exec (.movzx a f) s = .next (setRegSize u a.osz (ExtForm.target f) v) ∧
        exec (.movsx a f) s = .next (setRegSize u a.osz (ExtForm.target f) (sext (ExtForm.source f).width v)) ∧
        ∀ x, RegsFrame [ExtForm.target f] s (setRegSize u a.osz (ExtForm.target f) x)) ∧
    exec (.cbw a) s = .next (match a.osz with
      | .s16 => setReg s .word .ax (sext .byte (getReg s .byte .ax))
      | .s32 => setReg s .dword .ax (sext .word (getReg s .word .ax))) ∧
    exec (.cwd a) s = .next (setRegSize s a.osz .dx
      (if signed a.osz.width (getRegSize s a.osz .ax) < 0 then maskOf a.osz.width else 0)) ∧
    (canAccess s (implicitSeg a) (truncSize a.asz (getRegSize s a.asz .bx + getReg s .byte .ax)) .byte →
      ∃ v u, segRead s (implicitSeg a) (truncSize a.asz (getRegSize s a.asz .bx + getReg s .byte .ax)) .byte = .ok v u ∧
        ReadFrame s u ∧ exec (.xlat a) s = .next (setReg u .byte .ax v) ∧ RegsFrame [.ax] s (setReg u .byte .ax v))

/-- PUSH writes the value below the stack pointer, then moves the pointer (R290, R292, R293): the operand is read first. -/
def Obligations.PushResults : Prop :=
  ∀ (a : Attrs) (s : State), canStore s a.osz a.osz.bytes →
    (∀ f, (PushForm.operand a f).ready a s →
      ∃ v u t, readOp a s (PushForm.operand a f) = .ok v u ∧
        segWrite u .ss (slotBelow s a.osz.bytes) a.osz.width v = .ok () t ∧
        exec (.push a f) s = .next (setStackPtr t (slotBelow s a.osz.bytes)) ∧
        StackFrame s (setStackPtr t (slotBelow s a.osz.bytes)) a.osz.bytes a.osz.width ∧ t.eip = s.eip) ∧
    ∀ g, ∃ t, segWrite s .ss (slotBelow s a.osz.bytes) a.osz.width ((getSeg s g).value.setWidth 32) = .ok () t ∧
      exec (.pushSeg a g) s = .next (setStackPtr t (slotBelow s a.osz.bytes)) ∧
      StackFrame s (setStackPtr t (slotBelow s a.osz.bytes)) a.osz.bytes a.osz.width ∧ t.eip = s.eip

/-- POP to a register moves the pointer, then writes; POP to memory writes, then moves the pointer (R291, R294). The slots and
the pointer (R290, R291): of ESP when SS is big and of SP otherwise, wrapping at that width, ESP's upper half kept. -/
def Obligations.PopResults : Prop :=
  (∀ (s : State) (k : Nat) (v : Word),
    drop s k = setStackPtr s (slotAbove s k) ∧ keepsRegs [.sp] s (setStackPtr s v) ∧
    setStackPtr s v = { s with regs := (setStackPtr s v).regs } ∧
    (stackBig s = true → reg32 (setStackPtr s v) .sp = v ∧
      (slotAbove s k).toNat = ((reg32 s .sp).toNat + k) % 2 ^ 32 ∧
      ((slotBelow s k).toNat + k) % 2 ^ 32 = (reg32 s .sp).toNat) ∧
    (stackBig s = false → reg32 (setStackPtr s v) .sp = (reg32 s .sp &&& 0xFFFF0000) ||| (v &&& 0xFFFF) ∧
      (slotAbove s k).toNat = ((reg32 s .sp).toNat % 65536 + k) % 65536 ∧ (slotBelow s k).toNat < 65536 ∧
      ((slotBelow s k).toNat + k) % 65536 = (reg32 s .sp).toNat % 65536)) ∧
  ∀ (a : Attrs) (s : State), canFetch s a.osz 0 →
    (∀ g, ∃ v u, peek s a.osz 0 = .ok v u ∧ ReadFrame s u ∧
      exec (.pop a (.r g)) s = .next (setRegSize (drop u a.osz.bytes) a.osz g v) ∧
      exec (.pop a (.ev (.reg g))) s = .next (setRegSize (drop u a.osz.bytes) a.osz g v) ∧
      RegsFrame [.sp, g] s (setRegSize (drop u a.osz.bytes) a.osz g v)) ∧
    ∀ m, (Operand.mem a.osz.width m).ready a s →
      ∃ v u t, peek s a.osz 0 = .ok v u ∧ writeOp a u (.mem a.osz.width m) v = .ok () t ∧
        exec (.pop a (.ev (.mem m))) s = .next (drop t a.osz.bytes) ∧ keepsRegs [.sp] s (drop t a.osz.bytes) ∧
        StoresFrame [((Operand.mem a.osz.width m).home a s, a.osz.width)] s t

/-- PUSHA stores EAX, ECX, EDX, EBX, the old pointer, EBP, ESI and EDI below the pointer at the operand size, then moves the
pointer by the eight slots (R296); POPA reads the eight slots before it writes seven registers (R297). Both complete whenever
their eight slots can be accessed. At `osz` = 32 a 16-bit pointer is stored zero-extended, which is the model's (log entry 20). -/
def Obligations.PushAllPopAll : Prop :=
  ∀ (a : Attrs) (s : State),
    ((∀ i, i < 8 → canStore s a.osz (a.osz.bytes * (i + 1))) →
      ∃ t1 t2 t3 t4 t5 t6 t7 t8,
        segWrite s .ss (slotBelow s a.osz.bytes) a.osz.width (reg32 s .ax) = .ok () t1 ∧
        segWrite t1 .ss (slotBelow s (2 * a.osz.bytes)) a.osz.width (reg32 s .cx) = .ok () t2 ∧
        segWrite t2 .ss (slotBelow s (3 * a.osz.bytes)) a.osz.width (reg32 s .dx) = .ok () t3 ∧
        segWrite t3 .ss (slotBelow s (4 * a.osz.bytes)) a.osz.width (reg32 s .bx) = .ok () t4 ∧
        segWrite t4 .ss (slotBelow s (5 * a.osz.bytes)) a.osz.width
          (if stackBig s = true then reg32 s .sp else reg32 s .sp &&& 0xFFFF) = .ok () t5 ∧
        segWrite t5 .ss (slotBelow s (6 * a.osz.bytes)) a.osz.width (reg32 s .bp) = .ok () t6 ∧
        segWrite t6 .ss (slotBelow s (7 * a.osz.bytes)) a.osz.width (reg32 s .si) = .ok () t7 ∧
        segWrite t7 .ss (slotBelow s (8 * a.osz.bytes)) a.osz.width (reg32 s .di) = .ok () t8 ∧
        exec (.pusha a) s = .next (setStackPtr t8 (slotBelow s (8 * a.osz.bytes))) ∧
        StoresFrame ((List.range 8).map fun i =>
          (storeHome s .ss (slotBelow s (a.osz.bytes * (i + 1))) a.osz.width, a.osz.width)) s t8 ∧
        keepsRegs [.sp] s (setStackPtr t8 (slotBelow s (8 * a.osz.bytes)))) ∧
    ((∀ i, i < 8 → canFetch s a.osz (a.osz.bytes * i)) →
      ∃ di si bp sp bx dx cx ax u1 u2 u3 u4 u5 u6 u7 u,
        peek s a.osz 0 = .ok di u1 ∧ peek u1 a.osz a.osz.bytes = .ok si u2 ∧
        peek u2 a.osz (2 * a.osz.bytes) = .ok bp u3 ∧ peek u3 a.osz (3 * a.osz.bytes) = .ok sp u4 ∧
        peek u4 a.osz (4 * a.osz.bytes) = .ok bx u5 ∧ peek u5 a.osz (5 * a.osz.bytes) = .ok dx u6 ∧
        peek u6 a.osz (6 * a.osz.bytes) = .ok cx u7 ∧ peek u7 a.osz (7 * a.osz.bytes) = .ok ax u ∧
        ReadFrame s u ∧ exec (.popa a) s = .next (drop
          (setRegSize (setRegSize (setRegSize (setRegSize (setRegSize (setRegSize (setRegSize u a.osz .di di)
            a.osz .si si) a.osz .bp bp) a.osz .bx bx) a.osz .dx dx) a.osz .cx cx) a.osz .ax ax) (8 * a.osz.bytes)))

/-- Outside protected mode a segment load sets the value, the base and two bits of the cache, changes nothing else and cannot fail
(20_memory R96): MOV, POP and the far-pointer loads of a segment register (41_data_movement R274, R295, R299 to R304). A far
pointer is its offset, then its 16-bit selector. -/
def Obligations.SegmentLoadsRealMode : Prop :=
  ∀ (a : Attrs) (s : State), isProt s = false →
    (∀ u g v k e, isProt u = false → loadSeg u g v k e = .ok () (loadSegReal u g v)) ∧
    (∀ u g v, loadSegReal u g v = { u with segs := (loadSegReal u g v).segs }) ∧
    (∀ u g v, ReadFrame s u → SegFrame [g] s (loadSegReal u g v) ∧ getSeg (loadSegReal u g v) g =
      ⟨v, { (getSeg s g).cache with base := BitVec.ofNat 32 (v.toNat * 16), present := true, valid := true }⟩) ∧
    (∀ g e, (rmOp .word e).ready a s → ∃ v u, readOp a s (rmOp .word e) = .ok v u ∧ ReadFrame s u ∧
      exec (.movToSeg a g e) s = .next (loadSegReal u g (v.setWidth 16))) ∧
    (∀ g, canFetch s a.osz 0 → ∃ v u, peek s a.osz 0 = .ok v u ∧ ReadFrame s u ∧
      exec (.popSeg a g) s = .next (drop (loadSegReal u g (v.setWidth 16)) a.osz.bytes)) ∧
    ∀ g m, farReady a s m → ∃ off sel u, readFar a s m = .ok (off, sel) u ∧ ReadFrame s u ∧
      (∃ x, readParts a m a.osz.width a.osz.bytes .word s = .ok (off, x) u ∧ sel = x.setWidth 16) ∧
      exec (.lds a g m) s = .next (setRegSize (loadSegReal u .ds sel) a.osz g off) ∧
      exec (.les a g m) s = .next (setRegSize (loadSegReal u .es sel) a.osz g off) ∧
      exec (.lss a g m) s = .next (setRegSize (loadSegReal u .ss sel) a.osz g off) ∧
      exec (.lfs a g m) s = .next (setRegSize (loadSegReal u .fs sel) a.osz g off) ∧
      exec (.lgs a g m) s = .next (setRegSize (loadSegReal u .gs sel) a.osz g off)

/-- Loading DS, ES, FS, GS in protected mode (20_memory R92, R103 to R105): a null selector is stored and invalidates the cache;
a selector that names no descriptor raises #GP; the checks in their order; a load that passes them marks the descriptor accessed
and fills the cache; one that fails has written nothing. MOV, POP, LDS, LES, LFS and LGS end as that load does, and write the
stack pointer or the general register only after a load that passed (41_data_movement R274, R295, R299 to R301, R303, R304). -/
def Obligations.DataSegmentLoads : Prop :=
  (∀ (a : Attrs) (s : State),
    (∀ g e, g ≠ .cs → g ≠ .ss → (rmOp .word e).ready a s → ∃ v u, readOp a s (rmOp .word e) = .ok v u ∧ ReadFrame s u ∧
      EndsAs (exec (.movToSeg a g e) s) (loadSeg u g (v.setWidth 16) .jump false) id) ∧
    (∀ g, g ≠ .cs → g ≠ .ss → canFetch s a.osz 0 → ∃ v u, peek s a.osz 0 = .ok v u ∧ ReadFrame s u ∧
      EndsAs (exec (.popSeg a g) s) (loadSeg u g (v.setWidth 16) .jump false) fun t => drop t a.osz.bytes) ∧
    ∀ mk g q m, (mk, q) ∈ [(Instr.lds, SegReg.ds), (.les, .es), (.lfs, .fs), (.lgs, .gs)] → farReady a s m →
      ∃ off v u, readFar a s m = .ok (off, v) u ∧ ReadFrame s u ∧
        EndsAs (exec (mk a g m) s) (loadSeg u q v .jump false) fun t => setRegSize t a.osz g off) ∧
  (∀ (s : State) (r : SegReg) (v : BitVec 16), r ≠ .cs → r ≠ .ss →
    (∀ e t, loadSeg s r v .jump false = .raised e t → ReadFrame s t) ∧
    (∀ k t, loadSeg s r v .jump false = .aborted k t → ReadFrame s t) ∧
    (isProt s = true → v &&& 0xFFFC ≠ 0 → ∀ k t, fetchRawDescriptor s v false = .aborted k t →
      loadSeg s r v .jump false = .aborted k t)) ∧
  ∀ (s : State) (r : SegReg) (v : BitVec 16), isProt s = true → r ≠ .cs → r ≠ .ss →
    (v &&& 0xFFFC = 0 → loadSeg s r v .jump false =
      .ok () (setSeg s r ⟨v, { (getSeg s r).cache with valid := false }⟩)) ∧
    (v &&& 0xFFFC ≠ 0 → selectorOutside s v → loadSeg s r v .jump false = .raised (.gp (selError v)) s) ∧
    ∀ d ad u, v &&& 0xFFFC ≠ 0 → fetchRawDescriptor s v false = .ok (d, ad) u →
      (isReadable d = false → loadSeg s r v .jump false = .raised (.gp (selError v)) u) ∧
      (isReadable d = true → isExpandDown d = true →
        loadSeg s r v .jump false = .aborted (.unimplemented .expandDown) u) ∧
      (isReadable d = true → isExpandDown d = false → (descDpl d < selRpl v ∨ descDpl d < s.cpl) →
        loadSeg s r v .jump false = .raised (.gp (selError v)) u) ∧
      (isReadable d = true → isExpandDown d = false → selRpl v ≤ descDpl d → s.cpl ≤ descDpl d → descP d = false →
        loadSeg s r v .jump false = .raised (.np (selError v)) u) ∧
      (isReadable d = true → isExpandDown d = false → selRpl v ≤ descDpl d → s.cpl ≤ descDpl d → descP d = true →
        canAccessLinear s (ad + 5) .byte →
        ∃ t, loadSeg s r v .jump false = .ok () (setSeg t r (loadedSeg v d)) ∧
          (d.getLsbD 40 = true → t = u) ∧
          (d.getLsbD 40 = false → linWrite u (ad + 5) .byte ((descAccess d ||| 1).setWidth 32) = .ok () t) ∧
          StoresFrame [(bufferHome s (ad + 5) .byte, .byte)] s t ∧ SegFrame [r] s (setSeg t r (loadedSeg v d)))

/-- Loading SS in protected mode (R92, R101, R105): the checks in their order, each with the selector as error code, "without
mutating the cache"; a load that passes them marks the descriptor accessed and fills the cache; one that fails has written
nothing. MOV, POP and LSS end as that load does, and write the stack pointer or the general register only after a load that
passed (41_data_movement R274, R295, R302). -/
def Obligations.StackSegmentLoads : Prop :=
  (∀ (a : Attrs) (s : State),
    (∀ e, (rmOp .word e).ready a s → ∃ v u, readOp a s (rmOp .word e) = .ok v u ∧ ReadFrame s u ∧
      EndsAs (exec (.movToSeg a .ss e) s) (loadSeg u .ss (v.setWidth 16) .jump false) id) ∧
    (canFetch s a.osz 0 → ∃ v u, peek s a.osz 0 = .ok v u ∧ ReadFrame s u ∧
      EndsAs (exec (.popSeg a .ss) s) (loadSeg u .ss (v.setWidth 16) .jump false) fun t => drop t a.osz.bytes) ∧
    ∀ g m, farReady a s m → ∃ off v u, readFar a s m = .ok (off, v) u ∧ ReadFrame s u ∧
      EndsAs (exec (.lss a g m) s) (loadSeg u .ss v .jump false) fun t => setRegSize t a.osz g off) ∧
  (∀ (s : State) (v : BitVec 16),
    (∀ e t, loadSeg s .ss v .jump false = .raised e t → ReadFrame s t) ∧
    (∀ k t, loadSeg s .ss v .jump false = .aborted k t → ReadFrame s t) ∧
    (isProt s = true → v &&& 0xFFFC ≠ 0 → selRpl v = s.cpl → ∀ k t, fetchRawDescriptor s v false = .aborted k t →
      loadSeg s .ss v .jump false = .aborted k t)) ∧
  ∀ (s : State) (v : BitVec 16), isProt s = true →
    (v &&& 0xFFFC = 0 → loadSeg s .ss v .jump false = .raised (.gp 0) s) ∧
    (v &&& 0xFFFC ≠ 0 → selRpl v ≠ s.cpl → loadSeg s .ss v .jump false = .raised (.gp (selError v)) s) ∧
    (v &&& 0xFFFC ≠ 0 → selectorOutside s v → loadSeg s .ss v .jump false = .raised (.gp (selError v)) s) ∧
    ∀ d ad u, v &&& 0xFFFC ≠ 0 → selRpl v = s.cpl → fetchRawDescriptor s v false = .ok (d, ad) u →
      (isWritable d = false → loadSeg s .ss v .jump false = .raised (.gp (selError v)) u) ∧
      (isWritable d = true → isExpandDown d = true →
        loadSeg s .ss v .jump false = .aborted (.unimplemented .expandDown) u) ∧
      (isWritable d = true → isExpandDown d = false → descDpl d ≠ s.cpl →
        loadSeg s .ss v .jump false = .raised (.gp (selError v)) u) ∧
      (isWritable d = true → isExpandDown d = false → descDpl d = s.cpl → descP d = false →
        loadSeg s .ss v .jump false = .raised (.ss (selError v)) u) ∧
      (isWritable d = true → isExpandDown d = false → descDpl d = s.cpl → descP d = true →
        (d.getLsbD 40 = true → loadSeg s .ss v .jump false = .ok () (setSeg u .ss (loadedSeg v d))) ∧
        (d.getLsbD 40 = false → canAccessLinear s (ad + 5) .byte →
          ∃ t, linWrite u (ad + 5) .byte ((descAccess d ||| 1).setWidth 32) = .ok () t ∧
            loadSeg s .ss v .jump false = .ok () (setSeg t .ss (loadedSeg v d)) ∧
            StoresFrame [(bufferHome s (ad + 5) .byte, .byte)] s t ∧ SegFrame [.ss] s (setSeg t .ss (loadedSeg v d)))) ∧
      u.segs = s.segs

/-- Loading CS in protected mode (20_memory R92, R105, R107, R108, R112). For each kind of load: a null selector, a selector that
names no descriptor and a descriptor that is no code segment raise #GP, a system descriptor aborts, the privilege rules, an
absent segment #NP, each with bit 0 of the code as `ext` says; a load that passes marks the descriptor accessed, stores the
selector with RPL = CPL and fills the cache. Far JMP, CALL and RET and IRET end as that load does (45_control_transfer R433,
R434, R458, R459, R462, R463, R466, R468). That a null selector, and every other refused one, raises its code with bit 0 = `ext` in
a delivery is 60_exceptions R509; the table of R502 has 0 for a null selector, and which of the two holds is the model's reading
(DEDUCED, log entry 12). -/
def Obligations.CodeSegmentLoads : Prop :=
  (∀ (s : State) (v : BitVec 16) (kind : CsKind) (ext : Bool), isProt s = true →
    (v &&& 0xFFFC = 0 → loadSeg s .cs v kind ext = .raised (.gp (if ext then 1 else 0)) s) ∧
    (v &&& 0xFFFC ≠ 0 → selectorOutside s v →
      loadSeg s .cs v kind ext = .raised (.gp (selError v ||| if ext then 1 else 0)) s) ∧
    (∀ e t, loadSeg s .cs v kind ext = .raised e t → ReadFrame s t) ∧
    (∀ k t, loadSeg s .cs v kind ext = .aborted k t → ReadFrame s t) ∧
    (v &&& 0xFFFC ≠ 0 → ∀ k t, fetchRawDescriptor s v ext = .aborted k t → loadSeg s .cs v kind ext = .aborted k t) ∧
    ∀ (d : Descriptor) (ad : Word) (u : State), v &&& 0xFFFC ≠ 0 → fetchRawDescriptor s v ext = .ok (d, ad) u →
      (descS d = false → loadSeg s .cs v kind ext = .aborted (.unimplemented (.gateOrTask (descType d))) u) ∧
      (descS d = true → isCode d = false →
        loadSeg s .cs v kind ext = .raised (.gp (selError v ||| if ext then 1 else 0)) u) ∧
      (isCode d = true → kind = .ret → s.cpl < selRpl v →
        loadSeg s .cs v kind ext = .aborted (.unimplemented .returnToOuterLevel) u) ∧
      (isCode d = true → kind = .int → isConforming d = false → descDpl d < s.cpl →
        loadSeg s .cs v kind ext = .aborted (.unimplemented .interLevelInterrupt) u) ∧
      (isCode d = true → ¬csAllowed s v d kind → ¬(kind = .ret ∧ s.cpl < selRpl v) →
        ¬(kind = .int ∧ isConforming d = false ∧ descDpl d < s.cpl) →
        loadSeg s .cs v kind ext = .raised (.gp (selError v ||| if ext then 1 else 0)) u) ∧
      (isCode d = true → csAllowed s v d kind → descP d = false →
        loadSeg s .cs v kind ext = .raised (.np (selError v ||| if ext then 1 else 0)) u) ∧
      (isCode d = true → csAllowed s v d kind → descP d = true → canAccessLinear s (ad + 5) .byte →
        ∃ t, loadSeg s .cs v kind ext = .ok () (setSeg t .cs (loadedSeg ((v &&& 0xFFFC) ||| s.cpl.setWidth 16) d)) ∧
          (d.getLsbD 40 = true → t = u) ∧
          (d.getLsbD 40 = false → linWrite u (ad + 5) .byte ((descAccess d ||| 1).setWidth 32) = .ok () t) ∧
          StoresFrame [(bufferHome s (ad + 5) .byte, .byte)] s t ∧
          SegFrame [.cs] s (setSeg t .cs (loadedSeg ((v &&& 0xFFFC) ||| s.cpl.setWidth 16) d)))) ∧
  (∀ (a : Attrs) (s : State), isProt s = true →
    (∀ off v, EndsAs (exec (.jmpFar a off v) s) (loadSeg s .cs v .jump false) fun t => setEip t (truncSize a.osz off)) ∧
    (∀ m, farReady a s m → ∃ off v u, readFar a s m = .ok (off, v) u ∧ ReadFrame s u ∧
      EndsAs (exec (.jmpFarInd a m) s) (loadSeg u .cs v .jump false) fun t => setEip t off) ∧
    (canStore s a.osz a.osz.bytes → canStore s a.osz (2 * a.osz.bytes) →
      (∀ off v, ∃ u t,
        segWrite s .ss (slotBelow s a.osz.bytes) a.osz.width ((getSeg s .cs).value.setWidth 32) = .ok () u ∧
        segWrite u .ss (slotBelow s (2 * a.osz.bytes)) a.osz.width s.eip = .ok () t ∧
        StoresFrame [(storeHome s .ss (slotBelow s a.osz.bytes) a.osz.width, a.osz.width),
          (storeHome s .ss (slotBelow s (2 * a.osz.bytes)) a.osz.width, a.osz.width)] s t ∧
        EndsAs (exec (.callFar a off v) s) (loadSeg t .cs v .jump false) fun w =>
          setEip (setStackPtr w (slotBelow s (2 * a.osz.bytes))) (truncSize a.osz off)) ∧
      ∀ m, farReady a s m → ∃ off v r u t, readFar a s m = .ok (off, v) r ∧
        segWrite r .ss (slotBelow s a.osz.bytes) a.osz.width ((getSeg s .cs).value.setWidth 32) = .ok () u ∧
        segWrite u .ss (slotBelow s (2 * a.osz.bytes)) a.osz.width s.eip = .ok () t ∧
        StoresFrame [(storeHome s .ss (slotBelow s a.osz.bytes) a.osz.width, a.osz.width),
          (storeHome s .ss (slotBelow s (2 * a.osz.bytes)) a.osz.width, a.osz.width)] s t ∧
        EndsAs (exec (.callFarInd a m) s) (loadSeg t .cs v .jump false) fun w =>
          setEip (setStackPtr w (slotBelow s (2 * a.osz.bytes))) off) ∧
    (canFetch s a.osz 0 → canFetch s a.osz a.osz.bytes →
      ∃ off sel u t, peek s a.osz 0 = .ok off u ∧ peek u a.osz a.osz.bytes = .ok sel t ∧ ReadFrame s t ∧
        EndsAs (exec (.retf a) s) (loadSeg t .cs (sel.setWidth 16) .ret false) (fun w =>
          drop (setEip w off) (2 * a.osz.bytes)) ∧
        ∀ i, EndsAs (exec (.retfImm a i) s) (loadSeg t .cs (sel.setWidth 16) .ret false) fun w =>
          drop (setEip w off) (2 * a.osz.bytes + i.toNat)) ∧
    (plainFlag s ntPos = true → exec (.iret a) s = .next (abortState s (.unimplemented .taskReturn))) ∧
    (plainFlag s ntPos = false → canFetch s a.osz 0 → canFetch s a.osz a.osz.bytes → canFetch s a.osz (2 * a.osz.bytes) →
      ∃ off sel f s1 s2 s3, peek s a.osz 0 = .ok off s1 ∧ peek s1 a.osz a.osz.bytes = .ok sel s2 ∧
        peek s2 a.osz (2 * a.osz.bytes) = .ok f s3 ∧ ReadFrame s s3 ∧
        (a.osz = .s32 → f.getLsbD 17 = true →
          exec (.iret a) s = .next (abortState s3 (.unimplemented .returnToV8086))) ∧
        ((a.osz = .s16 ∨ f.getLsbD 17 = false) →
          EndsAs (exec (.iret a) s) (loadSeg s3 .cs (sel.setWidth 16) .ret false) fun w =>
            writeFlags (drop (setEip w off) (3 * a.osz.bytes)) f (iretMask s a.osz)))) ∧
  ∀ (a : Attrs) (s : State) (off : Word) (v : BitVec 16) (d : Descriptor) (ad : Word) (u : State), isProt s = true →
    v &&& 0xFFFC ≠ 0 → fetchRawDescriptor s v false = .ok (d, ad) u →
    (descS d = false → exec (.jmpFar a off v) s = .next (abortState u (.unimplemented (.gateOrTask (descType d))))) ∧
    (descS d = true → isCode d = false →
      exec (.jmpFar a off v) s = .next (takeException u (.gp (selError v)))) ∧
    (isCode d = true → csAllowed s v d .jump → descP d = false →
      exec (.jmpFar a off v) s = .next (takeException u (.np (selError v)))) ∧
    (isCode d = true → csAllowed s v d .jump → descP d = true → canAccessLinear s (ad + 5) .byte →
      ∃ t, exec (.jmpFar a off v) s = .next t ∧ t.eip = truncSize a.osz off ∧ t.cpl = s.cpl ∧
        (getSeg t .cs).value = (v &&& 0xFFFC) ||| s.cpl.setWidth 16 ∧
        (getSeg t .cs).cache = (loadedSeg v d).cache ∧ t.regs = s.regs ∧ SegFrame [.cs] s t ∧
        keepsMemoryBut (bufferHome s (ad + 5) .byte) .byte s t ∧ (d.getLsbD 40 = true → t.mem = s.mem))

/-! ### Arithmetic, logic, shifts -/

/-- ADD, ADC, SUB, SBB: both operands are read, the sum or difference modulo 2^N is written, the snapshot is stored
(42_arithmetic_logic R330 to R334); nothing but the destination and the status flags changes. -/
def Obligations.AddSubtractResults : Prop :=
  ∀ (a : Attrs) (f : AluForm) (s : State), (AluForm.operands a f).ready a s →
    ∃ x y s1 s2, readOp a s (AluForm.operands a f).dst = .ok x s1 ∧ readOp a s1 (AluForm.operands a f).src = .ok y s2 ∧
      x.toNat < 2 ^ (AluForm.operands a f).width.bits ∧ y.toNat < 2 ^ (AluForm.operands a f).width.bits ∧
      (∃ u, writeOp a s2 (AluForm.operands a f).dst (trunc (AluForm.operands a f).width (x + y)) = .ok () u ∧
        exec (.add a f) s = .next (lazyStore u .add (AluForm.operands a f).width x y
          (trunc (AluForm.operands a f).width (x + y))) ∧ OperandFrame a (AluForm.operands a f).dst s u) ∧
      (∃ u, writeOp a (touchFlag s2 .cf) (AluForm.operands a f).dst
          (trunc (AluForm.operands a f).width (x + y + bitWord (flagOf s .cf))) = .ok () u ∧
        exec (.adc a f) s = .next (lazyStore u .adc (AluForm.operands a f).width x y
          (trunc (AluForm.operands a f).width (x + y + bitWord (flagOf s .cf)))) ∧
        OperandFrame a (AluForm.operands a f).dst s u) ∧
      (∃ u, writeOp a s2 (AluForm.operands a f).dst (trunc (AluForm.operands a f).width (x - y)) = .ok () u ∧
        exec (.sub a f) s = .next (lazyStore u .sub (AluForm.operands a f).width x y
          (trunc (AluForm.operands a f).width (x - y))) ∧ OperandFrame a (AluForm.operands a f).dst s u) ∧
      ∃ u, writeOp a (touchFlag s2 .cf) (AluForm.operands a f).dst
          (trunc (AluForm.operands a f).width (x - y - bitWord (flagOf s .cf))) = .ok () u ∧
        exec (.sbb a f) s = .next (lazyStore u .sbb (AluForm.operands a f).width x y
          (trunc (AluForm.operands a f).width (x - y - bitWord (flagOf s .cf)))) ∧
        OperandFrame a (AluForm.operands a f).dst s u

/-- AND, OR, XOR (R360 to R362): the result is written, CF and OF are 0, ZF, SF, PF follow the result; AF is a free value under
`UNDEF_FLAGS = any value` and 0 under the decided values (log entry 4). -/
def Obligations.LogicResults : Prop :=
  ∀ (a : Attrs) (f : AluForm) (s : State), (AluForm.operands a f).ready a s →
    ∃ x y s1 s2, readOp a s (AluForm.operands a f).dst = .ok x s1 ∧ readOp a s1 (AluForm.operands a f).src = .ok y s2 ∧
      ∀ (mk : Attrs → AluForm → Instr) (r : Word),
        ((mk = .and ∧ r = x &&& y) ∨ (mk = .or ∧ r = x ||| y) ∨ (mk = .xor ∧ r = x ^^^ y)) →
        ∃ u t, writeOp a s2 (AluForm.operands a f).dst r = .ok () u ∧ exec (mk a f) s = .next t ∧
          OperandFrame a (AluForm.operands a f).dst s t ∧ t.regs = u.regs ∧ t.mem = u.mem ∧
          flagOf t .cf = false ∧ flagOf t .ovf = false ∧ flagOf t .zf = decide (r = 0) ∧
          flagOf t .sf = signBit (AluForm.operands a f).width r ∧ flagOf t .pf = evenParity r ∧
          (s.cfg.undefFlags = .decided → flagOf t .af = false)

/-- CMP and TEST store the snapshot and write nothing (R335, R363). TEST's AF is a free value under `UNDEF_FLAGS = any value` and 0
under the decided values (40_lazy_flags R235, log entry 4). -/
def Obligations.CompareResults : Prop :=
  ∀ (a : Attrs) (s : State),
    (∀ f, (AluForm.operands a f).ready a s →
      ∃ x y s1 s2, readOp a s (AluForm.operands a f).dst = .ok x s1 ∧ readOp a s1 (AluForm.operands a f).src = .ok y s2 ∧
        exec (.cmp a f) s = .next (lazyStore s2 .cmp (AluForm.operands a f).width x y
          (trunc (AluForm.operands a f).width (x - y))) ∧ ReadFrame s s2) ∧
    ∀ f, (TestForm.operands a f).ready a s →
      ∃ x y s1 s2 t, readOp a s (TestForm.operands a f).dst = .ok x s1 ∧
        readOp a s1 (TestForm.operands a f).src = .ok y s2 ∧ exec (.test a f) s = .next t ∧ RegsFrame [] s t ∧
        flagOf t .cf = false ∧ flagOf t .ovf = false ∧ flagOf t .zf = decide (x &&& y = 0) ∧
        flagOf t .sf = signBit (TestForm.operands a f).width (x &&& y) ∧ flagOf t .pf = evenParity (x &&& y) ∧
        (s.cfg.undefFlags = .decided → flagOf t .af = false)

/-- INC and DEC keep CF (R336, R337); NEG (R338); NOT touches no flag (R364). -/
def Obligations.UnaryResults : Prop :=
  ∀ (a : Attrs) (s : State),
    (∀ f, (IncForm.operand a f).op.ready a s →
      ∃ x u, readOp a s (IncForm.operand a f).op = .ok x u ∧
        (∃ v t, writeOp a (touchFlag u .cf) (IncForm.operand a f).op (trunc (IncForm.operand a f).width (x + 1)) =
            .ok () v ∧ exec (.inc a f) s = .next t ∧
          t = setFlag (lazyStore v .inc (IncForm.operand a f).width x 1 (trunc (IncForm.operand a f).width (x + 1))) .cf
            (flagOf s .cf) ∧
          flagOf t .cf = flagOf s .cf ∧ OperandFrame a (IncForm.operand a f).op s t) ∧
        ∃ v t, writeOp a (touchFlag u .cf) (IncForm.operand a f).op (trunc (IncForm.operand a f).width (x - 1)) =
            .ok () v ∧ exec (.dec a f) s = .next t ∧
          t = setFlag (lazyStore v .dec (IncForm.operand a f).width x 1 (trunc (IncForm.operand a f).width (x - 1))) .cf
            (flagOf s .cf) ∧
          flagOf t .cf = flagOf s .cf ∧ OperandFrame a (IncForm.operand a f).op s t) ∧
    ∀ f, (UnaryForm.operand a f).op.ready a s →
      ∃ x u, readOp a s (UnaryForm.operand a f).op = .ok x u ∧
        (∃ v, writeOp a u (UnaryForm.operand a f).op (trunc (UnaryForm.operand a f).width (0 - x)) = .ok () v ∧
          exec (.neg a f) s = .next (lazyStore v .neg (UnaryForm.operand a f).width x 0
            (trunc (UnaryForm.operand a f).width (0 - x))) ∧ OperandFrame a (UnaryForm.operand a f).op s v) ∧
        ∃ t, writeOp a u (UnaryForm.operand a f).op (x ^^^ maskOf (UnaryForm.operand a f).width) = .ok () t ∧
          exec (.not a f) s = .next t ∧ OperandFrame a (UnaryForm.operand a f).op s t ∧ t.flags = s.flags

/-- MUL and the one-operand IMUL write the double-width product to AX, DX:AX or EDX:EAX (R350, R351), the other IMULs its low
half to the destination (R352); CF and OF say whether the product fits. ZF, SF and PF follow the low half and AF is 0 under the
decided values, and the four are free values under `UNDEF_FLAGS = any value` (40_lazy_flags R235, log entry 4). `setDouble`
writes those registers and no other bit. -/
def Obligations.MultiplyResults : Prop :=
  (∀ (s : State) (w : Width) (p : BitVec 64),
    keepsRegs [.ax, .dx] s (setDouble s w p) ∧ setDouble s w p = { s with regs := (setDouble s w p).regs } ∧
    (w = .byte → reg32 (setDouble s w p) .ax = (reg32 s .ax &&& 0xFFFF0000) ||| (p.setWidth 32 &&& 0xFFFF) ∧
      reg32 (setDouble s w p) .dx = reg32 s .dx) ∧
    (w = .word → reg32 (setDouble s w p) .ax = (reg32 s .ax &&& 0xFFFF0000) ||| (p.setWidth 32 &&& 0xFFFF) ∧
      reg32 (setDouble s w p) .dx = (reg32 s .dx &&& 0xFFFF0000) ||| ((p >>> 16).setWidth 32 &&& 0xFFFF)) ∧
    (w = .dword → reg32 (setDouble s w p) .ax = p.setWidth 32 ∧
      reg32 (setDouble s w p) .dx = (p >>> 32).setWidth 32)) ∧
  ∀ (a : Attrs) (s : State),
    (∀ f, (UnaryForm.operand a f).op.ready a s →
      ∃ y u t t', readOp a s (UnaryForm.operand a f).op = .ok y u ∧ exec (.mul a f) s = .next t ∧
        exec (.imulOne a f) s = .next t' ∧
        t.regs = (setDouble s (UnaryForm.operand a f).width
          (BitVec.ofNat 64 ((accumulator s (UnaryForm.operand a f).width).toNat * y.toNat))).regs ∧
        t'.regs = (setDouble s (UnaryForm.operand a f).width
          (BitVec.ofInt 64 (signed (UnaryForm.operand a f).width (accumulator s (UnaryForm.operand a f).width) *
            signed (UnaryForm.operand a f).width y))).regs ∧
        (∀ g, g = .cf ∨ g = .ovf → flagOf t g = decide (2 ^ (UnaryForm.operand a f).width.bits ≤
            (accumulator s (UnaryForm.operand a f).width).toNat * y.toNat) ∧
          flagOf t' g = decide (
            signed (UnaryForm.operand a f).width (accumulator s (UnaryForm.operand a f).width) *
              signed (UnaryForm.operand a f).width y < -2 ^ ((UnaryForm.operand a f).width.bits - 1) ∨
            2 ^ ((UnaryForm.operand a f).width.bits - 1) ≤
              signed (UnaryForm.operand a f).width (accumulator s (UnaryForm.operand a f).width) *
                signed (UnaryForm.operand a f).width y)) ∧
        (s.cfg.undefFlags = .decided → flagOf t .af = false ∧ flagOf t' .af = false ∧
          ResultFlags (UnaryForm.operand a f).width (BitVec.ofNat 32
            ((accumulator s (UnaryForm.operand a f).width).toNat * y.toNat % 2 ^ (UnaryForm.operand a f).width.bits)) t ∧
          ResultFlags (UnaryForm.operand a f).width (ofIntTrunc (UnaryForm.operand a f).width
            (signed (UnaryForm.operand a f).width (accumulator s (UnaryForm.operand a f).width) *
              signed (UnaryForm.operand a f).width y)) t') ∧
        RegsFrame [.ax, .dx] s t ∧ RegsFrame [.ax, .dx] s t') ∧
    ∀ f, (ImulForm.operands a f).src1.ready a s → (ImulForm.operands a f).src2.ready a s →
      ∃ x y s1 s2 u t, readOp a s (ImulForm.operands a f).src1 = .ok x s1 ∧
        readOp a s1 (ImulForm.operands a f).src2 = .ok y s2 ∧
        writeOp a s2 (ImulForm.operands a f).dst (ofIntTrunc a.osz.width (signed a.osz.width x * signed a.osz.width y)) =
          .ok () u ∧
        exec (.imul a f) s = .next t ∧ t.regs = u.regs ∧ OperandFrame a (ImulForm.operands a f).dst s t ∧
        (s.cfg.undefFlags = .decided → flagOf t .af = false ∧
          ResultFlags a.osz.width (ofIntTrunc a.osz.width (signed a.osz.width x * signed a.osz.width y)) t) ∧
        ∀ g, g = .cf ∨ g = .ovf → flagOf t g = decide (
          signed a.osz.width x * signed a.osz.width y < -2 ^ (a.osz.width.bits - 1) ∨
          2 ^ (a.osz.width.bits - 1) ≤ signed a.osz.width x * signed a.osz.width y)

/-- DIV and IDIV where the divisor is not 0 and the quotient fits (R353, R354): quotient and remainder are those of the division
that truncates toward zero, and under the decided values no flag changes. `setQuotient` writes AL and AH, AX and DX, or EAX and
EDX, and no other bit. -/
def Obligations.DivideResults : Prop :=
  (∀ (s : State) (w : Width) (q m : Word),
    keepsRegs [.ax, .dx] s (setQuotient s w q m) ∧ setQuotient s w q m = { s with regs := (setQuotient s w q m).regs } ∧
    (w = .byte → reg32 (setQuotient s w q m) .ax =
        (reg32 s .ax &&& 0xFFFF0000) ||| ((m &&& 0xFF) <<< 8) ||| (q &&& 0xFF) ∧
      reg32 (setQuotient s w q m) .dx = reg32 s .dx) ∧
    (w = .word → reg32 (setQuotient s w q m) .ax = (reg32 s .ax &&& 0xFFFF0000) ||| (q &&& 0xFFFF) ∧
      reg32 (setQuotient s w q m) .dx = (reg32 s .dx &&& 0xFFFF0000) ||| (m &&& 0xFFFF)) ∧
    (w = .dword → reg32 (setQuotient s w q m) .ax = q ∧ reg32 (setQuotient s w q m) .dx = m)) ∧
  ∀ (a : Attrs) (f : UnaryForm) (s : State) (y : Word) (u : State),
    readOp a s (UnaryForm.operand a f).op = .ok y u → y ≠ 0 →
    (dividend s (UnaryForm.operand a f).width < y.toNat * 2 ^ (UnaryForm.operand a f).width.bits →
      ∃ q m t, dividend s (UnaryForm.operand a f).width = q * y.toNat + m ∧ m < y.toNat ∧
        exec (.div a f) s = .next t ∧
        t.regs = (setQuotient s (UnaryForm.operand a f).width (BitVec.ofNat 32 q) (BitVec.ofNat 32 m)).regs ∧
        RegsFrame [.ax, .dx] s t ∧ (s.cfg.undefFlags = .decided → t.flags = s.flags)) ∧
    (∀ q m : Int, signedDividend s (UnaryForm.operand a f).width = q * signed (UnaryForm.operand a f).width y + m →
      |m| < |signed (UnaryForm.operand a f).width y| → 0 ≤ m * signedDividend s (UnaryForm.operand a f).width →
      -2 ^ ((UnaryForm.operand a f).width.bits - 1) ≤ q → q < 2 ^ ((UnaryForm.operand a f).width.bits - 1) →
      ∃ t, exec (.idiv a f) s = .next t ∧
        t.regs = (setQuotient s (UnaryForm.operand a f).width (BitVec.ofInt 32 q) (BitVec.ofInt 32 m)).regs ∧
        RegsFrame [.ax, .dx] s t ∧ (s.cfg.undefFlags = .decided → t.flags = s.flags))

/-- DIV and IDIV raise #DE on a zero divisor, and where the quotient does not fit (R353, R354; 60_exceptions R501). -/
def Obligations.DivideErrors : Prop :=
  ∀ (a : Attrs) (f : UnaryForm) (s : State) (y : Word) (u : State),
    readOp a s (UnaryForm.operand a f).op = .ok y u →
    (y = 0 → exec (.div a f) s = .next (takeException u .de) ∧ exec (.idiv a f) s = .next (takeException u .de)) ∧
    (y ≠ 0 → y.toNat * 2 ^ (UnaryForm.operand a f).width.bits ≤ dividend s (UnaryForm.operand a f).width →
      exec (.div a f) s = .next (takeException u .de)) ∧
    (y ≠ 0 →
      (2 ^ ((UnaryForm.operand a f).width.bits - 1) ≤
          (signedDividend s (UnaryForm.operand a f).width).tdiv (signed (UnaryForm.operand a f).width y) ∨
        (signedDividend s (UnaryForm.operand a f).width).tdiv (signed (UnaryForm.operand a f).width y) <
          -2 ^ ((UnaryForm.operand a f).width.bits - 1)) →
      exec (.idiv a f) s = .next (takeException u .de))

/-- Every shift and rotate by a masked count of 0 writes nothing and changes no flag, after reading its operands
(43_shift_rotate R390). -/
def Obligations.ShiftByZero : Prop :=
  ∀ (a : Attrs) (f : ShiftForm) (s : State) (x y : Word) (s1 s2 : State),
    readOp a s (ShiftForm.operands a f).dst = .ok x s1 → readOp a s1 (ShiftForm.operands a f).src = .ok y s2 →
    y &&& 0x1F = 0 →
    exec (.rol a f) s = .next s2 ∧ exec (.ror a f) s = .next s2 ∧ exec (.rcl a f) s = .next s2 ∧
    exec (.rcr a f) s = .next s2 ∧ exec (.shl a f) s = .next s2 ∧ exec (.shr a f) s = .next s2 ∧
    exec (.sar a f) s = .next s2 ∧ ReadFrame s s2

/-- ROL and ROR by a count that is not 0: bit `i` of the result is the bit `k` places away, around the operand; CF and OF are
the bits R391 and R392 name; the other status flags keep their values. Under `UNDEF_FLAGS = any value` CF is free where the count
is a multiple of the width and OF where it is not 1 (log entry 4); all else is the same. -/
def Obligations.RotateResults : Prop :=
  ∀ (a : Attrs) (f : ShiftForm) (s : State) (x y : Word) (s1 s2 : State), (ShiftForm.operands a f).dst.ready a s →
    readOp a s (ShiftForm.operands a f).dst = .ok x s1 → readOp a s1 (ShiftForm.operands a f).src = .ok y s2 →
    y &&& 0x1F ≠ 0 →
    (∃ r u t, (∀ i, i < 32 → r.getLsbD i = (decide (i < (ShiftForm.operands a f).width.bits) &&
          x.getLsbD ((i + 32 - (y &&& 0x1F).toNat) % (ShiftForm.operands a f).width.bits))) ∧
        writeOp a s2 (ShiftForm.operands a f).dst r = .ok () u ∧ exec (.rol a f) s = .next t ∧ t.regs = u.regs ∧
        t.mem = u.mem ∧
        (s.cfg.undefFlags = .decided ∨ (y &&& 0x1F).toNat % (ShiftForm.operands a f).width.bits ≠ 0 →
          flagOf t .cf = r.getLsbD 0) ∧
        (s.cfg.undefFlags = .decided ∨ y &&& 0x1F = 1 →
          flagOf t .ovf = (signBit (ShiftForm.operands a f).width r ^^ r.getLsbD 0)) ∧
        (∀ g, g ≠ .cf → g ≠ .ovf → flagOf t g = flagOf s g) ∧ OperandFrame a (ShiftForm.operands a f).dst s t) ∧
    ∃ r u t, (∀ i, i < 32 → r.getLsbD i = (decide (i < (ShiftForm.operands a f).width.bits) &&
          x.getLsbD ((i + (y &&& 0x1F).toNat) % (ShiftForm.operands a f).width.bits))) ∧
        writeOp a s2 (ShiftForm.operands a f).dst r = .ok () u ∧ exec (.ror a f) s = .next t ∧ t.regs = u.regs ∧
        t.mem = u.mem ∧
        (s.cfg.undefFlags = .decided ∨ (y &&& 0x1F).toNat % (ShiftForm.operands a f).width.bits ≠ 0 →
          flagOf t .cf = signBit (ShiftForm.operands a f).width r) ∧
        (s.cfg.undefFlags = .decided ∨ y &&& 0x1F = 1 →
          flagOf t .ovf = (signBit (ShiftForm.operands a f).width r ^^ secondBit (ShiftForm.operands a f).width r)) ∧
        (∀ g, g ≠ .cf → g ≠ .ovf → flagOf t g = flagOf s g) ∧ OperandFrame a (ShiftForm.operands a f).dst s t

/-- RCL and RCR by a count that is not 0 rotate the N+1-bit value with CF on top (R393, R394). Under `UNDEF_FLAGS = any value` CF is
free where the count is a multiple of N+1 and OF where it is not 1 (log entry 4); all else is the same. -/
def Obligations.RotateThroughCarryResults : Prop :=
  ∀ (a : Attrs) (f : ShiftForm) (s : State) (x y : Word) (s1 s2 : State), (ShiftForm.operands a f).dst.ready a s →
    readOp a s (ShiftForm.operands a f).dst = .ok x s1 → readOp a s1 (ShiftForm.operands a f).src = .ok y s2 →
    y &&& 0x1F ≠ 0 →
    (∃ (z : BitVec 64) (u t : State),
      (∀ i, i < 64 → z.getLsbD i = (decide (i ≤ (ShiftForm.operands a f).width.bits) &&
        (withCarry (ShiftForm.operands a f).width (flagOf s .cf) x).getLsbD
          ((i + 2 * ((ShiftForm.operands a f).width.bits + 1) -
            (y &&& 0x1F).toNat % ((ShiftForm.operands a f).width.bits + 1)) %
            ((ShiftForm.operands a f).width.bits + 1)))) ∧
      writeOp a (touchFlag s2 .cf) (ShiftForm.operands a f).dst (trunc (ShiftForm.operands a f).width (z.setWidth 32)) =
        .ok () u ∧
      exec (.rcl a f) s = .next t ∧ t.regs = u.regs ∧ t.mem = u.mem ∧
      (s.cfg.undefFlags = .decided ∨ (y &&& 0x1F).toNat % ((ShiftForm.operands a f).width.bits + 1) ≠ 0 →
        flagOf t .cf = z.getLsbD (ShiftForm.operands a f).width.bits) ∧
      (s.cfg.undefFlags = .decided ∨ y &&& 0x1F = 1 →
        flagOf t .ovf = (z.getLsbD ((ShiftForm.operands a f).width.bits - 1) ^^
          z.getLsbD (ShiftForm.operands a f).width.bits)) ∧
      (∀ g, g ≠ .cf → g ≠ .ovf → flagOf t g = flagOf s g) ∧ OperandFrame a (ShiftForm.operands a f).dst s t) ∧
    ∃ (z : BitVec 64) (u t : State),
      (∀ i, i < 64 → z.getLsbD i = (decide (i ≤ (ShiftForm.operands a f).width.bits) &&
        (withCarry (ShiftForm.operands a f).width (flagOf s .cf) x).getLsbD
          ((i + (y &&& 0x1F).toNat) % ((ShiftForm.operands a f).width.bits + 1)))) ∧
      writeOp a (touchFlag s2 .cf) (ShiftForm.operands a f).dst (trunc (ShiftForm.operands a f).width (z.setWidth 32)) =
        .ok () u ∧
      exec (.rcr a f) s = .next t ∧ t.regs = u.regs ∧ t.mem = u.mem ∧
      (s.cfg.undefFlags = .decided ∨ (y &&& 0x1F).toNat % ((ShiftForm.operands a f).width.bits + 1) ≠ 0 →
        flagOf t .cf = z.getLsbD (ShiftForm.operands a f).width.bits) ∧
      (s.cfg.undefFlags = .decided ∨ y &&& 0x1F = 1 →
        flagOf t .ovf = (z.getLsbD ((ShiftForm.operands a f).width.bits - 1) ^^
          z.getLsbD ((ShiftForm.operands a f).width.bits - 2))) ∧
      (∀ g, g ≠ .cf → g ≠ .ovf → flagOf t g = flagOf s g) ∧ OperandFrame a (ShiftForm.operands a f).dst s t

/-- SHL, SHR and SAR by a count that is not 0: the result is the product with a power of two modulo 2^N, and the quotients that
round down of the unsigned and the signed operand; CF is the last bit shifted out; ZF, SF and PF follow the result (R395 to
R397). AF is 0 under the decided values; under `UNDEF_FLAGS = any value` AF is free, OF where the count is not 1, and CF of SHL and
SHR where the count is at least the width (log entry 4); all else is the same. -/
def Obligations.ShiftResults : Prop :=
  ∀ (a : Attrs) (f : ShiftForm) (s : State) (x y : Word) (s1 s2 : State), (ShiftForm.operands a f).dst.ready a s →
    readOp a s (ShiftForm.operands a f).dst = .ok x s1 → readOp a s1 (ShiftForm.operands a f).src = .ok y s2 →
    y &&& 0x1F ≠ 0 →
    (∃ r u t, r = BitVec.ofNat 32 (x.toNat * 2 ^ (y &&& 0x1F).toNat % 2 ^ (ShiftForm.operands a f).width.bits) ∧
      writeOp a s2 (ShiftForm.operands a f).dst r = .ok () u ∧ exec (.shl a f) s = .next t ∧ t.regs = u.regs ∧
      t.mem = u.mem ∧ flagOf t .zf = decide (r = 0) ∧ flagOf t .sf = signBit (ShiftForm.operands a f).width r ∧
      flagOf t .pf = evenParity r ∧ (s.cfg.undefFlags = .decided → flagOf t .af = false) ∧
      (s.cfg.undefFlags = .decided ∨ (y &&& 0x1F).toNat < (ShiftForm.operands a f).width.bits →
        flagOf t .cf = (x.toNat * 2 ^ (y &&& 0x1F).toNat).testBit (ShiftForm.operands a f).width.bits) ∧
      (s.cfg.undefFlags = .decided ∨ y &&& 0x1F = 1 →
        flagOf t .ovf = (signBit (ShiftForm.operands a f).width r ^^ flagOf t .cf)) ∧
      OperandFrame a (ShiftForm.operands a f).dst s t) ∧
    (∃ r u t, r = BitVec.ofNat 32 (x.toNat / 2 ^ (y &&& 0x1F).toNat) ∧
      writeOp a s2 (ShiftForm.operands a f).dst r = .ok () u ∧ exec (.shr a f) s = .next t ∧ t.regs = u.regs ∧
      t.mem = u.mem ∧ flagOf t .zf = decide (r = 0) ∧ flagOf t .sf = signBit (ShiftForm.operands a f).width r ∧
      flagOf t .pf = evenParity r ∧ (s.cfg.undefFlags = .decided → flagOf t .af = false) ∧
      (s.cfg.undefFlags = .decided ∨ (y &&& 0x1F).toNat < (ShiftForm.operands a f).width.bits →
        flagOf t .cf = x.getLsbD ((y &&& 0x1F).toNat - 1)) ∧
      (s.cfg.undefFlags = .decided ∨ y &&& 0x1F = 1 →
        flagOf t .ovf = (signBit (ShiftForm.operands a f).width r ^^ secondBit (ShiftForm.operands a f).width r)) ∧
      OperandFrame a (ShiftForm.operands a f).dst s t) ∧
    ∃ r u t, r = ofIntTrunc (ShiftForm.operands a f).width
        (signed (ShiftForm.operands a f).width x / 2 ^ (y &&& 0x1F).toNat) ∧
      writeOp a s2 (ShiftForm.operands a f).dst r = .ok () u ∧ exec (.sar a f) s = .next t ∧ t.regs = u.regs ∧
      t.mem = u.mem ∧ flagOf t .zf = decide (r = 0) ∧ flagOf t .sf = signBit (ShiftForm.operands a f).width r ∧
      flagOf t .pf = evenParity r ∧ (s.cfg.undefFlags = .decided → flagOf t .af = false) ∧
      (s.cfg.undefFlags = .decided ∨ y &&& 0x1F = 1 → flagOf t .ovf = false) ∧
      flagOf t .cf = decide (signed (ShiftForm.operands a f).width x / 2 ^ ((y &&& 0x1F).toNat - 1) % 2 = 1) ∧
      OperandFrame a (ShiftForm.operands a f).dst s t

/-! ### Strings -/

/-- One element of MOVS, CMPS, STOS, LODS, SCAS without a repeat prefix (44_string R410, R411, R413 to R417). An index goes up by
the element's size when DF = 0 and down when DF = 1, wrapping at the address size. -/
def Obligations.StringElements : Prop :=
  (∀ (a : Attrs) (w : Width) (r : Reg) (s : State),
    keepsRegs [r] s (advanceIndex a w r s) ∧ advanceIndex a w r s = { s with regs := (advanceIndex a w r s).regs } ∧
    (getRegSize (advanceIndex a w r s) a.asz r).toNat = ((getRegSize s a.asz r).toNat +
      (if plainFlag s 10 = true then 2 ^ a.asz.width.bits - w.bytes else w.bytes)) % 2 ^ a.asz.width.bits ∧
    (a.asz = .s16 → reg32 (advanceIndex a w r s) r >>> 16 = reg32 s r >>> 16)) ∧
  ∀ (a : Attrs) (f : StrForm) (s : State), a.rep = .none →
    (canAccess s (implicitSeg a) (srcIndex a s) (StrForm.width a f) → canAccess s .es (dstIndex a s) (StrForm.width a f) →
      (∃ v u t, segRead s (implicitSeg a) (srcIndex a s) (StrForm.width a f) = .ok v u ∧
        segWrite u .es (dstIndex a s) (StrForm.width a f) v = .ok () t ∧
        exec (.movs a f) s =
          .next (advanceIndex a (StrForm.width a f) .di (advanceIndex a (StrForm.width a f) .si t)) ∧
        StoresFrame [(storeHome s .es (dstIndex a s) (StrForm.width a f), StrForm.width a f)] s t) ∧
      ∃ x y u t, segRead s (implicitSeg a) (srcIndex a s) (StrForm.width a f) = .ok x u ∧
        segRead u .es (dstIndex a s) (StrForm.width a f) = .ok y t ∧
        exec (.cmps a f) s = .next (advanceIndex a (StrForm.width a f) .di (advanceIndex a (StrForm.width a f) .si
          (lazyStore t .cmp (StrForm.width a f) x y (trunc (StrForm.width a f) (x - y))))) ∧ ReadFrame s t) ∧
    (canAccess s .es (dstIndex a s) (StrForm.width a f) →
      (∃ t, segWrite s .es (dstIndex a s) (StrForm.width a f) (getReg s (StrForm.width a f) .ax) = .ok () t ∧
        exec (.stos a f) s = .next (advanceIndex a (StrForm.width a f) .di t) ∧
        StoresFrame [(storeHome s .es (dstIndex a s) (StrForm.width a f), StrForm.width a f)] s t) ∧
      ∃ y t, segRead s .es (dstIndex a s) (StrForm.width a f) = .ok y t ∧
        exec (.scas a f) s = .next (advanceIndex a (StrForm.width a f) .di
          (lazyStore t .cmp (StrForm.width a f) (getReg s (StrForm.width a f) .ax) y
            (trunc (StrForm.width a f) (getReg s (StrForm.width a f) .ax - y)))) ∧ ReadFrame s t) ∧
    (canAccess s (implicitSeg a) (srcIndex a s) (StrForm.width a f) →
      ∃ v t, segRead s (implicitSeg a) (srcIndex a s) (StrForm.width a f) = .ok v t ∧
        exec (.lods a f) s = .next (advanceIndex a (StrForm.width a f) .si (setReg t (StrForm.width a f) .ax v)) ∧
        ReadFrame s t)

/-- A repeated string instruction (R412): with a count of 0 nothing happens; otherwise one element, the count down by one, and,
for CMPS and SCAS, the test of ZF, then the rest: executing `rep X` is one iteration and then `rep X` again. An iteration that
faults has changed no register, no flag and no memory, and the exception is taken, or the abort made, in that state, whose
count and indexes are as far as the iterations before it got (R419); the start offset it saves is the instruction's. -/
def Obligations.RepeatedStrings : Prop :=
  ∀ (a : Attrs) (f : StrForm) (s : State), a.rep ≠ .none →
    (repCount a s ≠ 0 → ∀ (mk : Attrs → StrForm → Instr) (once : Attrs → Width → State → Res Unit),
      ((mk = .movs ∧ once = movsOnce) ∨ (mk = .cmps ∧ once = cmpsOnce) ∨ (mk = .stos ∧ once = stosOnce) ∨
        (mk = .lods ∧ once = lodsOnce) ∨ (mk = .scas ∧ once = scasOnce)) →
      (∀ e t, once a (StrForm.width a f) s = .raised e t →
        exec (mk a f) s = .next (takeException t e) ∧ ReadFrame s t ∧ t.start = s.start) ∧
      ∀ k t, once a (StrForm.width a f) s = .aborted k t →
        exec (mk a f) s = .next (abortState t k) ∧ ReadFrame s t ∧ t.start = s.start) ∧
    (repCount a s = 0 → exec (.movs a f) s = .next s ∧ exec (.cmps a f) s = .next s ∧ exec (.stos a f) s = .next s ∧
      exec (.lods a f) s = .next s ∧ exec (.scas a f) s = .next s) ∧
    (repCount a s ≠ 0 → ∀ t,
      (movsOnce a (StrForm.width a f) s = .ok () t → exec (.movs a f) s = exec (.movs a f) (decCount a t)) ∧
      (stosOnce a (StrForm.width a f) s = .ok () t → exec (.stos a f) s = exec (.stos a f) (decCount a t)) ∧
      (lodsOnce a (StrForm.width a f) s = .ok () t → exec (.lods a f) s = exec (.lods a f) (decCount a t)) ∧
      (cmpsOnce a (StrForm.width a f) s = .ok () t →
        exec (.cmps a f) s = if flagOf t .zf = decide (a.rep = .rep) then exec (.cmps a f) (touchFlag (decCount a t) .zf)
          else .next (touchFlag (decCount a t) .zf)) ∧
      (scasOnce a (StrForm.width a f) s = .ok () t →
        exec (.scas a f) s = if flagOf t .zf = decide (a.rep = .rep) then exec (.scas a f) (touchFlag (decCount a t) .zf)
          else .next (touchFlag (decCount a t) .zf)))

/-! ### Control transfer -/

/-- JMP, the sixteen Jcc, JCXZ, LOOP, LOOPE, LOOPNE and the near indirect JMP (45_control_transfer R430 to R455): EIP is the
target when the condition holds, and nothing but EIP and the count register changes. The sixteen conditions are those of
40_lazy_flags R240. -/
def Obligations.NearJumps : Prop :=
  (∀ s : State,
    (condHolds .o s = flagOf s .ovf ∧ condHolds .no s = !flagOf s .ovf) ∧
    (condHolds .b s = flagOf s .cf ∧ condHolds .ae s = !flagOf s .cf) ∧
    (condHolds .e s = flagOf s .zf ∧ condHolds .ne s = !flagOf s .zf) ∧
    (condHolds .be s = decide (flagOf s .cf = true ∨ flagOf s .zf = true) ∧
      condHolds .a s = decide (flagOf s .cf = false ∧ flagOf s .zf = false)) ∧
    (condHolds .s s = flagOf s .sf ∧ condHolds .ns s = !flagOf s .sf) ∧
    (condHolds .p s = flagOf s .pf ∧ condHolds .np s = !flagOf s .pf) ∧
    (condHolds .l s = decide (flagOf s .sf ≠ flagOf s .ovf) ∧ condHolds .ge s = decide (flagOf s .sf = flagOf s .ovf)) ∧
    condHolds .le s = decide (flagOf s .zf = true ∨ flagOf s .sf ≠ flagOf s .ovf) ∧
    condHolds .g s = decide (flagOf s .zf = false ∧ flagOf s .sf = flagOf s .ovf)) ∧
  ∀ (a : Attrs) (s : State),
    (∀ f, exec (.jmpRel a f) s = .next (setEip s (truncSize a.osz (s.eip + RelForm.offset a f)))) ∧
    (∀ (c : Cond) f, ∃ t, exec (c.jcc a f) s = .next t ∧ OnlyJumps s t ∧
      t.eip = if condHolds c s then truncSize a.osz (s.eip + RelForm.offset a f) else s.eip) ∧
    (∀ d, exec (.jcxz a d) s =
      .next (if getRegSize s a.asz .cx = 0 then setEip s (truncSize a.osz (s.eip + sextByte d)) else s)) ∧
    (∀ d, ∃ t t' t'', exec (.loop a d) s = .next t ∧ exec (.loope a d) s = .next t' ∧ exec (.loopne a d) s = .next t'' ∧
      OnlyJumps (setRegSize s a.asz .cx (getRegSize s a.asz .cx - 1)) t ∧
      OnlyJumps (setRegSize s a.asz .cx (getRegSize s a.asz .cx - 1)) t' ∧
      OnlyJumps (setRegSize s a.asz .cx (getRegSize s a.asz .cx - 1)) t'' ∧
      t.eip = (if getRegSize s a.asz .cx = 1 then s.eip else truncSize a.osz (s.eip + sextByte d)) ∧
      t'.eip = (if getRegSize s a.asz .cx = 1 ∨ flagOf s .zf = false then s.eip
        else truncSize a.osz (s.eip + sextByte d)) ∧
      t''.eip = (if getRegSize s a.asz .cx = 1 ∨ flagOf s .zf = true then s.eip
        else truncSize a.osz (s.eip + sextByte d))) ∧
    ∀ e, (rmOp a.osz.width e).ready a s →
      ∃ v u, readOp a s (rmOp a.osz.width e) = .ok v u ∧ exec (.jmpInd a e) s = .next (setEip u v) ∧
        v.toNat < 2 ^ a.osz.width.bits ∧ ReadFrame s u

/-- Near CALL pushes the offset of the next instruction and jumps; near RET pops it, then drops its immediate
(R456, R457, R460, R461). -/
def Obligations.NearCallsAndReturns : Prop :=
  ∀ (a : Attrs) (s : State),
    (canStore s a.osz a.osz.bytes →
      (∀ d, ∃ u, segWrite s .ss (slotBelow s a.osz.bytes) a.osz.width s.eip = .ok () u ∧
        exec (.callRel a d) s = .next (setEip (setStackPtr u (slotBelow s a.osz.bytes))
          (truncSize a.osz (s.eip + sext a.osz.width d))) ∧
        StackFrame s (setStackPtr u (slotBelow s a.osz.bytes)) a.osz.bytes a.osz.width) ∧
      ∀ e, (rmOp a.osz.width e).ready a s →
        ∃ v u t, readOp a s (rmOp a.osz.width e) = .ok v u ∧
          segWrite u .ss (slotBelow s a.osz.bytes) a.osz.width s.eip = .ok () t ∧
          exec (.callInd a e) s = .next (setEip (setStackPtr t (slotBelow s a.osz.bytes)) v) ∧
          StackFrame s (setStackPtr t (slotBelow s a.osz.bytes)) a.osz.bytes a.osz.width) ∧
    (canFetch s a.osz 0 →
      ∃ v u, peek s a.osz 0 = .ok v u ∧ ReadFrame s u ∧
        exec (.ret a) s = .next (setEip (drop u a.osz.bytes) v) ∧
        ∀ i, exec (.retImm a i) s = .next (setEip (drop (drop u a.osz.bytes) i.toNat) v))

/-- Far JMP, CALL and RET outside protected mode (R433, R434, R458, R459, R462, R463, R468): CS is loaded with base = selector
times 16, EIP is the offset, and CALL leaves CS and EIP on the stack. -/
def Obligations.FarTransfersRealMode : Prop :=
  ∀ (a : Attrs) (s : State), isProt s = false →
    (∀ off sel, exec (.jmpFar a off sel) s = .next (setEip (loadSegReal s .cs sel) (truncSize a.osz off))) ∧
    (∀ m, farReady a s m → ∃ off sel u, readFar a s m = .ok (off, sel) u ∧ ReadFrame s u ∧
      exec (.jmpFarInd a m) s = .next (setEip (loadSegReal u .cs sel) off)) ∧
    (canStore s a.osz a.osz.bytes → canStore s a.osz (2 * a.osz.bytes) →
      (∀ off sel, ∃ u t,
        segWrite s .ss (slotBelow s a.osz.bytes) a.osz.width ((getSeg s .cs).value.setWidth 32) = .ok () u ∧
        segWrite u .ss (slotBelow s (2 * a.osz.bytes)) a.osz.width s.eip = .ok () t ∧
        exec (.callFar a off sel) s = .next (setEip (setStackPtr (loadSegReal t .cs sel) (slotBelow s (2 * a.osz.bytes)))
          (truncSize a.osz off)) ∧
        StoresFrame [(storeHome s .ss (slotBelow s a.osz.bytes) a.osz.width, a.osz.width),
          (storeHome s .ss (slotBelow s (2 * a.osz.bytes)) a.osz.width, a.osz.width)] s t) ∧
      ∀ m, farReady a s m → ∃ off sel r u t, readFar a s m = .ok (off, sel) r ∧
        segWrite r .ss (slotBelow s a.osz.bytes) a.osz.width ((getSeg s .cs).value.setWidth 32) = .ok () u ∧
        segWrite u .ss (slotBelow s (2 * a.osz.bytes)) a.osz.width s.eip = .ok () t ∧
        exec (.callFarInd a m) s =
          .next (setEip (setStackPtr (loadSegReal t .cs sel) (slotBelow s (2 * a.osz.bytes))) off) ∧
        StoresFrame [(storeHome s .ss (slotBelow s a.osz.bytes) a.osz.width, a.osz.width),
          (storeHome s .ss (slotBelow s (2 * a.osz.bytes)) a.osz.width, a.osz.width)] s t) ∧
    (canFetch s a.osz 0 → canFetch s a.osz a.osz.bytes →
      ∃ off sel u t, peek s a.osz 0 = .ok off u ∧ peek u a.osz a.osz.bytes = .ok sel t ∧ ReadFrame s t ∧
        exec (.retf a) s = .next (drop (setEip (loadSegReal t .cs (sel.setWidth 16)) off) (2 * a.osz.bytes)) ∧
        ∀ i, exec (.retfImm a i) s =
          .next (drop (setEip (loadSegReal t .cs (sel.setWidth 16)) off) (2 * a.osz.bytes + i.toNat)))

/-- The sixteen SETcc write exactly 1 or 0 to their byte and change no flag's value (47_setcc R590 to R606). -/
def Obligations.SetByteResults : Prop :=
  ∀ (a : Attrs) (s : State) (c : Cond) (e : Rm), (rmOp .byte e).ready a s →
    ∃ t, writeOp a (touchCond c s) (rmOp .byte e) (if condHolds c s then 1 else 0) = .ok () t ∧
      exec (c.setcc a e) s = .next t ∧ OperandFrame a (rmOp .byte e) s t ∧ ∀ f, flagOf t f = flagOf s f

/-! ### Exceptions and interrupts -/

/-- Real-mode delivery (60_exceptions R507), and the instructions whose effect it is: INT n, INT3, INTO with OF = 1
(45_control_transfer R464, R465, R467); INTO with OF = 0 goes on. The frame is FLAGS, CS and the return offset in three
words, IF and TF are cleared, CS:EIP is the table's entry. A vector beyond the table's limit aborts, and so does the first read
of the table or push that aborts. -/
def Obligations.RealModeDelivery : Prop :=
  (∀ (s : State) (v : Byte) (kind : EventKind) (err : Option Word) (ret : Word), isReal s = true →
    s.idtr.limit.toNat < 4 * v.toNat + 3 → deliver s v kind err ret = .aborted (.memoryFaultIvt v) s) ∧
  (∀ (s : State) (v : Byte) (kind : EventKind) (err : Option Word) (ret : Word), isReal s = true →
    4 * v.toNat + 3 ≤ s.idtr.limit.toNat →
    (∀ k t, linRead s (s.idtr.base + BitVec.ofNat 32 (4 * v.toNat)) .word = .aborted k t →
      deliver s v kind err ret = .aborted k t) ∧
    ∀ off s1, linRead s (s.idtr.base + BitVec.ofNat 32 (4 * v.toNat)) .word = .ok off s1 →
      (∀ k t, linRead s1 (s.idtr.base + BitVec.ofNat 32 (4 * v.toNat) + 2) .word = .aborted k t →
        deliver s v kind err ret = .aborted k t) ∧
      ∀ sel s2, linRead s1 (s.idtr.base + BitVec.ofNat 32 (4 * v.toNat) + 2) .word = .ok sel s2 →
        (∀ k t, push (touchAllFlags s2) .s16 (flagsImage s) = .aborted k t → deliver s v kind err ret = .aborted k t) ∧
        ∀ s3, push (touchAllFlags s2) .s16 (flagsImage s) = .ok () s3 →
          (∀ k t, push s3 .s16 ((getSeg s .cs).value.setWidth 32) = .aborted k t →
            deliver s v kind err ret = .aborted k t) ∧
          ∀ s4, push s3 .s16 ((getSeg s .cs).value.setWidth 32) = .ok () s4 →
            ∀ k t, push s4 .s16 ret = .aborted k t → deliver s v kind err ret = .aborted k t) ∧
  ∀ (s : State) (v : Byte), isReal s = true → 4 * v.toNat + 3 ≤ s.idtr.limit.toNat →
    canAccessLinear s (s.idtr.base + BitVec.ofNat 32 (4 * v.toNat)) .word →
    canAccessLinear s (s.idtr.base + BitVec.ofNat 32 (4 * v.toNat) + 2) .word →
    (∀ k, k < 3 → canStore s .s16 (2 * (k + 1))) →
    (∀ ret, ∃ off sel s1 s2 s3 s4 s5,
      linRead s (s.idtr.base + BitVec.ofNat 32 (4 * v.toNat)) .word = .ok off s1 ∧
      linRead s1 (s.idtr.base + BitVec.ofNat 32 (4 * v.toNat) + 2) .word = .ok sel s2 ∧
      push (touchAllFlags s2) .s16 (flagsImage s) = .ok () s3 ∧
      push s3 .s16 ((getSeg s .cs).value.setWidth 32) = .ok () s4 ∧ push s4 .s16 ret = .ok () s5 ∧
      keepsRegs [.sp] s s5 ∧ stackPtr s5 = slotBelow s 6 ∧ KeepsSystem s s5 ∧ keepsFlags s s5 ∧
      keepsMemoryButAll ([2, 4, 6].map fun k => (storeHome s .ss (slotBelow s k) .word, .word)) s s5 ∧
      ∃ t, (∀ kind err, deliver s v kind err ret = .ok () t) ∧
        t = setEip (loadSegReal (setPlainFlag (setPlainFlag s5 ifPos false) tfPos false) .cs (sel.setWidth 16)) off ∧
        plainFlag t ifPos = false ∧ plainFlag t tfPos = false ∧ ∀ f, flagOf t f = flagOf s f) ∧
    (∀ a, ∃ t, deliver s v .soft none s.eip = .ok () t ∧ exec (.int a v) s = .next t) ∧
    (∀ a, v = 3 → ∃ t, deliver s v .soft none s.eip = .ok () t ∧ exec (.int3 a) s = .next t) ∧
    (∀ a, v = 4 → flagOf s .ovf = true →
      ∃ t, deliver (touchFlag s .ovf) v .soft none s.eip = .ok () t ∧ exec (.into a) s = .next t) ∧
    ∀ a, flagOf s .ovf = false → exec (.into a) s = .next (touchFlag s .ovf)

/-- IRET outside protected mode takes the offset, CS and the flags from the stack (45_control_transfer R466). The bits it may load
are those of POPF, and RF when the operand size is 32. In V8086 mode with IOPL below 3 it raises #GP(0). -/
def Obligations.InterruptReturnRealMode : Prop :=
  (∀ (a : Attrs) (s : State), ¬mayV86 s → exec (.iret a) s = .next (takeException s (.gp 0))) ∧
  (∀ (s : State) (sz : Size) (i : Nat), (iretMask s sz).getLsbD i = true ↔ i ∈ [0, 2, 4, 6, 7, 8, 10, 11, 14] ∨
    (i = 9 ∧ (pe s = false ∨ s.cpl ≤ iopl s)) ∨ ((i = 12 ∨ i = 13) ∧ (pe s = false ∨ s.cpl = 0)) ∨
    (i = 16 ∧ sz = .s32)) ∧
  ∀ (a : Attrs) (s : State), isProt s = false → mayV86 s → canFetch s a.osz 0 → canFetch s a.osz a.osz.bytes →
    canFetch s a.osz (2 * a.osz.bytes) →
    ∃ off sel f s1 s2 s3, peek s a.osz 0 = .ok off s1 ∧ peek s1 a.osz a.osz.bytes = .ok sel s2 ∧
      peek s2 a.osz (2 * a.osz.bytes) = .ok f s3 ∧ ReadFrame s s3 ∧
      exec (.iret a) s = .next (writeFlags
        (drop (setEip (loadSegReal s3 .cs (sel.setWidth 16)) off) (3 * a.osz.bytes)) f (iretMask s a.osz))

/-- Protected-mode delivery through a present gate of the current level (60_exceptions R509 to R511): flags, CS, the return
offset and, for an exception that has one, the error code are stored below the pointer at the gate's width, CS is loaded,
the pointer moves by the slots, and TF, NT, RF and, through an interrupt gate, IF are cleared and no other bit. The fields of a
gate (R510). A frame write or the CS load that raises or aborts is how the delivery ends, with the slots before it stored; bit 0
of the code of a frame's #SS is as raised, or `ext`, by the parameter `frameErr` (both readings of the spec, log entry 12). -/
def Obligations.ProtectedDelivery : Prop :=
  (∀ g : Descriptor, (gateSize g = .s32 ↔ descType g = 14 ∨ descType g = 15) ∧
    (gateSelector g).toNat = g.toNat / 2 ^ 16 % 2 ^ 16 ∧
    (gateOffset g).toNat = g.toNat % 2 ^ 16 + 2 ^ 16 * (g.toNat / 2 ^ 48) ∧
    (descType g).toNat = g.toNat / 2 ^ 40 % 16 ∧ descS g = g.toNat.testBit 44 ∧
    (descDpl g).toNat = g.toNat / 2 ^ 45 % 4 ∧ descP g = g.toNat.testBit 47 ∧
    (truncSize (gateSize g) (gateOffset g)).toNat =
      if gateSize g = .s32 then (gateOffset g).toNat else (gateOffset g).toNat % 65536) ∧
  (∀ (s : State) (g : Descriptor), onlyFlags s (clearGateFlags s g) ∧ (∀ f, flagOf (clearGateFlags s g) f = flagOf s f) ∧
    plainFlag (clearGateFlags s g) 9 = (plainFlag s 9 && decide (descType g ≠ 6 ∧ descType g ≠ 14)) ∧
    plainFlag (clearGateFlags s g) 8 = false ∧ plainFlag (clearGateFlags s g) 14 = false ∧
    plainFlag (clearGateFlags s g) 16 = false ∧
    ∀ i, i ∉ [8, 9, 14, 16] → plainFlag (clearGateFlags s g) i = plainFlag s i) ∧
  ∀ (s s1 : State) (v : Byte) (kind : EventKind) (err : Option Word) (ret : Word) (g : Descriptor) (vs : List Word),
    isProt s = true → 8 * v.toNat + 7 ≤ s.idtr.limit.toNat →
    readQuad s (s.idtr.base + BitVec.ofNat 32 (8 * v.toNat)) = .ok g s1 →
    descS g = false → (descType g = 6 ∨ descType g = 7 ∨ descType g = 14 ∨ descType g = 15) →
    (kind = .soft → s.cpl ≤ descDpl g) → descP g = true →
    vs = [flagsImage s, (getSeg s .cs).value.setWidth 32, ret] ++ (if kind = .exc then err else none).toList →
    (∀ i (h : i < vs.length) t, storeSlots s (gateSize g) 0 (vs.take i) (touchAllFlags s1) = .ok () t →
      (∀ c u, segWrite t .ss (slotBelow s ((i + 1) * (gateSize g).bytes)) (gateSize g).width vs[i] = .raised (.ss c) u →
        deliver s v kind err ret =
          .raised (.ss (c ||| if s.cfg.frameErr = .ext ∧ kind ≠ .soft then 1 else 0)) u ∧
        StoresFrame (slotStores s (gateSize g) i) s u) ∧
      ∀ k u, segWrite t .ss (slotBelow s ((i + 1) * (gateSize g).bytes)) (gateSize g).width vs[i] = .aborted k u →
        deliver s v kind err ret = .aborted k u ∧ StoresFrame (slotStores s (gateSize g) i) s u) ∧
    ((∀ i, i < vs.length → canStore s (gateSize g) ((i + 1) * (gateSize g).bytes)) →
      ∃ u, storeSlots s (gateSize g) 0 vs (touchAllFlags s1) = .ok () u ∧
        StoresFrame (slotStores s (gateSize g) vs.length) s u ∧
        (∀ w, loadSeg u .cs (gateSelector g) .int (decide (kind ≠ .soft)) = .ok () w →
          deliver s v kind err ret = .ok ()
            (setEip (clearGateFlags (setStackPtr w (slotBelow s (vs.length * (gateSize g).bytes))) g)
              (truncSize (gateSize g) (gateOffset g)))) ∧
        (∀ e w, loadSeg u .cs (gateSelector g) .int (decide (kind ≠ .soft)) = .raised e w →
          deliver s v kind err ret = .raised e w) ∧
        ∀ k w, loadSeg u .cs (gateSelector g) .int (decide (kind ≠ .soft)) = .aborted k w →
          deliver s v kind err ret = .aborted k w)

/-- The gate checks of protected-mode delivery in their order (R502, R509), each with the error code `8 * v + 2 + ext`; a read of the
gate that aborts ends the delivery. -/
def Obligations.GateFaults : Prop :=
  ∀ (s s1 : State) (v : Byte) (kind : EventKind) (err : Option Word) (ret : Word) (g : Descriptor), isProt s = true →
    (s.idtr.limit.toNat < 8 * v.toNat + 7 →
      deliver s v kind err ret = .raised (.gp (BitVec.ofNat 32 (8 * v.toNat + (if kind = .soft then 2 else 3)))) s) ∧
    (8 * v.toNat + 7 ≤ s.idtr.limit.toNat → ∀ k t,
      readQuad s (s.idtr.base + BitVec.ofNat 32 (8 * v.toNat)) = .aborted k t → deliver s v kind err ret = .aborted k t) ∧
    (8 * v.toNat + 7 ≤ s.idtr.limit.toNat →
      readQuad s (s.idtr.base + BitVec.ofNat 32 (8 * v.toNat)) = .ok g s1 →
      (descS g = true ∨ descType g ∉ [5, 6, 7, 14, 15] →
        deliver s v kind err ret = .raised (.gp (BitVec.ofNat 32 (8 * v.toNat + (if kind = .soft then 2 else 3)))) s1) ∧
      (descS g = false → descType g = 5 → deliver s v kind err ret = .aborted (.unimplemented .taskGate) s1) ∧
      (descS g = false → descType g ∈ [6, 7, 14, 15] → kind = .soft → descDpl g < s.cpl →
        deliver s v kind err ret = .raised (.gp (BitVec.ofNat 32 (8 * v.toNat + 2))) s1) ∧
      (descS g = false → descType g ∈ [6, 7, 14, 15] → (kind = .soft → s.cpl ≤ descDpl g) → descP g = false →
        deliver s v kind err ret = .raised (.np (BitVec.ofNat 32 (8 * v.toNat + (if kind = .soft then 2 else 3)))) s1))

/-- An exception saves EIP at the start of its instruction (R506); its vector and error code are those of R501 and R511: #DE 0 without
a code, #NP 11, #SS 12 and #GP 13 with theirs. One raised while it is delivered becomes #DF, vector 8 with code 0, with the first
one's return address; one raised while #DF is delivered is a shutdown, and an abort there is that abort (R512, R513). INT n,
INT3 and INTO are the delivery of their vector with the next offset as return address, in every mode, and INTO with OF = 0 goes
on (45_control_transfer R464, R465, R467); a fault of that benign delivery is taken as itself and restarts the instruction, one
of an external interrupt's with the interrupt's return address (R512, R521, R522, R524, R526). That a step in IDLE, YIELDED or
HALTED starts a slice and a taken interrupt is a step of its own is the model's (log entries 7, 10, 23), and so is that in HALTED
the interrupt is taken whether or not a pause is pending, where R504 puts the pause first (DEDUCED, log entry 11). -/
def Obligations.ExceptionNesting : Prop :=
  (Exc.vector .de = 0 ∧ Exc.error .de = none ∧
    ∀ c : Word, (Exc.vector (.np c) = 11 ∧ Exc.vector (.ss c) = 12 ∧ Exc.vector (.gp c) = 13) ∧
      Exc.error (.np c) = some c ∧ Exc.error (.ss c) = some c ∧ Exc.error (.gp c) = some c) ∧
  (∀ (s : State) (e : Exc),
    (∀ t, deliver (setEip s s.start) (Exc.vector e) .exc (Exc.error e) s.start = .ok () t → takeException s e = t) ∧
    (∀ k t, deliver (setEip s s.start) (Exc.vector e) .exc (Exc.error e) s.start = .aborted k t →
      takeException s e = abortState t k) ∧
    ∀ e2 t, deliver (setEip s s.start) (Exc.vector e) .exc (Exc.error e) s.start = .raised e2 t →
      (∀ u, deliver t 8 .exc (some 0) s.start = .ok () u → takeException s e = u) ∧
      (∀ k u, deliver t 8 .exc (some 0) s.start = .aborted k u → takeException s e = abortState u k) ∧
      ∀ e3 u, deliver t 8 .exc (some 0) s.start = .raised e3 u →
        (takeException s e).sched.runState = .halted ∧ (takeException s e).sched.shutdown = true ∧
        (takeException s e).sched.haltEvents = u.sched.haltEvents + 1) ∧
  (∀ (a : Attrs) (s : State),
    (∀ v, mayV86 s → EndsAs (exec (.int a v) s) (deliver s v .soft none s.eip) id) ∧
    (∀ v, ¬mayV86 s → exec (.int a v) s = .next (takeException s (.gp 0))) ∧
    EndsAs (exec (.int3 a) s) (deliver s 3 .soft none s.eip) id ∧
    (flagOf s .ovf = true → EndsAs (exec (.into a) s) (deliver (touchFlag s .ovf) 4 .soft none s.eip) id) ∧
    (flagOf s .ovf = false → exec (.into a) s = .next (touchFlag s .ovf)) ∧
    ∀ v e t, deliver s v .soft none s.eip = .raised e t → t.start = s.start) ∧
  ∀ (s : State) (v : Byte) (vs : List Byte) (e : Exc) (t : State),
    (s.sched.runState = .halted ∨ ((s.sched.runState = .idle ∨ s.sched.runState = .yielded) ∧ s.inputs.pauseReq = false)) →
    s.sched.shutdown = false → plainFlag s ifPos = true → s.inputs.intr = v :: vs →
    deliver { setRunState (setSliceCount s 0) .running with start := s.eip, inputs := { s.inputs with intr := vs } } v
      .ext none s.eip = .raised e t →
    step s = .next (takeException t e) ∧ t.start = s.eip

/-- What taking an exception keeps of the state at the raise, nested ones included (R507, R509, R512): every general register but
ESP, every status flag, and the control, debug and table registers. -/
def Obligations.TakingAnExceptionKeepsRegisters : Prop :=
  ∀ (s : State) (e : Exc),
    keepsRegs [.sp] s (takeException s e) ∧ (∀ f, flagOf (takeException s e) f = flagOf s f) ∧
    (takeException s e).ctl = s.ctl ∧ (takeException s e).dbg = s.dbg ∧ (takeException s e).gdtr = s.gdtr ∧
    (takeException s e).idtr = s.idtr ∧ (takeException s e).ldtr = s.ldtr

/-- An enabled interrupt is taken at the start of a slice, before the next fetch, with the EIP of the boundary as return address
and no count against the budget (R521, R522, R524, R526); a pending pause comes before it and leaves the block IDLE with the
interrupt pending (R504, R525). The model's choices in it: a step in IDLE, YIELDED or HALTED starts a slice and a taken
interrupt is a step of its own (DESIGN CHOICE, log entry 7); the pending vectors are a list whose head is acknowledged
(DESIGN CHOICE, log entry 10); a pause does not end HALTED (DEDUCED, log entry 11). -/
def Obligations.InterruptsAtSliceStart : Prop :=
  (∀ (s : State) (v : Byte) (vs : List Byte),
    (s.sched.runState = .halted ∨ ((s.sched.runState = .idle ∨ s.sched.runState = .yielded) ∧ s.inputs.pauseReq = false)) →
    s.sched.shutdown = false → plainFlag s ifPos = true → s.inputs.intr = v :: vs →
    ∀ t, deliver { setRunState (setSliceCount s 0) .running with start := s.eip, inputs := { s.inputs with intr := vs } } v
        .ext none s.eip = .ok () t → step s = .next t) ∧
  ∀ s : State, (s.sched.runState = .idle ∨ s.sched.runState = .yielded) → s.inputs.pauseReq = true →
    step s = .next { s with sched := { s.sched with runState := .idle, sliceCount := 0 },
                            inputs := { s.inputs with pauseReq := false } }

/-! ### System instructions -/

/-- The privileged instructions raise #GP(0) in protected mode with CPL other than 0 (46_system R480, R496). -/
def Obligations.PrivilegeChecks : Prop :=
  ∀ (s : State) (a : Attrs), pe s = true → s.cpl ≠ 0 →
    exec (.hlt a) s = .next (takeException s (.gp 0)) ∧
    (∀ m, exec (.lgdt a m) s = .next (takeException s (.gp 0)) ∧ exec (.lidt a m) s = .next (takeException s (.gp 0))) ∧
    (∀ e, exec (.lmsw a e) s = .next (takeException s (.gp 0)) ∧
      (isProt s = true → exec (.lldt a e) s = .next (takeException s (.gp 0)))) ∧
    (∀ r c, exec (.movFromCr a r c) s = .next (takeException s (.gp 0)) ∧
      exec (.movToCr a c r) s = .next (takeException s (.gp 0))) ∧
    ∀ r c, exec (.movFromDr a r c) s = .next (takeException s (.gp 0)) ∧
      exec (.movToDr a c r) s = .next (takeException s (.gp 0))

/-- HLT halts the block, emits the event and clears `shutdown` (R481, 60_exceptions R528); MOV to and from control and debug
registers moves 32 bits and changes nothing else (R492 to R495); LMSW sets CR0's low bits and never clears PE, SMSW
stores its low half (R490, R491). -/
def Obligations.SystemRegisterMoves : Prop :=
  ∀ (a : Attrs) (s : State),
    (mayPrivileged s →
      (∃ t, exec (.hlt a) s = .next t ∧ t = { s with sched := t.sched } ∧ t.sched.runState = .halted ∧
        t.sched.shutdown = false ∧ t.sched.haltEvents = s.sched.haltEvents + 1 ∧
        t.sched.abortInfo = s.sched.abortInfo ∧ t.sched.sliceCount = s.sched.sliceCount) ∧
      (∀ r c, exec (.movFromCr a r c) s = .next (setReg s .dword r (s.ctl.get c)) ∧
        exec (.movToCr a c r) s = .next (setCtl s c (reg32 s r))) ∧
      (∀ r c, exec (.movFromDr a r c) s = .next (setReg s .dword r (s.dbg.get c)) ∧
        exec (.movToDr a c r) s = .next (setDbg s c (reg32 s r))) ∧
      ∀ e, (rmOp .word e).ready a s → ∃ v u t, readOp a s (rmOp .word e) = .ok v u ∧ exec (.lmsw a e) s = .next t ∧
        t = setCtl u .cr0 t.ctl.cr0 ∧ ReadFrame s u ∧
        t.ctl.cr0.getLsbD 0 = (s.ctl.cr0.getLsbD 0 || v.getLsbD 0) ∧
        (∀ i, 1 ≤ i → i ≤ 3 → t.ctl.cr0.getLsbD i = v.getLsbD i) ∧
        ∀ i, 4 ≤ i → t.ctl.cr0.getLsbD i = s.ctl.cr0.getLsbD i) ∧
    ∀ e, (rmOp .word e).ready a s → ∃ t, writeOp a s (rmOp .word e) (s.ctl.cr0 &&& 0xFFFF) = .ok () t ∧
      exec (.smsw a e) s = .next t ∧ OperandFrame a (rmOp .word e) s t ∧ t.flags = s.flags

/-- SGDT and SIDT store the limit and all 32 bits of the base; LGDT and LIDT load them, 24 bits of base with a 16-bit operand
size (R483 to R486). -/
def Obligations.DescriptorTableMoves : Prop :=
  ∀ (a : Attrs) (m : MemRef) (s : State), tableReady a s m →
    (∃ u t, segWrite s (segFor a m) (effAddr s m 0) .word (s.gdtr.limit.setWidth 32) = .ok () u ∧
      segWrite u (segFor a m) (effAddr s m 2) .dword s.gdtr.base = .ok () t ∧ exec (.sgdt a m) s = .next t ∧
      StoresFrame [(storeHome s (segFor a m) (effAddr s m 0) .word, .word),
        (storeHome s (segFor a m) (effAddr s m 2) .dword, .dword)] s t) ∧
    (∃ u t, segWrite s (segFor a m) (effAddr s m 0) .word (s.idtr.limit.setWidth 32) = .ok () u ∧
      segWrite u (segFor a m) (effAddr s m 2) .dword s.idtr.base = .ok () t ∧ exec (.sidt a m) s = .next t ∧
      StoresFrame [(storeHome s (segFor a m) (effAddr s m 0) .word, .word),
        (storeHome s (segFor a m) (effAddr s m 2) .dword, .dword)] s t) ∧
    (mayPrivileged s → ∃ lim base u t, segRead s (segFor a m) (effAddr s m 0) .word = .ok lim u ∧
      segRead u (segFor a m) (effAddr s m 2) .dword = .ok base t ∧ ReadFrame s t ∧
      exec (.lgdt a m) s = .next (setGdtr t ⟨if a.osz = .s16 then base &&& 0x00FFFFFF else base, lim.setWidth 16⟩) ∧
      exec (.lidt a m) s = .next (setIdtr t ⟨if a.osz = .s16 then base &&& 0x00FFFFFF else base, lim.setWidth 16⟩))

/-- SLDT and LLDT (R487, R488; 20_memory R92, R110): outside protected mode they abort; SLDT stores the selector; LLDT of a null
selector invalidates LDTR, of a present LDT descriptor loads it, of anything else, a selector beyond the GDT's limit included,
raises, and a read of the descriptor that aborts is that abort. That the DecodeError outside protected mode, raised while
executing, holds no bytes and names its reason is the model's (DESIGN CHOICE, log entry 16); the spec gives its category. -/
def Obligations.LocalTableMoves : Prop :=
  ∀ (a : Attrs) (e : Rm) (s : State),
    (isProt s = false → exec (.sldt a e) s = .next (abortState s (.decodeError .outsideProtected [])) ∧
      exec (.lldt a e) s = .next (abortState s (.decodeError .outsideProtected []))) ∧
    (isProt s = true → (rmOp .word e).ready a s →
      (∃ t, writeOp a s (rmOp .word e) (s.ldtr.value.setWidth 32) = .ok () t ∧ exec (.sldt a e) s = .next t ∧
        OperandFrame a (rmOp .word e) s t ∧ t.flags = s.flags) ∧
      (s.cpl = 0 → ∃ v u, readOp a s (rmOp .word e) = .ok v u ∧ ReadFrame s u ∧
        (v &&& 0xFFFC = 0 → exec (.lldt a e) s =
          .next (setLdtr u { s.ldtr with value := v.setWidth 16, valid := false })) ∧
        (v &&& 0xFFFC ≠ 0 → v.getLsbD 2 = true →
          exec (.lldt a e) s = .next (takeException u (.gp (v &&& 0xFFFC)))) ∧
        (v &&& 0xFFFC ≠ 0 → v.getLsbD 2 = false → selectorOutside s (v.setWidth 16) →
          exec (.lldt a e) s = .next (takeException u (.gp (v &&& 0xFFFC)))) ∧
        (v &&& 0xFFFC ≠ 0 → v.getLsbD 2 = false → ∀ k r, fetchRawDescriptor u (v.setWidth 16) false = .aborted k r →
          exec (.lldt a e) s = .next (abortState r k) ∧ ReadFrame s r) ∧
        ∀ d ad r, v &&& 0xFFFC ≠ 0 → v.getLsbD 2 = false → fetchRawDescriptor u (v.setWidth 16) false = .ok (d, ad) r →
          (descS d = true ∨ descType d ≠ 2 → exec (.lldt a e) s = .next (takeException r (.gp (v &&& 0xFFFC)))) ∧
          (descS d = false → descType d = 2 → descP d = false →
            exec (.lldt a e) s = .next (takeException r (.np (v &&& 0xFFFC)))) ∧
          (descS d = false → descType d = 2 → descP d = true →
            exec (.lldt a e) s = .next (setLdtr r ⟨v.setWidth 16, descBase d, descLimitScaled d, true⟩))))
end

