-- ==== Sys2Proof/Laws/State.lean ====
section
/-! SUPPORT. One lemma per field per update of the state, all true by `rfl`, so that no proof unfolds a record update. -/

namespace Sys2Proof.Machine

@[simp] theorem setEip_regs (s : State) (v : Word) : (setEip s v).regs = s.regs := rfl
@[simp] theorem setEip_eip (s : State) (v : Word) : (setEip s v).eip = v := rfl
@[simp] theorem setEip_start (s : State) (v : Word) : (setEip s v).start = s.start := rfl
@[simp] theorem setEip_flags (s : State) (v : Word) : (setEip s v).flags = s.flags := rfl
@[simp] theorem setEip_segs (s : State) (v : Word) : (setEip s v).segs = s.segs := rfl
@[simp] theorem setEip_ldtr (s : State) (v : Word) : (setEip s v).ldtr = s.ldtr := rfl
@[simp] theorem setEip_gdtr (s : State) (v : Word) : (setEip s v).gdtr = s.gdtr := rfl
@[simp] theorem setEip_idtr (s : State) (v : Word) : (setEip s v).idtr = s.idtr := rfl
@[simp] theorem setEip_ctl (s : State) (v : Word) : (setEip s v).ctl = s.ctl := rfl
@[simp] theorem setEip_dbg (s : State) (v : Word) : (setEip s v).dbg = s.dbg := rfl
@[simp] theorem setEip_cpl (s : State) (v : Word) : (setEip s v).cpl = s.cpl := rfl
@[simp] theorem setEip_mem (s : State) (v : Word) : (setEip s v).mem = s.mem := rfl
@[simp] theorem setEip_a20 (s : State) (v : Word) : (setEip s v).a20 = s.a20 := rfl
@[simp] theorem setEip_vga (s : State) (v : Word) : (setEip s v).vga = s.vga := rfl
@[simp] theorem setEip_sched (s : State) (v : Word) : (setEip s v).sched = s.sched := rfl
@[simp] theorem setEip_inputs (s : State) (v : Word) : (setEip s v).inputs = s.inputs := rfl
@[simp] theorem setEip_cfg (s : State) (v : Word) : (setEip s v).cfg = s.cfg := rfl
@[simp] theorem setEip_freeCount (s : State) (v : Word) : (setEip s v).freeCount = s.freeCount := rfl

@[simp] theorem setStart_regs (s : State) (v : Word) : (setStart s v).regs = s.regs := rfl
@[simp] theorem setStart_eip (s : State) (v : Word) : (setStart s v).eip = s.eip := rfl
@[simp] theorem setStart_start (s : State) (v : Word) : (setStart s v).start = v := rfl
@[simp] theorem setStart_flags (s : State) (v : Word) : (setStart s v).flags = s.flags := rfl
@[simp] theorem setStart_segs (s : State) (v : Word) : (setStart s v).segs = s.segs := rfl
@[simp] theorem setStart_ldtr (s : State) (v : Word) : (setStart s v).ldtr = s.ldtr := rfl
@[simp] theorem setStart_gdtr (s : State) (v : Word) : (setStart s v).gdtr = s.gdtr := rfl
@[simp] theorem setStart_idtr (s : State) (v : Word) : (setStart s v).idtr = s.idtr := rfl
@[simp] theorem setStart_ctl (s : State) (v : Word) : (setStart s v).ctl = s.ctl := rfl
@[simp] theorem setStart_dbg (s : State) (v : Word) : (setStart s v).dbg = s.dbg := rfl
@[simp] theorem setStart_cpl (s : State) (v : Word) : (setStart s v).cpl = s.cpl := rfl
@[simp] theorem setStart_mem (s : State) (v : Word) : (setStart s v).mem = s.mem := rfl
@[simp] theorem setStart_a20 (s : State) (v : Word) : (setStart s v).a20 = s.a20 := rfl
@[simp] theorem setStart_vga (s : State) (v : Word) : (setStart s v).vga = s.vga := rfl
@[simp] theorem setStart_sched (s : State) (v : Word) : (setStart s v).sched = s.sched := rfl
@[simp] theorem setStart_inputs (s : State) (v : Word) : (setStart s v).inputs = s.inputs := rfl
@[simp] theorem setStart_cfg (s : State) (v : Word) : (setStart s v).cfg = s.cfg := rfl
@[simp] theorem setStart_freeCount (s : State) (v : Word) : (setStart s v).freeCount = s.freeCount := rfl

@[simp] theorem setLdtr_regs (s : State) (v : LdtRegister) : (setLdtr s v).regs = s.regs := rfl
@[simp] theorem setLdtr_eip (s : State) (v : LdtRegister) : (setLdtr s v).eip = s.eip := rfl
@[simp] theorem setLdtr_start (s : State) (v : LdtRegister) : (setLdtr s v).start = s.start := rfl
@[simp] theorem setLdtr_flags (s : State) (v : LdtRegister) : (setLdtr s v).flags = s.flags := rfl
@[simp] theorem setLdtr_segs (s : State) (v : LdtRegister) : (setLdtr s v).segs = s.segs := rfl
@[simp] theorem setLdtr_ldtr (s : State) (v : LdtRegister) : (setLdtr s v).ldtr = v := rfl
@[simp] theorem setLdtr_gdtr (s : State) (v : LdtRegister) : (setLdtr s v).gdtr = s.gdtr := rfl
@[simp] theorem setLdtr_idtr (s : State) (v : LdtRegister) : (setLdtr s v).idtr = s.idtr := rfl
@[simp] theorem setLdtr_ctl (s : State) (v : LdtRegister) : (setLdtr s v).ctl = s.ctl := rfl
@[simp] theorem setLdtr_dbg (s : State) (v : LdtRegister) : (setLdtr s v).dbg = s.dbg := rfl
@[simp] theorem setLdtr_cpl (s : State) (v : LdtRegister) : (setLdtr s v).cpl = s.cpl := rfl
@[simp] theorem setLdtr_mem (s : State) (v : LdtRegister) : (setLdtr s v).mem = s.mem := rfl
@[simp] theorem setLdtr_a20 (s : State) (v : LdtRegister) : (setLdtr s v).a20 = s.a20 := rfl
@[simp] theorem setLdtr_vga (s : State) (v : LdtRegister) : (setLdtr s v).vga = s.vga := rfl
@[simp] theorem setLdtr_sched (s : State) (v : LdtRegister) : (setLdtr s v).sched = s.sched := rfl
@[simp] theorem setLdtr_inputs (s : State) (v : LdtRegister) : (setLdtr s v).inputs = s.inputs := rfl
@[simp] theorem setLdtr_cfg (s : State) (v : LdtRegister) : (setLdtr s v).cfg = s.cfg := rfl
@[simp] theorem setLdtr_freeCount (s : State) (v : LdtRegister) : (setLdtr s v).freeCount = s.freeCount := rfl

@[simp] theorem setGdtr_regs (s : State) (v : TableRegister) : (setGdtr s v).regs = s.regs := rfl
@[simp] theorem setGdtr_eip (s : State) (v : TableRegister) : (setGdtr s v).eip = s.eip := rfl
@[simp] theorem setGdtr_start (s : State) (v : TableRegister) : (setGdtr s v).start = s.start := rfl
@[simp] theorem setGdtr_flags (s : State) (v : TableRegister) : (setGdtr s v).flags = s.flags := rfl
@[simp] theorem setGdtr_segs (s : State) (v : TableRegister) : (setGdtr s v).segs = s.segs := rfl
@[simp] theorem setGdtr_ldtr (s : State) (v : TableRegister) : (setGdtr s v).ldtr = s.ldtr := rfl
@[simp] theorem setGdtr_gdtr (s : State) (v : TableRegister) : (setGdtr s v).gdtr = v := rfl
@[simp] theorem setGdtr_idtr (s : State) (v : TableRegister) : (setGdtr s v).idtr = s.idtr := rfl
@[simp] theorem setGdtr_ctl (s : State) (v : TableRegister) : (setGdtr s v).ctl = s.ctl := rfl
@[simp] theorem setGdtr_dbg (s : State) (v : TableRegister) : (setGdtr s v).dbg = s.dbg := rfl
@[simp] theorem setGdtr_cpl (s : State) (v : TableRegister) : (setGdtr s v).cpl = s.cpl := rfl
@[simp] theorem setGdtr_mem (s : State) (v : TableRegister) : (setGdtr s v).mem = s.mem := rfl
@[simp] theorem setGdtr_a20 (s : State) (v : TableRegister) : (setGdtr s v).a20 = s.a20 := rfl
@[simp] theorem setGdtr_vga (s : State) (v : TableRegister) : (setGdtr s v).vga = s.vga := rfl
@[simp] theorem setGdtr_sched (s : State) (v : TableRegister) : (setGdtr s v).sched = s.sched := rfl
@[simp] theorem setGdtr_inputs (s : State) (v : TableRegister) : (setGdtr s v).inputs = s.inputs := rfl
@[simp] theorem setGdtr_cfg (s : State) (v : TableRegister) : (setGdtr s v).cfg = s.cfg := rfl
@[simp] theorem setGdtr_freeCount (s : State) (v : TableRegister) : (setGdtr s v).freeCount = s.freeCount := rfl

@[simp] theorem setIdtr_regs (s : State) (v : TableRegister) : (setIdtr s v).regs = s.regs := rfl
@[simp] theorem setIdtr_eip (s : State) (v : TableRegister) : (setIdtr s v).eip = s.eip := rfl
@[simp] theorem setIdtr_start (s : State) (v : TableRegister) : (setIdtr s v).start = s.start := rfl
@[simp] theorem setIdtr_flags (s : State) (v : TableRegister) : (setIdtr s v).flags = s.flags := rfl
@[simp] theorem setIdtr_segs (s : State) (v : TableRegister) : (setIdtr s v).segs = s.segs := rfl
@[simp] theorem setIdtr_ldtr (s : State) (v : TableRegister) : (setIdtr s v).ldtr = s.ldtr := rfl
@[simp] theorem setIdtr_gdtr (s : State) (v : TableRegister) : (setIdtr s v).gdtr = s.gdtr := rfl
@[simp] theorem setIdtr_idtr (s : State) (v : TableRegister) : (setIdtr s v).idtr = v := rfl
@[simp] theorem setIdtr_ctl (s : State) (v : TableRegister) : (setIdtr s v).ctl = s.ctl := rfl
@[simp] theorem setIdtr_dbg (s : State) (v : TableRegister) : (setIdtr s v).dbg = s.dbg := rfl
@[simp] theorem setIdtr_cpl (s : State) (v : TableRegister) : (setIdtr s v).cpl = s.cpl := rfl
@[simp] theorem setIdtr_mem (s : State) (v : TableRegister) : (setIdtr s v).mem = s.mem := rfl
@[simp] theorem setIdtr_a20 (s : State) (v : TableRegister) : (setIdtr s v).a20 = s.a20 := rfl
@[simp] theorem setIdtr_vga (s : State) (v : TableRegister) : (setIdtr s v).vga = s.vga := rfl
@[simp] theorem setIdtr_sched (s : State) (v : TableRegister) : (setIdtr s v).sched = s.sched := rfl
@[simp] theorem setIdtr_inputs (s : State) (v : TableRegister) : (setIdtr s v).inputs = s.inputs := rfl
@[simp] theorem setIdtr_cfg (s : State) (v : TableRegister) : (setIdtr s v).cfg = s.cfg := rfl
@[simp] theorem setIdtr_freeCount (s : State) (v : TableRegister) : (setIdtr s v).freeCount = s.freeCount := rfl

@[simp] theorem setCpl_regs (s : State) (v : BitVec 2) : (setCpl s v).regs = s.regs := rfl
@[simp] theorem setCpl_eip (s : State) (v : BitVec 2) : (setCpl s v).eip = s.eip := rfl
@[simp] theorem setCpl_start (s : State) (v : BitVec 2) : (setCpl s v).start = s.start := rfl
@[simp] theorem setCpl_flags (s : State) (v : BitVec 2) : (setCpl s v).flags = s.flags := rfl
@[simp] theorem setCpl_segs (s : State) (v : BitVec 2) : (setCpl s v).segs = s.segs := rfl
@[simp] theorem setCpl_ldtr (s : State) (v : BitVec 2) : (setCpl s v).ldtr = s.ldtr := rfl
@[simp] theorem setCpl_gdtr (s : State) (v : BitVec 2) : (setCpl s v).gdtr = s.gdtr := rfl
@[simp] theorem setCpl_idtr (s : State) (v : BitVec 2) : (setCpl s v).idtr = s.idtr := rfl
@[simp] theorem setCpl_ctl (s : State) (v : BitVec 2) : (setCpl s v).ctl = s.ctl := rfl
@[simp] theorem setCpl_dbg (s : State) (v : BitVec 2) : (setCpl s v).dbg = s.dbg := rfl
@[simp] theorem setCpl_cpl (s : State) (v : BitVec 2) : (setCpl s v).cpl = v := rfl
@[simp] theorem setCpl_mem (s : State) (v : BitVec 2) : (setCpl s v).mem = s.mem := rfl
@[simp] theorem setCpl_a20 (s : State) (v : BitVec 2) : (setCpl s v).a20 = s.a20 := rfl
@[simp] theorem setCpl_vga (s : State) (v : BitVec 2) : (setCpl s v).vga = s.vga := rfl
@[simp] theorem setCpl_sched (s : State) (v : BitVec 2) : (setCpl s v).sched = s.sched := rfl
@[simp] theorem setCpl_inputs (s : State) (v : BitVec 2) : (setCpl s v).inputs = s.inputs := rfl
@[simp] theorem setCpl_cfg (s : State) (v : BitVec 2) : (setCpl s v).cfg = s.cfg := rfl
@[simp] theorem setCpl_freeCount (s : State) (v : BitVec 2) : (setCpl s v).freeCount = s.freeCount := rfl

@[simp] theorem setFlags_regs (s : State) (v : LazyFlags) : (setFlags s v).regs = s.regs := rfl
@[simp] theorem setFlags_eip (s : State) (v : LazyFlags) : (setFlags s v).eip = s.eip := rfl
@[simp] theorem setFlags_start (s : State) (v : LazyFlags) : (setFlags s v).start = s.start := rfl
@[simp] theorem setFlags_flags (s : State) (v : LazyFlags) : (setFlags s v).flags = v := rfl
@[simp] theorem setFlags_segs (s : State) (v : LazyFlags) : (setFlags s v).segs = s.segs := rfl
@[simp] theorem setFlags_ldtr (s : State) (v : LazyFlags) : (setFlags s v).ldtr = s.ldtr := rfl
@[simp] theorem setFlags_gdtr (s : State) (v : LazyFlags) : (setFlags s v).gdtr = s.gdtr := rfl
@[simp] theorem setFlags_idtr (s : State) (v : LazyFlags) : (setFlags s v).idtr = s.idtr := rfl
@[simp] theorem setFlags_ctl (s : State) (v : LazyFlags) : (setFlags s v).ctl = s.ctl := rfl
@[simp] theorem setFlags_dbg (s : State) (v : LazyFlags) : (setFlags s v).dbg = s.dbg := rfl
@[simp] theorem setFlags_cpl (s : State) (v : LazyFlags) : (setFlags s v).cpl = s.cpl := rfl
@[simp] theorem setFlags_mem (s : State) (v : LazyFlags) : (setFlags s v).mem = s.mem := rfl
@[simp] theorem setFlags_a20 (s : State) (v : LazyFlags) : (setFlags s v).a20 = s.a20 := rfl
@[simp] theorem setFlags_vga (s : State) (v : LazyFlags) : (setFlags s v).vga = s.vga := rfl
@[simp] theorem setFlags_sched (s : State) (v : LazyFlags) : (setFlags s v).sched = s.sched := rfl
@[simp] theorem setFlags_inputs (s : State) (v : LazyFlags) : (setFlags s v).inputs = s.inputs := rfl
@[simp] theorem setFlags_cfg (s : State) (v : LazyFlags) : (setFlags s v).cfg = s.cfg := rfl
@[simp] theorem setFlags_freeCount (s : State) (v : LazyFlags) : (setFlags s v).freeCount = s.freeCount := rfl

@[simp] theorem setMem_regs (s : State) (v : List Host.Cell) : (setMem s v).regs = s.regs := rfl
@[simp] theorem setMem_eip (s : State) (v : List Host.Cell) : (setMem s v).eip = s.eip := rfl
@[simp] theorem setMem_start (s : State) (v : List Host.Cell) : (setMem s v).start = s.start := rfl
@[simp] theorem setMem_flags (s : State) (v : List Host.Cell) : (setMem s v).flags = s.flags := rfl
@[simp] theorem setMem_segs (s : State) (v : List Host.Cell) : (setMem s v).segs = s.segs := rfl
@[simp] theorem setMem_ldtr (s : State) (v : List Host.Cell) : (setMem s v).ldtr = s.ldtr := rfl
@[simp] theorem setMem_gdtr (s : State) (v : List Host.Cell) : (setMem s v).gdtr = s.gdtr := rfl
@[simp] theorem setMem_idtr (s : State) (v : List Host.Cell) : (setMem s v).idtr = s.idtr := rfl
@[simp] theorem setMem_ctl (s : State) (v : List Host.Cell) : (setMem s v).ctl = s.ctl := rfl
@[simp] theorem setMem_dbg (s : State) (v : List Host.Cell) : (setMem s v).dbg = s.dbg := rfl
@[simp] theorem setMem_cpl (s : State) (v : List Host.Cell) : (setMem s v).cpl = s.cpl := rfl
@[simp] theorem setMem_mem (s : State) (v : List Host.Cell) : (setMem s v).mem = v := rfl
@[simp] theorem setMem_a20 (s : State) (v : List Host.Cell) : (setMem s v).a20 = s.a20 := rfl
@[simp] theorem setMem_vga (s : State) (v : List Host.Cell) : (setMem s v).vga = s.vga := rfl
@[simp] theorem setMem_sched (s : State) (v : List Host.Cell) : (setMem s v).sched = s.sched := rfl
@[simp] theorem setMem_inputs (s : State) (v : List Host.Cell) : (setMem s v).inputs = s.inputs := rfl
@[simp] theorem setMem_cfg (s : State) (v : List Host.Cell) : (setMem s v).cfg = s.cfg := rfl
@[simp] theorem setMem_freeCount (s : State) (v : List Host.Cell) : (setMem s v).freeCount = s.freeCount := rfl

@[simp] theorem setSeg_regs (s : State) (r : SegReg) (v : SegRegister) : (setSeg s r v).regs = s.regs := rfl
@[simp] theorem setSeg_eip (s : State) (r : SegReg) (v : SegRegister) : (setSeg s r v).eip = s.eip := rfl
@[simp] theorem setSeg_start (s : State) (r : SegReg) (v : SegRegister) : (setSeg s r v).start = s.start := rfl
@[simp] theorem setSeg_flags (s : State) (r : SegReg) (v : SegRegister) : (setSeg s r v).flags = s.flags := rfl
@[simp] theorem setSeg_segs (s : State) (r : SegReg) (v : SegRegister) : (setSeg s r v).segs = s.segs.set r v := rfl
@[simp] theorem setSeg_ldtr (s : State) (r : SegReg) (v : SegRegister) : (setSeg s r v).ldtr = s.ldtr := rfl
@[simp] theorem setSeg_gdtr (s : State) (r : SegReg) (v : SegRegister) : (setSeg s r v).gdtr = s.gdtr := rfl
@[simp] theorem setSeg_idtr (s : State) (r : SegReg) (v : SegRegister) : (setSeg s r v).idtr = s.idtr := rfl
@[simp] theorem setSeg_ctl (s : State) (r : SegReg) (v : SegRegister) : (setSeg s r v).ctl = s.ctl := rfl
@[simp] theorem setSeg_dbg (s : State) (r : SegReg) (v : SegRegister) : (setSeg s r v).dbg = s.dbg := rfl
@[simp] theorem setSeg_cpl (s : State) (r : SegReg) (v : SegRegister) : (setSeg s r v).cpl = s.cpl := rfl
@[simp] theorem setSeg_mem (s : State) (r : SegReg) (v : SegRegister) : (setSeg s r v).mem = s.mem := rfl
@[simp] theorem setSeg_a20 (s : State) (r : SegReg) (v : SegRegister) : (setSeg s r v).a20 = s.a20 := rfl
@[simp] theorem setSeg_vga (s : State) (r : SegReg) (v : SegRegister) : (setSeg s r v).vga = s.vga := rfl
@[simp] theorem setSeg_sched (s : State) (r : SegReg) (v : SegRegister) : (setSeg s r v).sched = s.sched := rfl
@[simp] theorem setSeg_inputs (s : State) (r : SegReg) (v : SegRegister) : (setSeg s r v).inputs = s.inputs := rfl
@[simp] theorem setSeg_cfg (s : State) (r : SegReg) (v : SegRegister) : (setSeg s r v).cfg = s.cfg := rfl
@[simp] theorem setSeg_freeCount (s : State) (r : SegReg) (v : SegRegister) : (setSeg s r v).freeCount = s.freeCount := rfl

@[simp] theorem setCtl_regs (s : State) (r : CtlReg) (v : Word) : (setCtl s r v).regs = s.regs := rfl
@[simp] theorem setCtl_eip (s : State) (r : CtlReg) (v : Word) : (setCtl s r v).eip = s.eip := rfl
@[simp] theorem setCtl_start (s : State) (r : CtlReg) (v : Word) : (setCtl s r v).start = s.start := rfl
@[simp] theorem setCtl_flags (s : State) (r : CtlReg) (v : Word) : (setCtl s r v).flags = s.flags := rfl
@[simp] theorem setCtl_segs (s : State) (r : CtlReg) (v : Word) : (setCtl s r v).segs = s.segs := rfl
@[simp] theorem setCtl_ldtr (s : State) (r : CtlReg) (v : Word) : (setCtl s r v).ldtr = s.ldtr := rfl
@[simp] theorem setCtl_gdtr (s : State) (r : CtlReg) (v : Word) : (setCtl s r v).gdtr = s.gdtr := rfl
@[simp] theorem setCtl_idtr (s : State) (r : CtlReg) (v : Word) : (setCtl s r v).idtr = s.idtr := rfl
@[simp] theorem setCtl_ctl (s : State) (r : CtlReg) (v : Word) : (setCtl s r v).ctl = s.ctl.set r v := rfl
@[simp] theorem setCtl_dbg (s : State) (r : CtlReg) (v : Word) : (setCtl s r v).dbg = s.dbg := rfl
@[simp] theorem setCtl_cpl (s : State) (r : CtlReg) (v : Word) : (setCtl s r v).cpl = s.cpl := rfl
@[simp] theorem setCtl_mem (s : State) (r : CtlReg) (v : Word) : (setCtl s r v).mem = s.mem := rfl
@[simp] theorem setCtl_a20 (s : State) (r : CtlReg) (v : Word) : (setCtl s r v).a20 = s.a20 := rfl
@[simp] theorem setCtl_vga (s : State) (r : CtlReg) (v : Word) : (setCtl s r v).vga = s.vga := rfl
@[simp] theorem setCtl_sched (s : State) (r : CtlReg) (v : Word) : (setCtl s r v).sched = s.sched := rfl
@[simp] theorem setCtl_inputs (s : State) (r : CtlReg) (v : Word) : (setCtl s r v).inputs = s.inputs := rfl
@[simp] theorem setCtl_cfg (s : State) (r : CtlReg) (v : Word) : (setCtl s r v).cfg = s.cfg := rfl
@[simp] theorem setCtl_freeCount (s : State) (r : CtlReg) (v : Word) : (setCtl s r v).freeCount = s.freeCount := rfl

@[simp] theorem setDbg_regs (s : State) (r : DbgReg) (v : Word) : (setDbg s r v).regs = s.regs := rfl
@[simp] theorem setDbg_eip (s : State) (r : DbgReg) (v : Word) : (setDbg s r v).eip = s.eip := rfl
@[simp] theorem setDbg_start (s : State) (r : DbgReg) (v : Word) : (setDbg s r v).start = s.start := rfl
@[simp] theorem setDbg_flags (s : State) (r : DbgReg) (v : Word) : (setDbg s r v).flags = s.flags := rfl
@[simp] theorem setDbg_segs (s : State) (r : DbgReg) (v : Word) : (setDbg s r v).segs = s.segs := rfl
@[simp] theorem setDbg_ldtr (s : State) (r : DbgReg) (v : Word) : (setDbg s r v).ldtr = s.ldtr := rfl
@[simp] theorem setDbg_gdtr (s : State) (r : DbgReg) (v : Word) : (setDbg s r v).gdtr = s.gdtr := rfl
@[simp] theorem setDbg_idtr (s : State) (r : DbgReg) (v : Word) : (setDbg s r v).idtr = s.idtr := rfl
@[simp] theorem setDbg_ctl (s : State) (r : DbgReg) (v : Word) : (setDbg s r v).ctl = s.ctl := rfl
@[simp] theorem setDbg_dbg (s : State) (r : DbgReg) (v : Word) : (setDbg s r v).dbg = s.dbg.set r v := rfl
@[simp] theorem setDbg_cpl (s : State) (r : DbgReg) (v : Word) : (setDbg s r v).cpl = s.cpl := rfl
@[simp] theorem setDbg_mem (s : State) (r : DbgReg) (v : Word) : (setDbg s r v).mem = s.mem := rfl
@[simp] theorem setDbg_a20 (s : State) (r : DbgReg) (v : Word) : (setDbg s r v).a20 = s.a20 := rfl
@[simp] theorem setDbg_vga (s : State) (r : DbgReg) (v : Word) : (setDbg s r v).vga = s.vga := rfl
@[simp] theorem setDbg_sched (s : State) (r : DbgReg) (v : Word) : (setDbg s r v).sched = s.sched := rfl
@[simp] theorem setDbg_inputs (s : State) (r : DbgReg) (v : Word) : (setDbg s r v).inputs = s.inputs := rfl
@[simp] theorem setDbg_cfg (s : State) (r : DbgReg) (v : Word) : (setDbg s r v).cfg = s.cfg := rfl
@[simp] theorem setDbg_freeCount (s : State) (r : DbgReg) (v : Word) : (setDbg s r v).freeCount = s.freeCount := rfl

@[simp] theorem setReg_regs (s : State) (w : Width) (r : Reg) (v : Word) : (setReg s w r v).regs = s.regs.set (regHome w r) (writeReg32 w (isHighByte r) (reg32 s (regHome w r)) v) := rfl
@[simp] theorem setReg_eip (s : State) (w : Width) (r : Reg) (v : Word) : (setReg s w r v).eip = s.eip := rfl
@[simp] theorem setReg_start (s : State) (w : Width) (r : Reg) (v : Word) : (setReg s w r v).start = s.start := rfl
@[simp] theorem setReg_flags (s : State) (w : Width) (r : Reg) (v : Word) : (setReg s w r v).flags = s.flags := rfl
@[simp] theorem setReg_segs (s : State) (w : Width) (r : Reg) (v : Word) : (setReg s w r v).segs = s.segs := rfl
@[simp] theorem setReg_ldtr (s : State) (w : Width) (r : Reg) (v : Word) : (setReg s w r v).ldtr = s.ldtr := rfl
@[simp] theorem setReg_gdtr (s : State) (w : Width) (r : Reg) (v : Word) : (setReg s w r v).gdtr = s.gdtr := rfl
@[simp] theorem setReg_idtr (s : State) (w : Width) (r : Reg) (v : Word) : (setReg s w r v).idtr = s.idtr := rfl
@[simp] theorem setReg_ctl (s : State) (w : Width) (r : Reg) (v : Word) : (setReg s w r v).ctl = s.ctl := rfl
@[simp] theorem setReg_dbg (s : State) (w : Width) (r : Reg) (v : Word) : (setReg s w r v).dbg = s.dbg := rfl
@[simp] theorem setReg_cpl (s : State) (w : Width) (r : Reg) (v : Word) : (setReg s w r v).cpl = s.cpl := rfl
@[simp] theorem setReg_mem (s : State) (w : Width) (r : Reg) (v : Word) : (setReg s w r v).mem = s.mem := rfl
@[simp] theorem setReg_a20 (s : State) (w : Width) (r : Reg) (v : Word) : (setReg s w r v).a20 = s.a20 := rfl
@[simp] theorem setReg_vga (s : State) (w : Width) (r : Reg) (v : Word) : (setReg s w r v).vga = s.vga := rfl
@[simp] theorem setReg_sched (s : State) (w : Width) (r : Reg) (v : Word) : (setReg s w r v).sched = s.sched := rfl
@[simp] theorem setReg_inputs (s : State) (w : Width) (r : Reg) (v : Word) : (setReg s w r v).inputs = s.inputs := rfl
@[simp] theorem setReg_cfg (s : State) (w : Width) (r : Reg) (v : Word) : (setReg s w r v).cfg = s.cfg := rfl
@[simp] theorem setReg_freeCount (s : State) (w : Width) (r : Reg) (v : Word) : (setReg s w r v).freeCount = s.freeCount := rfl

@[simp] theorem setRegSize_regs (s : State) (z : Size) (r : Reg) (v : Word) : (setRegSize s z r v).regs = (setReg s z.width r v).regs := rfl
@[simp] theorem setRegSize_eip (s : State) (z : Size) (r : Reg) (v : Word) : (setRegSize s z r v).eip = s.eip := rfl
@[simp] theorem setRegSize_start (s : State) (z : Size) (r : Reg) (v : Word) : (setRegSize s z r v).start = s.start := rfl
@[simp] theorem setRegSize_flags (s : State) (z : Size) (r : Reg) (v : Word) : (setRegSize s z r v).flags = s.flags := rfl
@[simp] theorem setRegSize_segs (s : State) (z : Size) (r : Reg) (v : Word) : (setRegSize s z r v).segs = s.segs := rfl
@[simp] theorem setRegSize_ldtr (s : State) (z : Size) (r : Reg) (v : Word) : (setRegSize s z r v).ldtr = s.ldtr := rfl
@[simp] theorem setRegSize_gdtr (s : State) (z : Size) (r : Reg) (v : Word) : (setRegSize s z r v).gdtr = s.gdtr := rfl
@[simp] theorem setRegSize_idtr (s : State) (z : Size) (r : Reg) (v : Word) : (setRegSize s z r v).idtr = s.idtr := rfl
@[simp] theorem setRegSize_ctl (s : State) (z : Size) (r : Reg) (v : Word) : (setRegSize s z r v).ctl = s.ctl := rfl
@[simp] theorem setRegSize_dbg (s : State) (z : Size) (r : Reg) (v : Word) : (setRegSize s z r v).dbg = s.dbg := rfl
@[simp] theorem setRegSize_cpl (s : State) (z : Size) (r : Reg) (v : Word) : (setRegSize s z r v).cpl = s.cpl := rfl
@[simp] theorem setRegSize_mem (s : State) (z : Size) (r : Reg) (v : Word) : (setRegSize s z r v).mem = s.mem := rfl
@[simp] theorem setRegSize_a20 (s : State) (z : Size) (r : Reg) (v : Word) : (setRegSize s z r v).a20 = s.a20 := rfl
@[simp] theorem setRegSize_vga (s : State) (z : Size) (r : Reg) (v : Word) : (setRegSize s z r v).vga = s.vga := rfl
@[simp] theorem setRegSize_sched (s : State) (z : Size) (r : Reg) (v : Word) : (setRegSize s z r v).sched = s.sched := rfl
@[simp] theorem setRegSize_inputs (s : State) (z : Size) (r : Reg) (v : Word) : (setRegSize s z r v).inputs = s.inputs := rfl
@[simp] theorem setRegSize_cfg (s : State) (z : Size) (r : Reg) (v : Word) : (setRegSize s z r v).cfg = s.cfg := rfl
@[simp] theorem setRegSize_freeCount (s : State) (z : Size) (r : Reg) (v : Word) : (setRegSize s z r v).freeCount = s.freeCount := rfl

@[simp] theorem setStackPtr_regs (s : State) (v : Word) : (setStackPtr s v).regs = (setReg s (if stackBig s then .dword else .word) .sp v).regs := rfl
@[simp] theorem setStackPtr_eip (s : State) (v : Word) : (setStackPtr s v).eip = s.eip := rfl
@[simp] theorem setStackPtr_start (s : State) (v : Word) : (setStackPtr s v).start = s.start := rfl
@[simp] theorem setStackPtr_flags (s : State) (v : Word) : (setStackPtr s v).flags = s.flags := rfl
@[simp] theorem setStackPtr_segs (s : State) (v : Word) : (setStackPtr s v).segs = s.segs := rfl
@[simp] theorem setStackPtr_ldtr (s : State) (v : Word) : (setStackPtr s v).ldtr = s.ldtr := rfl
@[simp] theorem setStackPtr_gdtr (s : State) (v : Word) : (setStackPtr s v).gdtr = s.gdtr := rfl
@[simp] theorem setStackPtr_idtr (s : State) (v : Word) : (setStackPtr s v).idtr = s.idtr := rfl
@[simp] theorem setStackPtr_ctl (s : State) (v : Word) : (setStackPtr s v).ctl = s.ctl := rfl
@[simp] theorem setStackPtr_dbg (s : State) (v : Word) : (setStackPtr s v).dbg = s.dbg := rfl
@[simp] theorem setStackPtr_cpl (s : State) (v : Word) : (setStackPtr s v).cpl = s.cpl := rfl
@[simp] theorem setStackPtr_mem (s : State) (v : Word) : (setStackPtr s v).mem = s.mem := rfl
@[simp] theorem setStackPtr_a20 (s : State) (v : Word) : (setStackPtr s v).a20 = s.a20 := rfl
@[simp] theorem setStackPtr_vga (s : State) (v : Word) : (setStackPtr s v).vga = s.vga := rfl
@[simp] theorem setStackPtr_sched (s : State) (v : Word) : (setStackPtr s v).sched = s.sched := rfl
@[simp] theorem setStackPtr_inputs (s : State) (v : Word) : (setStackPtr s v).inputs = s.inputs := rfl
@[simp] theorem setStackPtr_cfg (s : State) (v : Word) : (setStackPtr s v).cfg = s.cfg := rfl
@[simp] theorem setStackPtr_freeCount (s : State) (v : Word) : (setStackPtr s v).freeCount = s.freeCount := rfl

@[simp] theorem loadSegReal_regs (s : State) (r : SegReg) (v : BitVec 16) : (loadSegReal s r v).regs = s.regs := rfl
@[simp] theorem loadSegReal_eip (s : State) (r : SegReg) (v : BitVec 16) : (loadSegReal s r v).eip = s.eip := rfl
@[simp] theorem loadSegReal_start (s : State) (r : SegReg) (v : BitVec 16) : (loadSegReal s r v).start = s.start := rfl
@[simp] theorem loadSegReal_flags (s : State) (r : SegReg) (v : BitVec 16) : (loadSegReal s r v).flags = s.flags := rfl
@[simp] theorem loadSegReal_ldtr (s : State) (r : SegReg) (v : BitVec 16) : (loadSegReal s r v).ldtr = s.ldtr := rfl
@[simp] theorem loadSegReal_gdtr (s : State) (r : SegReg) (v : BitVec 16) : (loadSegReal s r v).gdtr = s.gdtr := rfl
@[simp] theorem loadSegReal_idtr (s : State) (r : SegReg) (v : BitVec 16) : (loadSegReal s r v).idtr = s.idtr := rfl
@[simp] theorem loadSegReal_ctl (s : State) (r : SegReg) (v : BitVec 16) : (loadSegReal s r v).ctl = s.ctl := rfl
@[simp] theorem loadSegReal_dbg (s : State) (r : SegReg) (v : BitVec 16) : (loadSegReal s r v).dbg = s.dbg := rfl
@[simp] theorem loadSegReal_cpl (s : State) (r : SegReg) (v : BitVec 16) : (loadSegReal s r v).cpl = s.cpl := rfl
@[simp] theorem loadSegReal_mem (s : State) (r : SegReg) (v : BitVec 16) : (loadSegReal s r v).mem = s.mem := rfl
@[simp] theorem loadSegReal_a20 (s : State) (r : SegReg) (v : BitVec 16) : (loadSegReal s r v).a20 = s.a20 := rfl
@[simp] theorem loadSegReal_vga (s : State) (r : SegReg) (v : BitVec 16) : (loadSegReal s r v).vga = s.vga := rfl
@[simp] theorem loadSegReal_sched (s : State) (r : SegReg) (v : BitVec 16) : (loadSegReal s r v).sched = s.sched := rfl
@[simp] theorem loadSegReal_inputs (s : State) (r : SegReg) (v : BitVec 16) : (loadSegReal s r v).inputs = s.inputs := rfl
@[simp] theorem loadSegReal_cfg (s : State) (r : SegReg) (v : BitVec 16) : (loadSegReal s r v).cfg = s.cfg := rfl
@[simp] theorem loadSegReal_freeCount (s : State) (r : SegReg) (v : BitVec 16) : (loadSegReal s r v).freeCount = s.freeCount := rfl

@[simp] theorem setFlag_regs (s : State) (f : Flag) (b : Bool) : (setFlag s f b).regs = s.regs := rfl
@[simp] theorem setFlag_eip (s : State) (f : Flag) (b : Bool) : (setFlag s f b).eip = s.eip := rfl
@[simp] theorem setFlag_start (s : State) (f : Flag) (b : Bool) : (setFlag s f b).start = s.start := rfl
@[simp] theorem setFlag_flags (s : State) (f : Flag) (b : Bool) : (setFlag s f b).flags = s.flags.setFlag f b := rfl
@[simp] theorem setFlag_segs (s : State) (f : Flag) (b : Bool) : (setFlag s f b).segs = s.segs := rfl
@[simp] theorem setFlag_ldtr (s : State) (f : Flag) (b : Bool) : (setFlag s f b).ldtr = s.ldtr := rfl
@[simp] theorem setFlag_gdtr (s : State) (f : Flag) (b : Bool) : (setFlag s f b).gdtr = s.gdtr := rfl
@[simp] theorem setFlag_idtr (s : State) (f : Flag) (b : Bool) : (setFlag s f b).idtr = s.idtr := rfl
@[simp] theorem setFlag_ctl (s : State) (f : Flag) (b : Bool) : (setFlag s f b).ctl = s.ctl := rfl
@[simp] theorem setFlag_dbg (s : State) (f : Flag) (b : Bool) : (setFlag s f b).dbg = s.dbg := rfl
@[simp] theorem setFlag_cpl (s : State) (f : Flag) (b : Bool) : (setFlag s f b).cpl = s.cpl := rfl
@[simp] theorem setFlag_mem (s : State) (f : Flag) (b : Bool) : (setFlag s f b).mem = s.mem := rfl
@[simp] theorem setFlag_a20 (s : State) (f : Flag) (b : Bool) : (setFlag s f b).a20 = s.a20 := rfl
@[simp] theorem setFlag_vga (s : State) (f : Flag) (b : Bool) : (setFlag s f b).vga = s.vga := rfl
@[simp] theorem setFlag_sched (s : State) (f : Flag) (b : Bool) : (setFlag s f b).sched = s.sched := rfl
@[simp] theorem setFlag_inputs (s : State) (f : Flag) (b : Bool) : (setFlag s f b).inputs = s.inputs := rfl
@[simp] theorem setFlag_cfg (s : State) (f : Flag) (b : Bool) : (setFlag s f b).cfg = s.cfg := rfl
@[simp] theorem setFlag_freeCount (s : State) (f : Flag) (b : Bool) : (setFlag s f b).freeCount = s.freeCount := rfl

@[simp] theorem touchFlag_regs (s : State) (f : Flag) : (touchFlag s f).regs = s.regs := rfl
@[simp] theorem touchFlag_eip (s : State) (f : Flag) : (touchFlag s f).eip = s.eip := rfl
@[simp] theorem touchFlag_start (s : State) (f : Flag) : (touchFlag s f).start = s.start := rfl
@[simp] theorem touchFlag_flags (s : State) (f : Flag) : (touchFlag s f).flags = s.flags.evaluate f := rfl
@[simp] theorem touchFlag_segs (s : State) (f : Flag) : (touchFlag s f).segs = s.segs := rfl
@[simp] theorem touchFlag_ldtr (s : State) (f : Flag) : (touchFlag s f).ldtr = s.ldtr := rfl
@[simp] theorem touchFlag_gdtr (s : State) (f : Flag) : (touchFlag s f).gdtr = s.gdtr := rfl
@[simp] theorem touchFlag_idtr (s : State) (f : Flag) : (touchFlag s f).idtr = s.idtr := rfl
@[simp] theorem touchFlag_ctl (s : State) (f : Flag) : (touchFlag s f).ctl = s.ctl := rfl
@[simp] theorem touchFlag_dbg (s : State) (f : Flag) : (touchFlag s f).dbg = s.dbg := rfl
@[simp] theorem touchFlag_cpl (s : State) (f : Flag) : (touchFlag s f).cpl = s.cpl := rfl
@[simp] theorem touchFlag_mem (s : State) (f : Flag) : (touchFlag s f).mem = s.mem := rfl
@[simp] theorem touchFlag_a20 (s : State) (f : Flag) : (touchFlag s f).a20 = s.a20 := rfl
@[simp] theorem touchFlag_vga (s : State) (f : Flag) : (touchFlag s f).vga = s.vga := rfl
@[simp] theorem touchFlag_sched (s : State) (f : Flag) : (touchFlag s f).sched = s.sched := rfl
@[simp] theorem touchFlag_inputs (s : State) (f : Flag) : (touchFlag s f).inputs = s.inputs := rfl
@[simp] theorem touchFlag_cfg (s : State) (f : Flag) : (touchFlag s f).cfg = s.cfg := rfl
@[simp] theorem touchFlag_freeCount (s : State) (f : Flag) : (touchFlag s f).freeCount = s.freeCount := rfl

@[simp] theorem touchAllFlags_regs (s : State) : (touchAllFlags s).regs = s.regs := rfl
@[simp] theorem touchAllFlags_eip (s : State) : (touchAllFlags s).eip = s.eip := rfl
@[simp] theorem touchAllFlags_start (s : State) : (touchAllFlags s).start = s.start := rfl
@[simp] theorem touchAllFlags_flags (s : State) : (touchAllFlags s).flags = s.flags.evaluateAll := rfl
@[simp] theorem touchAllFlags_segs (s : State) : (touchAllFlags s).segs = s.segs := rfl
@[simp] theorem touchAllFlags_ldtr (s : State) : (touchAllFlags s).ldtr = s.ldtr := rfl
@[simp] theorem touchAllFlags_gdtr (s : State) : (touchAllFlags s).gdtr = s.gdtr := rfl
@[simp] theorem touchAllFlags_idtr (s : State) : (touchAllFlags s).idtr = s.idtr := rfl
@[simp] theorem touchAllFlags_ctl (s : State) : (touchAllFlags s).ctl = s.ctl := rfl
@[simp] theorem touchAllFlags_dbg (s : State) : (touchAllFlags s).dbg = s.dbg := rfl
@[simp] theorem touchAllFlags_cpl (s : State) : (touchAllFlags s).cpl = s.cpl := rfl
@[simp] theorem touchAllFlags_mem (s : State) : (touchAllFlags s).mem = s.mem := rfl
@[simp] theorem touchAllFlags_a20 (s : State) : (touchAllFlags s).a20 = s.a20 := rfl
@[simp] theorem touchAllFlags_vga (s : State) : (touchAllFlags s).vga = s.vga := rfl
@[simp] theorem touchAllFlags_sched (s : State) : (touchAllFlags s).sched = s.sched := rfl
@[simp] theorem touchAllFlags_inputs (s : State) : (touchAllFlags s).inputs = s.inputs := rfl
@[simp] theorem touchAllFlags_cfg (s : State) : (touchAllFlags s).cfg = s.cfg := rfl
@[simp] theorem touchAllFlags_freeCount (s : State) : (touchAllFlags s).freeCount = s.freeCount := rfl

@[simp] theorem lazyStore_regs (s : State) (k : FlagKind) (w : Width) (a b r : Word) : (lazyStore s k w a b r).regs = s.regs := rfl
@[simp] theorem lazyStore_eip (s : State) (k : FlagKind) (w : Width) (a b r : Word) : (lazyStore s k w a b r).eip = s.eip := rfl
@[simp] theorem lazyStore_start (s : State) (k : FlagKind) (w : Width) (a b r : Word) : (lazyStore s k w a b r).start = s.start := rfl
@[simp] theorem lazyStore_flags (s : State) (k : FlagKind) (w : Width) (a b r : Word) : (lazyStore s k w a b r).flags = s.flags.lazyStore k w a b r := rfl
@[simp] theorem lazyStore_segs (s : State) (k : FlagKind) (w : Width) (a b r : Word) : (lazyStore s k w a b r).segs = s.segs := rfl
@[simp] theorem lazyStore_ldtr (s : State) (k : FlagKind) (w : Width) (a b r : Word) : (lazyStore s k w a b r).ldtr = s.ldtr := rfl
@[simp] theorem lazyStore_gdtr (s : State) (k : FlagKind) (w : Width) (a b r : Word) : (lazyStore s k w a b r).gdtr = s.gdtr := rfl
@[simp] theorem lazyStore_idtr (s : State) (k : FlagKind) (w : Width) (a b r : Word) : (lazyStore s k w a b r).idtr = s.idtr := rfl
@[simp] theorem lazyStore_ctl (s : State) (k : FlagKind) (w : Width) (a b r : Word) : (lazyStore s k w a b r).ctl = s.ctl := rfl
@[simp] theorem lazyStore_dbg (s : State) (k : FlagKind) (w : Width) (a b r : Word) : (lazyStore s k w a b r).dbg = s.dbg := rfl
@[simp] theorem lazyStore_cpl (s : State) (k : FlagKind) (w : Width) (a b r : Word) : (lazyStore s k w a b r).cpl = s.cpl := rfl
@[simp] theorem lazyStore_mem (s : State) (k : FlagKind) (w : Width) (a b r : Word) : (lazyStore s k w a b r).mem = s.mem := rfl
@[simp] theorem lazyStore_a20 (s : State) (k : FlagKind) (w : Width) (a b r : Word) : (lazyStore s k w a b r).a20 = s.a20 := rfl
@[simp] theorem lazyStore_vga (s : State) (k : FlagKind) (w : Width) (a b r : Word) : (lazyStore s k w a b r).vga = s.vga := rfl
@[simp] theorem lazyStore_sched (s : State) (k : FlagKind) (w : Width) (a b r : Word) : (lazyStore s k w a b r).sched = s.sched := rfl
@[simp] theorem lazyStore_inputs (s : State) (k : FlagKind) (w : Width) (a b r : Word) : (lazyStore s k w a b r).inputs = s.inputs := rfl
@[simp] theorem lazyStore_cfg (s : State) (k : FlagKind) (w : Width) (a b r : Word) : (lazyStore s k w a b r).cfg = s.cfg := rfl
@[simp] theorem lazyStore_freeCount (s : State) (k : FlagKind) (w : Width) (a b r : Word) : (lazyStore s k w a b r).freeCount = s.freeCount := rfl

@[simp] theorem writeFlags_regs (s : State) (v m : Word) : (writeFlags s v m).regs = s.regs := rfl
@[simp] theorem writeFlags_eip (s : State) (v m : Word) : (writeFlags s v m).eip = s.eip := rfl
@[simp] theorem writeFlags_start (s : State) (v m : Word) : (writeFlags s v m).start = s.start := rfl
@[simp] theorem writeFlags_flags (s : State) (v m : Word) : (writeFlags s v m).flags = s.flags.writeFlags v m := rfl
@[simp] theorem writeFlags_segs (s : State) (v m : Word) : (writeFlags s v m).segs = s.segs := rfl
@[simp] theorem writeFlags_ldtr (s : State) (v m : Word) : (writeFlags s v m).ldtr = s.ldtr := rfl
@[simp] theorem writeFlags_gdtr (s : State) (v m : Word) : (writeFlags s v m).gdtr = s.gdtr := rfl
@[simp] theorem writeFlags_idtr (s : State) (v m : Word) : (writeFlags s v m).idtr = s.idtr := rfl
@[simp] theorem writeFlags_ctl (s : State) (v m : Word) : (writeFlags s v m).ctl = s.ctl := rfl
@[simp] theorem writeFlags_dbg (s : State) (v m : Word) : (writeFlags s v m).dbg = s.dbg := rfl
@[simp] theorem writeFlags_cpl (s : State) (v m : Word) : (writeFlags s v m).cpl = s.cpl := rfl
@[simp] theorem writeFlags_mem (s : State) (v m : Word) : (writeFlags s v m).mem = s.mem := rfl
@[simp] theorem writeFlags_a20 (s : State) (v m : Word) : (writeFlags s v m).a20 = s.a20 := rfl
@[simp] theorem writeFlags_vga (s : State) (v m : Word) : (writeFlags s v m).vga = s.vga := rfl
@[simp] theorem writeFlags_sched (s : State) (v m : Word) : (writeFlags s v m).sched = s.sched := rfl
@[simp] theorem writeFlags_inputs (s : State) (v m : Word) : (writeFlags s v m).inputs = s.inputs := rfl
@[simp] theorem writeFlags_cfg (s : State) (v m : Word) : (writeFlags s v m).cfg = s.cfg := rfl
@[simp] theorem writeFlags_freeCount (s : State) (v m : Word) : (writeFlags s v m).freeCount = s.freeCount := rfl

@[simp] theorem setPlainFlag_regs (s : State) (i : Nat) (b : Bool) : (setPlainFlag s i b).regs = s.regs := rfl
@[simp] theorem setPlainFlag_eip (s : State) (i : Nat) (b : Bool) : (setPlainFlag s i b).eip = s.eip := rfl
@[simp] theorem setPlainFlag_start (s : State) (i : Nat) (b : Bool) : (setPlainFlag s i b).start = s.start := rfl
@[simp] theorem setPlainFlag_flags (s : State) (i : Nat) (b : Bool) : (setPlainFlag s i b).flags = s.flags.setPlain i b := rfl
@[simp] theorem setPlainFlag_segs (s : State) (i : Nat) (b : Bool) : (setPlainFlag s i b).segs = s.segs := rfl
@[simp] theorem setPlainFlag_ldtr (s : State) (i : Nat) (b : Bool) : (setPlainFlag s i b).ldtr = s.ldtr := rfl
@[simp] theorem setPlainFlag_gdtr (s : State) (i : Nat) (b : Bool) : (setPlainFlag s i b).gdtr = s.gdtr := rfl
@[simp] theorem setPlainFlag_idtr (s : State) (i : Nat) (b : Bool) : (setPlainFlag s i b).idtr = s.idtr := rfl
@[simp] theorem setPlainFlag_ctl (s : State) (i : Nat) (b : Bool) : (setPlainFlag s i b).ctl = s.ctl := rfl
@[simp] theorem setPlainFlag_dbg (s : State) (i : Nat) (b : Bool) : (setPlainFlag s i b).dbg = s.dbg := rfl
@[simp] theorem setPlainFlag_cpl (s : State) (i : Nat) (b : Bool) : (setPlainFlag s i b).cpl = s.cpl := rfl
@[simp] theorem setPlainFlag_mem (s : State) (i : Nat) (b : Bool) : (setPlainFlag s i b).mem = s.mem := rfl
@[simp] theorem setPlainFlag_a20 (s : State) (i : Nat) (b : Bool) : (setPlainFlag s i b).a20 = s.a20 := rfl
@[simp] theorem setPlainFlag_vga (s : State) (i : Nat) (b : Bool) : (setPlainFlag s i b).vga = s.vga := rfl
@[simp] theorem setPlainFlag_sched (s : State) (i : Nat) (b : Bool) : (setPlainFlag s i b).sched = s.sched := rfl
@[simp] theorem setPlainFlag_inputs (s : State) (i : Nat) (b : Bool) : (setPlainFlag s i b).inputs = s.inputs := rfl
@[simp] theorem setPlainFlag_cfg (s : State) (i : Nat) (b : Bool) : (setPlainFlag s i b).cfg = s.cfg := rfl
@[simp] theorem setPlainFlag_freeCount (s : State) (i : Nat) (b : Bool) : (setPlainFlag s i b).freeCount = s.freeCount := rfl

@[simp] theorem vgaRecord_regs (s : State) (v : Vga) (c : VgaCall) : (vgaRecord s v c).regs = s.regs := rfl
@[simp] theorem vgaRecord_eip (s : State) (v : Vga) (c : VgaCall) : (vgaRecord s v c).eip = s.eip := rfl
@[simp] theorem vgaRecord_start (s : State) (v : Vga) (c : VgaCall) : (vgaRecord s v c).start = s.start := rfl
@[simp] theorem vgaRecord_flags (s : State) (v : Vga) (c : VgaCall) : (vgaRecord s v c).flags = s.flags := rfl
@[simp] theorem vgaRecord_segs (s : State) (v : Vga) (c : VgaCall) : (vgaRecord s v c).segs = s.segs := rfl
@[simp] theorem vgaRecord_ldtr (s : State) (v : Vga) (c : VgaCall) : (vgaRecord s v c).ldtr = s.ldtr := rfl
@[simp] theorem vgaRecord_gdtr (s : State) (v : Vga) (c : VgaCall) : (vgaRecord s v c).gdtr = s.gdtr := rfl
@[simp] theorem vgaRecord_idtr (s : State) (v : Vga) (c : VgaCall) : (vgaRecord s v c).idtr = s.idtr := rfl
@[simp] theorem vgaRecord_ctl (s : State) (v : Vga) (c : VgaCall) : (vgaRecord s v c).ctl = s.ctl := rfl
@[simp] theorem vgaRecord_dbg (s : State) (v : Vga) (c : VgaCall) : (vgaRecord s v c).dbg = s.dbg := rfl
@[simp] theorem vgaRecord_cpl (s : State) (v : Vga) (c : VgaCall) : (vgaRecord s v c).cpl = s.cpl := rfl
@[simp] theorem vgaRecord_mem (s : State) (v : Vga) (c : VgaCall) : (vgaRecord s v c).mem = s.mem := rfl
@[simp] theorem vgaRecord_a20 (s : State) (v : Vga) (c : VgaCall) : (vgaRecord s v c).a20 = s.a20 := rfl
@[simp] theorem vgaRecord_vga (s : State) (v : Vga) (c : VgaCall) : (vgaRecord s v c).vga = { v with log := v.log ++ [c] } := rfl
@[simp] theorem vgaRecord_sched (s : State) (v : Vga) (c : VgaCall) : (vgaRecord s v c).sched = s.sched := rfl
@[simp] theorem vgaRecord_inputs (s : State) (v : Vga) (c : VgaCall) : (vgaRecord s v c).inputs = s.inputs := rfl
@[simp] theorem vgaRecord_cfg (s : State) (v : Vga) (c : VgaCall) : (vgaRecord s v c).cfg = s.cfg := rfl
@[simp] theorem vgaRecord_freeCount (s : State) (v : Vga) (c : VgaCall) : (vgaRecord s v c).freeCount = s.freeCount := rfl

@[simp] theorem setRunState_regs (s : State) (r : RunState) : (setRunState s r).regs = s.regs := rfl
@[simp] theorem setRunState_eip (s : State) (r : RunState) : (setRunState s r).eip = s.eip := rfl
@[simp] theorem setRunState_start (s : State) (r : RunState) : (setRunState s r).start = s.start := rfl
@[simp] theorem setRunState_flags (s : State) (r : RunState) : (setRunState s r).flags = s.flags := rfl
@[simp] theorem setRunState_segs (s : State) (r : RunState) : (setRunState s r).segs = s.segs := rfl
@[simp] theorem setRunState_ldtr (s : State) (r : RunState) : (setRunState s r).ldtr = s.ldtr := rfl
@[simp] theorem setRunState_gdtr (s : State) (r : RunState) : (setRunState s r).gdtr = s.gdtr := rfl
@[simp] theorem setRunState_idtr (s : State) (r : RunState) : (setRunState s r).idtr = s.idtr := rfl
@[simp] theorem setRunState_ctl (s : State) (r : RunState) : (setRunState s r).ctl = s.ctl := rfl
@[simp] theorem setRunState_dbg (s : State) (r : RunState) : (setRunState s r).dbg = s.dbg := rfl
@[simp] theorem setRunState_cpl (s : State) (r : RunState) : (setRunState s r).cpl = s.cpl := rfl
@[simp] theorem setRunState_mem (s : State) (r : RunState) : (setRunState s r).mem = s.mem := rfl
@[simp] theorem setRunState_a20 (s : State) (r : RunState) : (setRunState s r).a20 = s.a20 := rfl
@[simp] theorem setRunState_vga (s : State) (r : RunState) : (setRunState s r).vga = s.vga := rfl
@[simp] theorem setRunState_sched (s : State) (r : RunState) : (setRunState s r).sched = { s.sched with runState := r } := rfl
@[simp] theorem setRunState_inputs (s : State) (r : RunState) : (setRunState s r).inputs = s.inputs := rfl
@[simp] theorem setRunState_cfg (s : State) (r : RunState) : (setRunState s r).cfg = s.cfg := rfl
@[simp] theorem setRunState_freeCount (s : State) (r : RunState) : (setRunState s r).freeCount = s.freeCount := rfl

@[simp] theorem setSliceCount_regs (s : State) (n : Nat) : (setSliceCount s n).regs = s.regs := rfl
@[simp] theorem setSliceCount_eip (s : State) (n : Nat) : (setSliceCount s n).eip = s.eip := rfl
@[simp] theorem setSliceCount_start (s : State) (n : Nat) : (setSliceCount s n).start = s.start := rfl
@[simp] theorem setSliceCount_flags (s : State) (n : Nat) : (setSliceCount s n).flags = s.flags := rfl
@[simp] theorem setSliceCount_segs (s : State) (n : Nat) : (setSliceCount s n).segs = s.segs := rfl
@[simp] theorem setSliceCount_ldtr (s : State) (n : Nat) : (setSliceCount s n).ldtr = s.ldtr := rfl
@[simp] theorem setSliceCount_gdtr (s : State) (n : Nat) : (setSliceCount s n).gdtr = s.gdtr := rfl
@[simp] theorem setSliceCount_idtr (s : State) (n : Nat) : (setSliceCount s n).idtr = s.idtr := rfl
@[simp] theorem setSliceCount_ctl (s : State) (n : Nat) : (setSliceCount s n).ctl = s.ctl := rfl
@[simp] theorem setSliceCount_dbg (s : State) (n : Nat) : (setSliceCount s n).dbg = s.dbg := rfl
@[simp] theorem setSliceCount_cpl (s : State) (n : Nat) : (setSliceCount s n).cpl = s.cpl := rfl
@[simp] theorem setSliceCount_mem (s : State) (n : Nat) : (setSliceCount s n).mem = s.mem := rfl
@[simp] theorem setSliceCount_a20 (s : State) (n : Nat) : (setSliceCount s n).a20 = s.a20 := rfl
@[simp] theorem setSliceCount_vga (s : State) (n : Nat) : (setSliceCount s n).vga = s.vga := rfl
@[simp] theorem setSliceCount_sched (s : State) (n : Nat) : (setSliceCount s n).sched = { s.sched with sliceCount := n } := rfl
@[simp] theorem setSliceCount_inputs (s : State) (n : Nat) : (setSliceCount s n).inputs = s.inputs := rfl
@[simp] theorem setSliceCount_cfg (s : State) (n : Nat) : (setSliceCount s n).cfg = s.cfg := rfl
@[simp] theorem setSliceCount_freeCount (s : State) (n : Nat) : (setSliceCount s n).freeCount = s.freeCount := rfl

@[simp] theorem clearPause_regs (s : State) : (clearPause s).regs = s.regs := rfl
@[simp] theorem clearPause_eip (s : State) : (clearPause s).eip = s.eip := rfl
@[simp] theorem clearPause_start (s : State) : (clearPause s).start = s.start := rfl
@[simp] theorem clearPause_flags (s : State) : (clearPause s).flags = s.flags := rfl
@[simp] theorem clearPause_segs (s : State) : (clearPause s).segs = s.segs := rfl
@[simp] theorem clearPause_ldtr (s : State) : (clearPause s).ldtr = s.ldtr := rfl
@[simp] theorem clearPause_gdtr (s : State) : (clearPause s).gdtr = s.gdtr := rfl
@[simp] theorem clearPause_idtr (s : State) : (clearPause s).idtr = s.idtr := rfl
@[simp] theorem clearPause_ctl (s : State) : (clearPause s).ctl = s.ctl := rfl
@[simp] theorem clearPause_dbg (s : State) : (clearPause s).dbg = s.dbg := rfl
@[simp] theorem clearPause_cpl (s : State) : (clearPause s).cpl = s.cpl := rfl
@[simp] theorem clearPause_mem (s : State) : (clearPause s).mem = s.mem := rfl
@[simp] theorem clearPause_a20 (s : State) : (clearPause s).a20 = s.a20 := rfl
@[simp] theorem clearPause_vga (s : State) : (clearPause s).vga = s.vga := rfl
@[simp] theorem clearPause_sched (s : State) : (clearPause s).sched = s.sched := rfl
@[simp] theorem clearPause_inputs (s : State) : (clearPause s).inputs = { s.inputs with pauseReq := false } := rfl
@[simp] theorem clearPause_cfg (s : State) : (clearPause s).cfg = s.cfg := rfl
@[simp] theorem clearPause_freeCount (s : State) : (clearPause s).freeCount = s.freeCount := rfl

/-! ### Reads of the register files after a write -/

@[simp] theorem getSeg_setSeg_same (s : State) (r : SegReg) (v : SegRegister) : getSeg (setSeg s r v) r = v := by
  cases r <;> rfl

theorem getSeg_setSeg_other (s : State) (r q : SegReg) (v : SegRegister) (h : q ≠ r) :
    getSeg (setSeg s r v) q = getSeg s q := by
  cases r <;> cases q <;> first | rfl | exact absurd rfl h

@[simp] theorem regs_get_set_same (g : Regs) (r : Reg) (v : Word) : (g.set r v).get r = v := by
  cases r <;> rfl

theorem regs_get_set_other (g : Regs) (r q : Reg) (v : Word) (h : q ≠ r) : (g.set r v).get q = g.get q := by
  cases r <;> cases q <;> first | rfl | exact absurd rfl h

/-- A write of width `w` to register `r` changes one 32-bit register (10_state R24). -/
theorem reg32_setReg_other (s : State) (w : Width) (r q : Reg) (v : Word) (h : q ≠ regHome w r) :
    reg32 (setReg s w r v) q = reg32 s q := regs_get_set_other _ _ _ _ h

@[simp] theorem reg32_setReg_home (s : State) (w : Width) (r : Reg) (v : Word) :
    reg32 (setReg s w r v) (regHome w r) = writeReg32 w (isHighByte r) (reg32 s (regHome w r)) v :=
  regs_get_set_same _ _ _

@[simp] theorem ctl_get_set_same (g : CtlRegs) (r : CtlReg) (v : Word) : (g.set r v).get r = v := by
  cases r <;> rfl

theorem ctl_get_set_other (g : CtlRegs) (r q : CtlReg) (v : Word) (h : q ≠ r) : (g.set r v).get q = g.get q := by
  cases r <;> cases q <;> first | rfl | exact absurd rfl h

@[simp] theorem dbg_get_set_same (g : DbgRegs) (r : DbgReg) (v : Word) : (g.set r v).get r = v := by
  cases r <;> rfl

theorem dbg_get_set_other (g : DbgRegs) (r q : DbgReg) (v : Word) (h : q ≠ r) : (g.set r v).get q = g.get q := by
  cases r <;> cases q <;> first | rfl | exact absurd rfl h

/-- Functions of the state that read few fields: equal fields give equal values. -/
theorem getSeg_congr (s t : State) (h : t.segs = s.segs) (r : SegReg) : getSeg t r = getSeg s r := by
  simp [getSeg, h]

theorem reg32_congr (s t : State) (h : t.regs = s.regs) (r : Reg) : reg32 t r = reg32 s r := by
  simp [reg32, h]

theorem getReg_congr (s t : State) (h : t.regs = s.regs) (w : Width) (r : Reg) : getReg t w r = getReg s w r := by
  cases w <;> simp [getReg, reg32, h]

theorem flagOf_congr (s t : State) (h : t.flags = s.flags) (f : Flag) : flagOf t f = flagOf s f := by
  simp [flagOf, h]

theorem effAddr_congr (s t : State) (h : t.regs = s.regs) (m : MemRef) (n : Nat) : effAddr t m n = effAddr s m n := by
  cases m with
  | base16 b d => cases b <;> simp [effAddr, base16Value, getReg, reg32, h]
  | base32 r d => simp [effAddr, reg32, h]
  | abs16 d => rfl
  | abs32 d => rfl

theorem stackBig_congr (s t : State) (g : t.segs = s.segs) : stackBig t = stackBig s := by
  simp [stackBig, getSeg, g]

theorem stackPtr_congr (s t : State) (h : t.regs = s.regs) (g : t.segs = s.segs) : stackPtr t = stackPtr s := by
  unfold stackPtr
  rw [stackBig_congr s t g, reg32_congr s t h, getReg_congr s t h]

theorem wrapSp_congr (s t : State) (g : t.segs = s.segs) (v : Word) : wrapSp t v = wrapSp s v := by
  unfold wrapSp
  rw [stackBig_congr s t g]

theorem slotBelow_congr (s t : State) (h : t.regs = s.regs) (g : t.segs = s.segs) (k : Nat) :
    slotBelow t k = slotBelow s k := by
  unfold slotBelow
  rw [wrapSp_congr s t g, stackPtr_congr s t h g]

theorem slotAbove_congr (s t : State) (h : t.regs = s.regs) (g : t.segs = s.segs) (k : Nat) :
    slotAbove t k = slotAbove s k := by
  unfold slotAbove
  rw [wrapSp_congr s t g, stackPtr_congr s t h g]

/-- The physical map reads A20, the size of DRAM and whether the device is registered, nothing else (20_memory R72 to R75). -/
theorem mapPhysical_congr (s t : State) (h1 : t.a20 = s.a20) (h2 : t.cfg = s.cfg)
    (h3 : t.vga.registered = s.vga.registered) (a : Word) (w : Width) : mapPhysical t a w = mapPhysical s a w := by
  simp [mapPhysical, h1, h2, h3]

theorem canAccessLinear_congr (s t : State) (h1 : t.a20 = s.a20) (h2 : t.cfg = s.cfg)
    (h3 : t.vga.registered = s.vga.registered) (h4 : t.ctl = s.ctl) (a : Word) (w : Width) :
    canAccessLinear t a w ↔ canAccessLinear s a w := by
  simp [canAccessLinear, pg, h4, mapPhysical_congr s t h1 h2 h3]

theorem canAccess_congr (s t : State) (h1 : t.a20 = s.a20) (h2 : t.cfg = s.cfg)
    (h3 : t.vga.registered = s.vga.registered) (h4 : t.ctl = s.ctl) (h5 : t.segs = s.segs) (r : SegReg) (off : Word)
    (w : Width) : canAccess t r off w ↔ canAccess s r off w := by
  simp [canAccess, linearOf, getSeg, h5, canAccessLinear_congr s t h1 h2 h3 h4]

theorem bufferHome_congr (s t : State) (h1 : t.a20 = s.a20) (h2 : t.cfg = s.cfg)
    (h3 : t.vga.registered = s.vga.registered) (a : Word) (w : Width) : bufferHome t a w = bufferHome s a w := by
  simp [bufferHome, mapPhysical_congr s t h1 h2 h3]

theorem storeHome_congr (s t : State) (h1 : t.a20 = s.a20) (h2 : t.cfg = s.cfg)
    (h3 : t.vga.registered = s.vga.registered) (h5 : t.segs = s.segs) (r : SegReg) (off : Word) (w : Width) :
    storeHome t r off w = storeHome s r off w := by
  simp [storeHome, linearOf, getSeg, h5, bufferHome_congr s t h1 h2 h3]

end Sys2Proof.Machine
end

