-- ==== Sys2Proof/Laws/Memory.lean ====
section
/-! SUPPORT. The byte list: a write changes one byte, a read after a write gives the byte written, and every operation keeps
the canonical form. -/

namespace Sys2Proof.Machine

/-! ### One byte -/

/-- A write leaves every other address alone, whatever the list. -/
theorem mem_read_write_other (m : List Host.Cell) (a x : Nat) (v : Byte) (h : x ≠ a) :
    Mem.read (Mem.write m a v) x = Mem.read m x := by
  induction m with
  | nil => simp [Mem.write, Mem.read, Ne.symm h]
  | cons c m ih =>
    obtain ⟨k, y⟩ := c
    simp only [Mem.write]
    split
    · simp [Mem.read, Ne.symm h]
    · split
      · rename_i hk
        subst hk
        simp [Mem.read, Ne.symm h]
      · simp only [Mem.read, ih]

/-- A read after a write to the same address gives the byte written, whatever the list. -/
theorem mem_read_write_same (m : List Host.Cell) (a : Nat) (v : Byte) : Mem.read (Mem.write m a v) a = v := by
  induction m with
  | nil => simp [Mem.write, Mem.read]
  | cons c m ih =>
    obtain ⟨k, y⟩ := c
    simp only [Mem.write]
    split
    · simp [Mem.read]
    · split
      · simp [Mem.read]
      · rename_i h2
        simp only [Mem.read, Ne.symm h2, if_false, ih]

theorem mem_write_wf_above (m : List Host.Cell) (b : Option Nat) (a : Nat) (v : Byte) (h : Mem.wfAbove b m = true)
    (hb : ∀ x, b = some x → x < a) : Mem.wfAbove b (Mem.write m a v) = true := by
  induction m generalizing b with
  | nil =>
    cases b with
    | none => simp [Mem.write, Mem.wfAbove]
    | some x => simp [Mem.write, Mem.wfAbove, hb x rfl]
  | cons c m ih =>
    obtain ⟨k, y⟩ := c
    simp only [Mem.wfAbove, Bool.and_eq_true] at h
    simp only [Mem.write]
    split
    · rename_i hak
      cases b with
      | none => simp [Mem.wfAbove, hak, h.2]
      | some x => simp [Mem.wfAbove, hak, h.2, hb x rfl]
    · split
      · rename_i hak
        subst hak
        simp only [Mem.wfAbove, Bool.and_eq_true]
        exact h
      · simp only [Mem.wfAbove, Bool.and_eq_true]
        exact ⟨h.1, ih (some k) h.2 (fun x e => by cases e; omega)⟩

/-- A write keeps the canonical form. -/
theorem mem_write_wf (m : List Host.Cell) (a : Nat) (v : Byte) (h : Memory.wf m = true) :
    Memory.wf (Mem.write m a v) = true :=
  mem_write_wf_above m none a v h (fun _ e => by cases e)

/-! ### Equal memories are equal data -/

/-- The byte something has written at an address, if anything has. -/
def Mem.listed : List Host.Cell → Nat → Option Byte
  | [], _ => none
  | (k, v) :: m, a => if k = a then some v else Mem.listed m a

/-- A listed byte reads as listed, an unlisted one as the free value of its address. -/
theorem mem_read_listed (m : List Host.Cell) (a : Nat) : Mem.read m a = (Mem.listed m a).getD (unlistedByte a) := by
  induction m with
  | nil => rfl
  | cons c m ih =>
    obtain ⟨k, y⟩ := c
    by_cases h : k = a <;> simp [Mem.read, Mem.listed, h, ih]

theorem mem_listed_below (m : List Host.Cell) (b a : Nat) (h : Mem.wfAbove (some b) m = true) (ha : a ≤ b) :
    Mem.listed m a = none := by
  induction m generalizing b with
  | nil => rfl
  | cons c m ih =>
    obtain ⟨k, y⟩ := c
    simp only [Mem.wfAbove, Bool.and_eq_true, decide_eq_true_eq] at h
    have : k ≠ a := by omega
    simp only [Mem.listed, this, if_false]
    exact ih k h.2 (by omega)

theorem mem_ext_above (m n : List Host.Cell) (b c : Option Nat) (hm : Mem.wfAbove b m = true) (hn : Mem.wfAbove c n = true)
    (h : ∀ a, Mem.listed m a = Mem.listed n a) : m = n := by
  induction m generalizing n b c with
  | nil =>
    cases n with
    | nil => rfl
    | cons x n => simpa [Mem.listed] using h x.1
  | cons x m ih =>
    obtain ⟨k, y⟩ := x
    cases n with
    | nil => simpa [Mem.listed] using h k
    | cons z n =>
      obtain ⟨j, w⟩ := z
      simp only [Mem.wfAbove, Bool.and_eq_true] at hm hn
      have hk := h k
      have hj := h j
      simp only [Mem.listed, if_true] at hk hj
      have e : j = k := by
        by_contra ne
        rw [if_neg ne] at hk
        rw [if_neg (Ne.symm ne)] at hj
        rcases Nat.lt_or_gt_of_ne ne with l | l
        · rw [mem_listed_below m k j hm.2 (Nat.le_of_lt l)] at hj
          cases hj
        · rw [mem_listed_below n j k hn.2 (Nat.le_of_lt l)] at hk
          cases hk
      subst e
      have : y = w := by simpa using hk
      subst this
      rw [ih n (some j) (some j) hm.2 hn.2 fun a => ?_]
      by_cases ha : j = a
      · subst ha
        rw [mem_listed_below m j j hm.2 (Nat.le_refl j), mem_listed_below n j j hn.2 (Nat.le_refl j)]
      · have := h a
        simpa [Mem.listed, ha] using this

/-- Two memories of canonical form that list the same byte at every address are the same list. -/
theorem mem_ext (m n : List Host.Cell) (hm : Memory.wf m = true) (hn : Memory.wf n = true)
    (h : ∀ a, Mem.listed m a = Mem.listed n a) : m = n := mem_ext_above m n none none hm hn h

/-! ### Wider accesses -/

theorem storeBytes_wf (m : List Host.Cell) (a : Nat) (w : Width) (v : Word) (h : Memory.wf m = true) :
    Memory.wf (storeBytes m a w v) = true := by
  cases w with
  | byte => exact mem_write_wf _ _ _ h
  | word => exact mem_write_wf _ _ _ (mem_write_wf _ _ _ h)
  | dword => exact mem_write_wf _ _ _ (mem_write_wf _ _ _ (mem_write_wf _ _ _ (mem_write_wf _ _ _ h)))

/-- A store leaves every byte outside it alone. -/
theorem read_storeBytes_outside (m : List Host.Cell) (a x : Nat) (w : Width) (v : Word) (h : x < a ∨ a + w.bytes ≤ x) :
    Mem.read (storeBytes m a w v) x = Mem.read m x := by
  cases w with
  | byte =>
    simp only [Width.bytes] at h
    exact mem_read_write_other _ _ _ _ (by omega)
  | word =>
    simp only [Width.bytes] at h
    simp only [storeBytes]
    rw [mem_read_write_other _ _ _ _ (by omega), mem_read_write_other _ _ _ _ (by omega)]
  | dword =>
    simp only [Width.bytes] at h
    simp only [storeBytes]
    rw [mem_read_write_other _ _ _ _ (by omega), mem_read_write_other _ _ _ _ (by omega),
      mem_read_write_other _ _ _ _ (by omega), mem_read_write_other _ _ _ _ (by omega)]

/-- Byte `i` of a store is byte `i` of the value. -/
theorem read_storeBytes_inside (m : List Host.Cell) (a i : Nat) (w : Width) (v : Word) (hi : i < w.bytes) : Mem.read (storeBytes m a w v) (a + i) = byteOf v i := by
  cases w with
  | byte =>
    simp only [Width.bytes] at hi
    have : i = 0 := by omega
    subst this
    exact mem_read_write_same _ _ _
  | word =>
    simp only [Width.bytes] at hi
    have : i = 0 ∨ i = 1 := by omega
    rcases this with rfl | rfl
    · simp only [storeBytes, Nat.add_zero]
      rw [mem_read_write_other _ _ _ _ (by omega), mem_read_write_same _ _ _]
    · exact mem_read_write_same _ _ _
  | dword =>
    simp only [Width.bytes] at hi
    have : i = 0 ∨ i = 1 ∨ i = 2 ∨ i = 3 := by omega
    simp only [storeBytes]
    rcases this with rfl | rfl | rfl | rfl
    · simp only [Nat.add_zero]
      rw [mem_read_write_other _ _ _ _ (by omega), mem_read_write_other _ _ _ _ (by omega),
        mem_read_write_other _ _ _ _ (by omega), mem_read_write_same _ _ _]
    · rw [mem_read_write_other _ _ _ _ (by omega), mem_read_write_other _ _ _ _ (by omega),
        mem_read_write_same _ _ _]
    · rw [mem_read_write_other _ _ _ _ (by omega), mem_read_write_same _ _ _]
    · rw [mem_read_write_same _ _ _]

theorem wordOfBytes_byteOf (w : Width) (v : Word) :
    wordOfBytes (match w with
      | .byte => [byteOf v 0]
      | .word => [byteOf v 0, byteOf v 1]
      | .dword => [byteOf v 0, byteOf v 1, byteOf v 2, byteOf v 3]) = trunc w v := by
  cases w <;>
  · simp only [wordOfBytes, byteOf, trunc]
    ext i hi
    simp only [BitVec.getElem_or, BitVec.getElem_shiftLeft, BitVec.getElem_setWidth, BitVec.getElem_and,
      BitVec.getLsbD_extractLsb']
    interval_cases i <;> simp [BitVec.getLsbD_eq_getElem]

/-- A load after a store of the same width gives the value truncated to the width (20_memory R76, R77). -/
theorem loadBytes_storeBytes (m : List Host.Cell) (a : Nat) (w : Width) (v : Word) :
    loadBytes (storeBytes m a w v) a w = trunc w v := by
  have key := fun i hi => read_storeBytes_inside m a i w v hi
  rw [← wordOfBytes_byteOf w v]
  cases w with
  | byte => simpa [loadBytes] using congrArg (fun b => wordOfBytes [b]) (key 0 (by decide))
  | word =>
    have k0 := key 0 (by decide)
    have k1 := key 1 (by decide)
    rw [Nat.add_zero] at k0
    simp only [loadBytes, k0, k1]
  | dword =>
    have k0 := key 0 (by decide)
    have k1 := key 1 (by decide)
    have k2 := key 2 (by decide)
    have k3 := key 3 (by decide)
    rw [Nat.add_zero] at k0
    simp only [loadBytes, k0, k1, k2, k3]

/-! ### Widths -/

theorem width_bytes_pos (w : Width) : 1 ≤ w.bytes ∧ w.bytes ≤ 4 := by cases w <;> decide

/-- `trunc_N` is below 2^N (00_scope R13). -/
theorem trunc_lt (w : Width) (v : Word) : (trunc w v).toNat < 2 ^ w.bits := by
  cases w with
  | byte =>
    show (v &&& 0xFF).toNat < 2 ^ 8
    rw [BitVec.toNat_and]
    exact Nat.and_lt_two_pow _ (by decide)
  | word =>
    show (v &&& 0xFFFF).toNat < 2 ^ 16
    rw [BitVec.toNat_and]
    exact Nat.and_lt_two_pow _ (by decide)
  | dword => exact v.isLt

/-- `trunc_N` is the remainder modulo 2^N. -/
theorem toNat_trunc (w : Width) (v : Word) : (trunc w v).toNat = v.toNat % 2 ^ w.bits := by
  cases w with
  | byte =>
    show (v &&& 0xFF).toNat = _
    rw [BitVec.toNat_and]
    exact Nat.and_two_pow_sub_one_eq_mod v.toNat 8
  | word =>
    show (v &&& 0xFFFF).toNat = _
    rw [BitVec.toNat_and]
    exact Nat.and_two_pow_sub_one_eq_mod v.toNat 16
  | dword => exact (Nat.mod_eq_of_lt v.isLt).symm

theorem trunc_of_lt (w : Width) (v : Word) (h : v.toNat < 2 ^ w.bits) : trunc w v = v :=
  BitVec.eq_of_toNat_eq ((toNat_trunc w v).trans (Nat.mod_eq_of_lt h))

@[simp] theorem trunc_trunc (w : Width) (v : Word) : trunc w (trunc w v) = trunc w v :=
  trunc_of_lt w _ (trunc_lt w v)

/-- A load of `n` bytes is below 2^(8n) (20_memory R76). -/
theorem loadBytes_lt (m : List Host.Cell) (a : Nat) (w : Width) : (loadBytes m a w).toNat < 2 ^ w.bits := by
  cases w with
  | byte =>
    simp only [loadBytes, wordOfBytes, Width.bits]
    generalize Mem.read m a = x
    have := x.isLt
    simp
    omega
  | word =>
    simp only [loadBytes, wordOfBytes, Width.bits]
    generalize Mem.read m a = x
    generalize Mem.read m (a + 1) = y
    have hx := x.isLt
    have hy := y.isLt
    simp only [BitVec.toNat_or, BitVec.toNat_shiftLeft, BitVec.toNat_setWidth]
    apply Nat.or_lt_two_pow
    · omega
    · simp
      omega
  | dword => exact (loadBytes m a .dword).isLt

/-! ### The regions (20_memory R73) -/

theorem classify_bios (d a : Nat) (h : Config.biosTopBase ≤ a) (hd : d ≤ Config.biosTopBase) :
    classify d a = some .biosTop := by
  unfold Config.biosTopBase at h hd
  unfold classify Config.vgaBase Config.vgaEnd Config.romBase Config.romEnd Config.biosTopBase
  split_ifs <;> first | rfl | omega

theorem classify_rom (d a : Nat) (h : Config.romBase ≤ a) (hd : a ≤ Config.romEnd) : classify d a = some .rom := by
  unfold Config.romBase at h
  unfold Config.romEnd at hd
  unfold classify Config.vgaBase Config.vgaEnd Config.romBase Config.romEnd Config.biosTopBase
  split_ifs <;> first | rfl | omega

/-- Reset memory is canonical: it lists nothing. -/
theorem reset_memory_wf : Memory.wf State.reset.mem = true := rfl

end Sys2Proof.Machine
end

