-- ==== Sys2Proof/Laws/Access.lean ====
section
/-! SUPPORT. What a memory access can do: one lemma for each of `memRead`, `memWrite`, `segRead`, `segWrite`, the operand
accessors and the stack operations, in the two directions callers need (what an answer says; when there is an answer). -/

namespace Sys2Proof.Machine

@[simp] theorem andThen_ok {α β : Type} (x : α) (s : State) (f : α → State → Res β) :
    (Res.ok x s).andThen f = f x s := rfl

@[simp] theorem andThen_raised {α β : Type} (e : Exc) (s : State) (f : α → State → Res β) :
    (Res.raised e s : Res α).andThen f = .raised e s := rfl

@[simp] theorem andThen_aborted {α β : Type} (k : AbortInfo) (s : State) (f : α → State → Res β) :
    (Res.aborted k s : Res α).andThen f = .aborted k s := rfl

/-- What a continued computation that ends normally says of its two parts. -/
theorem andThen_eq_ok {α β : Type} {r : Res α} {f : α → State → Res β} {y : β} {t : State}
    (h : r.andThen f = .ok y t) : ∃ x s, r = .ok x s ∧ f x s = .ok y t := by
  cases r with
  | ok x s => exact ⟨x, s, rfl, h⟩
  | raised e s => cases h
  | aborted k s => cases h

@[simp] theorem complete_ok (x : Unit) (s : State) : complete (.ok x s) = .next s := rfl

@[simp] theorem complete_raised (e : Exc) (s : State) : complete (.raised e s) = .next (takeException s e) := rfl

@[simp] theorem complete_aborted (k : AbortInfo) (s : State) : complete (.aborted k s) = .next (abortState s k) := rfl

/-! ### Two relations between the states around an access -/

/-- A read changes nothing but the device's record. -/
structure DeviceOnly (s t : State) : Prop where
  eq : t = { s with vga := t.vga }
  registered : t.vga.registered = s.vga.registered

/-- The byte list after a store at `home`; none when the device took it. -/
def storeAt (m : List Host.Cell) (home : Option Nat) (w : Width) (v : Word) : List Host.Cell :=
  match home with
  | none => m
  | some b => storeBytes m b w v

/-- A write changes nothing but the device's record and the bytes from `home`. -/
structure Stored (s t : State) (home : Option Nat) (w : Width) (v : Word) : Prop where
  eq : t = { s with vga := t.vga, mem := t.mem }
  registered : t.vga.registered = s.vga.registered
  mem : t.mem = storeAt s.mem home w v

theorem DeviceOnly.refl (s : State) : DeviceOnly s s := ⟨rfl, rfl⟩

theorem DeviceOnly.trans {s t u : State} (h : DeviceOnly s t) (g : DeviceOnly t u) : DeviceOnly s u := by
  refine ⟨?_, g.registered.trans h.registered⟩
  rw [g.eq, h.eq]

section
variable {s t : State}
theorem DeviceOnly.regs (h : DeviceOnly s t) : t.regs = s.regs := by rw [h.eq]
theorem DeviceOnly.eip (h : DeviceOnly s t) : t.eip = s.eip := by rw [h.eq]
theorem DeviceOnly.start (h : DeviceOnly s t) : t.start = s.start := by rw [h.eq]
theorem DeviceOnly.flags (h : DeviceOnly s t) : t.flags = s.flags := by rw [h.eq]
theorem DeviceOnly.segs (h : DeviceOnly s t) : t.segs = s.segs := by rw [h.eq]
theorem DeviceOnly.ldtr (h : DeviceOnly s t) : t.ldtr = s.ldtr := by rw [h.eq]
theorem DeviceOnly.gdtr (h : DeviceOnly s t) : t.gdtr = s.gdtr := by rw [h.eq]
theorem DeviceOnly.idtr (h : DeviceOnly s t) : t.idtr = s.idtr := by rw [h.eq]
theorem DeviceOnly.ctl (h : DeviceOnly s t) : t.ctl = s.ctl := by rw [h.eq]
theorem DeviceOnly.dbg (h : DeviceOnly s t) : t.dbg = s.dbg := by rw [h.eq]
theorem DeviceOnly.cpl (h : DeviceOnly s t) : t.cpl = s.cpl := by rw [h.eq]
theorem DeviceOnly.mem (h : DeviceOnly s t) : t.mem = s.mem := by rw [h.eq]
theorem DeviceOnly.a20 (h : DeviceOnly s t) : t.a20 = s.a20 := by rw [h.eq]
theorem DeviceOnly.sched (h : DeviceOnly s t) : t.sched = s.sched := by rw [h.eq]
theorem DeviceOnly.inputs (h : DeviceOnly s t) : t.inputs = s.inputs := by rw [h.eq]
theorem DeviceOnly.cfg (h : DeviceOnly s t) : t.cfg = s.cfg := by rw [h.eq]
theorem DeviceOnly.freeCount (h : DeviceOnly s t) : t.freeCount = s.freeCount := by rw [h.eq]

theorem DeviceOnly.canAccess (h : DeviceOnly s t) {r : SegReg} {off : Word} {w : Width} :
    canAccess t r off w ↔ canAccess s r off w :=
  canAccess_congr s t h.a20 h.cfg h.registered h.ctl h.segs r off w

theorem DeviceOnly.canAccessLinear (h : DeviceOnly s t) {a : Word} {w : Width} :
    canAccessLinear t a w ↔ canAccessLinear s a w :=
  canAccessLinear_congr s t h.a20 h.cfg h.registered h.ctl a w

theorem DeviceOnly.keepsSystem (h : DeviceOnly s t) : KeepsSystem s t :=
  ⟨h.segs, h.ldtr, h.gdtr, h.idtr, h.ctl, h.dbg, h.cpl, h.a20, h.registered, h.sched, h.inputs, h.cfg, h.start⟩

variable {home : Option Nat} {w : Width} {v : Word}
theorem Stored.regs (h : Stored s t home w v) : t.regs = s.regs := by rw [h.eq]
theorem Stored.eip (h : Stored s t home w v) : t.eip = s.eip := by rw [h.eq]
theorem Stored.start (h : Stored s t home w v) : t.start = s.start := by rw [h.eq]
theorem Stored.flags (h : Stored s t home w v) : t.flags = s.flags := by rw [h.eq]
theorem Stored.segs (h : Stored s t home w v) : t.segs = s.segs := by rw [h.eq]
theorem Stored.ldtr (h : Stored s t home w v) : t.ldtr = s.ldtr := by rw [h.eq]
theorem Stored.gdtr (h : Stored s t home w v) : t.gdtr = s.gdtr := by rw [h.eq]
theorem Stored.idtr (h : Stored s t home w v) : t.idtr = s.idtr := by rw [h.eq]
theorem Stored.ctl (h : Stored s t home w v) : t.ctl = s.ctl := by rw [h.eq]
theorem Stored.dbg (h : Stored s t home w v) : t.dbg = s.dbg := by rw [h.eq]
theorem Stored.cpl (h : Stored s t home w v) : t.cpl = s.cpl := by rw [h.eq]
theorem Stored.a20 (h : Stored s t home w v) : t.a20 = s.a20 := by rw [h.eq]
theorem Stored.sched (h : Stored s t home w v) : t.sched = s.sched := by rw [h.eq]
theorem Stored.inputs (h : Stored s t home w v) : t.inputs = s.inputs := by rw [h.eq]
theorem Stored.cfg (h : Stored s t home w v) : t.cfg = s.cfg := by rw [h.eq]
theorem Stored.freeCount (h : Stored s t home w v) : t.freeCount = s.freeCount := by rw [h.eq]

theorem Stored.canAccess (h : Stored s t home w v) {r : SegReg} {off : Word} {w' : Width} :
    canAccess t r off w' ↔ canAccess s r off w' :=
  canAccess_congr s t h.a20 h.cfg h.registered h.ctl h.segs r off w'

theorem Stored.keepsSystem (h : Stored s t home w v) : KeepsSystem s t :=
  ⟨h.segs, h.ldtr, h.gdtr, h.idtr, h.ctl, h.dbg, h.cpl, h.a20, h.registered, h.sched, h.inputs, h.cfg, h.start⟩

/-- The bytes outside the store read as before. -/
theorem Stored.keepsMemoryBut (h : Stored s t home w v) : keepsMemoryBut home w s t := by
  intro x hx
  rw [h.mem]
  cases home with
  | none => rfl
  | some b => exact read_storeBytes_outside _ _ _ _ _ (hx b rfl)

theorem Stored.wf (h : Stored s t home w v) (hm : Memory.wf s.mem = true) : Memory.wf t.mem = true := by
  rw [h.mem]
  cases home with
  | none => exact hm
  | some b => exact storeBytes_wf _ _ _ _ hm
end

/-! ### Physical and linear accesses -/

theorem vgaAfterAnswer_registered (v : Vga) : (vgaAfterAnswer v).registered = v.registered := by
  unfold vgaAfterAnswer
  split <;> rfl

/-- `MemRead` answers exactly when the map has the bytes (20_memory R72 to R76). -/
theorem memRead_ok (s : State) (addr : Word) (w : Width) (h : (mapPhysical s addr w).isSome = true) :
    ∃ v t, memRead s addr w = .ok v t ∧ DeviceOnly s t := by
  unfold memRead
  split
  · rename_i hm
    simp [hm] at h
  · exact ⟨_, _, rfl, rfl, vgaAfterAnswer_registered s.vga⟩
  · exact ⟨_, _, rfl, DeviceOnly.refl s⟩

/-- The value read from a buffer-backed region (R76). -/
theorem memRead_buffer (s : State) (addr : Word) (w : Width) (g : Region) (a : Nat)
    (h : mapPhysical s addr w = some (g, a)) (hg : g ≠ .vga) :
    memRead s addr w = .ok (loadBytes s.mem (homeOf g a) w) s := by
  unfold memRead
  rw [h]
  cases g <;> first | rfl | exact absurd rfl hg

theorem memRead_unmapped (s : State) (addr : Word) (w : Width) (h : mapPhysical s addr w = none) :
    memRead s addr w = .aborted (.outOfBounds addr w) s := by
  unfold memRead
  rw [h]

theorem memWrite_ok (s : State) (addr : Word) (w : Width) (v : Word) (h : (mapPhysical s addr w).isSome = true) :
    ∃ t, memWrite s addr w v = .ok () t ∧ Stored s t (bufferHome s addr w) w v := by
  unfold memWrite bufferHome
  cases hm : mapPhysical s addr w with
  | none => simp [hm] at h
  | some x =>
    obtain ⟨g, a⟩ := x
    cases g <;> exact ⟨_, rfl, rfl, rfl, rfl⟩

theorem memWrite_unmapped (s : State) (addr : Word) (w : Width) (v : Word) (h : mapPhysical s addr w = none) :
    memWrite s addr w v = .aborted (.outOfBounds addr w) s := by
  unfold memWrite
  rw [h]

theorem linRead_ok (s : State) (addr : Word) (w : Width) (h : canAccessLinear s addr w) :
    ∃ v t, linRead s addr w = .ok v t ∧ DeviceOnly s t := by
  unfold linRead
  rw [h.1]
  exact memRead_ok s addr w h.2

/-- What a linear read can answer. -/
theorem linRead_cases (s : State) (addr : Word) (w : Width) :
    (∃ v t, linRead s addr w = .ok v t ∧ DeviceOnly s t) ∨ ∃ k, linRead s addr w = .aborted k s := by
  by_cases hp : pg s = true
  · exact .inr ⟨.unimplemented .paging, by simp [linRead, hp]⟩
  · simp only [Bool.not_eq_true] at hp
    cases hm : mapPhysical s addr w with
    | none => exact .inr ⟨.outOfBounds addr w, by simp [linRead, hp, memRead_unmapped s addr w hm]⟩
    | some x => exact .inl (linRead_ok s addr w ⟨hp, by simp [hm]⟩)

theorem linWrite_ok (s : State) (addr : Word) (w : Width) (v : Word) (h : canAccessLinear s addr w) :
    ∃ t, linWrite s addr w v = .ok () t ∧
      Stored s t (bufferHome s addr w) w v := by
  unfold linWrite
  rw [h.1]
  exact memWrite_ok s addr w v h.2

/-- What a linear write can answer. -/
theorem linWrite_cases (s : State) (addr : Word) (w : Width) (v : Word) :
    (∃ t home, linWrite s addr w v = .ok () t ∧ Stored s t home w v) ∨ ∃ k, linWrite s addr w v = .aborted k s := by
  by_cases hp : pg s = true
  · exact .inr ⟨.unimplemented .paging, by simp [linWrite, hp]⟩
  · simp only [Bool.not_eq_true] at hp
    cases hm : mapPhysical s addr w with
    | none => exact .inr ⟨.outOfBounds addr w, by simp [linWrite, hp, memWrite_unmapped s addr w v hm]⟩
    | some x =>
      obtain ⟨t, h1, h2⟩ := linWrite_ok s addr w v ⟨hp, by simp [hm]⟩
      exact .inl ⟨t, _, h1, h2⟩

/-! ### Accesses through a segment register -/

theorem segRead_ok (s : State) (r : SegReg) (off : Word) (w : Width) (h : canAccess s r off w) :
    ∃ v t, segRead s r off w = .ok v t ∧ DeviceOnly s t := by
  obtain ⟨h1, h2, h3⟩ := h
  have h2' : ¬ (getSeg s r).cache.limitScaled < off := by simpa using h2
  unfold segRead
  simp only [h1, Bool.not_true, if_neg h2', Bool.false_eq_true, if_false]
  exact linRead_ok s _ w h3

theorem segWrite_ok (s : State) (r : SegReg) (off : Word) (w : Width) (v : Word) (h : canAccess s r off w) :
    ∃ t, segWrite s r off w v = .ok () t ∧ Stored s t (storeHome s r off w) w v := by
  obtain ⟨h1, h2, h3⟩ := h
  have h2' : ¬ (getSeg s r).cache.limitScaled < off := by simpa using h2
  unfold segWrite
  simp only [h1, Bool.not_true, if_neg h2', Bool.false_eq_true, if_false]
  exact linWrite_ok s _ w v h3

theorem segFault_cases {α : Type} (s : State) (r : SegReg) (off err : Word) :
    (∃ e, (segFault s r off err : Res α) = .raised e s) ∨ ∃ k, (segFault s r off err : Res α) = .aborted k s := by
  unfold segFault
  split
  · exact .inl ⟨_, rfl⟩
  · exact .inr ⟨_, rfl⟩

/-- What `SegRead` can answer (20_memory R84): a value, with nothing changed but the device; or a fault with nothing
changed. -/
theorem segRead_cases (s : State) (r : SegReg) (off : Word) (w : Width) :
    (∃ v t, segRead s r off w = .ok v t ∧ DeviceOnly s t) ∨ (∃ e, segRead s r off w = .raised e s) ∨
      ∃ k, segRead s r off w = .aborted k s := by
  unfold segRead
  split
  · exact .inr (segFault_cases s r off _)
  · split
    · exact .inr (segFault_cases s r off _)
    · rcases linRead_cases s (linearOf s r off) w with h | h
      · exact .inl h
      · exact .inr (.inr h)

/-- What `SegWrite` can answer (R85). -/
theorem segWrite_cases (s : State) (r : SegReg) (off : Word) (w : Width) (v : Word) :
    (∃ t home, segWrite s r off w v = .ok () t ∧ Stored s t home w v) ∨ (∃ e, segWrite s r off w v = .raised e s) ∨
      ∃ k, segWrite s r off w v = .aborted k s := by
  unfold segWrite
  split
  · exact .inr (segFault_cases s r off _)
  · split
    · exact .inr (segFault_cases s r off _)
    · rcases linWrite_cases s (linearOf s r off) w v with h | h
      · exact .inl h
      · exact .inr (.inr h)

/-- A store takes the low bytes of its value alone (R77). -/
theorem storeBytes_trunc (m : List Host.Cell) (a : Nat) (w : Width) (v : Word) :
    storeBytes m a w (trunc w v) = storeBytes m a w v := by
  have h : ∀ i, i < w.bytes → byteOf (trunc w v) i = byteOf v i := by
    intro i hi
    apply BitVec.eq_of_getLsbD_eq
    intro j hj
    cases w <;> simp only [Width.bytes] at hi <;> interval_cases i <;> interval_cases j <;>
      simp [byteOf, trunc]
  have h0 := h 0 (by cases w <;> decide)
  cases w with
  | byte => simp only [storeBytes, h0]
  | word => simp only [storeBytes, h0, h 1 (by decide)]
  | dword => rfl

theorem segWrite_trunc (s : State) (r : SegReg) (off : Word) (w : Width) (v : Word) :
    segWrite s r off w (trunc w v) = segWrite s r off w v := by
  unfold segWrite linWrite memWrite vgaWrite
  simp only [trunc_trunc, storeBytes_trunc]

/-- A read of bytes in a buffer, all of it. -/
theorem segRead_home (s : State) (r : SegReg) (off : Word) (w : Width) (b : Nat) (h : canAccess s r off w)
    (hb : storeHome s r off w = some b) : segRead s r off w = .ok (loadBytes s.mem b w) s := by
  obtain ⟨h1, h2, h3⟩ := h
  have h2' : ¬ (getSeg s r).cache.limitScaled < off := by simpa using h2
  unfold segRead
  simp only [h1, Bool.not_true, if_neg h2', Bool.false_eq_true, if_false]
  unfold linRead
  rw [h3.1]
  unfold storeHome bufferHome at hb
  split at hb
  · cases hb
  · cases hb
  · rename_i g a hg hm
    cases hb
    exact memRead_buffer s _ w g a hm hg

/-! ### Operands -/

/-- What a write of an operand leaves: a register write, or a store at the operand's home. -/
inductive Written (a : Attrs) (s t : State) (op : Operand) (v : Word) : Prop where
  | reg (w : Width) (r : Reg) (h : op = .reg w r) (e : t = setReg s w r v)
  | mem (w : Width) (m : MemRef) (h : op = .mem w m)
      (e : Stored s t (storeHome s (segFor a m) (effAddr s m 0) w) w v)
  | imm (i : Word) (h : op = .imm i) (e : t = s)

theorem readOp_ok (a : Attrs) (s : State) (op : Operand) (h : op.ready a s) :
    ∃ v t, readOp a s op = .ok v t ∧ DeviceOnly s t := by
  cases op with
  | reg w r => exact ⟨_, _, rfl, .refl s⟩
  | mem w m => exact segRead_ok s _ _ w h
  | imm i => exact ⟨_, _, rfl, .refl s⟩

theorem writeOp_ok (a : Attrs) (s : State) (op : Operand) (v : Word) (h : op.ready a s) :
    ∃ t, writeOp a s op v = .ok () t ∧ Written a s t op v := by
  cases op with
  | reg w r => exact ⟨_, rfl, .reg w r rfl rfl⟩
  | mem w m =>
    obtain ⟨t, h1, h2⟩ := segWrite_ok s (segFor a m) (effAddr s m 0) w v h
    exact ⟨t, h1, .mem w m rfl h2⟩
  | imm i => exact ⟨_, rfl, .imm i rfl rfl⟩

/-- A register or an immediate is read without a change. -/
theorem readOp_cases (a : Attrs) (s : State) (op : Operand) :
    (∃ v t, readOp a s op = .ok v t ∧ DeviceOnly s t) ∨ (∃ e, readOp a s op = .raised e s) ∨
      ∃ k, readOp a s op = .aborted k s := by
  cases op with
  | reg w r => exact .inl ⟨_, _, rfl, .refl s⟩
  | mem w m => exact segRead_cases s _ _ w
  | imm i => exact .inl ⟨_, _, rfl, .refl s⟩

theorem writeOp_cases (a : Attrs) (s : State) (op : Operand) (v : Word) :
    (∃ t, writeOp a s op v = .ok () t ∧
      ((∃ w r, t = setReg s w r v) ∨ (∃ w home, Stored s t home w v) ∨ t = s)) ∨
      (∃ e, writeOp a s op v = .raised e s) ∨ ∃ k, writeOp a s op v = .aborted k s := by
  cases op with
  | reg w r => exact .inl ⟨_, rfl, .inl ⟨w, r, rfl⟩⟩
  | mem w m =>
    rcases segWrite_cases s (segFor a m) (effAddr s m 0) w v with ⟨t, home, h1, h2⟩ | h | h
    · exact .inl ⟨t, h1, .inr (.inl ⟨w, home, h2⟩)⟩
    · exact .inr (.inl h)
    · exact .inr (.inr h)
  | imm i => exact .inl ⟨_, rfl, .inr (.inr rfl)⟩

theorem ready_congr (a : Attrs) (s t : State) (op : Operand) (hr : t.regs = s.regs) (h1 : t.a20 = s.a20)
    (h2 : t.cfg = s.cfg) (h3 : t.vga.registered = s.vga.registered) (h4 : t.ctl = s.ctl) (h5 : t.segs = s.segs) :
    op.ready a t ↔ op.ready a s := by
  cases op with
  | reg w r => exact Iff.rfl
  | mem w m =>
    simp only [Operand.ready]
    rw [effAddr_congr s t hr]
    exact canAccess_congr s t h1 h2 h3 h4 h5 _ _ _
  | imm i => exact Iff.rfl

theorem DeviceOnly.ready {s t : State} (h : DeviceOnly s t) (a : Attrs) (op : Operand) :
    op.ready a t ↔ op.ready a s :=
  ready_congr a s t op h.regs h.a20 h.cfg h.registered h.ctl h.segs

theorem home_congr (a : Attrs) (s t : State) (op : Operand) (hr : t.regs = s.regs) (h1 : t.a20 = s.a20)
    (h2 : t.cfg = s.cfg) (h3 : t.vga.registered = s.vga.registered) (h5 : t.segs = s.segs) :
    op.home a t = op.home a s := by
  cases op with
  | reg w r => rfl
  | mem w m =>
    simp only [Operand.home]
    rw [effAddr_congr s t hr]
    exact storeHome_congr s t h1 h2 h3 h5 _ _ _
  | imm i => rfl

theorem DeviceOnly.home {s t : State} (h : DeviceOnly s t) (a : Attrs) (op : Operand) : op.home a t = op.home a s :=
  home_congr a s t op h.regs h.a20 h.cfg h.registered h.segs

/-- The frame of an operand write. -/
theorem Written.frame {a : Attrs} {s t : State} {op : Operand} {v : Word} (h : Written a s t op v) :
    keepsRegs op.changes s t ∧ keepsMemoryBut (op.home a s) op.width s t ∧ KeepsSystem s t ∧ t.flags = s.flags ∧
      t.eip = s.eip := by
  cases h with
  | reg w r h e =>
    subst h e
    refine ⟨fun q hq => reg32_setReg_other s w r q v (by simpa [Operand.changes] using hq), fun _ _ => rfl,
      ⟨rfl, rfl, rfl, rfl, rfl, rfl, rfl, rfl, rfl, rfl, rfl, rfl, rfl⟩, rfl, rfl⟩
  | mem w m h e =>
    subst h
    exact ⟨fun q _ => reg32_congr s t e.regs q, e.keepsMemoryBut, e.keepsSystem, e.flags, e.eip⟩
  | imm i h e =>
    subst h e
    exact ⟨fun _ _ => rfl, fun _ _ => rfl, ⟨rfl, rfl, rfl, rfl, rfl, rfl, rfl, rfl, rfl, rfl, rfl, rfl, rfl⟩, rfl, rfl⟩

/-! ### The width of what is read -/

theorem memRead_lt {s t : State} {addr : Word} {w : Width} {v : Word} (h : memRead s addr w = .ok v t) :
    v.toNat < 2 ^ w.bits := by
  unfold memRead at h
  split at h
  · cases h
  · cases h
    exact trunc_lt _ _
  · cases h
    exact loadBytes_lt _ _ _

theorem linRead_lt {s t : State} {addr : Word} {w : Width} {v : Word} (h : linRead s addr w = .ok v t) :
    v.toNat < 2 ^ w.bits := by
  unfold linRead at h
  split at h
  · cases h
  · exact memRead_lt h

theorem segRead_lt {s t : State} {r : SegReg} {off : Word} {w : Width} {v : Word} (h : segRead s r off w = .ok v t) :
    v.toNat < 2 ^ w.bits := by
  unfold segRead at h
  split at h
  · rcases segFault_cases (α := Word) s r off 0 with ⟨e, he⟩ | ⟨e, he⟩ <;> rw [he] at h <;> cases h
  · split at h
    · rcases segFault_cases (α := Word) s r off (errLimit s off) with ⟨e, he⟩ | ⟨e, he⟩ <;> rw [he] at h <;> cases h
    · exact linRead_lt h

/-- Register `r` at width `w` is below 2^w (10_state R21 to R23). -/
theorem getReg_lt (s : State) (w : Width) (r : Reg) : (getReg s w r).toNat < 2 ^ w.bits := by
  cases w with
  | byte =>
    unfold getReg
    dsimp only
    split
    · exact trunc_lt .byte _
    · exact trunc_lt .byte _
  | word => exact trunc_lt .word _
  | dword => exact (reg32 s r).isLt

/-- What an operand of a form of width `w` is: a register or memory of that width, or an immediate that fits it. -/
def Operand.fits (w : Width) : Operand → Prop
  | .reg w' _ => w' = w
  | .mem w' _ => w' = w
  | .imm i => i.toNat < 2 ^ w.bits

theorem rmOp_fits (w : Width) (e : Rm) : (rmOp w e).fits w := by cases e <;> rfl

theorem alu_fits (a : Attrs) (f : AluForm) : (AluForm.operands a f).dst.fits (AluForm.operands a f).width ∧
    (AluForm.operands a f).src.fits (AluForm.operands a f).width := by
  cases f <;> refine ⟨?_, ?_⟩ <;> first | exact rmOp_fits _ _ | rfl | exact trunc_lt _ _

theorem testForm_fits (a : Attrs) (f : TestForm) : (TestForm.operands a f).dst.fits (TestForm.operands a f).width ∧
    (TestForm.operands a f).src.fits (TestForm.operands a f).width := by
  cases f <;> refine ⟨?_, ?_⟩ <;> first | exact rmOp_fits _ _ | rfl | exact trunc_lt _ _

theorem unary_fits (a : Attrs) (f : UnaryForm) : (UnaryForm.operand a f).op.fits (UnaryForm.operand a f).width := by
  cases f <;> exact rmOp_fits _ _

theorem inc_fits (a : Attrs) (f : IncForm) : (IncForm.operand a f).op.fits (IncForm.operand a f).width := by
  cases f <;> first | exact rmOp_fits _ _ | rfl

theorem shift_fits (a : Attrs) (f : ShiftForm) : (ShiftForm.operands a f).dst.fits (ShiftForm.operands a f).width := by
  cases f <;> exact rmOp_fits _ _

theorem ext_fits (f : ExtForm) : (ExtForm.source f).op.fits (ExtForm.source f).width := by
  cases f <;> exact rmOp_fits _ _

/-- The value an operand of a form of width `w` gives is below 2^w. -/
theorem readOp_lt {a : Attrs} {s t : State} {op : Operand} {v : Word} {w : Width} (h : readOp a s op = .ok v t)
    (hw : op.fits w) : v.toNat < 2 ^ w.bits := by
  cases op with
  | reg w' r =>
    cases h
    have hw : w' = w := hw
    subst hw
    exact getReg_lt _ _ _
  | mem w' m =>
    have hw : w' = w := hw
    subst hw
    exact segRead_lt h
  | imm i =>
    cases h
    exact hw

/-! ### Frames -/

theorem DeviceOnly.readFrame {s t : State} (h : DeviceOnly s t) : ReadFrame s t :=
  ⟨h.regs, h.mem, h.flags, h.eip, h.keepsSystem⟩

theorem ReadFrame.regsFrame {s t : State} (h : ReadFrame s t) (but : List Reg) : RegsFrame but s t :=
  ⟨fun r _ => reg32_congr s t h.regs r, fun x => by rw [h.mem], fun i _ => by rw [h.flags], h.system, h.eip⟩

theorem keepsMemoryBut_all {s t : State} {home : Option Nat} {w : Width} (h : keepsMemoryBut home w s t) :
    keepsMemoryButAll [(home, w)] s t :=
  fun x hx => h x fun b hb => hx (home, w) (by simp) b hb

theorem Stored.storesFrame {s t : State} {home : Option Nat} {w : Width} {v : Word} (h : Stored s t home w v) :
    StoresFrame [(home, w)] s t :=
  ⟨h.regs, keepsMemoryBut_all h.keepsMemoryBut, ⟨flagOf_congr s t h.flags, fun i _ => by rw [h.flags]⟩, h.eip,
    h.keepsSystem⟩

theorem KeepsSystem.refl (s : State) : KeepsSystem s s := ⟨rfl, rfl, rfl, rfl, rfl, rfl, rfl, rfl, rfl, rfl, rfl, rfl, rfl⟩

theorem KeepsSystem.trans {s t u : State} (h : KeepsSystem s t) (g : KeepsSystem t u) : KeepsSystem s u :=
  ⟨g.segs.trans h.segs, g.ldtr.trans h.ldtr, g.gdtr.trans h.gdtr, g.idtr.trans h.idtr, g.ctl.trans h.ctl,
    g.dbg.trans h.dbg, g.cpl.trans h.cpl, g.a20.trans h.a20, g.registered.trans h.registered, g.sched.trans h.sched,
    g.inputs.trans h.inputs, g.cfg.trans h.cfg, g.start.trans h.start⟩

theorem keepsMemoryButAll_mono {s t : State} {xs ys : List (Option Nat × Width)} (h : keepsMemoryButAll xs s t)
    (hs : ∀ p, p ∈ xs → p ∈ ys) : keepsMemoryButAll ys s t :=
  fun x hx => h x fun p hp b hb => hx p (hs p hp) b hb

theorem keepsMemoryButAll_trans {s t u : State} {xs ys : List (Option Nat × Width)} (h : keepsMemoryButAll xs s t)
    (g : keepsMemoryButAll ys t u) : keepsMemoryButAll (xs ++ ys) s u :=
  fun x hx => (g x fun p hp b hb => hx p (List.mem_append_right xs hp) b hb).trans
    (h x fun p hp b hb => hx p (List.mem_append_left ys hp) b hb)

/-- Stores one after another. -/
theorem StoresFrame.trans {s t u : State} {xs ys : List (Option Nat × Width)} (h : StoresFrame xs s t)
    (g : StoresFrame ys t u) : StoresFrame (xs ++ ys) s u :=
  ⟨g.regs.trans h.regs, keepsMemoryButAll_trans h.memory g.memory,
    ⟨fun f => (g.flags.1 f).trans (h.flags.1 f), fun i hi => (g.flags.2 i hi).trans (h.flags.2 i hi)⟩,
    g.eip.trans h.eip, h.system.trans g.system⟩

theorem ReadFrame.storesFrame {s t : State} (h : ReadFrame s t) : StoresFrame [] s t :=
  ⟨h.regs, fun x _ => by rw [h.mem], ⟨flagOf_congr s t h.flags, fun i _ => by rw [h.flags]⟩, h.eip, h.system⟩

/-- Which accesses can be made depends on A20, the parameters, the device's registration, the control registers and the
segment registers alone. -/
theorem canAccess_of_system {s t : State} (h : KeepsSystem s t) (r : SegReg) (off : Word) (w : Width) :
    canAccess t r off w ↔ canAccess s r off w :=
  canAccess_congr s t h.a20 h.cfg h.registered h.ctl h.segs r off w

theorem ready_of_system (a : Attrs) {s t : State} (h : KeepsSystem s t) (hr : t.regs = s.regs) (op : Operand) :
    op.ready a t ↔ op.ready a s :=
  ready_congr a s t op hr h.a20 h.cfg h.registered h.ctl h.segs

theorem home_of_system (a : Attrs) {s t : State} (h : KeepsSystem s t) (hr : t.regs = s.regs) (op : Operand) :
    op.home a t = op.home a s :=
  home_congr a s t op hr h.a20 h.cfg h.registered h.segs

theorem storeHome_of_system {s t : State} (h : KeepsSystem s t) (r : SegReg) (off : Word) (w : Width) :
    storeHome t r off w = storeHome s r off w := storeHome_congr s t h.a20 h.cfg h.registered h.segs r off w

theorem canStore_of_system {s t : State} (h : KeepsSystem s t) (hr : t.regs = s.regs) (sz : Size) (k : Nat) :
    canStore t sz k ↔ canStore s sz k := by
  unfold canStore
  rw [slotBelow_congr s t hr h.segs]
  exact canAccess_of_system h _ _ _

theorem canFetch_of_system {s t : State} (h : KeepsSystem s t) (hr : t.regs = s.regs) (sz : Size) (k : Nat) :
    canFetch t sz k ↔ canFetch s sz k := by
  unfold canFetch
  rw [slotAbove_congr s t hr h.segs]
  exact canAccess_of_system h _ _ _

/-- The frame of an instruction that reads, then writes one operand. -/
theorem operandFrame_of_written {a : Attrs} {s u v : State} {op : Operand} {x : Word} (hr : u.regs = s.regs)
    (hm : u.mem = s.mem) (hp : keepsPlainFlags s u) (hk : KeepsSystem s u) (he : u.eip = s.eip) (w : Written a u v op x) :
    OperandFrame a op s v := by
  obtain ⟨f1, f2, f3, f4, f5⟩ := w.frame
  rw [home_of_system a hk hr] at f2
  exact ⟨fun r h => (f1 r h).trans (reg32_congr _ _ hr r), fun y hy => by rw [f2 y hy, hm],
    fun i hi => by rw [f4]; exact hp i hi, hk.trans f3, f5.trans he⟩

theorem operandFrame_of_read {a : Attrs} {s u v : State} {op : Operand} {x : Word} (d : DeviceOnly s u)
    (w : Written a u v op x) : OperandFrame a op s v :=
  operandFrame_of_written d.regs d.mem (fun i _ => by rw [d.flags]) d.keepsSystem d.eip w

/-- Storing flags afterwards keeps the frame. -/
theorem OperandFrame.afterFlags {a : Attrs} {s v t : State} {op : Operand} (h : OperandFrame a op s v)
    (e : t = { v with flags := t.flags, freeCount := t.freeCount }) (hp : keepsPlainFlags v t) : OperandFrame a op s t := by
  refine ⟨fun r hr => ?_, fun x hx => ?_, fun i hi => (hp i hi).trans (h.plain i hi), ?_, ?_⟩
  · rw [← h.regs r hr]
    exact reg32_congr _ _ (by rw [e]) r
  · rw [← h.memory x hx, e]
  · refine h.system.trans ?_
    rw [e]
    exact ⟨rfl, rfl, rfl, rfl, rfl, rfl, rfl, rfl, rfl, rfl, rfl, rfl, rfl⟩
  · rw [e]
    exact h.eip

/-! ### The stack -/

theorem push_ok (s : State) (sz : Size) (v : Word) (h : canStore s sz sz.bytes) :
    ∃ t, segWrite s .ss (slotBelow s sz.bytes) sz.width v = .ok () t ∧
      push s sz v = .ok () (setStackPtr t (slotBelow s sz.bytes)) ∧
      Stored s t (storeHome s .ss (slotBelow s sz.bytes) sz.width) sz.width v := by
  obtain ⟨t, h1, h2⟩ := segWrite_ok s .ss (slotBelow s sz.bytes) sz.width v h
  exact ⟨t, h1, by simp [push, h1], h2⟩

theorem peek_ok (s : State) (sz : Size) (k : Nat) (h : canFetch s sz k) :
    ∃ v t, peek s sz k = .ok v t ∧ DeviceOnly s t := segRead_ok s .ss _ _ h

theorem pop_ok (s : State) (sz : Size) (h : canFetch s sz 0) :
    ∃ v t, peek s sz 0 = .ok v t ∧ pop s sz = .ok v (drop t sz.bytes) ∧ DeviceOnly s t := by
  obtain ⟨v, t, h1, h2⟩ := peek_ok s sz 0 h
  exact ⟨v, t, h1, by simp [pop, h1], h2⟩

theorem DeviceOnly.canFetch {s t : State} (h : DeviceOnly s t) (sz : Size) (k : Nat) :
    canFetch t sz k ↔ canFetch s sz k := by
  unfold Sys2Proof.Machine.canFetch
  rw [slotAbove_congr s t h.regs h.segs]
  exact h.canAccess

theorem DeviceOnly.canStore {s t : State} (h : DeviceOnly s t) (sz : Size) (k : Nat) :
    canStore t sz k ↔ canStore s sz k := by
  unfold Sys2Proof.Machine.canStore
  rw [slotBelow_congr s t h.regs h.segs]
  exact h.canAccess

/-- A far pointer is read when both its parts can be (20_memory R83). -/
theorem readFar_ok (a : Attrs) (s : State) (m : MemRef) (h : farReady a s m) :
    ∃ p t, readFar a s m = .ok p t ∧ DeviceOnly s t := by
  obtain ⟨v, t, h1, h2⟩ := segRead_ok s _ _ _ h.1
  obtain ⟨x, u, h3, h4⟩ := segRead_ok t (segFor a m) (effAddr t m a.osz.bytes) .word
    (by rw [effAddr_congr s t h2.regs]; exact h2.canAccess.mpr h.2)
  exact ⟨(v, x.setWidth 16), u, by simp only [readFar, h1, andThen_ok, h3], h2.trans h4⟩

end Sys2Proof.Machine
end

