-- ==== Sys2Proof/Laws/Decode.lean ====
section
/-! SUPPORT. The pieces of an encoding are read back: fields, register numbers, ModR/M operands and prefixes. -/

namespace Sys2Proof

@[simp] theorem parse_andThen_ok {α β : Type} (x : α) (r : List Byte) (f : α → List Byte → Parse β) :
    (Parse.ok x r).andThen f = f x r := rfl

@[simp] theorem parse_map_ok {α β : Type} (x : α) (r : List Byte) (f : α → β) : (Parse.ok x r).map f = .ok (f x) r := rfl

/-! ### Fields -/

@[simp] theorem getByte_cons (b : Byte) (r : List Byte) : getByte (b :: r) = .ok b r := rfl

@[simp] theorem getU16_putU16 (v : BitVec 16) (r : List Byte) : getU16 (putU16 v ++ r) = .ok v r := by
  have h : v.extractLsb' 8 8 ++ v.extractLsb' 0 8 = v := by
    apply BitVec.eq_of_getLsbD_eq
    intro i hi
    simp only [BitVec.getLsbD_append, BitVec.getLsbD_extractLsb']
    interval_cases i <;> simp
  exact congrArg (Parse.ok · r) h

@[simp] theorem getU32_putU32 (v : Word) (r : List Byte) : getU32 (putU32 v ++ r) = .ok v r := by
  have h : v.extractLsb' 24 8 ++ v.extractLsb' 16 8 ++ v.extractLsb' 8 8 ++ v.extractLsb' 0 8 = v := by
    apply BitVec.eq_of_getLsbD_eq
    intro i hi
    simp only [BitVec.getLsbD_append, BitVec.getLsbD_extractLsb']
    interval_cases i <;> simp
  exact congrArg (Parse.ok · r) h

theorem getSized_putSized (sz : Size) (v : Word) (r : List Byte) (h : sz.fits v = true) :
    getSized sz (putSized sz v ++ r) = .ok v r := by
  cases sz with
  | s16 =>
    have hv : (v.setWidth 16).setWidth 32 = v := by
      have : v.toNat < 65536 := by simpa [Size.fits] using h
      apply BitVec.eq_of_toNat_eq
      simp only [BitVec.toNat_setWidth]
      omega
    show (getU16 (putU16 (v.setWidth 16) ++ r)).map _ = _
    rw [getU16_putU16, parse_map_ok, hv]
  | s32 => exact getU32_putU32 v r

/-! ### Register numbers -/

@[simp] theorem regOf_num (r : Reg) : regOf (BitVec.ofNat 3 r.num) = r := by cases r <;> rfl

@[simp] theorem segOf_num (g : SegReg) : segOf (BitVec.ofNat 3 g.num) = some g := by cases g <;> rfl

@[simp] theorem ctlOf_num (c : CtlReg) : ctlOf (BitVec.ofNat 3 c.num) = some c := by cases c <;> rfl

@[simp] theorem dbgOf_num (c : DbgReg) : dbgOf (BitVec.ofNat 3 c.num) = c := by cases c <;> rfl

@[simp] theorem base16Of_num (b : Base16) : base16Of (BitVec.ofNat 3 b.num) = b := by cases b <;> rfl

theorem Reg.num_lt (r : Reg) : r.num < 8 := by cases r <;> decide

theorem SegReg.num_lt (g : SegReg) : g.num < 8 := by cases g <;> decide

theorem CtlReg.num_lt (c : CtlReg) : c.num < 8 := by cases c <;> decide

theorem DbgReg.num_lt (c : DbgReg) : c.num < 8 := by cases c <;> decide

theorem Base16.num_lt (b : Base16) : b.num < 8 := by cases b <;> decide

/-! ### ModR/M operands -/

theorem ofByte_modrmByte (md nnn rm : Nat) (h1 : md < 4) (h2 : nnn < 8) (h3 : rm < 8) :
    ModRM.ofByte (modrmByte md nnn rm) = ⟨BitVec.ofNat 2 md, BitVec.ofNat 3 nnn, BitVec.ofNat 3 rm⟩ := by
  interval_cases md <;> interval_cases nnn <;> interval_cases rm <;> rfl

/-- A ModR/M byte with what follows it: what `withModRM` hands on. -/
theorem withModRM_modrmByte {α : Type} (md nnn rm : Nat) (r : List Byte) (k : ModRM → List Byte → Parse α) (h1 : md < 4)
    (h2 : nnn < 8) (h3 : rm < 8) :
    withModRM (modrmByte md nnn rm :: r) k = k ⟨BitVec.ofNat 2 md, BitVec.ofNat 3 nnn, BitVec.ofNat 3 rm⟩ r := by
  show k (ModRM.ofByte (modrmByte md nnn rm)) r = _
  rw [ofByte_modrmByte md nnn rm h1 h2 h3]

/-- A memory operand is read back by method M and by method E, and the `nnn` field is the one written. -/
theorem decode_encodeM (asz : Size) (nnn : Nat) (x : MemRef) (r : List Byte) (hn : nnn < 8) (h : x.wf asz = true) :
    ∃ m bs, m.nnn = BitVec.ofNat 3 nnn ∧
      (∀ {α : Type} (k : ModRM → List Byte → Parse α), withModRM (encodeM nnn x ++ r) k = k m bs) ∧
      decodeM asz m bs = .ok x r ∧ decodeE asz m bs = .ok (.mem x) r := by
  cases x with
  | base16 b d =>
    cases d with
    | none =>
      simp [MemRef.wf] at h
      refine ⟨_, r, rfl, fun k => withModRM_modrmByte 0 nnn b.num r k (by omega) hn b.num_lt, ?_⟩
      obtain ⟨rfl, hb⟩ := h
      cases b <;> first | exact absurd rfl hb | exact ⟨rfl, rfl⟩
    | d8 d =>
      simp [MemRef.wf] at h
      subst h
      refine ⟨_, d :: r, rfl, fun k => withModRM_modrmByte 1 nnn b.num (d :: r) k (by omega) hn b.num_lt, ?_⟩
      cases b <;> exact ⟨rfl, rfl⟩
    | full d =>
      simp [MemRef.wf] at h
      subst h
      refine ⟨_, putU16 d ++ r, rfl, fun k => withModRM_modrmByte 2 nnn b.num _ k (by omega) hn b.num_lt, ?_⟩
      have : ∀ f : BitVec 16 → MemRef, (getU16 (putU16 d ++ r)).map f = .ok (f d) r := fun f => by rw [getU16_putU16]; rfl
      have e : decodeMemForm .s16 ⟨BitVec.ofNat 2 2, BitVec.ofNat 3 nnn, BitVec.ofNat 3 b.num⟩ (putU16 d ++ r) =
          .ok (.base16 b (.full d)) r := by simp [decodeMemForm]
      exact ⟨e, congrArg (·.map Rm.mem) e⟩
  | abs16 d =>
    simp [MemRef.wf] at h
    subst h
    refine ⟨_, putU16 d ++ r, rfl, fun k => withModRM_modrmByte 0 nnn 6 _ k (by omega) hn (by omega), ?_⟩
    have : ∀ f : BitVec 16 → MemRef, (getU16 (putU16 d ++ r)).map f = .ok (f d) r := fun f => by rw [getU16_putU16]; rfl
    constructor
    · show (getU16 (putU16 d ++ r)).map _ = _
      rw [this]
    · show ((getU16 (putU16 d ++ r)).map _).map _ = _
      rw [this]
      rfl
  | base32 b d =>
    cases d with
    | none =>
      simp [MemRef.wf] at h
      obtain ⟨⟨rfl, hs⟩, hb⟩ := h
      refine ⟨_, r, rfl, fun k => withModRM_modrmByte 0 nnn b.num r k (by omega) hn b.num_lt, ?_⟩
      cases b <;> first | exact absurd rfl hb | exact absurd rfl hs | exact ⟨rfl, rfl⟩
    | d8 d =>
      simp [MemRef.wf] at h
      obtain ⟨rfl, hs⟩ := h
      refine ⟨_, d :: r, rfl, fun k => withModRM_modrmByte 1 nnn b.num (d :: r) k (by omega) hn b.num_lt, ?_⟩
      cases b <;> first | exact absurd rfl hs | exact ⟨rfl, rfl⟩
    | full d =>
      simp [MemRef.wf] at h
      obtain ⟨rfl, hs⟩ := h
      refine ⟨_, putU32 d ++ r, rfl, fun k => withModRM_modrmByte 2 nnn b.num _ k (by omega) hn b.num_lt, ?_⟩
      have : ∀ f : Word → MemRef, (getU32 (putU32 d ++ r)).map f = .ok (f d) r := fun f => by rw [getU32_putU32]; rfl
      have e : decodeM .s32 ⟨BitVec.ofNat 2 2, BitVec.ofNat 3 nnn, BitVec.ofNat 3 b.num⟩ (putU32 d ++ r) =
          .ok (.base32 b (.full d)) r := by
        cases b <;> first | exact absurd rfl hs | simp [decodeM, decodeMemForm, Reg.num, regOf]
      exact ⟨e, congrArg (·.map Rm.mem) e⟩
  | abs32 d =>
    simp [MemRef.wf] at h
    subst h
    refine ⟨_, putU32 d ++ r, rfl, fun k => withModRM_modrmByte 0 nnn 5 _ k (by omega) hn (by omega), ?_⟩
    have : ∀ f : Word → MemRef, (getU32 (putU32 d ++ r)).map f = .ok (f d) r := fun f => by rw [getU32_putU32]; rfl
    have e : decodeM .s32 ⟨BitVec.ofNat 2 0, BitVec.ofNat 3 nnn, BitVec.ofNat 3 5⟩ (putU32 d ++ r) = .ok (.abs32 d) r :=
      this _
    exact ⟨e, congrArg (·.map Rm.mem) e⟩

/-- An E operand is read back, and the `nnn` field is the one written. -/
theorem decode_encodeE (asz : Size) (nnn : Nat) (e : Rm) (r : List Byte) (hn : nnn < 8) (h : e.wf asz = true) :
    ∃ m bs, m.nnn = BitVec.ofNat 3 nnn ∧
      (∀ {α : Type} (k : ModRM → List Byte → Parse α), withModRM (encodeE nnn e ++ r) k = k m bs) ∧
      decodeE asz m bs = .ok e r := by
  cases e with
  | reg g =>
    refine ⟨_, r, rfl, fun k => withModRM_modrmByte 3 nnn g.num r k (by omega) hn g.num_lt, ?_⟩
    show Parse.ok (Rm.reg (regOf (BitVec.ofNat 3 g.num))) r = _
    rw [regOf_num]
  | mem x =>
    obtain ⟨m, bs, h1, h2, _, h3⟩ := decode_encodeM asz nnn x r hn h
    exact ⟨m, bs, h1, h2, h3⟩

/-- An E operand has a ModR/M byte and at most four bytes of displacement. -/
theorem encodeE_length (nnn : Nat) (e : Rm) : 1 ≤ (encodeE nnn e).length ∧ (encodeE nnn e).length ≤ 5 := by
  cases e with
  | reg g => exact ⟨Nat.le_refl 1, by simp [encodeE]⟩
  | mem x =>
    cases x with
    | base16 b d => cases d <;> exact ⟨by simp [encodeE, encodeM], by simp [encodeE, encodeM, putU16]⟩
    | abs16 d => exact ⟨by simp [encodeE, encodeM], by simp [encodeE, encodeM, putU16]⟩
    | base32 b d => cases d <;> exact ⟨by simp [encodeE, encodeM], by simp [encodeE, encodeM, putU32]⟩
    | abs32 d => exact ⟨by simp [encodeE, encodeM], by simp [encodeE, encodeM, putU32]⟩

theorem putSized_length (sz : Size) (v : Word) : (putSized sz v).length = sz.bytes := by cases sz <;> rfl

/-! ### Prefixes -/

/-- The byte is no prefix (30_encoding R133). -/
def isOpcode (b : Byte) : Bool := (prefixStep .idempotent .empty b).isNone

theorem prefixStep_none (mode : SizePrefixMode) (p : PrefixSeen) (b : Byte) (h : isOpcode b = true) :
    prefixStep mode p b = none := by
  unfold isOpcode prefixStep at h
  unfold prefixStep
  repeat' split at h
  all_goals first | (simp at h; done) | simp_all

/-- The prefixes of an encoding are consumed and give its attributes, up to the opcode byte. -/
theorem scanPrefixes_encodePrefixes (mode : SizePrefixMode) (big : Bool) (a : Attrs) (op : Byte) (r : List Byte)
    (h : isOpcode op = true) :
    ∃ p, scanPrefixes mode .empty (encodePrefixes big a ++ op :: r) = .ok (p, op) r ∧ p.attrs big = a := by
  obtain ⟨g, o, x, q, l⟩ := a
  have e : ∀ p, scanPrefixes mode p (op :: r) = .ok (p, op) r := fun p => by
    unfold scanPrefixes
    rw [prefixStep_none mode p op h]
  have seg : ∀ bs : List Byte, scanPrefixes mode .empty (segPrefix g ++ bs) =
      scanPrefixes mode { PrefixSeen.empty with seg := g } bs := fun bs => by
    cases g with
    | none => rfl
    | some g => cases g <;> rfl
  have shape : encodePrefixes big ⟨g, o, x, q, l⟩ ++ op :: r = segPrefix g ++ ((if o = sizeOf big then [] else [0x66]) ++
      ((if x = sizeOf big then [] else [0x67]) ++ ((if l then [0xF0] else []) ++ (repPrefix q ++ op :: r)))) := by
    simp [encodePrefixes]
  rw [shape, seg]
  refine ⟨⟨g, decide (o ≠ sizeOf big), decide (x ≠ sizeOf big), q, l⟩, ?_, ?_⟩
  · rw [← e]
    cases mode <;> cases big <;> cases o <;> cases x <;> cases l <;> cases q <;> rfl
  · cases big <;> cases o <;> cases x <;> rfl

theorem encodePrefixes_length (big : Bool) (a : Attrs) : (encodePrefixes big a).length ≤ 5 := by
  obtain ⟨g, o, x, q, l⟩ := a
  have h1 : (segPrefix g).length ≤ 1 := by
    cases g with
    | none => decide
    | some g => cases g <;> decide
  have h2 : (repPrefix q).length ≤ 1 := by cases q <;> decide
  simp only [encodePrefixes, List.length_append]
  split <;> split <;> split <;> simp <;> omega

end Sys2Proof
end

