-- ==== Sys2Proof/Laws/Flags.lean ====
section
/-! SUPPORT. The lazy flag register seen from outside (40_lazy_flags R220 to R237): what each of its operations does to the
value of every status flag and to every other bit of EFLAGS. -/

namespace Sys2Proof.Machine

/-! ### Bits -/

theorem getLsbD_setBit (v : Word) (i j : Nat) (b : Bool) (hi : i < 32) :
    (setBit v i b).getLsbD j = if j = i then b else v.getLsbD j := by
  unfold setBit
  by_cases hj : j < 32
  · cases b
    · by_cases h : j = i
      · subst h
        simp [hj]
      · simp only [Bool.false_eq_true, if_false, h, BitVec.getLsbD_and, BitVec.getLsbD_not, hj, decide_true,
          BitVec.getLsbD_shiftLeft, BitVec.getLsbD_one, Bool.true_and]
        have : ¬ (j - i = 0 ∧ ¬ j < i) := by omega
        by_cases h2 : j < i <;> simp [h2]
        omega
    · by_cases h : j = i
      · subst h
        simp [hj]
      · simp only [if_true, h, BitVec.getLsbD_or, BitVec.getLsbD_shiftLeft, hj, decide_true, BitVec.getLsbD_one, if_false]
        by_cases h2 : j < i <;> simp [h2]
        omega
  · have : j ≠ i := by omega
    rw [BitVec.getLsbD_of_ge _ _ (by omega), if_neg this, BitVec.getLsbD_of_ge _ _ (by omega)]

theorem getLsbD_mergeBits (old v m : Word) (i : Nat) :
    (mergeBits old v m).getLsbD i = if m.getLsbD i then v.getLsbD i else old.getLsbD i := by
  unfold mergeBits
  by_cases hi : i < 32
  · rw [BitVec.getLsbD_or, BitVec.getLsbD_and, BitVec.getLsbD_and, BitVec.getLsbD_not]
    cases hm : m.getLsbD i <;> simp [hi]
  · rw [BitVec.getLsbD_of_ge _ _ (by omega), BitVec.getLsbD_of_ge v _ (by omega), BitVec.getLsbD_of_ge old _ (by omega)]
    simp

theorem Flag.pos_lt (f : Flag) : f.pos < 32 := by cases f <;> decide

theorem Flag.pos_inj (f g : Flag) : f.pos = g.pos ↔ f = g := by cases f <;> cases g <;> decide

theorem Flag.pos_mem (f : Flag) : f.pos ∈ [0, 2, 4, 6, 7, 11] := by cases f <;> decide

@[simp] theorem dirty_get_set_same (d : Dirty) (f : Flag) (b : Bool) : (d.set f b).get f = b := by cases f <;> rfl

theorem dirty_get_set (d : Dirty) (f g : Flag) (b : Bool) : (d.set f b).get g = if g = f then b else d.get g := by
  cases f <;> cases g <;> rfl

@[simp] theorem dirty_get_all (f : Flag) : Dirty.all.get f = true := by cases f <;> rfl

@[simp] theorem dirty_get_none (f : Flag) : Dirty.none.get f = false := by cases f <;> rfl

theorem dirty_ext (d e : Dirty) (h : ∀ f, d.get f = e.get f) : d = e := by
  obtain ⟨a, b, c, d', e', f⟩ := d
  obtain ⟨a2, b2, c2, d2, e2, f2⟩ := e
  have h1 := h .cf
  have h2 := h .pf
  have h3 := h .af
  have h4 := h .zf
  have h5 := h .sf
  have h6 := h .ovf
  simp only [Dirty.get] at h1 h2 h3 h4 h5 h6
  simp [h1, h2, h3, h4, h5, h6]

/-! ### The value of every status flag -/

namespace LazyFlags

@[simp] theorem setFlag_dirty (l : LazyFlags) (f : Flag) (b : Bool) : (l.setFlag f b).dirty = l.dirty.set f false := rfl

theorem setFlag_getLsbD (l : LazyFlags) (f : Flag) (b : Bool) (i : Nat) :
    (l.setFlag f b).value.getLsbD i = if i = f.pos then b else l.value.getLsbD i :=
  getLsbD_setBit _ _ _ _ f.pos_lt

/-- `SetFlag` sets one flag, whatever is dirty (R223). -/
theorem flagValue_setFlag (l : LazyFlags) (f g : Flag) (b : Bool) :
    (l.setFlag f b).flagValue g = if g = f then b else l.flagValue g := by
  unfold flagValue
  rw [setFlag_getLsbD, setFlag_dirty, dirty_get_set]
  by_cases h : g = f
  · simp [h]
  · simp only [h, if_false, (Flag.pos_inj g f).not.mpr h]
    rfl

/-- Evaluating a flag changes the value of none (R224). -/
@[simp] theorem flagValue_evaluate (l : LazyFlags) (f g : Flag) : (l.evaluate f).flagValue g = l.flagValue g := by
  unfold evaluate
  split
  · rw [flagValue_setFlag]
    split
    · rename_i h
      rw [h]
    · rfl
  · rfl

theorem evaluate_dirty (l : LazyFlags) (f g : Flag) :
    (l.evaluate f).dirty.get g = if g = f then false else l.dirty.get g := by
  unfold evaluate
  split
  · rw [setFlag_dirty, dirty_get_set]
  · rename_i h
    split
    · rename_i hg
      rw [hg]
      simpa using h
    · rfl

/-- A bit of EFLAGS that holds no status flag is not changed by evaluating one. -/
theorem evaluate_getLsbD (l : LazyFlags) (f : Flag) (i : Nat) (h : i ≠ f.pos) :
    (l.evaluate f).value.getLsbD i = l.value.getLsbD i := by
  unfold evaluate
  split
  · rw [setFlag_getLsbD, if_neg h]
  · rfl

/-- After the evaluation of a flag its stored bit is its value. -/
theorem evaluate_getLsbD_same (l : LazyFlags) (f : Flag) : (l.evaluate f).value.getLsbD f.pos = l.flagValue f := by
  unfold evaluate
  split
  · rw [setFlag_getLsbD, if_pos rfl]
  · rename_i h
    simp [flagValue, h]

/-- A clean flag's value is its stored bit. -/
theorem flagValue_clean (l : LazyFlags) (f : Flag) (h : l.dirty.get f = false) :
    l.flagValue f = l.value.getLsbD f.pos := by simp [flagValue, h]

/-- After `LazyStore` every flag has the value of its formula; one without a formula keeps its stored bit (R226). -/
theorem flagValue_lazyStore (l : LazyFlags) (k : FlagKind) (w : Width) (x y r : Word) (f : Flag) :
    (l.lazyStore k w x y r).flagValue f = (formula f k w x y r).getD (l.value.getLsbD f.pos) := by
  simp [flagValue, lazyStore]

@[simp] theorem lazyStore_value (l : LazyFlags) (k : FlagKind) (w : Width) (x y r : Word) :
    (l.lazyStore k w x y r).value = l.value := rfl

@[simp] theorem setPlain_dirty (l : LazyFlags) (i : Nat) (b : Bool) : (l.setPlain i b).dirty = l.dirty := rfl

theorem setPlain_getLsbD (l : LazyFlags) (i j : Nat) (b : Bool) (hi : i < 32) :
    (l.setPlain i b).value.getLsbD j = if j = i then b else l.value.getLsbD j := getLsbD_setBit _ _ _ _ hi

/-- A write of a plain bit changes no status flag (10_state R29). -/
theorem flagValue_setPlain (l : LazyFlags) (i : Nat) (b : Bool) (g : Flag) (hi : i < 32) (h : i ≠ g.pos) :
    (l.setPlain i b).flagValue g = l.flagValue g := by
  unfold flagValue
  rw [setPlain_getLsbD _ _ _ _ hi, if_neg (Ne.symm h)]
  rfl

/-! ### All six at once -/

@[simp] theorem flagValue_evaluateAll (l : LazyFlags) (g : Flag) : l.evaluateAll.flagValue g = l.flagValue g := by
  simp [evaluateAll]

/-- `ReadFlags` leaves all six flags clean (R228). -/
@[simp] theorem evaluateAll_dirty (l : LazyFlags) : l.evaluateAll.dirty = Dirty.none := by
  apply dirty_ext
  intro f
  simp only [evaluateAll, evaluate_dirty]
  cases f <;> rfl

theorem evaluateAll_getLsbD (l : LazyFlags) (i : Nat) (h : i ∉ [0, 2, 4, 6, 7, 11]) :
    l.evaluateAll.value.getLsbD i = l.value.getLsbD i := by
  simp only [List.mem_cons, not_or, List.not_mem_nil] at h
  simp only [evaluateAll]
  rw [evaluate_getLsbD _ _ _ (by simp [Flag.pos]; omega), evaluate_getLsbD _ _ _ (by simp [Flag.pos]; omega),
    evaluate_getLsbD _ _ _ (by simp [Flag.pos]; omega), evaluate_getLsbD _ _ _ (by simp [Flag.pos]; omega),
    evaluate_getLsbD _ _ _ (by simp [Flag.pos]; omega), evaluate_getLsbD _ _ _ (by simp [Flag.pos]; omega)]

theorem evaluateAll_getLsbD_flag (l : LazyFlags) (f : Flag) : l.evaluateAll.value.getLsbD f.pos = l.flagValue f := by
  rw [← flagValue_clean _ f (by simp), flagValue_evaluateAll]

theorem writeFlag_getLsbD (l : LazyFlags) (v m : Word) (f : Flag) (i : Nat) :
    (l.writeFlag v m f).value.getLsbD i = if i = f.pos ∧ m.getLsbD i = true then v.getLsbD i else l.value.getLsbD i := by
  unfold writeFlag
  split
  · rename_i h
    rw [setFlag_getLsbD]
    by_cases hi : i = f.pos
    · simp [hi, h]
    · simp [hi]
  · rename_i h
    by_cases hi : i = f.pos
    · simp [hi, h]
    · simp [hi]

theorem flagValue_writeFlag (l : LazyFlags) (v m : Word) (f g : Flag) :
    (l.writeFlag v m f).flagValue g = if g = f ∧ m.getLsbD f.pos = true then v.getLsbD f.pos else l.flagValue g := by
  unfold writeFlag
  split
  · rename_i h
    rw [flagValue_setFlag]
    simp [h]
  · rename_i h
    simp [h]

theorem flagValue_setValue (l : LazyFlags) (x : Word) (g : Flag) (h : x.getLsbD g.pos = l.value.getLsbD g.pos) :
    ({ l with value := x } : LazyFlags).flagValue g = l.flagValue g := by
  simp [flagValue, h]

/-- A status flag after `WriteFlags` (R229). -/
theorem flagValue_writeFlags (l : LazyFlags) (v m : Word) (g : Flag) :
    (l.writeFlags v m).flagValue g = if m.getLsbD g.pos then v.getLsbD g.pos else l.flagValue g := by
  unfold writeFlags
  rw [flagValue_setValue]
  · simp only [flagValue_writeFlag]
    cases g <;> simp
  · rw [getLsbD_mergeBits, BitVec.getLsbD_and]
    have : eflagsPlain.getLsbD g.pos = false := by cases g <;> decide
    simp [this]

/-- A bit that holds no status flag after `WriteFlags` (R229): the implemented ones of the mask are written. -/
theorem writeFlags_getLsbD (l : LazyFlags) (v m : Word) (i : Nat) (h : i ∉ [0, 2, 4, 6, 7, 11]) :
    (l.writeFlags v m).value.getLsbD i =
      if m.getLsbD i && eflagsPlain.getLsbD i then v.getLsbD i else l.value.getLsbD i := by
  simp only [List.mem_cons, not_or, List.not_mem_nil] at h
  simp only [writeFlags, getLsbD_mergeBits, BitVec.getLsbD_and, writeFlag_getLsbD, Flag.pos]
  simp [h]

theorem writeFlags_dirty (l : LazyFlags) (v m : Word) (g : Flag) :
    (l.writeFlags v m).dirty.get g = if m.getLsbD g.pos then false else l.dirty.get g := by
  have one : ∀ (l : LazyFlags) (f : Flag), (l.writeFlag v m f).dirty.get g =
      if g = f ∧ m.getLsbD f.pos = true then false else l.dirty.get g := by
    intro l f
    unfold writeFlag
    split
    · rename_i h
      simp [dirty_get_set, h]
    · rename_i h
      simp [h]
  simp only [writeFlags, one]
  cases g <;> simp

/-- The image `ReadFlags` returns, bit by bit (R228). -/
theorem image_getLsbD_flag (l : LazyFlags) (f : Flag) : l.image.getLsbD f.pos = l.flagValue f := by
  simp only [image, BitVec.getLsbD_or, BitVec.getLsbD_and, evaluateAll_getLsbD_flag]
  cases f <;> simp [Flag.pos, eflagsImplemented]

theorem image_getLsbD (l : LazyFlags) (i : Nat) (h : i ∉ [0, 2, 4, 6, 7, 11]) :
    l.image.getLsbD i = ((l.value.getLsbD i && eflagsImplemented.getLsbD i) || (2 : Word).getLsbD i) := by
  simp only [image, BitVec.getLsbD_or, BitVec.getLsbD_and, evaluateAll_getLsbD _ _ h]

/-- Equal status flags and equal stored bits elsewhere give equal images. -/
theorem image_congr (l k : LazyFlags) (h : ∀ f, k.flagValue f = l.flagValue f)
    (g : ∀ i, i ∉ [0, 2, 4, 6, 7, 11] → k.value.getLsbD i = l.value.getLsbD i) : k.image = l.image := by
  apply BitVec.eq_of_getLsbD_eq
  intro i hi
  by_cases hm : i ∈ [0, 2, 4, 6, 7, 11]
  · simp only [List.mem_cons, List.not_mem_nil, or_false] at hm
    rcases hm with rfl | rfl | rfl | rfl | rfl | rfl
    · exact (image_getLsbD_flag k .cf).trans ((h .cf).trans (image_getLsbD_flag l .cf).symm)
    · exact (image_getLsbD_flag k .pf).trans ((h .pf).trans (image_getLsbD_flag l .pf).symm)
    · exact (image_getLsbD_flag k .af).trans ((h .af).trans (image_getLsbD_flag l .af).symm)
    · exact (image_getLsbD_flag k .zf).trans ((h .zf).trans (image_getLsbD_flag l .zf).symm)
    · exact (image_getLsbD_flag k .sf).trans ((h .sf).trans (image_getLsbD_flag l .sf).symm)
    · exact (image_getLsbD_flag k .ovf).trans ((h .ovf).trans (image_getLsbD_flag l .ovf).symm)
  · rw [image_getLsbD _ _ hm, image_getLsbD _ _ hm, g i hm]

@[simp] theorem image_evaluateAll (l : LazyFlags) : l.evaluateAll.image = l.image :=
  image_congr _ _ (flagValue_evaluateAll l) (evaluateAll_getLsbD l)

@[simp] theorem image_evaluate (l : LazyFlags) (f : Flag) : (l.evaluate f).image = l.image :=
  image_congr _ _ (flagValue_evaluate l f) fun i hi => evaluate_getLsbD l f i (fun e => hi (e ▸ f.pos_mem))

end LazyFlags

/-! ### On the state -/

@[simp] theorem flagOf_setFlag (s : State) (f g : Flag) (b : Bool) :
    flagOf (setFlag s f b) g = if g = f then b else flagOf s g := LazyFlags.flagValue_setFlag _ _ _ _

@[simp] theorem flagOf_touchFlag (s : State) (f g : Flag) : flagOf (touchFlag s f) g = flagOf s g :=
  LazyFlags.flagValue_evaluate _ _ _

@[simp] theorem flagOf_touchAllFlags (s : State) (g : Flag) : flagOf (touchAllFlags s) g = flagOf s g :=
  LazyFlags.flagValue_evaluateAll _ _

theorem flagOf_lazyStore (s : State) (k : FlagKind) (w : Width) (x y r : Word) (f : Flag) :
    flagOf (lazyStore s k w x y r) f = (formula f k w x y r).getD (s.flags.value.getLsbD f.pos) :=
  LazyFlags.flagValue_lazyStore _ _ _ _ _ _ _

/-- Even parity is an even number of ones in the low byte. -/
theorem evenParity_eq_countP (r : Word) :
    evenParity r = decide ((List.range 8).countP (fun i => r.getLsbD i) % 2 = 0) := by
  simp only [evenParity, List.countP, List.countP.go, show List.range 8 = [0, 1, 2, 3, 4, 5, 6, 7] from rfl]
  generalize r.getLsbD 0 = a, r.getLsbD 1 = b, r.getLsbD 2 = c, r.getLsbD 3 = d, r.getLsbD 4 = e, r.getLsbD 5 = f,
    r.getLsbD 6 = g, r.getLsbD 7 = h
  revert a b c d e f g h
  decide

/-- The uniform rows (R225), whatever the kind. -/
theorem resultFlags_lazyStore (s : State) (k : FlagKind) (w : Width) (x y r : Word) :
    ResultFlags w (trunc w r) (lazyStore s k w x y (trunc w r)) := by
  constructor <;> rw [flagOf_lazyStore] <;> simp only [formula, trunc_trunc, Option.getD_some]
  · rfl
  · exact evenParity_eq_countP _

/-- Setting another flag keeps them. -/
theorem ResultFlags.setFlag {w : Width} {r : Word} {t : State} (h : ResultFlags w r t) (f : Flag) (b : Bool)
    (hf : f ∉ [.zf, .sf, .pf]) : ResultFlags w r (setFlag t f b) := by
  simp only [List.mem_cons, List.not_mem_nil, not_or] at hf
  exact ⟨by rw [flagOf_setFlag, if_neg (Ne.symm hf.1)]; exact h.zf,
    by rw [flagOf_setFlag, if_neg (Ne.symm hf.2.1)]; exact h.sf,
    by rw [flagOf_setFlag, if_neg (Ne.symm hf.2.2.1)]; exact h.pf⟩

theorem flagOf_setPlainFlag (s : State) (i : Nat) (b : Bool) (g : Flag) (hi : i < 32) (h : i ≠ g.pos) :
    flagOf (setPlainFlag s i b) g = flagOf s g := LazyFlags.flagValue_setPlain _ _ _ _ hi h

theorem plainFlag_setPlainFlag (s : State) (i j : Nat) (b : Bool) (hi : i < 32) :
    plainFlag (setPlainFlag s i b) j = if j = i then b else plainFlag s j := LazyFlags.setPlain_getLsbD _ _ _ _ hi

theorem flagOf_writeFlags (s : State) (v m : Word) (g : Flag) :
    flagOf (writeFlags s v m) g = if m.getLsbD g.pos then v.getLsbD g.pos else flagOf s g :=
  LazyFlags.flagValue_writeFlags _ _ _ _

theorem keepsPlainFlags_of_flags {s t : State} (h : t.flags = s.flags) : keepsPlainFlags s t := by
  intro i _
  rw [h]

theorem keepsFlags_of_flags {s t : State} (h : t.flags = s.flags) : keepsFlags s t :=
  ⟨flagOf_congr s t h, keepsPlainFlags_of_flags h⟩

theorem keepsFlags_refl (s : State) : keepsFlags s s := keepsFlags_of_flags rfl

theorem keepsPlainFlags_trans {s t u : State} (h : keepsPlainFlags s t) (g : keepsPlainFlags t u) :
    keepsPlainFlags s u := fun i hi => (g i hi).trans (h i hi)

theorem keepsFlags_trans {s t u : State} (h : keepsFlags s t) (g : keepsFlags t u) : keepsFlags s u :=
  ⟨fun f => (g.1 f).trans (h.1 f), keepsPlainFlags_trans h.2 g.2⟩

theorem keepsPlainFlags_touchFlag (s : State) (f : Flag) : keepsPlainFlags s (touchFlag s f) :=
  fun _ hi => LazyFlags.evaluate_getLsbD _ _ _ (fun e => hi (e ▸ f.pos_mem))

theorem keepsFlags_touchFlag (s : State) (f : Flag) : keepsFlags s (touchFlag s f) :=
  ⟨flagOf_touchFlag s f, keepsPlainFlags_touchFlag s f⟩

theorem keepsFlags_touchAllFlags (s : State) : keepsFlags s (touchAllFlags s) :=
  ⟨flagOf_touchAllFlags s, fun i hi => LazyFlags.evaluateAll_getLsbD _ i hi⟩

theorem keepsPlainFlags_setFlag (s : State) (f : Flag) (b : Bool) : keepsPlainFlags s (setFlag s f b) := by
  intro i hi
  exact (LazyFlags.setFlag_getLsbD _ _ _ _).trans (if_neg fun e => hi (by rw [e]; exact f.pos_mem))

theorem keepsPlainFlags_lazyStore (s : State) (k : FlagKind) (w : Width) (x y r : Word) :
    keepsPlainFlags s (lazyStore s k w x y r) := fun _ _ => rfl

/-- Equal flags, as a program can see them, give equal images. -/
theorem flagsImage_congr {s t : State} (h : keepsFlags s t) : flagsImage t = flagsImage s :=
  LazyFlags.image_congr _ _ h.1 h.2

@[simp] theorem flagsImage_touchAllFlags (s : State) : flagsImage (touchAllFlags s) = flagsImage s :=
  LazyFlags.image_evaluateAll _

/-- Evaluating flags is the flag register alone. -/
theorem touchFlags_spec (fs : List Flag) (s : State) :
    touchFlags s fs = { s with flags := (touchFlags s fs).flags } ∧ keepsFlags s (touchFlags s fs) := by
  induction fs generalizing s with
  | nil => exact ⟨rfl, keepsFlags_refl s⟩
  | cons f fs ih =>
    obtain ⟨h1, h2⟩ := ih (touchFlag s f)
    refine ⟨?_, keepsFlags_trans (keepsFlags_touchFlag s f) h2⟩
    simp only [touchFlags, List.foldl_cons] at h1 ⊢
    rw [h1]
    rfl

theorem touchCond_spec (c : Cond) (s : State) :
    touchCond c s = { s with flags := (touchCond c s).flags } ∧ keepsFlags s (touchCond c s) := touchFlags_spec _ _

/-! ### Undefined flags (R235) -/

theorem leaveFree_decided (s : State) (f : Flag) (h : s.cfg.undefFlags = .decided) : leaveFree s f = s := by
  simp [leaveFree, h]

/-- What leaving a flag free can do: the flag register and the counter alone, and of the flags that one alone. -/
theorem leaveFree_spec (s : State) (f : Flag) :
    leaveFree s f = { s with flags := (leaveFree s f).flags, freeCount := (leaveFree s f).freeCount } ∧
      (∀ g, g ≠ f → flagOf (leaveFree s f) g = flagOf s g) ∧ keepsPlainFlags s (leaveFree s f) := by
  unfold leaveFree
  split
  · exact ⟨rfl, fun _ _ => rfl, fun _ _ => rfl⟩
  · refine ⟨rfl, fun g hg => ?_, keepsPlainFlags_setFlag s f _⟩
    exact (flagOf_setFlag s f g _).trans (if_neg hg)

theorem leaveAllFree_decided (s : State) (fs : List Flag) (h : s.cfg.undefFlags = .decided) : leaveAllFree s fs = s := by
  induction fs with
  | nil => rfl
  | cons f fs ih => simpa [leaveAllFree, leaveFree_decided s f h] using ih

theorem leaveAllFree_spec (fs : List Flag) (s : State) :
    leaveAllFree s fs = { s with flags := (leaveAllFree s fs).flags, freeCount := (leaveAllFree s fs).freeCount } ∧
      (∀ g, g ∉ fs → flagOf (leaveAllFree s fs) g = flagOf s g) ∧ keepsPlainFlags s (leaveAllFree s fs) := by
  induction fs generalizing s with
  | nil => exact ⟨rfl, fun _ _ => rfl, fun _ _ => rfl⟩
  | cons f fs ih =>
    obtain ⟨h1, h2, h3⟩ := ih (leaveFree s f)
    obtain ⟨g1, g2, g3⟩ := leaveFree_spec s f
    refine ⟨?_, fun g hg => ?_, keepsPlainFlags_trans g3 h3⟩
    · simp only [leaveAllFree, List.foldl_cons] at h1 ⊢
      rw [h1, g1]
    · simp only [List.mem_cons, not_or] at hg
      exact (h2 g hg.2).trans (g2 g hg.1)

end Sys2Proof.Machine
end

