-- ==== Sys2Proof/Laws/Fails.lean ====
section
/-! SUPPORT. How an instruction ends whose access fails: one lemma for each way accesses are put in order. -/

namespace Sys2Proof.Machine

/-- `R` fails wherever `r` does, in the same way and the same state. -/
structure FailsLike {α β : Type} (r : Res α) (R : Res β) : Prop where
  raised : ∀ e t, r = .raised e t → R = .raised e t
  aborted : ∀ k t, r = .aborted k t → R = .aborted k t

theorem FailsLike.refl {α : Type} (r : Res α) : FailsLike r r := ⟨fun _ _ h => h, fun _ _ h => h⟩

theorem FailsLike.of_ok {α β : Type} (x : α) (s : State) (R : Res β) : FailsLike (.ok x s) R :=
  ⟨fun _ _ h => (by cases h), fun _ _ h => by cases h⟩

/-- What goes on after `r` fails where `r` fails. -/
theorem FailsLike.left {α β : Type} (r : Res α) (f : α → State → Res β) : FailsLike r (r.andThen f) :=
  ⟨fun e t h => by rw [h]; rfl, fun k t h => by rw [h]; rfl⟩

theorem FailsLike.trans {α β γ : Type} {r : Res α} {q : Res β} {R : Res γ} (h : FailsLike r q) (g : FailsLike q R) :
    FailsLike r R := ⟨fun e t a => g.raised e t (h.raised e t a), fun k t a => g.aborted k t (h.aborted k t a)⟩

/-- After the same first piece. -/
theorem FailsLike.andThen {α β γ : Type} (r : Res α) {f : α → State → Res β} {g : α → State → Res γ}
    (h : ∀ x s, r = .ok x s → FailsLike (f x s) (g x s)) : FailsLike (r.andThen f) (r.andThen g) := by
  cases r with
  | ok x s => exact h x s rfl
  | raised e s => exact ⟨fun _ _ a => (by cases a; rfl), fun _ _ a => by cases a⟩
  | aborted k s => exact ⟨fun _ _ a => (by cases a), fun _ _ a => by cases a; rfl⟩

/-- A last piece that cannot fail adds no failure. -/
theorem FailsLike.of_total {α β : Type} (r : Res α) (f : α → State → Res β) (h : ∀ x s, ∃ y t, f x s = .ok y t) :
    FailsLike (r.andThen f) r := by
  cases r with
  | ok x s =>
    obtain ⟨y, t, e⟩ := h x s
    rw [andThen_ok, e]
    exact .of_ok y t _
  | raised e s => exact ⟨fun _ _ a => (by cases a; rfl), fun _ _ a => by cases a⟩
  | aborted k s => exact ⟨fun _ _ a => (by cases a), fun _ _ a => by cases a; rfl⟩

/-- Where `r` fails, nothing but the listed stores has been written. -/
structure LeavesStores {α : Type} (stores : List (Option Nat × Width)) (s : State) (r : Res α) : Prop where
  raised : ∀ e t, r = .raised e t → StoresFrame stores s t
  aborted : ∀ k t, r = .aborted k t → StoresFrame stores s t

theorem FailsLike.failsAs {α : Type} {stores : List (Option Nat × Width)} {s : State} {r : Res α} {R : Res Unit}
    (h : FailsLike r R) (l : LeavesStores stores s r) : FailsAs stores s (complete R) r :=
  ⟨fun e t a => ⟨by rw [h.raised e t a]; rfl, l.raised e t a⟩, fun k t a => ⟨by rw [h.aborted k t a]; rfl, l.aborted k t a⟩⟩

/-- An access that fails has changed nothing. -/
theorem LeavesStores.of_cases {α : Type} {stores : List (Option Nat × Width)} {s u : State} {r : Res α} {P : Prop}
    (h : StoresFrame stores s u) (c : (P ∧ ∃ x t, r = .ok x t) ∨ (∃ e, r = .raised e u) ∨ ∃ k, r = .aborted k u) :
    LeavesStores stores s r := by
  rcases c with ⟨_, x, t, c⟩ | ⟨e, c⟩ | ⟨k, c⟩
  · exact ⟨fun _ _ a => (by rw [c] at a; cases a), fun _ _ a => by rw [c] at a; cases a⟩
  · exact ⟨fun _ _ a => (by rw [c] at a; cases a; exact h), fun _ _ a => by rw [c] at a; cases a⟩
  · exact ⟨fun _ _ a => (by rw [c] at a; cases a), fun _ _ a => by rw [c] at a; cases a; exact h⟩

theorem StoresFrame.refl (s : State) : StoresFrame [] s s := (DeviceOnly.refl s).readFrame.storesFrame

section
variable {stores : List (Option Nat × Width)} {s u : State} (h : StoresFrame stores s u)
include h

theorem leaves_segRead (r : SegReg) (off : Word) (w : Width) : LeavesStores stores s (segRead u r off w) := by
  refine LeavesStores.of_cases (P := True) h ?_
  rcases segRead_cases u r off w with ⟨x, t, c, _⟩ | c
  · exact .inl ⟨trivial, x, t, c⟩
  · exact .inr c

theorem leaves_segWrite (r : SegReg) (off : Word) (w : Width) (v : Word) :
    LeavesStores stores s (segWrite u r off w v) := by
  refine LeavesStores.of_cases (P := True) h ?_
  rcases segWrite_cases u r off w v with ⟨t, _, c, _⟩ | c
  · exact .inl ⟨trivial, (), t, c⟩
  · exact .inr c

theorem leaves_readOp (a : Attrs) (op : Operand) : LeavesStores stores s (readOp a u op) := by
  refine LeavesStores.of_cases (P := True) h ?_
  rcases readOp_cases a u op with ⟨x, t, c, _⟩ | c
  · exact .inl ⟨trivial, x, t, c⟩
  · exact .inr c

theorem leaves_writeOp (a : Attrs) (op : Operand) (v : Word) : LeavesStores stores s (writeOp a u op v) := by
  refine LeavesStores.of_cases (P := True) h ?_
  rcases writeOp_cases a u op v with ⟨t, c, _⟩ | c
  · exact .inl ⟨trivial, (), t, c⟩
  · exact .inr c

end

/-- A read that answers has changed nothing but the device's record. -/
theorem segRead_device {s t : State} {r : SegReg} {off : Word} {w : Width} {x : Word} (h : segRead s r off w = .ok x t) :
    DeviceOnly s t := by
  rcases segRead_cases s r off w with ⟨y, u, c, d⟩ | ⟨e, c⟩ | ⟨k, c⟩
  · rw [h] at c
    cases c
    exact d
  · rw [h] at c
    cases c
  · rw [h] at c
    cases c

theorem readOp_device {a : Attrs} {s t : State} {op : Operand} {x : Word} (h : readOp a s op = .ok x t) :
    DeviceOnly s t := by
  cases op with
  | reg w r => cases h; exact .refl s
  | mem w m => exact segRead_device h
  | imm i => cases h; exact .refl s

/-- A write that ends normally was one that can be made. -/
theorem segWrite_stored {s t : State} {r : SegReg} {off : Word} {w : Width} {v : Word} (h : segWrite s r off w v = .ok () t) :
    Stored s t (storeHome s r off w) w v := by
  have hc : canAccess s r off w := by
    unfold segWrite at h
    split at h
    · rcases segFault_cases (α := Unit) s r off 0 with ⟨_, e⟩ | ⟨_, e⟩ <;> rw [e] at h <;> cases h
    · split at h
      · rcases segFault_cases (α := Unit) s r off (errLimit s off) with ⟨_, e⟩ | ⟨_, e⟩ <;> rw [e] at h <;> cases h
      · refine ⟨by simp_all, by simp_all, ?_⟩
        unfold linWrite at h
        split at h
        · cases h
        · refine ⟨by simp_all, ?_⟩
          cases hm : mapPhysical s (linearOf s r off) w with
          | none => rw [memWrite_unmapped s _ w v hm] at h; cases h
          | some x => rfl
  obtain ⟨u, e, d⟩ := segWrite_ok s r off w v hc
  rw [h] at e
  cases e
  exact d

/-- Of two pieces in order, a failure of either leaves what its piece leaves. -/
theorem LeavesStores.andThen {α β : Type} {stores : List (Option Nat × Width)} {s : State} {r : Res α}
    {f : α → State → Res β} (h : LeavesStores stores s r) (g : ∀ x t, r = .ok x t → LeavesStores stores s (f x t)) :
    LeavesStores stores s (r.andThen f) := by
  cases r with
  | ok x t => exact g x t rfl
  | raised e t => exact ⟨fun _ _ a => (by cases a; exact h.raised e t rfl), fun _ _ a => by cases a⟩
  | aborted k t => exact ⟨fun _ _ a => (by cases a), fun _ _ a => by cases a; exact h.aborted k t rfl⟩

theorem leaves_ok {α : Type} (stores : List (Option Nat × Width)) (s t : State) (x : α) :
    LeavesStores stores s (.ok x t : Res α) := ⟨fun _ _ h => (by cases h), fun _ _ h => by cases h⟩

theorem leaves_readOps {s : State} (a : Attrs) (ops : List Operand) (u : State) (h : StoresFrame [] s u) :
    LeavesStores [] s (readOps a ops u) := by
  induction ops generalizing u with
  | nil => exact leaves_ok _ _ _ _
  | cons op ops ih =>
    refine (leaves_readOp h a op).andThen fun x t e => (ih t ?_).andThen fun _ _ _ => leaves_ok _ _ _ _
    exact h.trans (readOp_device e).readFrame.storesFrame

theorem leaves_peekAll {s : State} (sz : Size) (ks : List Nat) (u : State) (h : StoresFrame [] s u) :
    LeavesStores [] s (peekAll sz ks u) := by
  induction ks generalizing u with
  | nil => exact leaves_ok _ _ _ _
  | cons k ks ih =>
    refine (leaves_segRead h .ss _ _).andThen fun x t e => (ih t ?_).andThen fun _ _ _ => leaves_ok _ _ _ _
    exact h.trans (segRead_device e).readFrame.storesFrame

theorem leaves_readParts {s : State} (a : Attrs) (m : MemRef) (w : Width) (k : Nat) (w' : Width) :
    LeavesStores [] s (readParts a m w k w' s) := by
  refine (leaves_segRead (.refl s) _ _ _).andThen fun x t e => (leaves_segRead ?_ _ _ _).andThen fun _ _ _ => leaves_ok _ _ _ _
  exact (segRead_device e).readFrame.storesFrame

/-- An instruction that goes on after two operands fails where reading them in order fails. -/
theorem readOps_two {β : Type} (a : Attrs) (x y : Operand) (s : State) (f : Word → Word → State → Res β) :
    FailsLike (readOps a [x, y] s) ((readOp a s x).andThen fun v s => (readOp a s y).andThen fun w s => f v w s) :=
  .andThen _ fun _ _ _ => ((FailsLike.of_total _ _ fun _ _ => ⟨_, _, rfl⟩).trans (.of_total _ _ fun _ _ => ⟨_, _, rfl⟩)).trans
    (.left _ _)

/-- The same for two and three stack slots, and for a pointer in memory. -/
theorem peekAll_two {β : Type} (sz : Size) (i j : Nat) (s : State) (f : Word → Word → State → Res β) :
    FailsLike (peekAll sz [i, j] s) ((peek s sz i).andThen fun v s => (peek s sz j).andThen fun w s => f v w s) :=
  .andThen _ fun _ _ _ => ((FailsLike.of_total _ _ fun _ _ => ⟨_, _, rfl⟩).trans (.of_total _ _ fun _ _ => ⟨_, _, rfl⟩)).trans
    (.left _ _)

theorem peekAll_three {β : Type} (sz : Size) (i j k : Nat) (s : State) (f : Word → Word → Word → State → Res β) :
    FailsLike (peekAll sz [i, j, k] s) ((peek s sz i).andThen fun v s => (peek s sz j).andThen fun w s =>
      (peek s sz k).andThen fun z s => f v w z s) :=
  .andThen _ fun _ t _ => (FailsLike.of_total _ _ fun _ _ => ⟨_, _, rfl⟩).trans (peekAll_two sz j k t _)

theorem readParts_then {β : Type} (a : Attrs) (m : MemRef) (w : Width) (k : Nat) (w' : Width) (s : State)
    (f : Word → Word → State → Res β) :
    FailsLike (readParts a m w k w' s) ((segRead s (segFor a m) (effAddr s m 0) w).andThen fun x s =>
      (segRead s (segFor a m) (effAddr s m k) w').andThen fun y s => f x y s) :=
  .andThen _ fun _ _ _ => (FailsLike.of_total _ _ fun _ _ => ⟨_, _, rfl⟩).trans (.left _ _)

/-! ### Descriptors and selector loads -/

theorem ReadFrame.trans {s t u : State} (h : ReadFrame s t) (g : ReadFrame t u) : ReadFrame s u :=
  ⟨g.regs.trans h.regs, g.mem.trans h.mem, g.flags.trans h.flags, g.eip.trans h.eip, h.system.trans g.system⟩

/-- Where `r` fails, nothing but the device's record has changed. -/
structure FailsReading {α : Type} (s : State) (r : Res α) : Prop where
  raised : ∀ e t, r = .raised e t → ReadFrame s t
  aborted : ∀ k t, r = .aborted k t → ReadFrame s t

theorem FailsReading.of_ok {α : Type} (s t : State) (x : α) : FailsReading s (.ok x t : Res α) :=
  ⟨fun _ _ h => (by cases h), fun _ _ h => by cases h⟩

theorem FailsReading.of_raised {α : Type} {s t : State} (h : ReadFrame s t) (e : Exc) :
    FailsReading s (.raised e t : Res α) := ⟨fun _ _ a => (by cases a; exact h), fun _ _ a => by cases a⟩

theorem FailsReading.of_aborted {α : Type} {s t : State} (h : ReadFrame s t) (k : AbortInfo) :
    FailsReading s (.aborted k t : Res α) := ⟨fun _ _ a => (by cases a), fun _ _ a => by cases a; exact h⟩

theorem FailsReading.andThen {α β : Type} {s : State} {r : Res α} {f : α → State → Res β} (h : FailsReading s r)
    (g : ∀ x t, r = .ok x t → FailsReading s (f x t)) : FailsReading s (r.andThen f) := by
  cases r with
  | ok x t => exact g x t rfl
  | raised e t => exact .of_raised (h.raised e t rfl) e
  | aborted k t => exact .of_aborted (h.aborted k t rfl) k

theorem failsReading_raiseIf {s t : State} (h : ReadFrame s t) (c : Bool) (e : Exc) : FailsReading s (raiseIf c e t) := by
  cases c
  · exact .of_ok _ _ _
  · exact .of_raised h e

theorem failsReading_abortIf {s t : State} (h : ReadFrame s t) (c : Bool) (k : AbortInfo) :
    FailsReading s (abortIf c k t) := by
  cases c
  · exact .of_ok _ _ _
  · exact .of_aborted h k

/-- What reading a descriptor can do: answer or abort, with nothing changed but the device's record. -/
theorem readQuad_cases (s : State) (a : Word) :
    (∃ d t, readQuad s a = .ok d t ∧ ReadFrame s t) ∨ ∃ k t, readQuad s a = .aborted k t ∧ ReadFrame s t := by
  unfold readQuad
  rcases linRead_cases s a .dword with ⟨x, t, h, d⟩ | ⟨k, h⟩
  · rw [h, andThen_ok]
    rcases linRead_cases t (a + 4) .dword with ⟨y, u, g, d'⟩ | ⟨k, g⟩
    · exact .inl ⟨_, u, by rw [g]; rfl, (d.trans d').readFrame⟩
    · exact .inr ⟨k, t, by rw [g]; rfl, d.readFrame⟩
  · exact .inr ⟨k, s, by rw [h]; rfl, (DeviceOnly.refl s).readFrame⟩

theorem fetchRawDescriptor_cases (s : State) (v : BitVec 16) (ext : Bool) :
    (∃ d t, fetchRawDescriptor s v ext = .ok d t ∧ ReadFrame s t) ∨
      (∃ e, fetchRawDescriptor s v ext = .raised e s) ∨
      ∃ k t, fetchRawDescriptor s v ext = .aborted k t ∧ ReadFrame s t := by
  unfold fetchRawDescriptor
  split
  · exact .inr (.inl ⟨_, rfl⟩)
  · split
    · exact .inr (.inl ⟨_, rfl⟩)
    · rename_i base limit _ _
      rcases readQuad_cases s (base + BitVec.ofNat 32 (selIndex v * 8)) with ⟨d, t, h, f⟩ | ⟨k, t, h, f⟩
      · exact .inl ⟨_, t, by dsimp only; rw [h]; rfl, f⟩
      · exact .inr (.inr ⟨k, t, by dsimp only; rw [h]; rfl, f⟩)

/-- A load goes on after its descriptor. -/
theorem FailsReading.afterDescriptor {α : Type} (s : State) (v : BitVec 16) (ext : Bool)
    (f : Descriptor × Word → State → Res α) (g : ∀ d t, ReadFrame s t → FailsReading s (f d t)) :
    FailsReading s ((fetchRawDescriptor s v ext).andThen f) := by
  rcases fetchRawDescriptor_cases s v ext with ⟨d, t, h, r⟩ | ⟨e, h⟩ | ⟨k, t, h, r⟩
  · rw [h, andThen_ok]
    exact g d t r
  · rw [h]
    exact .of_raised (DeviceOnly.refl s).readFrame e
  · rw [h]
    exact .of_aborted r k

theorem failsReading_commitSeg {s t : State} (h : ReadFrame s t) (r : SegReg) (v : BitVec 16) (d : Descriptor) (a : Word) :
    FailsReading s (commitSeg t r v d a) := by
  refine FailsReading.andThen ?_ fun _ _ _ => .of_ok _ _ _
  unfold markAccessed
  split
  · exact .of_ok _ _ _
  · rcases linWrite_cases t (a + 5) .byte ((descAccess d ||| 1).setWidth 32) with ⟨u, _, e, _⟩ | ⟨k, e⟩
    · rw [e]
      exact .of_ok _ _ _
    · rw [e]
      exact .of_aborted h k

theorem raiseIf_state {s t : State} {c : Bool} {e : Exc} {x : Unit} (h : raiseIf c e s = .ok x t) : t = s := by
  cases c <;> cases h
  rfl

theorem abortIf_state {s t : State} {c : Bool} {k : AbortInfo} {x : Unit} (h : abortIf c k s = .ok x t) : t = s := by
  cases c <;> cases h
  rfl

theorem failsReading_csPrivilege {s t : State} (h : ReadFrame s t) (v : BitVec 16) (d : Descriptor) (kind : CsKind)
    (err : Word) : FailsReading s (csPrivilege t v d kind err) := by
  cases kind with
  | jump => unfold csPrivilege; dsimp only; split <;> exact failsReading_raiseIf h _ _
  | ret =>
    refine (failsReading_raiseIf h _ _).andThen fun _ u e => ?_
    rw [raiseIf_state e]
    refine (failsReading_abortIf h _ _).andThen fun _ u e => ?_
    rw [abortIf_state e]
    split <;> exact failsReading_raiseIf h _ _
  | int =>
    refine (failsReading_raiseIf h _ _).andThen fun _ u e => ?_
    rw [raiseIf_state e]
    exact failsReading_abortIf h _ _

/-- What a CS load's privilege rules answer, they answer in the same state. -/
theorem csPrivilege_state {s t : State} {v : BitVec 16} {d : Descriptor} {kind : CsKind} {err : Word} {x : Unit}
    (h : csPrivilege s v d kind err = .ok x t) : t = s := by
  cases kind with
  | jump => unfold csPrivilege at h; dsimp only at h; split at h <;> exact raiseIf_state h
  | ret =>
    obtain ⟨_, u, e, h⟩ := andThen_eq_ok h
    obtain ⟨_, u', e', h⟩ := andThen_eq_ok h
    rw [← raiseIf_state e, ← abortIf_state e']
    split at h <;> exact raiseIf_state h
  | int =>
    obtain ⟨_, u, e, h⟩ := andThen_eq_ok h
    rw [← raiseIf_state e]
    exact abortIf_state h

theorem failsReading_loadData (s : State) (r : SegReg) (v : BitVec 16) : FailsReading s (loadData s r v) := by
  unfold loadData
  split
  · exact .of_ok _ _ _
  · refine .afterDescriptor s v false _ fun d t h => ?_
    repeat' split
    all_goals first | exact .of_raised h _ | exact .of_aborted h _ | exact failsReading_commitSeg h _ _ _ _

theorem failsReading_loadSs (s : State) (v : BitVec 16) : FailsReading s (loadSs s v) := by
  unfold loadSs
  split
  · exact .of_raised (DeviceOnly.refl s).readFrame _
  · split
    · exact .of_raised (DeviceOnly.refl s).readFrame _
    · refine .afterDescriptor s v false _ fun d t h => ?_
      repeat' split
      all_goals first | exact .of_raised h _ | exact .of_aborted h _ | exact failsReading_commitSeg h _ _ _ _

theorem failsReading_loadCs (s : State) (v : BitVec 16) (kind : CsKind) (ext : Bool) :
    FailsReading s (loadCs s v kind ext) := by
  unfold loadCs
  split
  · exact .of_raised (DeviceOnly.refl s).readFrame _
  · refine .afterDescriptor s v ext _ fun d t h => ?_
    split
    · exact .of_aborted h _
    · split
      · exact .of_raised h _
      · refine (failsReading_csPrivilege h v d.1 kind _).andThen fun _ u e => ?_
        rw [csPrivilege_state e]
        split
        · exact .of_raised h _
        · exact (failsReading_commitSeg h _ _ _ _).andThen fun _ _ _ => .of_ok _ _ _

/-- A selector load that fails has read memory alone (20_memory R101 to R107: "without mutating the cache"). -/
theorem failsReading_loadSeg (s : State) (r : SegReg) (v : BitVec 16) (kind : CsKind) (ext : Bool) :
    FailsReading s (loadSeg s r v kind ext) := by
  unfold loadSeg
  split
  · split
    · exact failsReading_loadCs s v kind ext
    · exact failsReading_loadSs s v
    all_goals exact failsReading_loadData s _ v
  · exact .of_ok _ _ _

/-! ### Stack slots -/

/-- Slots are written one after another. -/
theorem storeSlots_append (s₀ : State) (sz : Size) (vs ws : List Word) (i : Nat) (s : State) :
    storeSlots s₀ sz i (vs ++ ws) s =
      (storeSlots s₀ sz i vs s).andThen fun _ s => storeSlots s₀ sz (i + vs.length) ws s := by
  induction vs generalizing i s with
  | nil => rfl
  | cons v vs ih =>
    simp only [List.cons_append, storeSlots, List.length_cons]
    cases segWrite s .ss (slotBelow s₀ ((i + 1) * sz.bytes)) sz.width v with
    | ok x t => simp only [andThen_ok, ih (i + 1) t, Nat.add_assoc, Nat.add_comm 1]
    | raised e t => rfl
    | aborted k t => rfl

/-- The slots before a failing one are stored, and nothing else. -/
theorem storeSlots_ok {s₀ : State} {sz : Size} {vs : List Word} {i : Nat} {u t : State} (hk : KeepsSystem s₀ u)
    (h : storeSlots s₀ sz i vs u = .ok () t) :
    StoresFrame ((List.range vs.length).map fun j =>
      (storeHome s₀ .ss (slotBelow s₀ ((i + j + 1) * sz.bytes)) sz.width, sz.width)) u t := by
  induction vs generalizing i u with
  | nil => cases h; exact .refl _
  | cons v vs ih =>
    obtain ⟨x, w, e, h⟩ := andThen_eq_ok h
    have d := segWrite_stored e
    rw [storeHome_of_system hk] at d
    have := d.storesFrame.trans (ih (hk.trans d.keepsSystem) h)
    rw [List.length_cons, List.range_succ_eq_map]
    simpa [Nat.add_assoc, Nat.add_comm 1, Function.comp_def] using this

theorem storeSlots_frame {s u t : State} {sz : Size} {vs : List Word} (hu : StoresFrame [] s u)
    (h : storeSlots s sz 0 vs u = .ok () t) : StoresFrame (slotStores s sz vs.length) s t := by
  have := hu.trans (storeSlots_ok hu.system h)
  simpa [slotStores] using this

/-- The store of slot `i`, once those before it are made, is where the whole sequence fails. -/
theorem storeSlots_failsLike {s u t : State} {sz : Size} {vs : List Word} (i : Nat) (hi : i < vs.length)
    (h : storeSlots s sz 0 (vs.take i) u = .ok () t) :
    FailsLike (segWrite t .ss (slotBelow s ((i + 1) * sz.bytes)) sz.width vs[i]) (storeSlots s sz 0 vs u) := by
  have e := storeSlots_append s sz (vs.take i) (vs.drop i) 0 u
  rw [List.take_append_drop, h, andThen_ok, Nat.zero_add, List.length_take_of_le (Nat.le_of_lt hi),
    List.drop_eq_getElem_cons hi] at e
  rw [e]
  exact .left _ _

/-- An instruction that fails wherever its slots do. -/
theorem failsInSlots {s u : State} {R : Res Unit} {sz : Size} {vs : List Word} (hu : StoresFrame [] s u)
    (h : FailsLike (storeSlots s sz 0 vs u) R) : FailsInSlots s (complete R) sz vs u := by
  intro i hi t e
  have hf := storeSlots_frame hu e
  rw [List.length_take_of_le (Nat.le_of_lt hi)] at hf
  exact ((storeSlots_failsLike i hi e).trans h).failsAs (leaves_segWrite hf _ _ _ _)

end Sys2Proof.Machine
end

