-- ==== Sys2Proof/Laws/Fetch.lean ====
section
/-! SUPPORT. Fetching instruction bytes that stand in buffers. -/

namespace Sys2Proof.Machine

/-- The bytes from offset `off` of CS are `bs`, each in a buffer and within the limit. -/
def holdsAt (s : State) (off : Word) (bs : List Byte) : Prop :=
  ∀ k (h : k < bs.length), canAccess s .cs (off + BitVec.ofNat 32 k) .byte ∧
    ∃ b, storeHome s .cs (off + BitVec.ofNat 32 k) .byte = some b ∧ Mem.read s.mem b = bs[k]

theorem holdsCode_holdsAt (s : State) (bs : List Byte) : holdsCode s bs ↔ holdsAt s s.eip bs := Iff.rfl

theorem holdsAt_cons {s : State} {off : Word} {b : Byte} {bs : List Byte} (h : holdsAt s off (b :: bs)) :
    segRead s .cs off .byte = .ok (wordOfBytes [b]) s ∧ holdsAt s (off + 1) bs := by
  constructor
  · obtain ⟨h1, c, h2, h3⟩ := h 0 (Nat.succ_pos _)
    rw [show off + BitVec.ofNat 32 0 = off from BitVec.add_zero off] at h1 h2
    rw [segRead_home s .cs off .byte c h1 h2]
    show Res.ok (wordOfBytes [Mem.read s.mem c]) s = _
    rw [h3]
    rfl
  · intro k hk
    have := h (k + 1) (Nat.succ_lt_succ hk)
    rwa [show off + BitVec.ofNat 32 (k + 1) = off + 1 + BitVec.ofNat 32 k by
      rw [Nat.add_comm, BitVec.ofNat_add, ← BitVec.add_assoc]
      rfl] at this

theorem byteOf_wordOfBytes (b : Byte) : byteOf (wordOfBytes [b]) 0 = b := by
  apply BitVec.eq_of_getLsbD_eq
  intro i hi
  interval_cases i <;> simp [byteOf, wordOfBytes]

/-- Fetching the held bytes and `m` more: the held bytes come first and change nothing. -/
theorem fetchBytes_holds (s : State) (bs : List Byte) (off : Word) (m : Nat) (h : holdsAt s off bs) :
    fetchBytes (bs.length + m) off s =
      (bs ++ (fetchBytes m (off + BitVec.ofNat 32 bs.length) s).1, (fetchBytes m (off + BitVec.ofNat 32 bs.length) s).2) := by
  induction bs generalizing off with
  | nil => simp
  | cons b bs ih =>
    obtain ⟨h1, h2⟩ := holdsAt_cons h
    rw [List.length_cons, Nat.add_right_comm]
    have e : off + 1 + BitVec.ofNat 32 bs.length = off + BitVec.ofNat 32 (bs.length + 1) := by
      rw [Nat.add_comm bs.length, BitVec.ofNat_add, ← BitVec.add_assoc]
      rfl
    simp only [fetchBytes, h1, ih (off + 1) h2, e, byteOf_wordOfBytes, List.cons_append]

/-- Fetching exactly the held bytes. -/
theorem fetchBytes_holds_all (s : State) (bs : List Byte) (off : Word) (h : holdsAt s off bs) :
    fetchBytes bs.length off s = (bs, .ok () s) := by
  have := fetchBytes_holds s bs off 0 h
  simpa [fetchBytes] using this

/-- Any first part of the held bytes is held. -/
theorem holdsAt_take {s : State} {off : Word} {bs cs : List Byte} (h : holdsAt s off (bs ++ cs)) : holdsAt s off bs := by
  intro k hk
  have := h k (by rw [List.length_append]; omega)
  rwa [List.getElem_append_left hk] at this

end Sys2Proof.Machine
end

