-- ==== Sys2Proof/Laws/Stable.lean ====
section
/-! SUPPORT. What an instruction can do, said once: a relation that every primitive update of the state respects holds between
the state before an instruction and the state it ends in, an exception it takes included. -/

namespace Sys2Proof.Machine

/-- A relation respected by the updates that memory accesses, segment loads and delivery make, each in the form the machine
makes it. -/
structure StableDelivery (R : State → State → Prop) : Prop where
  refl : ∀ s, R s s
  trans : ∀ {s t u}, R s t → R t u → R s u
  sp : ∀ s v, R s (setStackPtr s v)
  eip : ∀ s v, R s (setEip s v)
  seg : ∀ s r v, R s (setSeg s r v)
  touchAll : ∀ s, R s (touchAllFlags s)
  plain : ∀ s i b, (i = tfPos ∨ i = ifPos ∨ i = dfPos ∨ i = ntPos ∨ i = rfPos) → R s (setPlainFlag s i b)
  mem : ∀ s a w v, R s (setMem s (storeBytes s.mem a w v))
  vga : ∀ s v, v.registered = s.vga.registered → R s { s with vga := v }

/-- A relation respected by the updates the machine makes. The five updates of system registers (`setLdtr`, `setGdtr`,
`setIdtr`, `setCtl`, `setDbg`) are not among them: seven instructions make them. -/
structure Stable (R : State → State → Prop) : Prop extends StableDelivery R where
  reg : ∀ s w r v, R s (setReg s w r v)
  flag : ∀ s f b, R s (setFlag s f b)
  touch : ∀ s f, R s (touchFlag s f)
  store : ∀ s k w x y r, (k = .add ∨ k = .adc ∨ k = .sub ∨ k = .sbb ∨ k = .cmp ∨ k = .neg ∨ k = .logic ∨ k = .mul ∨
    k = .imul) → R s (lazyStore s k w x y r)
  storeStep : ∀ s k w x y r c, (k = .inc ∨ k = .dec) → R s (setFlag (lazyStore s k w x y r) .cf c)
  storeShift : ∀ s k w x y r c o, (k = .shl ∨ k = .shr ∨ k = .sar) →
    R s (setFlag (setFlag (lazyStore s k w x y r) .cf c) .ovf o)
  write : ∀ s v m, m &&& ~~~(0x00017FD5 : Word) = 0 → R s (writeFlags s v m)
  free : ∀ s, R s { s with freeCount := s.freeCount + 1 }

/-- How an instruction can end: in a state related to the one before it, halted or aborted from there at most. -/
def Ends (R : State → State → Prop) (s t : State) : Prop :=
  ∃ u, R s u ∧ (t = u ∨ (∃ b, t = haltState u b) ∨ ∃ k, t = abortState u k)

/-- The state a piece of an instruction leaves, however it ends, is related to `s`. -/
def Res.within {α : Type} (R : State → State → Prop) (s : State) : Res α → Prop
  | .ok _ t => R s t
  | .raised _ t => R s t
  | .aborted _ t => R s t

section
variable {R : State → State → Prop} (h : StableDelivery R)
include h

theorem within_ok {α : Type} {x : α} {s t : State} (g : R s t) : (Res.ok x t).within R s := h.trans (h.refl s) g

theorem within_andThen {α β : Type} {s : State} {r : Res α} {f : α → State → Res β} (h1 : r.within R s)
    (h2 : ∀ x t, r = .ok x t → (f x t).within R t) : (r.andThen f).within R s := by
  cases r with
  | ok x t =>
    have h3 := h2 x t rfl
    simp only [andThen_ok]
    cases hf : f x t with
    | ok y u => rw [hf] at h3; exact h.trans h1 h3
    | raised y u => rw [hf] at h3; exact h.trans h1 h3
    | aborted y u => rw [hf] at h3; exact h.trans h1 h3
  | raised x t => exact h1
  | aborted x t => exact h1

theorem within_of_rel {α : Type} {s t : State} {r : Res α} (h1 : R s t) (h2 : r.within R t) : r.within R s := by
  cases r with
  | ok y u => exact h.trans h1 h2
  | raised y u => exact h.trans h1 h2
  | aborted y u => exact h.trans h1 h2

theorem raiseIf_within (c : Bool) (e : Exc) (s : State) : (raiseIf c e s).within R s := by
  unfold raiseIf
  split <;> exact h.refl s

theorem abortIf_within (c : Bool) (k : AbortInfo) (s : State) : (abortIf c k s).within R s := by
  unfold abortIf
  split <;> exact h.refl s

/-! ### Memory -/

theorem vgaRecord_rel (s : State) (v : Vga) (c : VgaCall) (hv : v.registered = s.vga.registered) :
    R s (vgaRecord s v c) := h.vga s _ hv

theorem memRead_within (s : State) (a : Word) (w : Width) : (memRead s a w).within R s := by
  unfold memRead
  split
  · exact h.refl s
  · exact vgaRecord_rel h s _ _ (vgaAfterAnswer_registered s.vga)
  · exact h.refl s

theorem memWrite_within (s : State) (a : Word) (w : Width) (v : Word) : (memWrite s a w v).within R s := by
  unfold memWrite
  split
  · exact h.refl s
  · exact vgaRecord_rel h s _ _ rfl
  · exact h.mem s _ _ _

theorem linRead_within (s : State) (a : Word) (w : Width) : (linRead s a w).within R s := by
  unfold linRead
  split
  · exact h.refl s
  · exact memRead_within h s a w

theorem linWrite_within (s : State) (a : Word) (w : Width) (v : Word) : (linWrite s a w v).within R s := by
  unfold linWrite
  split
  · exact h.refl s
  · exact memWrite_within h s a w v

theorem segFault_within {α : Type} (s : State) (r : SegReg) (off err : Word) :
    (segFault s r off err : Res α).within R s := by
  unfold segFault
  split <;> exact h.refl s

theorem segRead_within (s : State) (r : SegReg) (off : Word) (w : Width) : (segRead s r off w).within R s := by
  unfold segRead
  split
  · exact segFault_within h s r off _
  · split
    · exact segFault_within h s r off _
    · exact linRead_within h s _ w

theorem segWrite_within (s : State) (r : SegReg) (off : Word) (w : Width) (v : Word) :
    (segWrite s r off w v).within R s := by
  unfold segWrite
  split
  · exact segFault_within h s r off _
  · split
    · exact segFault_within h s r off _
    · exact linWrite_within h s _ w v

/-! ### The stack -/

theorem readFar_within (a : Attrs) (s : State) (m : MemRef) : (readFar a s m).within R s :=
  within_andThen h (segRead_within h s _ _ _) fun _ t _ =>
    within_andThen h (segRead_within h t _ _ _) fun _ u _ => h.refl u

theorem drop_rel (s : State) (k : Nat) : R s (drop s k) := h.sp s _

theorem push_within (s : State) (sz : Size) (v : Word) : (push s sz v).within R s :=
  within_andThen h (segWrite_within h s _ _ _ _) fun _ t _ => h.sp t _

theorem peek_within (s : State) (sz : Size) (k : Nat) : (peek s sz k).within R s := segRead_within h s _ _ _

theorem pop_within (s : State) (sz : Size) : (pop s sz).within R s :=
  within_andThen h (peek_within h s sz 0) fun _ t _ => drop_rel h t _

/-! ### Descriptors and segment loads -/

theorem readQuad_within (s : State) (a : Word) : (readQuad s a).within R s :=
  within_andThen h (linRead_within h s _ _) fun _ t _ =>
    within_andThen h (linRead_within h t _ _) fun _ u _ => h.refl u

theorem fetchRawDescriptor_within (s : State) (sel : BitVec 16) (ext : Bool) :
    (fetchRawDescriptor s sel ext).within R s := by
  unfold fetchRawDescriptor
  split
  · exact h.refl s
  · split
    · exact h.refl s
    · exact within_andThen h (readQuad_within h s _) fun _ t _ => h.refl t

theorem commitSeg_within (s : State) (r : SegReg) (v : BitVec 16) (d : Descriptor) (a : Word) :
    (commitSeg s r v d a).within R s := by
  refine within_andThen h ?_ fun _ t _ => h.seg t _ _
  unfold markAccessed
  split
  · exact h.refl s
  · exact linWrite_within h s _ _ _

theorem loadSs_within (s : State) (v : BitVec 16) : (loadSs s v).within R s := by
  unfold loadSs
  split
  · exact h.refl s
  · split
    · exact h.refl s
    · refine within_andThen h (fetchRawDescriptor_within h s v false) fun da t _ => ?_
      split
      · exact h.refl t
      · split
        · exact h.refl t
        · split
          · exact h.refl t
          · split
            · exact h.refl t
            · exact commitSeg_within h t _ _ _ _

theorem loadData_within (s : State) (r : SegReg) (v : BitVec 16) : (loadData s r v).within R s := by
  unfold loadData
  split
  · exact h.seg s _ _
  · refine within_andThen h (fetchRawDescriptor_within h s v false) fun da t _ => ?_
    split
    · exact h.refl t
    · split
      · exact h.refl t
      · split
        · exact h.refl t
        · split
          · exact h.refl t
          · exact commitSeg_within h t _ _ _ _

theorem csPrivilege_within (s : State) (v : BitVec 16) (d : Descriptor) (k : CsKind) (err : Word) :
    (csPrivilege s v d k err).within R s := by
  cases k with
  | jump =>
    unfold csPrivilege
    dsimp only
    split <;> exact raiseIf_within h _ _ s
  | ret =>
    refine within_andThen h (raiseIf_within h _ _ s) fun _ t _ =>
      within_andThen h (abortIf_within h _ _ t) fun _ u _ => ?_
    split <;> exact raiseIf_within h _ _ u
  | int => exact within_andThen h (raiseIf_within h _ _ s) fun _ t _ => abortIf_within h _ _ t

omit h in
/-- The selector a CS load stores has the current level as its RPL (20_memory R107), so CPL stays (R108). -/
theorem selRpl_csSelector (s : State) (v : BitVec 16) : selRpl (csSelector s v) = s.cpl := by
  unfold selRpl csSelector
  apply BitVec.eq_of_getLsbD_eq
  intro i hi
  interval_cases i <;> simp

omit h in
theorem commitSeg_ok {s t : State} {r : SegReg} {v : BitVec 16} {d : Descriptor} {a : Word}
    (hc : commitSeg s r v d a = .ok () t) : getSeg t r = loadedSeg v d ∧ t.cpl = s.cpl := by
  obtain ⟨_, u, h1, h2⟩ := andThen_eq_ok hc
  cases h2
  refine ⟨getSeg_setSeg_same _ _ _, ?_⟩
  unfold markAccessed at h1
  split at h1
  · cases h1
    rfl
  · rcases linWrite_cases s (a + 5) .byte ((descAccess d ||| 1).setWidth 32) with ⟨t', home, g1, g2⟩ | ⟨k, g1⟩
    · rw [g1] at h1
      cases h1
      exact g2.cpl
    · rw [g1] at h1
      cases h1

theorem loadCs_within (s : State) (v : BitVec 16) (k : CsKind) (ext : Bool) : (loadCs s v k ext).within R s := by
  unfold loadCs
  split
  · exact h.refl s
  · refine within_andThen h (fetchRawDescriptor_within h s v ext) fun da t _ => ?_
    split
    · exact h.refl t
    · split
      · exact h.refl t
      · refine within_andThen h (csPrivilege_within h t v _ k _) fun _ u _ => ?_
        split
        · exact h.refl u
        · refine within_andThen h (commitSeg_within h u _ _ _ _) fun _ x hx => ?_
          obtain ⟨e1, e2⟩ := commitSeg_ok hx
          have : setCpl x (selRpl (getSeg x .cs).value) = x := by
            rw [e1]
            show setCpl x (selRpl (csSelector u v)) = x
            rw [selRpl_csSelector, ← e2]
            rfl
          rw [this]
          exact h.refl x

theorem loadSeg_within (s : State) (r : SegReg) (v : BitVec 16) (k : CsKind) (ext : Bool) :
    (loadSeg s r v k ext).within R s := by
  unfold loadSeg
  split
  · cases r with
    | cs => exact loadCs_within h s v k ext
    | ss => exact loadSs_within h s v
    | ds => exact loadData_within h s _ v
    | es => exact loadData_within h s _ v
    | fs => exact loadData_within h s _ v
    | gs => exact loadData_within h s _ v
  · exact h.seg s _ _

theorem farTransfer_within (s : State) (sel : BitVec 16) (off : Word) (k : CsKind) :
    (farTransfer s sel off k).within R s :=
  within_andThen h (loadSeg_within h s _ _ _ _) fun _ t _ => h.eip t _

/-! ### Taking an exception or an interrupt, and the return -/

theorem deliverReal_within (s : State) (v : Byte) (ret : Word) : (deliverReal s v ret).within R s := by
  unfold deliverReal
  split
  · exact h.refl s
  · exact within_andThen h (linRead_within h s _ _) fun _ t _ =>
      within_andThen h (linRead_within h t _ _) fun _ u _ =>
      within_andThen h (within_of_rel h (h.touchAll u) (push_within h _ _ _)) fun _ x _ =>
      within_andThen h (push_within h x _ _) fun _ y _ =>
      within_andThen h (push_within h y _ _) fun _ z _ =>
      h.trans (h.plain z ifPos false (by simp)) (h.trans (h.plain _ tfPos false (by simp))
        (h.trans (h.seg _ _ _) (h.eip _ _)))

theorem writeFrame_within (s : State) (sz : Size) (ret : Word) (err : Option Word) :
    (writeFrame s sz ret err).within R s := by
  refine within_andThen h (within_of_rel h (h.touchAll s) (segWrite_within h _ _ _ _ _)) fun _ t _ =>
    within_andThen h (segWrite_within h t _ _ _ _) fun _ u _ =>
    within_andThen h (segWrite_within h u _ _ _ _) fun _ x _ => ?_
  unfold pushErrorSlot
  split
  · exact h.refl x
  · exact segWrite_within h x _ _ _ _

omit h in
theorem frameRes_within (ext : Bool) (s : State) (r : Res Unit) (hr : r.within R s) : (frameRes ext r).within R s := by
  cases r <;> exact hr

theorem clearGateFlags_rel (s : State) (g : Descriptor) : R s (clearGateFlags s g) := by
  unfold clearGateFlags
  have key : ∀ u, R u (setPlainFlag (setPlainFlag (setPlainFlag u tfPos false) ntPos false) rfPos false) := fun u =>
    h.trans (h.plain u tfPos false (by simp)) (h.trans (h.plain _ ntPos false (by simp)) (h.plain _ rfPos false (by simp)))
  dsimp only
  split
  · exact h.trans (h.plain s ifPos false (by simp)) (key _)
  · exact key s

theorem gateChecks_within (s : State) (g : Descriptor) (v : Byte) (kind : EventKind) (ext : Bool) :
    (gateChecks s g v kind ext).within R s := by
  unfold gateChecks
  split
  · exact h.refl s
  · split
    · exact h.refl s
    · split
      · exact h.refl s
      · split <;> exact h.refl s

theorem deliverProt_within (s : State) (v : Byte) (kind : EventKind) (err : Option Word) (ret : Word) :
    (deliverProt s v kind err ret).within R s := by
  unfold deliverProt
  dsimp only
  split
  · exact h.refl s
  · exact within_andThen h (readQuad_within h s _) fun g t _ =>
      within_andThen h (gateChecks_within h t g v kind _) fun _ u _ =>
      within_andThen h (frameRes_within (R := R) _ u _ (writeFrame_within h u _ _ _)) fun _ x _ =>
      within_andThen h (loadSeg_within h x _ _ _ _) fun _ y _ =>
      h.trans (h.sp y _) (h.trans (clearGateFlags_rel h _ g) (h.eip _ _))

theorem deliver_within (s : State) (v : Byte) (kind : EventKind) (err : Option Word) (ret : Word) :
    (deliver s v kind err ret).within R s := by
  unfold deliver
  split
  · exact deliverReal_within h s v ret
  · split
    · exact deliverProt_within h s v kind err ret
    · exact h.refl s

theorem takeException_ends (s : State) (e : Exc) : Ends R s (takeException s e) := by
  have h0 := h.eip s s.start
  have h1 := deliver_within h (setEip s s.start) (Exc.vector e) .exc (Exc.error e) s.start
  unfold takeException
  split
  · rename_i u hd
    rw [hd] at h1
    exact ⟨u, h.trans h0 h1, .inl rfl⟩
  · rename_i k u hd
    rw [hd] at h1
    exact ⟨u, h.trans h0 h1, .inr (.inr ⟨k, rfl⟩)⟩
  · rename_i e2 u hd
    rw [hd] at h1
    have h2 := deliver_within h u 8 .exc (some 0) s.start
    unfold doubleFault
    split
    · rename_i x hx
      rw [hx] at h2
      exact ⟨x, h.trans h0 (h.trans h1 h2), .inl rfl⟩
    · rename_i k x hx
      rw [hx] at h2
      exact ⟨x, h.trans h0 (h.trans h1 h2), .inr (.inr ⟨k, rfl⟩)⟩
    · rename_i e3 x hx
      rw [hx] at h2
      exact ⟨x, h.trans h0 (h.trans h1 h2), .inr (.inl ⟨true, rfl⟩)⟩

theorem Ends.of_rel {s t u : State} (h1 : R s t) (h2 : Ends R t u) : Ends R s u := by
  obtain ⟨x, h3, h4⟩ := h2
  exact ⟨x, h.trans h1 h3, h4⟩

/-- An instruction whose pieces respect the relation ends as `Ends` says. -/
theorem settle_ends {s : State} {r : Res Unit} (h1 : r.within R s) : Ends R s (settle r) := by
  cases r with
  | ok x t => exact ⟨t, h1, .inl rfl⟩
  | raised e t => exact Ends.of_rel h h1 (takeException_ends h t e)
  | aborted k t => exact ⟨t, h1, .inr (.inr ⟨k, rfl⟩)⟩

theorem complete_ends {s t : State} {r : Res Unit} (h2 : complete r = .next t) (h1 : r.within R s) : Ends R s t := by
  cases h2
  exact settle_ends h h1

end

section
variable {R : State → State → Prop} (h : Stable R)
include h

/-! ### Operands and flags -/

theorem readOp_within (a : Attrs) (s : State) (op : Operand) : (readOp a s op).within R s := by
  cases op with
  | reg w r => exact h.refl s
  | mem w m => exact segRead_within h.1 s _ _ w
  | imm i => exact h.refl s

theorem writeOp_within (a : Attrs) (s : State) (op : Operand) (v : Word) : (writeOp a s op v).within R s := by
  cases op with
  | reg w r => exact h.reg s w r v
  | mem w m => exact segWrite_within h.1 s _ _ w v
  | imm i => exact h.refl s

theorem touchFlags_rel (fs : List Flag) (s : State) : R s (touchFlags s fs) := by
  induction fs generalizing s with
  | nil => exact h.refl s
  | cons f fs ih => exact h.trans (h.touch s f) (ih (touchFlag s f))

theorem touchCond_rel (c : Cond) (s : State) : R s (touchCond c s) := touchFlags_rel h _ s

theorem leaveFree_rel (s : State) (f : Flag) : R s (leaveFree s f) := by
  unfold leaveFree
  split
  · exact h.refl s
  · exact h.trans (h.flag s f _) (h.free (setFlag s f (Config.freeBit s.freeCount)))

theorem leaveAllFree_rel (fs : List Flag) (s : State) : R s (leaveAllFree s fs) := by
  induction fs generalizing s with
  | nil => exact h.refl s
  | cons f fs ih => exact h.trans (leaveFree_rel h s f) (ih (leaveFree s f))

omit h in
/-- The bits POPF and IRET load are implemented, VM not among them (40_lazy_flags R258; 45_control_transfer R466). -/
theorem iretMask_reserved (s : State) (sz : Size) : iretMask s sz &&& ~~~(0x00017FD5 : Word) = 0 := by
  unfold iretMask loadableFlags
  split <;> split <;> split <;> rfl

omit h in
theorem loadableFlags_reserved (s : State) : loadableFlags s &&& ~~~(0x00017FD5 : Word) = 0 := by
  unfold loadableFlags
  split <;> split <;> rfl

theorem v86Guard_within (s : State) : (v86Guard s).within R s := raiseIf_within h.1 _ _ s

theorem ioplGuard_within (s : State) : (ioplGuard s).within R s := raiseIf_within h.1 _ _ s

theorem privileged_within (s : State) : (privileged s).within R s := raiseIf_within h.1 _ _ s

theorem returnFromInterrupt_within (s : State) (sz : Size) : (returnFromInterrupt s sz).within R s :=
  within_andThen h.1 (v86Guard_within h s) fun _ t _ =>
    within_andThen h.1 (abortIf_within h.1 _ _ t) fun _ u _ =>
    within_andThen h.1 (peek_within h.1 u _ _) fun _ x _ =>
    within_andThen h.1 (peek_within h.1 x _ _) fun _ y _ =>
    within_andThen h.1 (peek_within h.1 y _ _) fun _ z _ =>
    within_andThen h.1 (abortIf_within h.1 _ _ z) fun _ z1 _ =>
    within_andThen h.1 (farTransfer_within h.1 z1 _ _ _) fun _ z2 _ =>
    h.trans (drop_rel h.1 z2 _) (h.write _ _ _ (iretMask_reserved z1 sz))

/-! ### The instructions -/

theorem aluWrite_within (a : Attrs) (t : TwoOperands) (k : FlagKind) (useCf : Bool) (op : Word → Word → Word → Word)
    (s : State) (hk : k = .add ∨ k = .adc ∨ k = .sub ∨ k = .sbb ∨ k = .logic) :
    (aluWrite a t k useCf op s).within R s := by
  refine within_andThen h.1 (readOp_within h a s _) fun _ u _ => within_andThen h.1 (readOp_within h a u _) fun _ z _ => ?_
  refine within_andThen h.1 ?_ fun _ z2 _ => h.store z2 _ _ _ _ _ (by rcases hk with rfl | rfl | rfl | rfl | rfl <;> simp)
  split
  · exact within_of_rel h.1 (h.touch z _) (writeOp_within h a _ _ _)
  · exact writeOp_within h a z _ _

theorem aluTest_within (a : Attrs) (t : TwoOperands) (k : FlagKind) (op : Word → Word → Word) (s : State)
    (hk : k = .cmp ∨ k = .logic) : (aluTest a t k op s).within R s :=
  within_andThen h.1 (readOp_within h a s _) fun _ u _ => within_andThen h.1 (readOp_within h a u _) fun _ z _ =>
    h.store z _ _ _ _ _ (by rcases hk with rfl | rfl <;> simp)

theorem logicWrite_within (a : Attrs) (t : TwoOperands) (op : Word → Word → Word) (s : State) :
    (logicWrite a t op s).within R s :=
  within_andThen h.1 (aluWrite_within h a t .logic false _ s (by simp)) fun _ u _ => leaveFree_rel h u _

theorem stepOperand_within (a : Attrs) (t : OneOperand) (k : FlagKind) (op : Word → Word) (s : State)
    (hk : k = .inc ∨ k = .dec) : (stepOperand a t k op s).within R s :=
  within_andThen h.1 (readOp_within h a s _) fun _ u _ =>
    within_andThen h.1 (within_of_rel h.1 (h.touch u _) (writeOp_within h a _ _ _)) fun _ z _ =>
      h.storeStep z k _ _ _ _ _ hk

theorem setDouble_rel (s : State) (w : Width) (p : BitVec 64) : R s (setDouble s w p) := by
  cases w
  · exact h.reg s _ _ _
  · exact h.trans (h.reg s _ _ _) (h.reg _ _ _ _)
  · exact h.trans (h.reg s _ _ _) (h.reg _ _ _ _)

theorem setQuotient_rel (s : State) (w : Width) (q m : Word) : R s (setQuotient s w q m) := by
  cases w <;> exact h.trans (h.reg s _ _ _) (h.reg _ _ _ _)

theorem shiftForm_within (a : Attrs) (t : TwoOperands) (body : Word → Nat → State → Res Unit) (s : State)
    (hb : ∀ x c u, (body x c u).within R u) : (shiftForm a t body s).within R s := by
  refine within_andThen h.1 (readOp_within h a s _) fun _ u _ => within_andThen h.1 (readOp_within h a u _) fun _ z _ => ?_
  dsimp only
  split
  · exact h.refl z
  · exact hb _ _ _

theorem rotateEnd_within (a : Attrs) (t : TwoOperands) (r : Word) (cf ovf : Bool) (fs : List Flag) (s : State) :
    (rotateEnd a t r cf ovf fs s).within R s :=
  within_andThen h.1 (writeOp_within h a s _ _) fun _ u _ =>
    h.trans (h.flag u _ _) (h.trans (h.flag _ _ _) (leaveAllFree_rel h _ _))

theorem shiftEnd_within (a : Attrs) (t : TwoOperands) (k : FlagKind) (x : Word) (c : Nat) (r : Word) (cf ovf : Bool)
    (s : State) (hk : k = .shl ∨ k = .shr ∨ k = .sar) : (shiftEnd a t k x c r cf ovf s).within R s :=
  within_andThen h.1 (writeOp_within h a s _ _) fun _ u _ =>
    h.trans (h.storeShift u k _ _ _ _ _ _ hk) (leaveAllFree_rel h _ _)

theorem moveOp_within (a : Attrs) (t : TwoOperands) (s : State) : (moveOp a t s).within R s :=
  within_andThen h.1 (readOp_within h a s _) fun _ u _ => writeOp_within h a u _ _

theorem exchangeOps_within (a : Attrs) (t : TwoOperands) (s : State) : (exchangeOps a t s).within R s :=
  within_andThen h.1 (readOp_within h a s _) fun _ u _ => within_andThen h.1 (readOp_within h a u _) fun _ x _ =>
    within_andThen h.1 (writeOp_within h a x _ _) fun _ y _ => writeOp_within h a y _ _

theorem pushaWrites_within (sz : Size) (rs : List Reg) (i : Nat) (s : State) : (pushaWrites sz i rs s).within R s := by
  induction rs generalizing i s with
  | nil => exact h.refl s
  | cons r rs ih => exact within_andThen h.1 (segWrite_within h.1 s _ _ _ _) fun _ t _ => ih (i + 1) t

theorem popaReads_within (sz : Size) (rs : List Reg) (i : Nat) (s : State) : (popaReads sz i rs s).within R s := by
  induction rs generalizing i s with
  | nil => exact h.refl s
  | cons r rs ih =>
    exact within_andThen h.1 (peek_within h.1 s _ _) fun _ t _ => within_andThen h.1 (ih (i + 1) t) fun _ u _ => h.refl u

theorem popaStores_rel (sz : Size) (vs : List (Reg × Word)) (s : State) : R s (vs.foldl (popaStore sz) s) := by
  induction vs generalizing s with
  | nil => exact h.refl s
  | cons v vs ih =>
    refine h.trans (t := popaStore sz s v) ?_ (ih _)
    unfold popaStore
    split
    · exact h.refl s
    · exact h.reg s _ _ _

theorem loadFarPointer_within (a : Attrs) (r : SegReg) (g : Reg) (m : MemRef) (s : State) :
    (loadFarPointer a r g m s).within R s :=
  within_andThen h.1 (readFar_within h.1 a s m) fun _ t _ =>
    within_andThen h.1 (loadSeg_within h.1 t _ _ _ _) fun _ u _ => h.reg u _ _ _

theorem advanceIndex_rel (a : Attrs) (w : Width) (r : Reg) (s : State) : R s (advanceIndex a w r s) := h.reg s _ _ _

theorem repTouch_rel (c : Bool) (s : State) : R s (repTouch c s) := by
  cases c
  · exact h.refl s
  · exact h.touch s _

theorem repeatLoop_within (a : Attrs) (c : Bool) (one : State → Res Unit) (h1 : ∀ s, (one s).within R s) (n : Nat)
    (s : State) : (repeatLoop a c one n s).within R s := by
  induction n generalizing s with
  | zero => exact h.refl s
  | succ n ih =>
    unfold repeatLoop
    split
    · exact h.refl s
    · refine within_andThen h.1 (h1 s) fun _ t _ => ?_
      have hd : R t (repTouch c (decCount a t)) := h.trans (h.reg t _ _ _) (repTouch_rel h c _)
      split
      · exact hd
      · exact within_of_rel h.1 hd (ih _)

theorem repeated_within (a : Attrs) (c : Bool) (one : State → Res Unit) (h1 : ∀ s, (one s).within R s) (s : State) :
    (repeated a c one s).within R s := by
  unfold repeated
  split
  · exact h1 s
  · exact repeatLoop_within h a c one h1 _ s
  · exact repeatLoop_within h a c one h1 _ s

theorem movsOnce_within (a : Attrs) (w : Width) (s : State) : (movsOnce a w s).within R s :=
  within_andThen h.1 (segRead_within h.1 s _ _ _) fun _ t _ => within_andThen h.1 (segWrite_within h.1 t _ _ _ _) fun _ u _ =>
    h.trans (advanceIndex_rel h a w .si u) (advanceIndex_rel h a w .di _)

theorem cmpsOnce_within (a : Attrs) (w : Width) (s : State) : (cmpsOnce a w s).within R s :=
  within_andThen h.1 (segRead_within h.1 s _ _ _) fun _ t _ => within_andThen h.1 (segRead_within h.1 t _ _ _) fun _ u _ =>
    h.trans (h.store u .cmp _ _ _ _ (by simp)) (h.trans (advanceIndex_rel h a w .si _) (advanceIndex_rel h a w .di _))

theorem stosOnce_within (a : Attrs) (w : Width) (s : State) : (stosOnce a w s).within R s :=
  within_andThen h.1 (segWrite_within h.1 s _ _ _ _) fun _ t _ => advanceIndex_rel h a w .di t

theorem lodsOnce_within (a : Attrs) (w : Width) (s : State) : (lodsOnce a w s).within R s :=
  within_andThen h.1 (segRead_within h.1 s _ _ _) fun _ t _ => h.trans (h.reg t _ _ _) (advanceIndex_rel h a w .si _)

theorem scasOnce_within (a : Attrs) (w : Width) (s : State) : (scasOnce a w s).within R s :=
  within_andThen h.1 (segRead_within h.1 s _ _ _) fun _ t _ =>
    h.trans (h.store t .cmp _ _ _ _ (by simp)) (advanceIndex_rel h a w .di _)

theorem jumpCond_within (c : Cond) (a : Attrs) (f : RelForm) (s : State) : (jumpCond c a f s).within R s := by
  show R s (if condHolds c s then jumpRel a (RelForm.offset a f) (touchCond c s) else touchCond c s)
  split
  · exact h.trans (touchCond_rel h c s) (h.eip _ _)
  · exact touchCond_rel h c s

theorem loopCond_rel (a : Attrs) (d : Byte) (want : Bool) (s : State) : R s (loopCond a d want s) := by
  have hd : R s (touchFlag (loopDec a s) .zf) := h.trans (h.reg s _ _ _) (h.touch _ _)
  unfold loopCond
  dsimp only
  split
  · exact h.trans hd (h.eip _ _)
  · exact hd

theorem farCall_within (a : Attrs) (off : Word) (sel : BitVec 16) (s : State) : (farCall a off sel s).within R s :=
  within_andThen h.1 (segWrite_within h.1 s _ _ _ _) fun _ t _ => within_andThen h.1 (segWrite_within h.1 t _ _ _ _) fun _ u _ =>
    within_andThen h.1 (farTransfer_within h.1 u _ _ _) fun _ x _ => h.sp x _

theorem nearReturn_within (a : Attrs) (k : Nat) (s : State) : (nearReturn a k s).within R s :=
  within_andThen h.1 (pop_within h.1 s _) fun _ t _ => h.trans (drop_rel h.1 t _) (h.eip _ _)

theorem farReturn_within (a : Attrs) (k : Nat) (s : State) : (farReturn a k s).within R s :=
  within_andThen h.1 (peek_within h.1 s _ _) fun _ t _ => within_andThen h.1 (peek_within h.1 t _ _) fun _ u _ =>
    within_andThen h.1 (farTransfer_within h.1 u _ _ _) fun _ x _ => drop_rel h.1 x _

theorem setCond_within (c : Cond) (a : Attrs) (e : Rm) (s : State) : (setCond c a e s).within R s :=
  within_of_rel h.1 (touchCond_rel h c s) (writeOp_within h a _ _ _)

theorem storeTable_within (a : Attrs) (m : MemRef) (t : TableRegister) (s : State) : (storeTable a m t s).within R s :=
  within_andThen h.1 (segWrite_within h.1 s _ _ _ _) fun _ u _ => segWrite_within h.1 u _ _ _ _

theorem loadTable_within (a : Attrs) (m : MemRef) (s : State) : (loadTable a m s).within R s :=
  within_andThen h.1 (segRead_within h.1 s _ _ _) fun _ t _ => within_andThen h.1 (segRead_within h.1 t _ _ _) fun _ u _ =>
    h.refl u

theorem loadLdtr_within (s : State) (v : BitVec 16) (hl : ∀ t x, R t (setLdtr t x)) : (loadLdtr s v).within R s := by
  unfold loadLdtr
  split
  · exact hl s _
  · split
    · exact h.refl s
    · refine within_andThen h.1 (fetchRawDescriptor_within h.1 s v false) fun da t _ => ?_
      split
      · exact h.refl t
      · split
        · exact h.refl t
        · exact hl t _

/-- What executing an instruction can do. The five hypotheses are about the instructions that write a system register. -/
theorem exec_ends (i : Instr) (s t : State) (hx : exec i s = .next t)
    (hdbg : (∃ a c r, i = .movToDr a c r) → ∀ s c v, R s (setDbg s c v))
    (hctl : (∃ a c r, i = .movToCr a c r) ∨ (∃ a e, i = .lmsw a e) → ∀ s c v, R s (setCtl s c v))
    (hgdt : (∃ a m, i = .lgdt a m) → ∀ s v, R s (setGdtr s v))
    (hidt : (∃ a m, i = .lidt a m) → ∀ s v, R s (setIdtr s v))
    (hldt : (∃ a e, i = .lldt a e) → ∀ s v, R s (setLdtr s v)) : Ends R s t := by
  cases i with
  | add a f => exact complete_ends h.1 hx (aluWrite_within h a _ _ _ _ s (by simp))
  | or a f => exact complete_ends h.1 hx (logicWrite_within h a _ _ s)
  | adc a f => exact complete_ends h.1 hx (aluWrite_within h a _ _ _ _ s (by simp))
  | sbb a f => exact complete_ends h.1 hx (aluWrite_within h a _ _ _ _ s (by simp))
  | and a f => exact complete_ends h.1 hx (logicWrite_within h a _ _ s)
  | sub a f => exact complete_ends h.1 hx (aluWrite_within h a _ _ _ _ s (by simp))
  | xor a f => exact complete_ends h.1 hx (logicWrite_within h a _ _ s)
  | cmp a f => exact complete_ends h.1 hx (aluTest_within h a _ _ _ s (by simp))
  | inc a f => exact complete_ends h.1 hx (stepOperand_within h a _ _ _ s (by simp))
  | dec a f => exact complete_ends h.1 hx (stepOperand_within h a _ _ _ s (by simp))
  | neg a f =>
    exact complete_ends h.1 hx (within_andThen h.1 (readOp_within h a s _) fun _ u _ =>
      within_andThen h.1 (writeOp_within h a u _ _) fun _ x _ => h.store x _ _ _ _ _ (by simp))
  | mul a f =>
    exact complete_ends h.1 hx (within_andThen h.1 (readOp_within h a s _) fun _ u _ =>
      h.trans (setDouble_rel h u _ _) (h.trans (h.store _ _ _ _ _ _ (by simp)) (leaveAllFree_rel h _ _)))
  | imulOne a f =>
    exact complete_ends h.1 hx (within_andThen h.1 (readOp_within h a s _) fun _ u _ =>
      h.trans (setDouble_rel h u _ _) (h.trans (h.store _ _ _ _ _ _ (by simp)) (leaveAllFree_rel h _ _)))
  | imul a f =>
    exact complete_ends h.1 hx (within_andThen h.1 (readOp_within h a s _) fun _ u _ =>
      within_andThen h.1 (readOp_within h a u _) fun _ x _ => within_andThen h.1 (writeOp_within h a x _ _) fun _ y _ =>
      h.trans (h.store y _ _ _ _ _ (by simp)) (leaveAllFree_rel h _ _))
  | div a f =>
    exact complete_ends h.1 hx (within_andThen h.1 (readOp_within h a s _) fun _ u _ =>
      within_andThen h.1 (raiseIf_within h.1 _ _ u) fun _ x _ => within_andThen h.1 (raiseIf_within h.1 _ _ x) fun _ y _ =>
      h.trans (setQuotient_rel h y _ _ _) (leaveAllFree_rel h _ _))
  | idiv a f =>
    exact complete_ends h.1 hx (within_andThen h.1 (readOp_within h a s _) fun _ u _ =>
      within_andThen h.1 (raiseIf_within h.1 _ _ u) fun _ x _ => within_andThen h.1 (raiseIf_within h.1 _ _ x) fun _ y _ =>
      h.trans (setQuotient_rel h y _ _ _) (leaveAllFree_rel h _ _))
  | test a f =>
    exact complete_ends h.1 hx (within_andThen h.1 (aluTest_within h a _ _ _ s (by simp)) fun _ u _ => leaveFree_rel h u _)
  | not a f =>
    exact complete_ends h.1 hx (within_andThen h.1 (readOp_within h a s _) fun _ u _ => writeOp_within h a u _ _)
  | rol a f => exact complete_ends h.1 hx (shiftForm_within h a _ _ s fun _ _ u => rotateEnd_within h a _ _ _ _ _ u)
  | ror a f => exact complete_ends h.1 hx (shiftForm_within h a _ _ s fun _ _ u => rotateEnd_within h a _ _ _ _ _ u)
  | rcl a f =>
    exact complete_ends h.1 hx (shiftForm_within h a _ _ s fun _ _ u =>
      within_of_rel h.1 (h.touch u _) (rotateEnd_within h a _ _ _ _ _ _))
  | rcr a f =>
    exact complete_ends h.1 hx (shiftForm_within h a _ _ s fun _ _ u =>
      within_of_rel h.1 (h.touch u _) (rotateEnd_within h a _ _ _ _ _ _))
  | shl a f => exact complete_ends h.1 hx (shiftForm_within h a _ _ s fun _ _ u => shiftEnd_within h a _ _ _ _ _ _ _ u (by simp))
  | shr a f => exact complete_ends h.1 hx (shiftForm_within h a _ _ s fun _ _ u => shiftEnd_within h a _ _ _ _ _ _ _ u (by simp))
  | sar a f => exact complete_ends h.1 hx (shiftForm_within h a _ _ s fun _ _ u => shiftEnd_within h a _ _ _ _ _ _ _ u (by simp))
  | mov a f => exact complete_ends h.1 hx (moveOp_within h a _ s)
  | movMoffs a f => exact complete_ends h.1 hx (moveOp_within h a _ s)
  | movFromSeg a e g => exact complete_ends h.1 hx (writeOp_within h a s _ _)
  | movToSeg a g e =>
    exact complete_ends h.1 hx (within_andThen h.1 (readOp_within h a s _) fun _ u _ => loadSeg_within h.1 u _ _ _ _)
  | xchg a f => exact complete_ends h.1 hx (exchangeOps_within h a _ s)
  | nop a => exact complete_ends h.1 hx (within_ok h.1 (h.refl s))
  | lea a g m => exact complete_ends h.1 hx (within_ok h.1 (h.reg s _ _ _))
  | movzx a f => exact complete_ends h.1 hx (within_andThen h.1 (readOp_within h a s _) fun _ u _ => h.reg u _ _ _)
  | movsx a f => exact complete_ends h.1 hx (within_andThen h.1 (readOp_within h a s _) fun _ u _ => h.reg u _ _ _)
  | cbw a =>
    refine complete_ends h.1 hx (within_ok h.1 ?_)
    split <;> exact h.reg s _ _ _
  | cwd a => exact complete_ends h.1 hx (within_ok h.1 (h.reg s _ _ _))
  | xlat a => exact complete_ends h.1 hx (within_andThen h.1 (segRead_within h.1 s _ _ _) fun _ u _ => h.reg u _ _ _)
  | push a f => exact complete_ends h.1 hx (within_andThen h.1 (readOp_within h a s _) fun _ u _ => push_within h.1 u _ _)
  | pushSeg a g => exact complete_ends h.1 hx (push_within h.1 s _ _)
  | pop a f =>
    refine complete_ends h.1 hx (within_andThen h.1 (peek_within h.1 s _ _) fun _ u _ => ?_)
    split
    · exact h.trans (drop_rel h.1 u _) (h.reg _ _ _ _)
    · exact h.trans (drop_rel h.1 u _) (h.reg _ _ _ _)
    · exact within_andThen h.1 (writeOp_within h a u _ _) fun _ x _ => drop_rel h.1 x _
  | popSeg a g =>
    exact complete_ends h.1 hx (within_andThen h.1 (peek_within h.1 s _ _) fun _ u _ =>
      within_andThen h.1 (loadSeg_within h.1 u _ _ _ _) fun _ x _ => drop_rel h.1 x _)
  | pusha a =>
    exact complete_ends h.1 hx (within_andThen h.1 (pushaWrites_within h _ _ _ s) fun _ u _ => h.sp u _)
  | popa a =>
    exact complete_ends h.1 hx (within_andThen h.1 (popaReads_within h _ _ _ s) fun _ u _ =>
      h.trans (popaStores_rel h _ _ u) (drop_rel h.1 _ _))
  | lds a g m => exact complete_ends h.1 hx (loadFarPointer_within h a _ g m s)
  | les a g m => exact complete_ends h.1 hx (loadFarPointer_within h a _ g m s)
  | lss a g m => exact complete_ends h.1 hx (loadFarPointer_within h a _ g m s)
  | lfs a g m => exact complete_ends h.1 hx (loadFarPointer_within h a _ g m s)
  | lgs a g m => exact complete_ends h.1 hx (loadFarPointer_within h a _ g m s)
  | movs a f => exact complete_ends h.1 hx (repeated_within h a _ _ (fun u => movsOnce_within h a _ u) s)
  | cmps a f => exact complete_ends h.1 hx (repeated_within h a _ _ (fun u => cmpsOnce_within h a _ u) s)
  | stos a f => exact complete_ends h.1 hx (repeated_within h a _ _ (fun u => stosOnce_within h a _ u) s)
  | lods a f => exact complete_ends h.1 hx (repeated_within h a _ _ (fun u => lodsOnce_within h a _ u) s)
  | scas a f => exact complete_ends h.1 hx (repeated_within h a _ _ (fun u => scasOnce_within h a _ u) s)
  | jmpRel a f => exact complete_ends h.1 hx (within_ok h.1 (h.eip s _))
  | jmpInd a e => exact complete_ends h.1 hx (within_andThen h.1 (readOp_within h a s _) fun _ u _ => h.eip u _)
  | jmpFar a off sel => exact complete_ends h.1 hx (farTransfer_within h.1 s _ _ _)
  | jmpFarInd a m =>
    exact complete_ends h.1 hx (within_andThen h.1 (readFar_within h.1 a s m) fun _ u _ => farTransfer_within h.1 u _ _ _)
  | jo a f => exact complete_ends h.1 hx (jumpCond_within h _ a f s)
  | jno a f => exact complete_ends h.1 hx (jumpCond_within h _ a f s)
  | jb a f => exact complete_ends h.1 hx (jumpCond_within h _ a f s)
  | jae a f => exact complete_ends h.1 hx (jumpCond_within h _ a f s)
  | je a f => exact complete_ends h.1 hx (jumpCond_within h _ a f s)
  | jne a f => exact complete_ends h.1 hx (jumpCond_within h _ a f s)
  | jbe a f => exact complete_ends h.1 hx (jumpCond_within h _ a f s)
  | ja a f => exact complete_ends h.1 hx (jumpCond_within h _ a f s)
  | js a f => exact complete_ends h.1 hx (jumpCond_within h _ a f s)
  | jns a f => exact complete_ends h.1 hx (jumpCond_within h _ a f s)
  | jp a f => exact complete_ends h.1 hx (jumpCond_within h _ a f s)
  | jnp a f => exact complete_ends h.1 hx (jumpCond_within h _ a f s)
  | jl a f => exact complete_ends h.1 hx (jumpCond_within h _ a f s)
  | jge a f => exact complete_ends h.1 hx (jumpCond_within h _ a f s)
  | jle a f => exact complete_ends h.1 hx (jumpCond_within h _ a f s)
  | jg a f => exact complete_ends h.1 hx (jumpCond_within h _ a f s)
  | jcxz a d =>
    refine complete_ends h.1 hx (within_ok h.1 ?_)
    split
    · exact h.eip s _
    · exact h.refl s
  | loop a d =>
    refine complete_ends h.1 hx (within_ok h.1 ?_)
    split
    · exact h.trans (h.reg s _ _ _) (h.eip _ _)
    · exact h.reg s _ _ _
  | loope a d => exact complete_ends h.1 hx (within_ok h.1 (loopCond_rel h a d true s))
  | loopne a d => exact complete_ends h.1 hx (within_ok h.1 (loopCond_rel h a d false s))
  | callRel a d => exact complete_ends h.1 hx (within_andThen h.1 (push_within h.1 s _ _) fun _ u _ => h.eip u _)
  | callInd a e =>
    exact complete_ends h.1 hx (within_andThen h.1 (readOp_within h a s _) fun _ u _ =>
      within_andThen h.1 (push_within h.1 u _ _) fun _ x _ => h.eip x _)
  | callFar a off sel => exact complete_ends h.1 hx (farCall_within h a _ _ s)
  | callFarInd a m =>
    exact complete_ends h.1 hx (within_andThen h.1 (readFar_within h.1 a s m) fun _ u _ => farCall_within h a _ _ u)
  | ret a => exact complete_ends h.1 hx (nearReturn_within h a _ s)
  | retImm a i => exact complete_ends h.1 hx (nearReturn_within h a _ s)
  | retf a => exact complete_ends h.1 hx (farReturn_within h a _ s)
  | retfImm a i => exact complete_ends h.1 hx (farReturn_within h a _ s)
  | int a v =>
    exact complete_ends h.1 hx (within_andThen h.1 (v86Guard_within h s) fun _ u _ => deliver_within h.1 u _ _ _ _)
  | int3 a => exact complete_ends h.1 hx (deliver_within h.1 s _ _ _ _)
  | iret a => exact complete_ends h.1 hx (returnFromInterrupt_within h s _)
  | into a =>
    refine complete_ends h.1 hx ?_
    split
    · exact within_of_rel h.1 (h.touch s _) (deliver_within h.1 _ _ _ _ _)
    · exact h.touch s _
  | seto a e => exact complete_ends h.1 hx (setCond_within h _ a e s)
  | setno a e => exact complete_ends h.1 hx (setCond_within h _ a e s)
  | setb a e => exact complete_ends h.1 hx (setCond_within h _ a e s)
  | setae a e => exact complete_ends h.1 hx (setCond_within h _ a e s)
  | sete a e => exact complete_ends h.1 hx (setCond_within h _ a e s)
  | setne a e => exact complete_ends h.1 hx (setCond_within h _ a e s)
  | setbe a e => exact complete_ends h.1 hx (setCond_within h _ a e s)
  | seta a e => exact complete_ends h.1 hx (setCond_within h _ a e s)
  | sets a e => exact complete_ends h.1 hx (setCond_within h _ a e s)
  | setns a e => exact complete_ends h.1 hx (setCond_within h _ a e s)
  | setp a e => exact complete_ends h.1 hx (setCond_within h _ a e s)
  | setnp a e => exact complete_ends h.1 hx (setCond_within h _ a e s)
  | setl a e => exact complete_ends h.1 hx (setCond_within h _ a e s)
  | setge a e => exact complete_ends h.1 hx (setCond_within h _ a e s)
  | setle a e => exact complete_ends h.1 hx (setCond_within h _ a e s)
  | setg a e => exact complete_ends h.1 hx (setCond_within h _ a e s)
  | clc a => exact complete_ends h.1 hx (within_ok h.1 (h.flag s _ _))
  | stc a => exact complete_ends h.1 hx (within_ok h.1 (h.flag s _ _))
  | cmc a => exact complete_ends h.1 hx (within_ok h.1 (h.trans (h.touch s _) (h.flag _ _ _)))
  | cld a => exact complete_ends h.1 hx (within_ok h.1 (h.plain s dfPos _ (by simp)))
  | std a => exact complete_ends h.1 hx (within_ok h.1 (h.plain s dfPos _ (by simp)))
  | cli a =>
    exact complete_ends h.1 hx (within_andThen h.1 (ioplGuard_within h s) fun _ u _ => h.plain u ifPos _ (by simp))
  | sti a =>
    exact complete_ends h.1 hx (within_andThen h.1 (ioplGuard_within h s) fun _ u _ => h.plain u ifPos _ (by simp))
  | pushf a =>
    exact complete_ends h.1 hx (within_andThen h.1 (v86Guard_within h s) fun _ u _ =>
      within_of_rel h.1 (h.touchAll u) (push_within h.1 _ _ _))
  | popf a =>
    exact complete_ends h.1 hx (within_andThen h.1 (v86Guard_within h s) fun _ u _ =>
      within_andThen h.1 (pop_within h.1 u _) fun _ x _ => h.write x _ _ (loadableFlags_reserved x))
  | lahf a => exact complete_ends h.1 hx (within_ok h.1 (h.trans (h.touchAll s) (h.reg _ _ _ _)))
  | sahf a => exact complete_ends h.1 hx (within_ok h.1 (h.write s _ _ (by decide)))
  | hlt a =>
    have hp := privileged_within h s
    cases hp1 : privileged s with
    | ok x u =>
      rw [hp1] at hp
      have e : exec (.hlt a) s = .next (haltState u false) := by
        show complete ((privileged s).andThen _) = _
        rw [hp1]
        rfl
      rw [e] at hx
      cases hx
      exact ⟨u, hp, .inr (.inl ⟨false, rfl⟩)⟩
    | raised e u =>
      rw [hp1] at hp
      refine complete_ends h.1 (r := (.raised e u : Res Unit)) ?_ hp
      rw [← hx]
      show _ = complete ((privileged s).andThen _)
      rw [hp1]
      rfl
    | aborted k u =>
      rw [hp1] at hp
      refine complete_ends h.1 (r := (.aborted k u : Res Unit)) ?_ hp
      rw [← hx]
      show _ = complete ((privileged s).andThen _)
      rw [hp1]
      rfl
  | sgdt a m => exact complete_ends h.1 hx (storeTable_within h a m _ s)
  | lgdt a m =>
    exact complete_ends h.1 hx (within_andThen h.1 (privileged_within h s) fun _ u _ =>
      within_andThen h.1 (loadTable_within h a m u) fun _ x _ => hgdt ⟨a, m, rfl⟩ x _)
  | sidt a m => exact complete_ends h.1 hx (storeTable_within h a m _ s)
  | lidt a m =>
    exact complete_ends h.1 hx (within_andThen h.1 (privileged_within h s) fun _ u _ =>
      within_andThen h.1 (loadTable_within h a m u) fun _ x _ => hidt ⟨a, m, rfl⟩ x _)
  | sldt a e =>
    exact complete_ends h.1 hx (within_andThen h.1 (abortIf_within h.1 _ _ s) fun _ u _ => writeOp_within h a u _ _)
  | lldt a e =>
    exact complete_ends h.1 hx (within_andThen h.1 (abortIf_within h.1 _ _ s) fun _ u _ =>
      within_andThen h.1 (privileged_within h u) fun _ x _ => within_andThen h.1 (readOp_within h a x _) fun _ y _ =>
      loadLdtr_within h y _ (hldt ⟨a, e, rfl⟩))
  | lmsw a e =>
    exact complete_ends h.1 hx (within_andThen h.1 (privileged_within h s) fun _ u _ =>
      within_andThen h.1 (readOp_within h a u _) fun _ x _ => hctl (.inr ⟨a, e, rfl⟩) x _ _)
  | smsw a e => exact complete_ends h.1 hx (writeOp_within h a s _ _)
  | movFromCr a r c =>
    exact complete_ends h.1 hx (within_andThen h.1 (privileged_within h s) fun _ u _ => h.reg u _ _ _)
  | movToCr a c r =>
    exact complete_ends h.1 hx (within_andThen h.1 (privileged_within h s) fun _ u _ => hctl (.inl ⟨a, c, r, rfl⟩) u _ _)
  | movFromDr a r c =>
    exact complete_ends h.1 hx (within_andThen h.1 (privileged_within h s) fun _ u _ => h.reg u _ _ _)
  | movToDr a c r =>
    exact complete_ends h.1 hx (within_andThen h.1 (privileged_within h s) fun _ u _ => hdbg ⟨a, c, r, rfl⟩ u _ _)

/-! ### Fetching -/

theorem fetchBytes_within (n : Nat) (off : Word) (s : State) : (fetchBytes n off s).2.within R s := by
  induction n generalizing off s with
  | zero => exact h.refl s
  | succ n ih =>
    have h1 := segRead_within h.1 s .cs off .byte
    unfold fetchBytes
    split
    · rename_i v t ht
      rw [ht] at h1
      exact within_of_rel h.1 h1 (ih (off + 1) t)
    · rename_i e t ht
      rw [ht] at h1
      exact h1
    · rename_i k t ht
      rw [ht] at h1
      exact h1

theorem fetchDecode_within (s : State) : (fetchDecode s).within R s := by
  unfold fetchDecode
  dsimp only
  split
  · exact within_andThen h.1 (fetchBytes_within h _ _ s) fun _ t _ => h.refl t
  · exact within_andThen h.1 (fetchBytes_within h _ _ s) fun _ t _ => h.refl t
  · exact within_andThen h.1 (fetchBytes_within h _ _ s) fun _ t _ => h.refl t


end

end Sys2Proof.Machine
end

