-- ==== Sys2Proof/Laws/Wf.lean ====
section
/-! SUPPORT. Every operation over memory keeps the canonical form of the memory list. -/

namespace Sys2Proof.Machine

theorem memory_stable : Stable fun s t => Memory.wf s.mem = true → Memory.wf t.mem = true where
  refl _ h := h
  trans h g k := g (h k)
  sp s v h := by simpa [setStackPtr] using h
  eip _ _ h := h
  seg _ _ _ h := h
  touchAll _ h := h
  plain _ _ _ _ h := h
  mem s a w v h := storeBytes_wf s.mem a w v h
  vga _ _ _ h := h
  reg _ _ _ _ h := h
  flag _ _ _ h := h
  touch _ _ h := h
  store _ _ _ _ _ _ _ h := h
  storeStep _ _ _ _ _ _ _ _ h := h
  storeShift _ _ _ _ _ _ _ _ _ h := h
  write _ _ _ _ h := h
  free _ h := h

/-- A fatal error of a host action changes the scheduler's fields alone. -/
theorem hostAbort_only (s : State) (k : AbortInfo) : hostAbort s k = { s with sched := (hostAbort s k).sched } := by
  unfold hostAbort
  split <;> rfl

theorem hostAbort_mem (s : State) (k : AbortInfo) : (hostAbort s k).mem = s.mem := by rw [hostAbort_only]

/-- In HALTED, a shutdown included, it changes nothing (60_exceptions R513, R525). -/
theorem hostAbort_halted (s : State) (k : AbortInfo) (h : s.sched.runState = .halted) : hostAbort s k = s := if_pos h

section
variable {s t : State} (h : Memory.wf s.mem = true)
include h

theorem memRead_wf {a : Word} {w : Width} {x : Word} (e : memRead s a w = .ok x t) : Memory.wf t.mem = true := by
  have := memRead_within memory_stable.1 s a w
  rw [e] at this
  exact this h

theorem memWrite_wf {a : Word} {w : Width} {v : Word} (e : memWrite s a w v = .ok () t) : Memory.wf t.mem = true := by
  have := memWrite_within memory_stable.1 s a w v
  rw [e] at this
  exact this h

theorem linWrite_wf {a : Word} {w : Width} {v : Word} (e : linWrite s a w v = .ok () t) : Memory.wf t.mem = true := by
  have := linWrite_within memory_stable.1 s a w v
  rw [e] at this
  exact this h

theorem segWrite_wf {r : SegReg} {off : Word} {w : Width} {v : Word} (e : segWrite s r off w v = .ok () t) :
    Memory.wf t.mem = true := by
  have := segWrite_within memory_stable.1 s r off w v
  rw [e] at this
  exact this h

theorem writeOp_wf {a : Attrs} {op : Operand} {v : Word} (e : writeOp a s op v = .ok () t) : Memory.wf t.mem = true := by
  have := writeOp_within memory_stable a s op v
  rw [e] at this
  exact this h

theorem push_wf {sz : Size} {v : Word} (e : push s sz v = .ok () t) : Memory.wf t.mem = true := by
  have := push_within memory_stable.1 s sz v
  rw [e] at this
  exact this h

theorem placeByte_wf (a : Word) (b : Byte) : Memory.wf (placeByte s a b).mem = true := by
  unfold placeByte
  split
  · exact h
  · exact h
  · exact mem_write_wf _ _ _ h

theorem placeBytes_wf (bs : List Byte) (a : Word) : Memory.wf (placeBytes s a bs).mem = true := by
  induction bs generalizing s a with
  | nil => exact h
  | cons b bs ih => exact ih (placeByte_wf h a b) (a + 1)

theorem hostMemWrite_wf (a : Word) (w : Width) (v : Word) : Memory.wf (hostMemWrite s a w v).mem = true := by
  have := memWrite_within memory_stable.1 s a w v
  unfold hostMemWrite
  split
  · cases e : memWrite s a w v with
    | aborted k t =>
      rw [e] at this
      show Memory.wf (hostAbort t k).mem = true
      rw [hostAbort_mem]
      exact this h
    | _ => rw [e] at this; exact this h
  · exact h

end

end Sys2Proof.Machine
end

