-- ==== Sys2Proof/Tests/Slice0.lean ====
section
/-! SUPPORT. Tests: ill-formed terms the check refuses, words written out from the spec's encodings, single steps from the
spec's vectors, and for each obligation with hypotheses a state and operands that meet them. -/

namespace Sys2Proof.Tests

open Sys2Proof Sys2Proof.Machine

set_option maxRecDepth 20000

/-- 16-bit operand and address size, no prefix. -/
def at16 : Attrs := ⟨none, .s16, .s16, .none, false⟩

/-- 32-bit operand and address size, no prefix. -/
def at32 : Attrs := ⟨none, .s32, .s32, .none, false⟩

/-- `[BX]`. -/
def m0 : MemRef := .base16 .bx .none

/-! ### The well-formedness check refuses: one ill-formed term for each check -/

def refused (l : List Instr) : Bool := l.all fun i => !i.wf

theorem test_wf_memory_forms : refused [
    .lea at32 .ax (.base16 .bx .none), .lea at16 .ax (.base16 .bp .none), .lea at32 .ax (.abs16 0),
    .lea at16 .ax (.base32 .bx .none), .lea at32 .ax (.base32 .sp (.d8 4)), .lea at32 .ax (.base32 .bp .none),
    .lea at16 .ax (.abs32 0)] = true := by decide

theorem test_wf_sizes : refused [
    .add at16 (.eaxIv 0x10000), .or at16 (.evIv (.reg .ax) 0x10000), .test at16 (.eaxIv 0x10000),
    .test at16 (.evIv (.reg .ax) 0x10000), .imul at16 (.gvEvIv .ax (.reg .ax) 0x10000), .mov at16 (.rvIv .ax 0x10000),
    .mov at16 (.evIv (.reg .ax) 0x10000), .movMoffs at16 (.alOb 0x10000), .push at16 (.iv 0x10000),
    .jmpRel at16 (.jv 0x10000), .jo at16 (.jv 0x10000), .callRel at16 0x10000, .jmpFar at16 0x10000 0,
    .callFar at16 0x10000 0] = true := by decide

theorem test_wf_operands : refused [
    .add at32 (.ebGb (.mem m0) .ax), .adc at32 (.gvEv .ax (.mem m0)), .sbb at32 (.evIb (.mem m0) 0),
    .and at32 (.ebIb (.mem m0) 0), .sub at32 (.evIv (.mem m0) 0), .test at32 (.evGv (.mem m0) .ax),
    .test at32 (.ebIb (.mem m0) 0), .inc at32 (.ev (.mem m0)), .dec at32 (.eb (.mem m0)), .neg at32 (.eb (.mem m0)),
    .imul at32 (.gvEvIb .ax (.mem m0) 0), .rol at32 (.eb1 (.mem m0)), .sar at32 (.evIb (.mem m0) 0),
    .mov at32 (.gbEb .ax (.mem m0)), .mov at32 (.ebIb (.mem m0) 0), .xchg at32 (.evGv (.mem m0) .ax),
    .movzx at32 (.gvEb .ax (.mem m0)), .push at32 (.ev (.mem m0)), .pop at32 (.ev (.mem m0)),
    .movFromSeg at32 (.mem m0) .ds, .movToSeg at32 .ds (.mem m0), .sete at32 (.mem m0), .jmpInd at32 (.mem m0)] = true := by
  decide

theorem test_wf_far_and_system : refused [
    .lds at32 .ax m0, .les at32 .ax m0, .lss at32 .ax m0, .lfs at32 .ax m0, .lgs at32 .ax m0, .jmpFarInd at32 m0,
    .callInd at32 (.mem m0), .callFarInd at32 m0, .sgdt at32 m0, .lgdt at32 m0, .sidt at32 m0, .lidt at32 m0,
    .sldt at32 (.mem m0), .lldt at32 (.mem m0), .lmsw at32 (.mem m0), .smsw at32 (.mem m0)] = true := by decide

theorem test_wf_registers : refused [.xchg at16 (.eaxR .ax), .movToSeg at16 .cs (.reg .ax), .popSeg at16 .cs] = true := by
  decide

/-! ### Decoding: each word is written out from its row of spec/opcode_table.json and the tables of 30_encoding -/

def reads (l : List (List Byte × Instr)) : Bool := l.all fun x => decide (decode .idempotent false x.1 = .ok x.2 [])

theorem test_decode_alu_add : reads [
    ([0x00, 0xC8], .add at16 (.ebGb (.reg .ax) .cx)), ([0x01, 0x07], .add at16 (.evGv (.mem (.base16 .bx .none)) .ax)),
    ([0x02, 0x7A, 0x80], .add at16 (.gbEb .di (.mem (.base16 .bpsi (.d8 0x80))))),
    ([0x03, 0x91, 0x34, 0x12], .add at16 (.gvEv .dx (.mem (.base16 .bxdi (.full 0x1234))))),
    ([0x04, 0x5A], .add at16 (.alIb 0x5A)), ([0x05, 0x34, 0x12], .add at16 (.eaxIv 0x1234)),
    ([0x80, 0xC3, 0x7F], .add at16 (.ebIb (.reg .bx) 0x7F)),
    ([0x81, 0x06, 0x78, 0x56, 0xCD, 0xAB], .add at16 (.evIv (.mem (.abs16 0x5678)) 0xABCD)),
    ([0x83, 0xC6, 0xFF], .add at16 (.evIb (.reg .si) 0xFF))] = true := by decide

theorem test_decode_alu_or : reads [
    ([0x08, 0xC8], .or at16 (.ebGb (.reg .ax) .cx)), ([0x09, 0x07], .or at16 (.evGv (.mem (.base16 .bx .none)) .ax)),
    ([0x0A, 0x7A, 0x80], .or at16 (.gbEb .di (.mem (.base16 .bpsi (.d8 0x80))))),
    ([0x0B, 0x91, 0x34, 0x12], .or at16 (.gvEv .dx (.mem (.base16 .bxdi (.full 0x1234))))),
    ([0x0C, 0x5A], .or at16 (.alIb 0x5A)), ([0x0D, 0x34, 0x12], .or at16 (.eaxIv 0x1234)),
    ([0x80, 0xCB, 0x7F], .or at16 (.ebIb (.reg .bx) 0x7F)),
    ([0x81, 0x0E, 0x78, 0x56, 0xCD, 0xAB], .or at16 (.evIv (.mem (.abs16 0x5678)) 0xABCD)),
    ([0x83, 0xCE, 0xFF], .or at16 (.evIb (.reg .si) 0xFF))] = true := by decide

theorem test_decode_alu_adc : reads [
    ([0x10, 0xC8], .adc at16 (.ebGb (.reg .ax) .cx)), ([0x11, 0x07], .adc at16 (.evGv (.mem (.base16 .bx .none)) .ax)),
    ([0x12, 0x7A, 0x80], .adc at16 (.gbEb .di (.mem (.base16 .bpsi (.d8 0x80))))),
    ([0x13, 0x91, 0x34, 0x12], .adc at16 (.gvEv .dx (.mem (.base16 .bxdi (.full 0x1234))))),
    ([0x14, 0x5A], .adc at16 (.alIb 0x5A)), ([0x15, 0x34, 0x12], .adc at16 (.eaxIv 0x1234)),
    ([0x80, 0xD3, 0x7F], .adc at16 (.ebIb (.reg .bx) 0x7F)),
    ([0x81, 0x16, 0x78, 0x56, 0xCD, 0xAB], .adc at16 (.evIv (.mem (.abs16 0x5678)) 0xABCD)),
    ([0x83, 0xD6, 0xFF], .adc at16 (.evIb (.reg .si) 0xFF))] = true := by decide

theorem test_decode_alu_sbb : reads [
    ([0x18, 0xC8], .sbb at16 (.ebGb (.reg .ax) .cx)), ([0x19, 0x07], .sbb at16 (.evGv (.mem (.base16 .bx .none)) .ax)),
    ([0x1A, 0x7A, 0x80], .sbb at16 (.gbEb .di (.mem (.base16 .bpsi (.d8 0x80))))),
    ([0x1B, 0x91, 0x34, 0x12], .sbb at16 (.gvEv .dx (.mem (.base16 .bxdi (.full 0x1234))))),
    ([0x1C, 0x5A], .sbb at16 (.alIb 0x5A)), ([0x1D, 0x34, 0x12], .sbb at16 (.eaxIv 0x1234)),
    ([0x80, 0xDB, 0x7F], .sbb at16 (.ebIb (.reg .bx) 0x7F)),
    ([0x81, 0x1E, 0x78, 0x56, 0xCD, 0xAB], .sbb at16 (.evIv (.mem (.abs16 0x5678)) 0xABCD)),
    ([0x83, 0xDE, 0xFF], .sbb at16 (.evIb (.reg .si) 0xFF))] = true := by decide

theorem test_decode_alu_and : reads [
    ([0x20, 0xC8], .and at16 (.ebGb (.reg .ax) .cx)), ([0x21, 0x07], .and at16 (.evGv (.mem (.base16 .bx .none)) .ax)),
    ([0x22, 0x7A, 0x80], .and at16 (.gbEb .di (.mem (.base16 .bpsi (.d8 0x80))))),
    ([0x23, 0x91, 0x34, 0x12], .and at16 (.gvEv .dx (.mem (.base16 .bxdi (.full 0x1234))))),
    ([0x24, 0x5A], .and at16 (.alIb 0x5A)), ([0x25, 0x34, 0x12], .and at16 (.eaxIv 0x1234)),
    ([0x80, 0xE3, 0x7F], .and at16 (.ebIb (.reg .bx) 0x7F)),
    ([0x81, 0x26, 0x78, 0x56, 0xCD, 0xAB], .and at16 (.evIv (.mem (.abs16 0x5678)) 0xABCD)),
    ([0x83, 0xE6, 0xFF], .and at16 (.evIb (.reg .si) 0xFF))] = true := by decide

theorem test_decode_alu_sub : reads [
    ([0x28, 0xC8], .sub at16 (.ebGb (.reg .ax) .cx)), ([0x29, 0x07], .sub at16 (.evGv (.mem (.base16 .bx .none)) .ax)),
    ([0x2A, 0x7A, 0x80], .sub at16 (.gbEb .di (.mem (.base16 .bpsi (.d8 0x80))))),
    ([0x2B, 0x91, 0x34, 0x12], .sub at16 (.gvEv .dx (.mem (.base16 .bxdi (.full 0x1234))))),
    ([0x2C, 0x5A], .sub at16 (.alIb 0x5A)), ([0x2D, 0x34, 0x12], .sub at16 (.eaxIv 0x1234)),
    ([0x80, 0xEB, 0x7F], .sub at16 (.ebIb (.reg .bx) 0x7F)),
    ([0x81, 0x2E, 0x78, 0x56, 0xCD, 0xAB], .sub at16 (.evIv (.mem (.abs16 0x5678)) 0xABCD)),
    ([0x83, 0xEE, 0xFF], .sub at16 (.evIb (.reg .si) 0xFF))] = true := by decide

theorem test_decode_alu_xor : reads [
    ([0x30, 0xC8], .xor at16 (.ebGb (.reg .ax) .cx)), ([0x31, 0x07], .xor at16 (.evGv (.mem (.base16 .bx .none)) .ax)),
    ([0x32, 0x7A, 0x80], .xor at16 (.gbEb .di (.mem (.base16 .bpsi (.d8 0x80))))),
    ([0x33, 0x91, 0x34, 0x12], .xor at16 (.gvEv .dx (.mem (.base16 .bxdi (.full 0x1234))))),
    ([0x34, 0x5A], .xor at16 (.alIb 0x5A)), ([0x35, 0x34, 0x12], .xor at16 (.eaxIv 0x1234)),
    ([0x80, 0xF3, 0x7F], .xor at16 (.ebIb (.reg .bx) 0x7F)),
    ([0x81, 0x36, 0x78, 0x56, 0xCD, 0xAB], .xor at16 (.evIv (.mem (.abs16 0x5678)) 0xABCD)),
    ([0x83, 0xF6, 0xFF], .xor at16 (.evIb (.reg .si) 0xFF))] = true := by decide

theorem test_decode_alu_cmp : reads [
    ([0x38, 0xC8], .cmp at16 (.ebGb (.reg .ax) .cx)), ([0x39, 0x07], .cmp at16 (.evGv (.mem (.base16 .bx .none)) .ax)),
    ([0x3A, 0x7A, 0x80], .cmp at16 (.gbEb .di (.mem (.base16 .bpsi (.d8 0x80))))),
    ([0x3B, 0x91, 0x34, 0x12], .cmp at16 (.gvEv .dx (.mem (.base16 .bxdi (.full 0x1234))))),
    ([0x3C, 0x5A], .cmp at16 (.alIb 0x5A)), ([0x3D, 0x34, 0x12], .cmp at16 (.eaxIv 0x1234)),
    ([0x80, 0xFB, 0x7F], .cmp at16 (.ebIb (.reg .bx) 0x7F)),
    ([0x81, 0x3E, 0x78, 0x56, 0xCD, 0xAB], .cmp at16 (.evIv (.mem (.abs16 0x5678)) 0xABCD)),
    ([0x83, 0xFE, 0xFF], .cmp at16 (.evIb (.reg .si) 0xFF))] = true := by decide

theorem test_decode_shift_rol : reads [
    ([0xC0, 0xC1, 0x05], .rol at16 (.ebIb (.reg .cx) 5)),
    ([0xC1, 0x47, 0x10, 0x21], .rol at16 (.evIb (.mem (.base16 .bx (.d8 0x10))) 0x21)),
    ([0xD0, 0xC4], .rol at16 (.eb1 (.reg .sp))), ([0xD1, 0xC2], .rol at16 (.ev1 (.reg .dx))),
    ([0xD2, 0xC7], .rol at16 (.ebCL (.reg .di))), ([0xD3, 0x04], .rol at16 (.evCL (.mem (.base16 .si .none))))] = true := by decide

theorem test_decode_shift_ror : reads [
    ([0xC0, 0xC9, 0x05], .ror at16 (.ebIb (.reg .cx) 5)),
    ([0xC1, 0x4F, 0x10, 0x21], .ror at16 (.evIb (.mem (.base16 .bx (.d8 0x10))) 0x21)),
    ([0xD0, 0xCC], .ror at16 (.eb1 (.reg .sp))), ([0xD1, 0xCA], .ror at16 (.ev1 (.reg .dx))),
    ([0xD2, 0xCF], .ror at16 (.ebCL (.reg .di))), ([0xD3, 0x0C], .ror at16 (.evCL (.mem (.base16 .si .none))))] = true := by decide

theorem test_decode_shift_rcl : reads [
    ([0xC0, 0xD1, 0x05], .rcl at16 (.ebIb (.reg .cx) 5)),
    ([0xC1, 0x57, 0x10, 0x21], .rcl at16 (.evIb (.mem (.base16 .bx (.d8 0x10))) 0x21)),
    ([0xD0, 0xD4], .rcl at16 (.eb1 (.reg .sp))), ([0xD1, 0xD2], .rcl at16 (.ev1 (.reg .dx))),
    ([0xD2, 0xD7], .rcl at16 (.ebCL (.reg .di))), ([0xD3, 0x14], .rcl at16 (.evCL (.mem (.base16 .si .none))))] = true := by decide

theorem test_decode_shift_rcr : reads [
    ([0xC0, 0xD9, 0x05], .rcr at16 (.ebIb (.reg .cx) 5)),
    ([0xC1, 0x5F, 0x10, 0x21], .rcr at16 (.evIb (.mem (.base16 .bx (.d8 0x10))) 0x21)),
    ([0xD0, 0xDC], .rcr at16 (.eb1 (.reg .sp))), ([0xD1, 0xDA], .rcr at16 (.ev1 (.reg .dx))),
    ([0xD2, 0xDF], .rcr at16 (.ebCL (.reg .di))), ([0xD3, 0x1C], .rcr at16 (.evCL (.mem (.base16 .si .none))))] = true := by decide

theorem test_decode_shift_shl : reads [
    ([0xC0, 0xE1, 0x05], .shl at16 (.ebIb (.reg .cx) 5)),
    ([0xC1, 0x67, 0x10, 0x21], .shl at16 (.evIb (.mem (.base16 .bx (.d8 0x10))) 0x21)),
    ([0xD0, 0xE4], .shl at16 (.eb1 (.reg .sp))), ([0xD1, 0xE2], .shl at16 (.ev1 (.reg .dx))),
    ([0xD2, 0xE7], .shl at16 (.ebCL (.reg .di))), ([0xD3, 0x24], .shl at16 (.evCL (.mem (.base16 .si .none))))] = true := by decide

theorem test_decode_shift_shr : reads [
    ([0xC0, 0xE9, 0x05], .shr at16 (.ebIb (.reg .cx) 5)),
    ([0xC1, 0x6F, 0x10, 0x21], .shr at16 (.evIb (.mem (.base16 .bx (.d8 0x10))) 0x21)),
    ([0xD0, 0xEC], .shr at16 (.eb1 (.reg .sp))), ([0xD1, 0xEA], .shr at16 (.ev1 (.reg .dx))),
    ([0xD2, 0xEF], .shr at16 (.ebCL (.reg .di))), ([0xD3, 0x2C], .shr at16 (.evCL (.mem (.base16 .si .none))))] = true := by decide

theorem test_decode_shift_sar : reads [
    ([0xC0, 0xF9, 0x05], .sar at16 (.ebIb (.reg .cx) 5)),
    ([0xC1, 0x7F, 0x10, 0x21], .sar at16 (.evIb (.mem (.base16 .bx (.d8 0x10))) 0x21)),
    ([0xD0, 0xFC], .sar at16 (.eb1 (.reg .sp))), ([0xD1, 0xFA], .sar at16 (.ev1 (.reg .dx))),
    ([0xD2, 0xFF], .sar at16 (.ebCL (.reg .di))), ([0xD3, 0x3C], .sar at16 (.evCL (.mem (.base16 .si .none))))] = true := by decide

theorem test_decode_unary : reads [
    ([0xF6, 0xD3], .not at16 (.eb (.reg .bx))), ([0xF7, 0x15], .not at16 (.ev (.mem (.base16 .di .none)))),
    ([0xF6, 0xDB], .neg at16 (.eb (.reg .bx))), ([0xF7, 0x1D], .neg at16 (.ev (.mem (.base16 .di .none)))),
    ([0xF6, 0xE3], .mul at16 (.eb (.reg .bx))), ([0xF7, 0x25], .mul at16 (.ev (.mem (.base16 .di .none)))),
    ([0xF6, 0xEB], .imulOne at16 (.eb (.reg .bx))), ([0xF7, 0x2D], .imulOne at16 (.ev (.mem (.base16 .di .none)))),
    ([0xF6, 0xF3], .div at16 (.eb (.reg .bx))), ([0xF7, 0x35], .div at16 (.ev (.mem (.base16 .di .none)))),
    ([0xF6, 0xFB], .idiv at16 (.eb (.reg .bx))), ([0xF7, 0x3D], .idiv at16 (.ev (.mem (.base16 .di .none))))] = true := by decide

theorem test_decode_inc_dec : reads [
    ([0x41], .inc at16 (.r .cx)), ([0xFE, 0xC2], .inc at16 (.eb (.reg .dx))),
    ([0xFF, 0x07], .inc at16 (.ev (.mem (.base16 .bx .none)))), ([0x4E], .dec at16 (.r .si)),
    ([0xFE, 0xCA], .dec at16 (.eb (.reg .dx))), ([0xFF, 0x0F], .dec at16 (.ev (.mem (.base16 .bx .none))))] = true := by decide

theorem test_decode_imul : reads [
    ([0x0F, 0xAF, 0xC3], .imul at16 (.gvEv .ax (.reg .bx))),
    ([0x69, 0xC8, 0x34, 0x12], .imul at16 (.gvEvIv .cx (.reg .ax) 0x1234)),
    ([0x6B, 0xD6, 0xFE], .imul at16 (.gvEvIb .dx (.reg .si) 0xFE))] = true := by decide

theorem test_decode_test : reads [
    ([0x84, 0xD8], .test at16 (.ebGb (.reg .ax) .bx)), ([0x85, 0xCE], .test at16 (.evGv (.reg .si) .cx)),
    ([0xA8, 0x0F], .test at16 (.alIb 0x0F)), ([0xA9, 0x34, 0x12], .test at16 (.eaxIv 0x1234)),
    ([0xF6, 0xC1, 0x80], .test at16 (.ebIb (.reg .cx) 0x80)),
    ([0xF7, 0xC2, 0xCD, 0xAB], .test at16 (.evIv (.reg .dx) 0xABCD))] = true := by decide

theorem test_decode_mov : reads [
    ([0x88, 0xE1], .mov at16 (.ebGb (.reg .cx) .sp)), ([0x89, 0xC3], .mov at16 (.evGv (.reg .bx) .ax)),
    ([0x8A, 0x07], .mov at16 (.gbEb .ax (.mem (.base16 .bx .none)))),
    ([0x8B, 0x46, 0x08], .mov at16 (.gvEv .ax (.mem (.base16 .bp (.d8 8))))),
    ([0xB4, 0x12], .mov at16 (.rbIb .sp 0x12)), ([0xBB, 0x34, 0x12], .mov at16 (.rvIv .bx 0x1234)),
    ([0xC6, 0x07, 0x55], .mov at16 (.ebIb (.mem (.base16 .bx .none)) 0x55)),
    ([0xC7, 0xC1, 0x34, 0x12], .mov at16 (.evIv (.reg .cx) 0x1234))] = true := by decide

theorem test_decode_mov_moffs : reads [
    ([0xA0, 0x34, 0x12], .movMoffs at16 (.alOb 0x1234)), ([0xA1, 0x34, 0x12], .movMoffs at16 (.eaxOv 0x1234)),
    ([0xA2, 0x34, 0x12], .movMoffs at16 (.obAl 0x1234)), ([0xA3, 0x34, 0x12], .movMoffs at16 (.ovEax 0x1234))] = true := by decide

theorem test_decode_mov_seg : reads [
    ([0x8C, 0xD8], .movFromSeg at16 (.reg .ax) .ds), ([0x8E, 0xC3], .movToSeg at16 .es (.reg .bx)),
    ([0x8E, 0x17], .movToSeg at16 .ss (.mem (.base16 .bx .none)))] = true := by decide

theorem test_decode_xchg_nop_lea : reads [
    ([0x86, 0xD9], .xchg at16 (.ebGb (.reg .cx) .bx)),
    ([0x87, 0x0F], .xchg at16 (.evGv (.mem (.base16 .bx .none)) .cx)), ([0x93], .xchg at16 (.eaxR .bx)),
    ([0x90], .nop at16), ([0x8D, 0x57, 0x04], .lea at16 .dx (.base16 .bx (.d8 4)))] = true := by decide

theorem test_decode_extend : reads [
    ([0x0F, 0xB6, 0xC3], .movzx at16 (.gvEb .ax (.reg .bx))), ([0x0F, 0xB7, 0xCA], .movzx at16 (.gvEw .cx (.reg .dx))),
    ([0x0F, 0xBE, 0x07], .movsx at16 (.gvEb .ax (.mem (.base16 .bx .none)))),
    ([0x0F, 0xBF, 0xF1], .movsx at16 (.gvEw .si (.reg .cx))), ([0x98], .cbw at16), ([0x99], .cwd at16),
    ([0xD7], .xlat at16)] = true := by decide

theorem test_decode_push_pop : reads [
    ([0x55], .push at16 (.r .bp)), ([0x68, 0x34, 0x12], .push at16 (.iv 0x1234)),
    ([0x6A, 0xFF], .push at16 (.ib 0xFF)), ([0xFF, 0x37], .push at16 (.ev (.mem (.base16 .bx .none)))),
    ([0x5F], .pop at16 (.r .di)), ([0x8F, 0x07], .pop at16 (.ev (.mem (.base16 .bx .none)))), ([0x60], .pusha at16),
    ([0x61], .popa at16)] = true := by decide

theorem test_decode_push_pop_seg : reads [
    ([0x06], .pushSeg at16 .es), ([0x0E], .pushSeg at16 .cs), ([0x16], .pushSeg at16 .ss), ([0x1E], .pushSeg at16 .ds),
    ([0x0F, 0xA0], .pushSeg at16 .fs), ([0x0F, 0xA8], .pushSeg at16 .gs), ([0x07], .popSeg at16 .es),
    ([0x17], .popSeg at16 .ss), ([0x1F], .popSeg at16 .ds), ([0x0F, 0xA1], .popSeg at16 .fs),
    ([0x0F, 0xA9], .popSeg at16 .gs)] = true := by decide

theorem test_decode_far_pointers : reads [
    ([0xC5, 0x07], .lds at16 .ax (.base16 .bx .none)), ([0xC4, 0x0F], .les at16 .cx (.base16 .bx .none)),
    ([0x0F, 0xB2, 0x27], .lss at16 .sp (.base16 .bx .none)), ([0x0F, 0xB4, 0x37], .lfs at16 .si (.base16 .bx .none)),
    ([0x0F, 0xB5, 0x3F], .lgs at16 .di (.base16 .bx .none))] = true := by decide

theorem test_decode_strings : reads [
    ([0xA4], .movs at16 .b), ([0xA5], .movs at16 .v), ([0xA6], .cmps at16 .b), ([0xA7], .cmps at16 .v),
    ([0xAA], .stos at16 .b), ([0xAB], .stos at16 .v), ([0xAC], .lods at16 .b), ([0xAD], .lods at16 .v),
    ([0xAE], .scas at16 .b), ([0xAF], .scas at16 .v)] = true := by decide

theorem test_decode_jmp_call_ret : reads [
    ([0xEB, 0xFE], .jmpRel at16 (.jb 0xFE)), ([0xE9, 0x34, 0x12], .jmpRel at16 (.jv 0x1234)),
    ([0xFF, 0xE0], .jmpInd at16 (.reg .ax)), ([0xEA, 0x5B, 0xE0, 0x00, 0xF0], .jmpFar at16 0xE05B 0xF000),
    ([0xFF, 0x2F], .jmpFarInd at16 (.base16 .bx .none)), ([0xE8, 0x34, 0x12], .callRel at16 0x1234),
    ([0xFF, 0x17], .callInd at16 (.mem (.base16 .bx .none))),
    ([0x9A, 0x34, 0x12, 0x78, 0x56], .callFar at16 0x1234 0x5678),
    ([0xFF, 0x1F], .callFarInd at16 (.base16 .bx .none)), ([0xC3], .ret at16), ([0xC2, 0x04, 0x00], .retImm at16 4),
    ([0xCB], .retf at16), ([0xCA, 0x06, 0x00], .retfImm at16 6)] = true := by decide

theorem test_decode_interrupts : reads [
    ([0xCC], .int3 at16), ([0xCD, 0x21], .int at16 0x21), ([0xCE], .into at16), ([0xCF], .iret at16)] = true := by decide

theorem test_decode_jcc_short : reads [
    ([0x70, 0x05], .jo at16 (.jb 5)), ([0x71, 0x05], .jno at16 (.jb 5)), ([0x72, 0x05], .jb at16 (.jb 5)),
    ([0x73, 0x05], .jae at16 (.jb 5)), ([0x74, 0x05], .je at16 (.jb 5)), ([0x75, 0x05], .jne at16 (.jb 5)),
    ([0x76, 0x05], .jbe at16 (.jb 5)), ([0x77, 0x05], .ja at16 (.jb 5)), ([0x78, 0x05], .js at16 (.jb 5)),
    ([0x79, 0x05], .jns at16 (.jb 5)), ([0x7A, 0x05], .jp at16 (.jb 5)), ([0x7B, 0x05], .jnp at16 (.jb 5)),
    ([0x7C, 0x05], .jl at16 (.jb 5)), ([0x7D, 0x05], .jge at16 (.jb 5)), ([0x7E, 0x05], .jle at16 (.jb 5)),
    ([0x7F, 0x05], .jg at16 (.jb 5))] = true := by decide

theorem test_decode_jcc_near : reads [
    ([0x0F, 0x80, 0x34, 0x12], .jo at16 (.jv 0x1234)), ([0x0F, 0x81, 0x34, 0x12], .jno at16 (.jv 0x1234)),
    ([0x0F, 0x82, 0x34, 0x12], .jb at16 (.jv 0x1234)), ([0x0F, 0x83, 0x34, 0x12], .jae at16 (.jv 0x1234)),
    ([0x0F, 0x84, 0x34, 0x12], .je at16 (.jv 0x1234)), ([0x0F, 0x85, 0x34, 0x12], .jne at16 (.jv 0x1234)),
    ([0x0F, 0x86, 0x34, 0x12], .jbe at16 (.jv 0x1234)), ([0x0F, 0x87, 0x34, 0x12], .ja at16 (.jv 0x1234)),
    ([0x0F, 0x88, 0x34, 0x12], .js at16 (.jv 0x1234)), ([0x0F, 0x89, 0x34, 0x12], .jns at16 (.jv 0x1234)),
    ([0x0F, 0x8A, 0x34, 0x12], .jp at16 (.jv 0x1234)), ([0x0F, 0x8B, 0x34, 0x12], .jnp at16 (.jv 0x1234)),
    ([0x0F, 0x8C, 0x34, 0x12], .jl at16 (.jv 0x1234)), ([0x0F, 0x8D, 0x34, 0x12], .jge at16 (.jv 0x1234)),
    ([0x0F, 0x8E, 0x34, 0x12], .jle at16 (.jv 0x1234)), ([0x0F, 0x8F, 0x34, 0x12], .jg at16 (.jv 0x1234))] = true := by decide

theorem test_decode_setcc : reads [
    ([0x0F, 0x90, 0xC0], .seto at16 (.reg .ax)), ([0x0F, 0x91, 0xC0], .setno at16 (.reg .ax)),
    ([0x0F, 0x92, 0xC0], .setb at16 (.reg .ax)), ([0x0F, 0x93, 0xC0], .setae at16 (.reg .ax)),
    ([0x0F, 0x94, 0xC0], .sete at16 (.reg .ax)), ([0x0F, 0x95, 0xC0], .setne at16 (.reg .ax)),
    ([0x0F, 0x96, 0xC0], .setbe at16 (.reg .ax)), ([0x0F, 0x97, 0xC0], .seta at16 (.reg .ax)),
    ([0x0F, 0x98, 0xC0], .sets at16 (.reg .ax)), ([0x0F, 0x99, 0xC0], .setns at16 (.reg .ax)),
    ([0x0F, 0x9A, 0xC0], .setp at16 (.reg .ax)), ([0x0F, 0x9B, 0xC0], .setnp at16 (.reg .ax)),
    ([0x0F, 0x9C, 0xC0], .setl at16 (.reg .ax)), ([0x0F, 0x9D, 0xC0], .setge at16 (.reg .ax)),
    ([0x0F, 0x9E, 0xC0], .setle at16 (.reg .ax)), ([0x0F, 0x9F, 0xC0], .setg at16 (.reg .ax))] = true := by decide

theorem test_decode_loops : reads [
    ([0xE0, 0xFE], .loopne at16 0xFE), ([0xE1, 0xFE], .loope at16 0xFE), ([0xE2, 0xFE], .loop at16 0xFE),
    ([0xE3, 0xFE], .jcxz at16 0xFE)] = true := by decide

theorem test_decode_flags : reads [
    ([0xF8], .clc at16), ([0xF9], .stc at16), ([0xF5], .cmc at16), ([0xFC], .cld at16), ([0xFD], .std at16),
    ([0xFA], .cli at16), ([0xFB], .sti at16), ([0x9C], .pushf at16), ([0x9D], .popf at16), ([0x9F], .lahf at16),
    ([0x9E], .sahf at16), ([0xF4], .hlt at16)] = true := by decide

theorem test_decode_system : reads [
    ([0x0F, 0x01, 0x07], .sgdt at16 (.base16 .bx .none)), ([0x0F, 0x01, 0x0F], .sidt at16 (.base16 .bx .none)),
    ([0x0F, 0x01, 0x17], .lgdt at16 (.base16 .bx .none)), ([0x0F, 0x01, 0x1F], .lidt at16 (.base16 .bx .none)),
    ([0x0F, 0x00, 0xC0], .sldt at16 (.reg .ax)), ([0x0F, 0x00, 0xD3], .lldt at16 (.reg .bx)),
    ([0x0F, 0x01, 0xE1], .smsw at16 (.reg .cx)), ([0x0F, 0x01, 0xF2], .lmsw at16 (.reg .dx))] = true := by decide

theorem test_decode_special_registers : reads [
    ([0x0F, 0x20, 0xC0], .movFromCr at16 .ax .cr0), ([0x0F, 0x22, 0xD9], .movToCr at16 .cr3 .cx),
    ([0x0F, 0x21, 0xF8], .movFromDr at16 .ax .dr7), ([0x0F, 0x23, 0xC2], .movToDr at16 .dr0 .dx)] = true := by decide

theorem test_decode_prefixes : reads [
    ([0x26, 0x88, 0x07], .mov ⟨some .es, .s16, .s16, .none, false⟩ (.ebGb (.mem m0) .ax)),
    ([0x66, 0xB8, 0x78, 0x56, 0x34, 0x12], .mov ⟨none, .s32, .s16, .none, false⟩ (.rvIv .ax 0x12345678)),
    ([0x67, 0x8B, 0x45, 0x08], .mov ⟨none, .s16, .s32, .none, false⟩ (.gvEv .ax (.mem (.base32 .bp (.d8 8))))),
    ([0x67, 0x8B, 0x0D, 0x44, 0x33, 0x22, 0x11],
      .mov ⟨none, .s16, .s32, .none, false⟩ (.gvEv .cx (.mem (.abs32 0x11223344)))),
    ([0x67, 0x8B, 0x8E, 0x44, 0x33, 0x22, 0x11],
      .mov ⟨none, .s16, .s32, .none, false⟩ (.gvEv .cx (.mem (.base32 .si (.full 0x11223344))))),
    ([0xF0, 0xFF, 0x07], .inc ⟨none, .s16, .s16, .none, true⟩ (.ev (.mem m0))),
    ([0xF3, 0xA5], .movs ⟨none, .s16, .s16, .rep, false⟩ .v), ([0xF2, 0xAE], .scas ⟨none, .s16, .s16, .repne, false⟩ .b),
    ([0x2E, 0x64, 0x66, 0x66, 0x90], .nop ⟨some .fs, .s32, .s16, .none, false⟩)] = true := by decide

/-- The default of a 32-bit code segment, and a size prefix against it (30_encoding R132, R135). -/
theorem test_decode_big :
    decode .idempotent true [0x8B, 0x45, 0x08] = .ok (.mov at32 (.gvEv .ax (.mem (.base32 .bp (.d8 8))))) [] ∧
    decode .idempotent true [0x66, 0x67, 0x8B, 0x07] = .ok (.mov at16 (.gvEv .ax (.mem m0))) [] := by decide

/-- What the decoder refuses, each with its name (30_encoding R139, R144, R145, R154, R155, R158, R164, R170). -/
theorem test_decode_rejects :
    decode .idempotent false [0x0F, 0x0B] = .err .unknownOpcode [] ∧
    decode .idempotent false [0xD2, 0xF0] = .err .unknownExtension [] ∧
    decode .idempotent false [0x8D, 0xC0] = .err .memoryRequired [] ∧
    decode .idempotent false [0x0F, 0x20, 0x00] = .err .registerRequired [] ∧
    decode .idempotent false [0x8C, 0xF0] = .err .badSegment [] ∧
    decode .idempotent false [0x8E, 0xC8] = .err .badSegment [] ∧
    decode .idempotent false [0x0F, 0x20, 0xC8] = .err .badControl [] ∧
    decode .idempotent false [0x67, 0x8B, 0x04] = .err .sib [] ∧
    decode .idempotent false (List.replicate 15 0x66) = .more := by decide

theorem test_decode_table_words :
    decodeTableWord 24 0x007700 = some (.ja at16 (.jb 0)) ∧
    decodeTableWord 24 0x0083F8 = some (.cmp at16 (.evIb (.reg .ax) 0)) := by decide

/-! ### Single steps from the spec's vectors (95 to 98_test_vectors): T0 and PT0 are the start states they name -/

def t0 : State :=
  { State.reset with
    regs := { Regs.reset with esp := 0x1000 }
    eip := 0x100
    segs := { Segs.reset with cs := .reset 0 0 }
    sched := { State.reset.sched with runState := .running } }

def put64 (m : List Host.Cell) (a : Nat) (d : BitVec 64) : List Host.Cell :=
  storeBytes (storeBytes m a .dword (d.setWidth 32)) (a + 4) .dword ((d >>> 32).setWidth 32)

/-- The GDT of PT0 with the Accessed bits of CS and SS set, three descriptors more (an absent LDT, an absent code segment, a
conforming one), and gates: two with a reserved type, #GP, a present and an absent interrupt gate, a task gate, a reserved type. -/
def tables : List Host.Cell :=
  [(0x1008, 0x00CF9B000000FFFF), (0x1010, 0x00CF93000000FFFF), (0x1018, 0x00CFF2000000FFFF), (0x1020, 0x00CF12000000FFFF),
    (0x1028, 0x00CF90000000FFFF), (0x1030, 0x00CF98000000FFFF), (0x1038, 0x00CF96000000FFFF), (0x1040, 0x0000820030000027),
    (0x1048, 0x00009A020000FFFF), (0x1050, 0x0000920300000FFF), (0x1058, 0x0000020030000027), (0x1060, 0x00CF1A000000FFFF),
    (0x1068, 0x00CF9F000000FFFF), (0x1800, 0), (0x1840, 0),
    (0x1868, 0x00008E00000830D0), (0x1908, 0x00000E0000083210), (0x1910, 0x0000850000080000), (0x1918, 0x0000820000080000),
    (0x1C00, 0x00008E0000083800)].foldl (fun m x => put64 m x.1 x.2) []

def flat (v : BitVec 16) (access : Byte) : SegRegister :=
  ⟨v, ⟨0, 0xFFFFFFFF, 0, access.setWidth 4, true, access, true, true, true⟩⟩

def pt0 : State :=
  { t0 with
    regs := { Regs.reset with esp := 0x9000 }
    segs := { Segs.reset with cs := flat 8 0x9B, ss := flat 0x10 0x93, ds := flat 0x10 0x93, es := flat 0x10 0x93 }
    gdtr := ⟨0x1000, 0x6F⟩
    idtr := ⟨0x1800, 0x7FF⟩
    ctl := ⟨1, 0, 0⟩
    mem := tables }

/-- The bytes at CS:EIP. -/
def code (s : State) (bs : List Byte) : State := placeBytes s (linearOf s .cs s.eip) bs

/-- The state one step later. -/
def after (s : State) : State :=
  match step s with
  | .next t => t
  | .fault _ => s
  | .refused _ => s

theorem step_after (s : State) (h : (match step s with | .next _ => true | .fault _ => false | .refused _ => false) = true) :
    step s = .next (after s) := by
  unfold after
  cases e : step s <;> simp_all

def bytesAt (s : State) (a n : Nat) : List Byte := (List.range n).map fun i => Mem.read s.mem (a + i)

/-- Vector A1: 1 + 0xFFFF wraps, with carry. -/
theorem test_add_wraps : let t := after (code { t0 with regs := { t0.regs with ebx := 1 } } [0x83, 0xC3, 0xFF])
    t.regs.ebx = 0 ∧ flagOf t .cf = true ∧ flagOf t .af = true ∧ flagOf t .ovf = false ∧ t.eip = 0x103 := by decide

/-- Vector A17: the borrow wraps a second operand of all ones. -/
theorem test_sbb_all_ones : let t := after (code { t0 with flags := { LazyFlags.reset with value := 3 } } [0x1C, 0xFF])
    t.regs.eax = 0 ∧ flagOf t .cf = true ∧ flagOf t .zf = true ∧ flagOf t .ovf = false := by decide

/-- Vector A25: INC keeps CF and sets OF. -/
theorem test_inc_keeps_carry :
    let t := after (code { t0 with regs := { t0.regs with eax := 0x7FFF }, flags := { LazyFlags.reset with value := 3 } } [0x40])
    t.regs.eax = 0x8000 ∧ flagOf t .cf = true ∧ flagOf t .ovf = true := by decide

/-- Vector A41: a write of AH leaves AL and the upper half. -/
theorem test_and_high_byte : let t := after (code { t0 with regs := { t0.regs with eax := 0xABCD } } [0x80, 0xE4, 0xF0])
    t.regs.eax = 0xA0CD ∧ flagOf t .sf = true := by decide

/-- Vector MD6: the signed product 0x80 does not fit a signed byte. -/
theorem test_imul_byte_overflow :
    let t := after (code { t0 with regs := { t0.regs with eax := 0x40, ebx := 2 } } [0xF6, 0xEB])
    t.regs.eax = 0x80 ∧ flagOf t .cf = true ∧ flagOf t .ovf = true := by decide

/-- Vector MD16: -7 by 2 truncates toward zero, remainder -1. -/
theorem test_idiv_truncates :
    (after (code { t0 with regs := { t0.regs with eax := 0xFFF9, ebx := 2 } } [0xF6, 0xFB])).regs.eax = 0xFFFD := by decide

/-- Vector DE3: -128 by -1 is #DE, delivered through entry 0 with EIP at the instruction. -/
theorem test_idiv_overflow_delivers :
    let s := { t0 with regs := { t0.regs with eax := 0xFF80, ebx := 0xFF }, mem := [(0, 0), (1, 5), (2, 0), (3, 0)] }
    let t := after (code { s with flags := { LazyFlags.reset with value := 0x202 } } [0xF6, 0xFB])
    t.eip = 0x500 ∧ t.regs.esp = 0x0FFA ∧ bytesAt t 0xFFA 6 = [0x00, 0x01, 0, 0, 0x02, 0x02] ∧ plainFlag t ifPos = false := by
  decide

/-- Vector SH11: RCL of a byte by 9 comes back to it. -/
theorem test_rcl_nine :
    let s := { t0 with regs := { t0.regs with eax := 0x5A }, flags := { LazyFlags.reset with value := 3 } }
    let t := after (code s [0xC0, 0xD0, 0x09])
    t.regs.eax = 0x5A ∧ flagOf t .cf = true := by decide

/-- Vector SH14: RCR takes CF in at the top. -/
theorem test_rcr_carry_in : let t := after (code { t0 with flags := { LazyFlags.reset with value := 3 } } [0xD0, 0xD8])
    t.regs.eax = 0x80 ∧ flagOf t .cf = false := by decide

/-- Vector SH34: an arithmetic shift by more than the width fills with the sign. -/
theorem test_sar_long : let t := after (code { t0 with regs := { t0.regs with eax := 0x80 } } [0xC0, 0xF8, 0x1F])
    t.regs.eax = 0xFF ∧ flagOf t .cf = true := by decide

/-- Vector ST25: PUSHA wraps below 0, the slot of SP holds the old pointer. -/
theorem test_pusha_wraps :
    let t := after (code { t0 with regs := { t0.regs with esp := 8, eax := 0x1111, edi := 0x7777 } } [0x60])
    t.regs.esp = 0xFFF8 ∧ bytesAt t 6 2 = [0x11, 0x11] ∧ bytesAt t 0xFFFE 2 = [8, 0] ∧ bytesAt t 0xFFF8 2 = [0x77, 0x77] := by
  decide

/-- Vector SR6: an overlapping forward copy repeats its first byte. -/
theorem test_rep_movs_overlap :
    let m := [(0x500, 0x41), (0x501, 0x42), (0x502, 0x43), (0x503, 0x44), (0x504, 0x45)]
    let t := after (code { t0 with regs := { t0.regs with ecx := 4, esi := 0x500, edi := 0x501 }, mem := m } [0xF3, 0xA4])
    bytesAt t 0x500 5 = [0x41, 0x41, 0x41, 0x41, 0x41] ∧ t.regs.ecx = 0 ∧ t.regs.esi = 0x504 := by decide

/-- Vector EX1: INT through a 32-bit interrupt gate. -/
theorem test_int_protected :
    let t := after (code { pt0 with flags := { LazyFlags.reset with value := 0x0AD7 } } [0xCD, 0x80])
    t.eip = 0x3800 ∧ t.regs.esp = 0x8FF4 ∧ bytesAt t 0x8FF4 12 = [2, 1, 0, 0, 8, 0, 0, 0, 0xD7, 0x0A, 0, 0] ∧
    plainFlag t ifPos = false := by decide

/-- Vector SL16: a data selector with RPL 3 to a descriptor of level 0 is #GP(0x10). -/
theorem test_mov_ds_privilege : let t := after (code { pt0 with regs := { pt0.regs with eax := 0x13 } } [0x8E, 0xD8])
    t.eip = 0x30D0 ∧ bytesAt t 0x8FF0 8 = [0x10, 0, 0, 0, 0, 1, 0, 0] ∧ t.segs.ds = pt0.segs.ds := by decide

/-- Vector CL6: a far jump into a 16-bit code segment marks the descriptor accessed and clears `big`. -/
theorem test_far_jump_sixteen : let t := after (code pt0 [0xEA, 0x00, 0x02, 0x00, 0x00, 0x48, 0x00])
    t.segs.cs.cache.base = 0x20000 ∧ t.segs.cs.cache.big = false ∧ Mem.read t.mem 0x104D = 0x9B ∧ t.eip = 0x200 := by decide

/-- Vector SCH6: bytes outside the table abort with those bytes, EIP at the instruction. -/
theorem test_unknown_opcode_aborts : let t := after (code t0 [0x0F, 0x0B])
    t.sched.runState = .aborted ∧ t.eip = 0x100 ∧ t.sched.abortInfo = some (.decodeError .unknownOpcode [0x0F, 0x0B]) := by decide

/-- Vector SCH1: the first instruction after reset is fetched at physical 0xFFFF0. -/
theorem test_reset_jump : let t := after (State.reset.withFetchWord 24 0x00EA5B)
    t.segs.cs.cache.base = 0 ∧ t.eip = 0x5B := by decide

/-! ### Witnesses: for each obligation with hypotheses, states and operands that meet them -/

/-- T0 with [BX] at 0x200, a word of 0. -/
def w0 : State :=
  { t0 with regs := { t0.regs with ebx := 0x200, esi := 0x300, edi := 0x400 }, mem := [(0x200, 0), (0x201, 0)] }

theorem access_data (k : Nat) (h : k < 0x100) (w : Width) : canAccess w0 .ds (BitVec.ofNat 32 (0x200 + k)) w := by
  unfold canAccess canAccessLinear
  revert k
  cases w <;> decide

theorem ready_word : (Operand.mem .word m0).ready at16 w0 := access_data 0 (by decide) .word

theorem ready_byte : (Operand.mem .byte m0).ready at16 w0 := access_data 0 (by decide) .byte

/-- `ADD [BX],CX` and its relations. -/
theorem ready_alu : (AluForm.operands at16 (.evGv (.mem m0) .cx)).ready at16 w0 := ⟨ready_word, trivial⟩

theorem test_witness_DecodeOfEncode :
    (Instr.mov ⟨some .es, .s32, .s32, .rep, true⟩ (.evIv (.mem (.base32 .bp (.full 0x12345678))) 0xFFFFFFFF)).wf = true ∧
    (Instr.mov at16 (.rvIv .ax 0xFFFF)).wf = true := by decide

/-- Reset with MOV BX,AX at CS:EIP. -/
def c0 : State := State.reset.withFetchWord 24 0x0089C3

def movBxAx : Instr := .mov at16 (.evGv (.reg .bx) .ax)

theorem test_witness_StepRunsDecoded :
    runsNext c0 ∧ fetchDecode (setStart c0 c0.eip) = .ok (movBxAx, 2) (setStart c0 c0.eip) := by
  unfold runsNext
  decide

/-- A budget used up, a pause inside a slice, and an IDLE block at the start of a slice. -/
theorem test_witness_StepRunsDecoded_ends :
    t0.sched.runState = .running ∧ t0.sched.sliceCount < t0.cfg.sliceBudget ∧
    t0.cfg.sliceBudget ≤ { t0 with sched := { t0.sched with sliceCount := t0.cfg.sliceBudget } }.sched.sliceCount ∧
    { t0 with inputs := ⟨true, []⟩ }.inputs.pauseReq = true ∧ State.reset.sched.runState = .idle ∧
    State.reset.inputs.pauseReq = false ∧ plainFlag State.reset ifPos = false := by decide

theorem holds_of (s : State) (bs : List Byte) (base : Nat)
    (h : ∀ k, k < bs.length → canAccess s .cs (s.eip + BitVec.ofNat 32 k) .byte ∧
      storeHome s .cs (s.eip + BitVec.ofNat 32 k) .byte = some (base + k) ∧ Mem.read s.mem (base + k) = bs.getD k 0) :
    holdsCode s bs := fun k hk => by
  obtain ⟨h1, h2, h3⟩ := h k hk
  refine ⟨h1, base + k, h2, ?_⟩
  rw [h3, List.getD_eq_getElem?_getD, List.getElem?_eq_getElem hk]
  rfl

theorem test_witness_StepRunsEncoded : runsNext c0 ∧ movBxAx.wf = true ∧ holdsCode c0 (encode (getSeg c0 .cs).cache.big movBxAx) := by
  refine ⟨by unfold runsNext; decide, by decide, holds_of c0 _ 0xFFFF0 ?_⟩
  unfold canAccess canAccessLinear
  decide

/-- Fifteen prefixes, and an opcode outside the table. -/
theorem test_witness_UndecodableAborts :
    (∃ s bs e rest, runsNext s ∧ bs.length = Config.maxInsnLen ∧ holdsCode s bs ∧
      decode s.cfg.sizePrefix (getSeg s .cs).cache.big bs = .err e rest) ∧
    ∃ s bs, runsNext s ∧ bs.length = Config.maxInsnLen ∧ holdsCode s bs ∧
      decode s.cfg.sizePrefix (getSeg s .cs).cache.big bs = .more := by
  constructor
  · refine ⟨code t0 ([0x0F, 0x0B] ++ List.replicate 13 0), [0x0F, 0x0B] ++ List.replicate 13 0, .unknownOpcode, List.replicate 13 0,
      by unfold runsNext; decide, by decide, holds_of _ _ 0x100 ?_, by decide⟩
    unfold canAccess canAccessLinear
    decide
  · refine ⟨code t0 (List.replicate 15 0x66), List.replicate 15 0x66, by unfold runsNext; decide, by decide,
      holds_of _ _ 0x100 ?_, by decide⟩
    unfold canAccess canAccessLinear
    decide

/-- The first byte beyond the limit of CS in protected mode, and the second in real mode. -/
theorem test_witness_UndecodableAborts_fetch :
    let s := setSeg pt0 .cs ⟨8, { (getSeg pt0 .cs).cache with limitScaled := 0xFF }⟩
    let r := code (setSeg t0 .cs ⟨0, { (getSeg t0 .cs).cache with limitScaled := 0x100 }⟩) [0x83]
    (runsNext s ∧ holdsCode s [] ∧ decode s.cfg.sizePrefix (getSeg s .cs).cache.big [] = .more ∧
      (getSeg s .cs).cache.valid = true ∧ (getSeg s .cs).cache.limitScaled < s.eip + BitVec.ofNat 32 0 ∧ pe s = true ∧
      segRead (setStart s s.eip) .cs (s.eip + BitVec.ofNat 32 0) .byte = .raised (.gp 0) (setStart s s.eip)) ∧
    runsNext r ∧ holdsCode r [0x83] ∧ decode r.cfg.sizePrefix (getSeg r .cs).cache.big [0x83] = .more ∧
    (getSeg r .cs).cache.valid = true ∧ (getSeg r .cs).cache.limitScaled < r.eip + BitVec.ofNat 32 1 ∧ pe r = false ∧
    segRead (setStart r r.eip) .cs (r.eip + BitVec.ofNat 32 1) .byte =
      .aborted (.memoryFault .cs 0x101) (setStart r r.eip) := by
  refine ⟨⟨by unfold runsNext; decide, fun k h => absurd h (Nat.not_lt_zero k), by decide⟩, by unfold runsNext; decide,
    holds_of _ _ 0x100 ?_, by decide⟩
  unfold canAccess canAccessLinear
  decide

theorem inv_c0 : Inv c0 := ⟨by decide, by decide, by decide, by intro f; cases f <;> decide, by decide, by decide⟩

theorem test_witness_StepKeepsInvariant : Inv c0 ∧ step c0 = .next (after c0) :=
  ⟨inv_c0, step_after c0 (by decide)⟩

/-- A snapshot of ADD leaves dirty flags, and they have formulas. -/
theorem test_witness_StepKeepsInvariant_dirty : Inv (after (code t0 [0x83, 0xC3, 0xFF])) :=
  ⟨by decide, by decide, by decide, by intro f; cases f <;> decide, by decide, by decide⟩

def aborted0 : State := { t0 with sched := { t0.sched with runState := .aborted, abortInfo := some .configurationError } }

def shutdown0 : State := { t0 with sched := { t0.sched with runState := .halted, shutdown := true } }

theorem test_witness_EveryInstructionAnswers :
    aborted0.sched.runState = .aborted ∧ shutdown0.sched.runState = .halted ∧ shutdown0.sched.shutdown = true ∧
    plainFlag shutdown0 ifPos = false ∧ shutdown0.inputs.intr = [] := by decide

/-- A host access that aborts, in a shutdown and in a block that is idle (60_exceptions R513, R525; log entry 24). -/
theorem test_host_abort_keeps_shutdown : hostMemWrite shutdown0 0x200000 .dword 0 = shutdown0 ∧
    (hostMemWrite State.reset 0x200000 .dword 0).sched.runState = .aborted := by decide

theorem test_witness_SystemRegistersHaveFewWriters :
    ∃ t, exec movBxAx w0 = .next t ∧ (∀ a c r, movBxAx ≠ .movToDr a c r) ∧ (∀ a c r, movBxAx ≠ .movToCr a c r) ∧
      (∀ a e, movBxAx ≠ .lmsw a e) ∧ (∀ a m, movBxAx ≠ .lgdt a m) ∧ (∀ a m, movBxAx ≠ .lidt a m) ∧
      ∀ a e, movBxAx ≠ .lldt a e := by
  refine ⟨_, rfl, ?_, ?_, ?_, ?_, ?_, ?_⟩ <;> (intros; exact fun h => by cases h)

/-- The last double word of DRAM below the window, and the last of the ROM. -/
theorem test_witness_StoreThenLoad :
    Memory.wf w0.mem = true ∧ bufferHome w0 0x9FFFC .dword = some 0x9FFFC ∧ bufferHome w0 0xFFFFC .dword = some 0xFFFFC := by
  decide

/-- T0 with the device registered and one answer listed. -/
def v0 : State := { w0 with vga := { w0.vga with registered := true, answers := [0x12345678] } }

theorem test_witness_DeviceCallsAreRecorded :
    mapPhysical v0 0xA0000 .byte = some (.vga, 0xA0000) ∧ mapPhysical v0 0xBFFFE .word = some (.vga, 0xBFFFE) ∧
    v0.vga.answers = [0x12345678] := by decide

theorem test_witness_AddressAliases :
    { w0 with a20 := false }.a20 = false ∧ w0.a20 = true ∧ w0.cfg.wf = true ∧ pg w0 = false ∧ 0 + Width.bytes .byte ≤ Config.romSize ∧
    0x3FFFC + Width.bytes .dword ≤ Config.romSize := by decide

/-- PT0 with DS null and CR0.PG set. -/
def n0 : State := setCtl (setSeg pt0 .ds ⟨0, { (getSeg pt0 .ds).cache with valid := false }⟩) .cr0 0x80000001

theorem test_witness_AccessChecks :
    (getSeg n0 .ds).cache.valid = false ∧ (getSeg w0 .ds).cache.valid = true ∧
    (getSeg w0 .ds).cache.limitScaled < (0x10000 : Word) ∧ pe n0 = true ∧ pe w0 = false ∧ pg n0 = true := by decide

/-- PT0 with DS and SS null, T0 with a limit of 0 in DS and SS: the operand, the second operand, the pointer, the slots fail. -/
theorem test_witness_AccessChecks_failures :
    let n := setSeg (setSeg pt0 .ds ⟨0, { (getSeg pt0 .ds).cache with valid := false }⟩) .ss
      ⟨0, { (getSeg pt0 .ss).cache with valid := false }⟩
    let l := setSeg (setSeg w0 .ds ⟨0, { (getSeg w0 .ds).cache with limitScaled := 0 }⟩) .ss
      ⟨0, { (getSeg w0 .ss).cache with limitScaled := 0 }⟩
    (readOps at16 [(AluForm.operands at16 (.gvEv .cx (.mem m0))).dst, (AluForm.operands at16 (.gvEv .cx (.mem m0))).src] n =
        .raised (.gp 0) n ∧ readOp at16 l (.mem .word m0) = .aborted (.memoryFault .ds 0x200) l) ∧
    (writeOp at16 n (.mem .word m0) 0 = .raised (.gp 0) n ∧ segWrite l .ds 0x200 .word 0 = .aborted (.memoryFault .ds 0x200) l) ∧
    (readParts at16 m0 .word 2 .word n = .raised (.gp 0) n ∧ readParts at16 m0 .word 2 .dword l = .aborted (.memoryFault .ds 0x200) l) ∧
    (peek n .s16 0 = .raised (.ss 0) n ∧ peekAll .s16 [0, 2, 4] l = .aborted (.memoryFault .ss 0x1000) l) ∧
    (storeSlots n .s16 0 [] n = .ok () n ∧ segWrite n .ss (slotBelow n 2) .word 1 = .raised (.ss 0) n) ∧
    (readOp at16 n (.reg .word .ax) = .ok 0 n ∧ isProt n = true ∧ n.cpl = 0 ∧ at16.rep = .none) := by decide

/-- The second slot fails after the first is stored: SS ends at 0xFFF, the pointer is at 2. -/
theorem test_witness_AccessChecks_slots :
    let s := setSeg { w0 with regs := { w0.regs with esp := 2 } } .ss ⟨0, { (getSeg w0 .ss).cache with limitScaled := 0xFFF }⟩
    ∃ t, storeSlots s .s16 0 ([1, 2].take 1) s = .ok () t ∧ Mem.read t.mem 0 = 1 ∧
      segWrite t .ss (slotBelow s 4) .word 2 = .aborted (.memoryFault .ss 0xFFFE) t := ⟨_, rfl, by decide, by decide⟩

theorem test_witness_AccessChecks_guards : mayPrivileged pt0 ∧ mayV86 pt0 ∧ repCount ⟨none, .s16, .s16, .rep, false⟩ w0 = 0 ∧
    plainFlag pt0 ntPos = false ∧ ∃ v, peek w0 .s16 0 = .ok v w0 :=
  ⟨by unfold mayPrivileged; decide, by unfold mayV86; decide, by decide, by decide, _, rfl⟩

theorem test_witness_RegisterWriteChangesItsBits :
    Reg.cx ≠ regHome .byte .sp ∧ isHighByte .sp = true ∧ ¬(8 ≤ 7 ∧ 7 < 16) ∧ isHighByte .ax = false := by decide

/-- Byte register 4 is AH (10_state R23). -/
theorem test_high_byte_alias : getReg { t0 with regs := { t0.regs with eax := 0x12345678 } } .byte .sp = 0x56 := by decide

theorem test_witness_LazyFlagsAreInvisible : formula .cf .add .byte 0xFF 1 0 = some true := by decide

/-- The largest operands of a byte, with and without carry. -/
theorem test_witness_AdditionFlags : (0xFF : Word).toNat < 2 ^ Width.bits .byte ∧ (0xFFFFFFFF : Word).toNat < 2 ^ Width.bits .dword ∧
    (FlagKind.adc = .adc ∨ (FlagKind.adc = .add ∧ true = false)) ∧
    (FlagKind.add = .adc ∨ (FlagKind.add = .add ∧ false = false)) := by decide

theorem test_witness_SubtractionFlags : (0 : Word).toNat < 2 ^ Width.bits .byte ∧ (0xFF : Word).toNat < 2 ^ Width.bits .byte ∧
    (FlagKind.sbb = .sbb ∨ (FlagKind.sbb = .sub ∧ true = false) ∨ (FlagKind.sbb = .cmp ∧ true = false)) ∧
    (FlagKind.cmp = .sbb ∨ (FlagKind.cmp = .sub ∧ false = false) ∨ (FlagKind.cmp = .cmp ∧ false = false)) := by decide

theorem test_witness_MultiplyAndStepFlags : (0x80 : Word).toNat < 2 ^ Width.bits .byte ∧ (0xFF : Word).toNat < 2 ^ Width.bits .byte ∧
    (Flag.ovf = .cf ∨ Flag.ovf = .ovf) ∧ (FlagKind.imul = .mul ∨ FlagKind.imul = .imul) ∧
    ((FlagKind.dec = .inc ∧ (0xFF : Word) = trunc .byte (0 + 1)) ∨
      (FlagKind.dec = .dec ∧ (0xFF : Word) = trunc .byte (0 - 1))) := by
  decide

/-- The examples of 40_lazy_flags R225: PF of 0x0F is 1, PF of 0x07 is 0; the sign bit is taken at the width. -/
theorem test_uniform_rows : formula .pf .add .byte 0x0E 1 0x0F = some true ∧ formula .pf .mul .byte 7 1 0x07 = some false ∧
    formula .sf .sub .byte 0 0x80 0x80 = some true ∧ formula .sf .sub .word 0x100 0x80 0x80 = some false := by decide

/-- PT0 at CPL 3, which no run reaches. -/
def user0 : State := { pt0 with cpl := 3 }

theorem test_witness_FlagInstructions :
    (pe w0 = false ∨ w0.cpl ≤ iopl w0) ∧ (pe pt0 = false ∨ pt0.cpl ≤ iopl pt0) ∧ pe user0 = true ∧ iopl user0 < user0.cpl := by
  decide

theorem stack_slots (k : Nat) (h : k < 64) (sz : Size) : canStore w0 sz k ∧ canFetch w0 sz k := by
  unfold canStore canFetch canAccess canAccessLinear
  revert k
  cases sz <;> decide

theorem test_witness_FlagTransfers : mayV86 w0 ∧ canStore w0 at16.osz at16.osz.bytes ∧ canFetch w0 at16.osz 0 :=
  ⟨by unfold mayV86; decide, (stack_slots 2 (by decide) .s16).1, (stack_slots 0 (by decide) .s16).2⟩

/-- V8086 mode, which no run reaches, with IOPL 0. -/
theorem test_witness_FlagTransfers_v86 : ¬mayV86 { pt0 with flags := { pt0.flags with value := 0x20002 } } := by
  unfold mayV86
  decide

theorem test_witness_MoveResults : (MovForm.operands at16 (.evGv (.mem m0) .cx)).ready at16 w0 ∧
    (MoffsForm.operands at16 (.ovEax 0x2FF)).ready at16 w0 ∧ (rmOp .word (.mem m0)).ready at16 w0 :=
  ⟨⟨ready_word, trivial⟩, ⟨access_data 0xFF (by decide) .word, trivial⟩, ready_word⟩

theorem test_witness_ExchangeResults : (XchgForm.operands at16 (.evGv (.mem m0) .cx)).ready at16 w0 := ⟨ready_word, trivial⟩

theorem test_witness_RegisterResults : (ExtForm.source (.gvEb .ax (.mem m0))).op.ready at16 w0 ∧
    canAccess w0 (implicitSeg at16) (truncSize at16.asz (getRegSize w0 at16.asz .bx + getReg w0 .byte .ax)) .byte :=
  ⟨ready_byte, access_data 0 (by decide) .byte⟩

/-- Vectors DM26 to DM28: LEA AX,[BX+5], LEA EAX,[BX+5] and LEA AX,[EBX+5] wrap at the address size. -/
theorem test_lea_wraps :
    (after (code { t0 with regs := { t0.regs with ebx := 0xFFFE } } [0x8D, 0x47, 0x05])).regs.eax = 3 ∧
    (after (code { t0 with regs := { t0.regs with ebx := 0xFFFFFFFE, eax := 0xFFFFFFFF } } [0x66, 0x8D, 0x47, 0x05])).regs.eax = 3 ∧
    (after (code { t0 with regs := { t0.regs with ebx := 0x1FFFE, eax := 0xFFFFFFFF } } [0x67, 0x8D, 0x43, 0x05])).regs.eax =
      0xFFFF0003 := by decide

/-- Each form of displacement, with and without an override; the forms with BP and EBP and another. -/
theorem test_witness_RegisterResults_addresses :
    (Base16.bpsi, [Reg.bp, Reg.si]) ∈ [(Base16.bxsi, [Reg.bx, Reg.si]), (.bpsi, [.bp, .si])] ∧
    (Disp.none = (Disp.none : Disp 16) ∧ (0 : Int) = 0) ∧ (∃ y, Disp.d8 0x80 = (Disp.d8 y : Disp 16) ∧ (-128 : Int) = y.toInt) ∧
    (∃ y, Disp.full 0x8000 = (Disp.full y : Disp 16) ∧ (-32768 : Int) = y.toInt) ∧
    (∃ y, Disp.full 0x80000000 = (Disp.full y : Disp 32) ∧ (-2147483648 : Int) = y.toInt) ∧
    at16.seg = none ∧ (⟨some .es, .s16, .s16, .none, false⟩ : Attrs).seg = some .es := by
  refine ⟨by decide, ⟨rfl, rfl⟩, ⟨_, rfl, by decide⟩, ⟨_, rfl, by decide⟩, ⟨_, rfl, by decide⟩, rfl, rfl⟩

theorem test_witness_PushResults : canStore w0 at16.osz at16.osz.bytes ∧ (PushForm.operand at16 (.ev (.mem m0))).ready at16 w0 :=
  ⟨(stack_slots 2 (by decide) .s16).1, ready_word⟩

theorem test_witness_PopResults : canFetch w0 at16.osz 0 ∧ (Operand.mem at16.osz.width m0).ready at16 w0 :=
  ⟨(stack_slots 0 (by decide) .s16).2, ready_word⟩

theorem test_witness_PopResults_pointers : stackBig pt0 = true ∧ stackBig w0 = false := by decide

theorem test_witness_PushAllPopAll : (∀ i, i < 8 → canStore w0 at16.osz (at16.osz.bytes * (i + 1))) ∧
    ∀ i, i < 8 → canFetch w0 at16.osz (at16.osz.bytes * i) :=
  ⟨fun i h => (stack_slots (2 * (i + 1)) (by omega) .s16).1, fun i h => (stack_slots (2 * i) (by omega) .s16).2⟩

theorem far_ready : farReady at16 w0 m0 := ⟨access_data 0 (by decide) .word, access_data 2 (by decide) .word⟩

theorem table_ready : tableReady at16 w0 m0 := ⟨access_data 0 (by decide) .word, access_data 2 (by decide) .dword⟩

theorem read_frame_refl (s : State) : ReadFrame s s :=
  ⟨rfl, rfl, rfl, rfl, ⟨rfl, rfl, rfl, rfl, rfl, rfl, rfl, rfl, rfl, rfl, rfl, rfl, rfl⟩⟩

theorem test_witness_SegmentLoadsRealMode : isProt w0 = false ∧ ReadFrame w0 w0 ∧ (rmOp .word (.mem m0)).ready at16 w0 ∧
    canFetch w0 at16.osz 0 ∧ farReady at16 w0 m0 :=
  ⟨by decide, read_frame_refl w0, ready_word, (stack_slots 0 (by decide) .s16).2, far_ready⟩

/-- One selector of PT0 for each case of a data-segment load: null, no readable segment, expand-down, DPL below RPL, absent,
marked accessed already, and not yet. -/
theorem test_witness_DataSegmentLoads : isProt pt0 = true ∧ SegReg.ds ≠ .cs ∧ SegReg.ds ≠ .ss ∧
    (3 : BitVec 16) &&& 0xFFFC = 0 ∧
    (fetchRawDescriptor pt0 0x30 false = .ok (0x00CF98000000FFFF, 0x1030) pt0 ∧ isReadable 0x00CF98000000FFFF = false) ∧
    (fetchRawDescriptor pt0 0x38 false = .ok (0x00CF96000000FFFF, 0x1038) pt0 ∧ isReadable 0x00CF96000000FFFF = true ∧
      isExpandDown 0x00CF96000000FFFF = true) ∧
    (fetchRawDescriptor pt0 0x13 false = .ok (0x00CF93000000FFFF, 0x1010) pt0 ∧ isReadable 0x00CF93000000FFFF = true ∧
      isExpandDown 0x00CF93000000FFFF = false ∧ descDpl 0x00CF93000000FFFF < selRpl 0x13) ∧
    (fetchRawDescriptor pt0 0x20 false = .ok (0x00CF12000000FFFF, 0x1020) pt0 ∧ selRpl 0x20 ≤ descDpl 0x00CF12000000FFFF ∧
      pt0.cpl ≤ descDpl 0x00CF12000000FFFF ∧ descP 0x00CF12000000FFFF = false) ∧
    (selRpl 0x10 ≤ descDpl 0x00CF93000000FFFF ∧ descP 0x00CF93000000FFFF = true ∧ BitVec.getLsbD (0x00CF93000000FFFF : Descriptor) 40 = true) ∧
    (fetchRawDescriptor pt0 0x1B false = .ok (0x00CFF2000000FFFF, 0x1018) pt0 ∧ selRpl 0x1B ≤ descDpl 0x00CFF2000000FFFF ∧
      descP 0x00CFF2000000FFFF = true ∧ BitVec.getLsbD (0x00CFF2000000FFFF : Descriptor) 40 = false) := by decide

theorem test_witness_DataSegmentLoads_access : canAccessLinear pt0 (0x1018 + 5) .byte ∧ canAccessLinear pt0 (0x1010 + 5) .byte := by
  unfold canAccessLinear
  decide

/-- The first index beyond the GDT's limit, and an LDT selector while LDTR is invalid; the last index within the limit is not. -/
theorem test_witness_selectorOutside : selectorOutside pt0 0x70 ∧ (0x70 : BitVec 16) &&& 0xFFFC ≠ 0 ∧ selectorOutside pt0 0xC ∧
    (0xC : BitVec 16) &&& 0xFFFC ≠ 0 ∧ ¬selectorOutside pt0 0x6B := by
  unfold selectorOutside
  decide

/-- One selector for each case of an SS load: null, RPL other than CPL, not writable, expand-down, DPL other than CPL, absent,
good. -/
theorem test_witness_StackSegmentLoads : isProt pt0 = true ∧ (3 : BitVec 16) &&& 0xFFFC = 0 ∧ selRpl 0x11 ≠ pt0.cpl ∧
    (fetchRawDescriptor pt0 0x28 false = .ok (0x00CF90000000FFFF, 0x1028) pt0 ∧ isWritable 0x00CF90000000FFFF = false ∧
      selRpl 0x28 = pt0.cpl) ∧
    (fetchRawDescriptor pt0 0x38 false = .ok (0x00CF96000000FFFF, 0x1038) pt0 ∧ isWritable 0x00CF96000000FFFF = true ∧
      isExpandDown 0x00CF96000000FFFF = true) ∧
    (fetchRawDescriptor pt0 0x18 false = .ok (0x00CFF2000000FFFF, 0x1018) pt0 ∧ isWritable 0x00CFF2000000FFFF = true ∧
      isExpandDown 0x00CFF2000000FFFF = false ∧ descDpl 0x00CFF2000000FFFF ≠ pt0.cpl) ∧
    (fetchRawDescriptor pt0 0x20 false = .ok (0x00CF12000000FFFF, 0x1020) pt0 ∧ isWritable 0x00CF12000000FFFF = true ∧
      descDpl 0x00CF12000000FFFF = pt0.cpl ∧ descP 0x00CF12000000FFFF = false) ∧
    (fetchRawDescriptor pt0 0x10 false = .ok (0x00CF93000000FFFF, 0x1010) pt0 ∧ isWritable 0x00CF93000000FFFF = true ∧
      descDpl 0x00CF93000000FFFF = pt0.cpl ∧ descP 0x00CF93000000FFFF = true ∧
      BitVec.getLsbD (0x00CF93000000FFFF : Descriptor) 40 = true) ∧
    (fetchRawDescriptor pt0 0x50 false = .ok (0x0000920300000FFF, 0x1050) pt0 ∧ isWritable 0x0000920300000FFF = true ∧
      isExpandDown 0x0000920300000FFF = false ∧ descDpl 0x0000920300000FFF = pt0.cpl ∧ descP 0x0000920300000FFF = true ∧
      BitVec.getLsbD (0x0000920300000FFF : Descriptor) 40 = false) := by decide

theorem test_witness_StackSegmentLoads_access : canAccessLinear pt0 (0x1050 + 5) .byte := by
  unfold canAccessLinear
  decide

/-- In protected mode MOV, POP and the far-pointer loads find their value, and with paging on no descriptor is read. -/
theorem test_witness_SegmentLoads_protected : (rmOp .word (.mem m0)).ready at16 pt0 ∧ canFetch pt0 at16.osz 0 ∧ farReady at16 pt0 m0 ∧
    (Instr.lgs, SegReg.gs) ∈ [(Instr.lds, SegReg.ds), (.les, .es), (.lfs, .fs), (.lgs, .gs)] ∧
    (let s := setCtl pt0 .cr0 0x80000001
     isProt s = true ∧ (0x10 : BitVec 16) &&& 0xFFFC ≠ 0 ∧ selRpl 0x10 = s.cpl ∧
       fetchRawDescriptor s 0x10 false = .aborted (.unimplemented .paging) s ∧
       fetchRawDescriptor s 0x10 true = .aborted (.unimplemented .paging) s) := by
  refine ⟨?_, ?_, ?_, List.mem_cons_of_mem _ (List.mem_cons_of_mem _ (List.mem_cons_of_mem _ (List.mem_cons_self ..))), by decide⟩
  all_goals
    first
      | unfold canFetch canAccess canAccessLinear; decide
      | unfold farReady canAccess canAccessLinear; decide
      | show canAccess _ _ _ _; unfold canAccess canAccessLinear; decide

/-- A system descriptor, a data segment, an absent code segment, and the code segment of PT0. -/
theorem test_witness_CodeSegmentLoads : isProt pt0 = true ∧
    (fetchRawDescriptor pt0 0x40 false = .ok (0x0000820030000027, 0x1040) pt0 ∧ descS 0x0000820030000027 = false) ∧
    (fetchRawDescriptor pt0 0x10 false = .ok (0x00CF93000000FFFF, 0x1010) pt0 ∧ descS 0x00CF93000000FFFF = true ∧
      isCode 0x00CF93000000FFFF = false) ∧
    (fetchRawDescriptor pt0 0x60 false = .ok (0x00CF1A000000FFFF, 0x1060) pt0 ∧ isCode 0x00CF1A000000FFFF = true ∧
      isConforming 0x00CF1A000000FFFF = false ∧ selRpl 0x60 ≤ pt0.cpl ∧ descDpl 0x00CF1A000000FFFF = pt0.cpl ∧
      descP 0x00CF1A000000FFFF = false) ∧
    (fetchRawDescriptor pt0 8 false = .ok (0x00CF9B000000FFFF, 0x1008) pt0 ∧ isCode 0x00CF9B000000FFFF = true ∧
      isConforming 0x00CF9B000000FFFF = false ∧ descDpl 0x00CF9B000000FFFF = pt0.cpl ∧ descP 0x00CF9B000000FFFF = true ∧
      BitVec.getLsbD (0x00CF9B000000FFFF : Descriptor) 40 = true) := by decide

/-- The privilege rule of each kind of CS load, met and not met: PT0's code segment by JUMP, RET and INT, with an RPL of 3, from
CPL 3; a conforming segment; one that is not yet marked accessed. -/
theorem test_witness_CodeSegmentLoads_privilege :
    csAllowed pt0 8 0x00CF9B000000FFFF .jump ∧ csAllowed pt0 8 0x00CF9B000000FFFF .ret ∧
    csAllowed pt0 8 0x00CF9B000000FFFF .int ∧ csAllowed pt0 8 0x00CF1A000000FFFF .jump ∧
    ¬csAllowed pt0 0xB 0x00CF9B000000FFFF .jump ∧
    (¬csAllowed user0 8 0x00CF9B000000FFFF .ret ∧ ¬user0.cpl < selRpl 8) ∧ pt0.cpl < selRpl 0xB ∧
    (isProt user0 = true ∧ fetchRawDescriptor user0 8 false = .ok (0x00CF9B000000FFFF, 0x1008) user0 ∧
      isConforming 0x00CF9B000000FFFF = false ∧ descDpl 0x00CF9B000000FFFF < user0.cpl) ∧
    (fetchRawDescriptor pt0 0x68 false = .ok (0x00CF9F000000FFFF, 0x1068) pt0 ∧ isConforming 0x00CF9F000000FFFF = true ∧
      csAllowed pt0 0x68 0x00CF9F000000FFFF .jump) ∧
    (fetchRawDescriptor pt0 0x48 false = .ok (0x00009A020000FFFF, 0x1048) pt0 ∧ csAllowed pt0 0x48 0x00009A020000FFFF .jump ∧
      BitVec.getLsbD (0x00009A020000FFFF : Descriptor) 40 = false) := by
  unfold csAllowed
  decide

theorem test_witness_CodeSegmentLoads_access : canAccessLinear pt0 (0x1008 + 5) .byte ∧ canAccessLinear pt0 (0x1048 + 5) .byte := by
  unfold canAccessLinear
  decide

/-- PT0 with offset, selector and an EFLAGS image with VM set on the stack. -/
def r0 : State :=
  { pt0 with mem := put64 (storeBytes tables 0x9000 .dword 0x100) 0x9004 0x0002000200000008 }

theorem test_witness_CodeSegmentLoads_transfers :
    (canStore pt0 .s16 2 ∧ canStore pt0 .s16 4) ∧ (canFetch r0 .s32 0 ∧ canFetch r0 .s32 4 ∧ canFetch r0 .s32 8) ∧
    farReady at16 pt0 m0 ∧ isProt r0 = true ∧ plainFlag r0 ntPos = false ∧
    plainFlag { pt0 with flags := { pt0.flags with value := 0x4002 } } ntPos = true ∧
    peek r0 .s32 8 = .ok 0x00020002 r0 ∧ (0x00020002 : Word).getLsbD 17 = true := by
  unfold canStore canFetch farReady canAccess canAccessLinear
  decide

theorem test_witness_AddSubtractResults : (AluForm.operands at16 (.evGv (.mem m0) .cx)).ready at16 w0 := ready_alu

theorem test_witness_LogicResults : (AluForm.operands at16 (.evGv (.mem m0) .cx)).ready at16 w0 ∧ w0.cfg.undefFlags = .decided ∧
    ((Instr.and = Instr.and ∧ (0xF : Word) = 0xFF &&& 0xF) ∨ (Instr.and = Instr.or ∧ (0xF : Word) = 0xFF ||| 0xF) ∨
      (Instr.and = Instr.xor ∧ (0xF : Word) = 0xFF ^^^ 0xF)) :=
  ⟨ready_alu, rfl, .inl ⟨rfl, by decide⟩⟩

theorem test_witness_CompareResults : (AluForm.operands at16 (.evGv (.mem m0) .cx)).ready at16 w0 ∧
    (TestForm.operands at16 (.evGv (.mem m0) .cx)).ready at16 w0 ∧ w0.cfg.undefFlags = .decided :=
  ⟨ready_alu, ⟨ready_word, trivial⟩, rfl⟩

theorem test_witness_UnaryResults : (IncForm.operand at16 (.ev (.mem m0))).op.ready at16 w0 ∧
    (UnaryForm.operand at16 (.ev (.mem m0))).op.ready at16 w0 := ⟨ready_word, ready_word⟩

theorem test_witness_MultiplyResults : (UnaryForm.operand at16 (.eb (.mem m0))).op.ready at16 w0 ∧
    (ImulForm.operands at16 (.gvEvIb .ax (.mem m0) 0x80)).src1.ready at16 w0 ∧
    (ImulForm.operands at16 (.gvEvIb .ax (.mem m0) 0x80)).src2.ready at16 w0 ∧ w0.cfg.undefFlags = .decided :=
  ⟨ready_byte, ready_word, trivial, rfl⟩

/-- AX = 0xFF80 by BL: by 0x80 and by 0xFF (quotient 0x80, one too many for IDIV), and by 1 for DIV. -/
def d0 (bl : Word) : State := { t0 with regs := { t0.regs with eax := 0xFF80, ebx := bl } }

theorem test_witness_DivideResults :
    readOp at16 { d0 0xFF with regs := { eax := 0x00FE, ebx := 0xFF, ecx := 0, edx := 0, esp := 0, ebp := 0, esi := 0, edi := 0 } }
        (UnaryForm.operand at16 (.eb (.reg .bx))).op = .ok 0xFF
          { d0 0xFF with regs := { eax := 0x00FE, ebx := 0xFF, ecx := 0, edx := 0, esp := 0, ebp := 0, esi := 0, edi := 0 } } ∧
    (0xFF : Word) ≠ 0 ∧
    (readOp at16 (d0 0x80) (UnaryForm.operand at16 (.eb (.reg .bx))).op = .ok 0x80 (d0 0x80) ∧
      signedDividend (d0 0x80) .byte = 1 * signed .byte 0x80 + 0 ∧ |(0 : Int)| < |signed .byte 0x80|) ∧
    dividend { d0 0xFF with regs := { (d0 0xFF).regs with eax := 0xFEFF } } .byte < (0xFF : Word).toNat * 2 ^ 8 := by decide

theorem test_witness_DivideErrors :
    readOp at16 (d0 0) (UnaryForm.operand at16 (.eb (.reg .bx))).op = .ok 0 (d0 0) ∧
    (readOp at16 (d0 1) (UnaryForm.operand at16 (.eb (.reg .bx))).op = .ok 1 (d0 1) ∧
      (1 : Word).toNat * 2 ^ 8 ≤ dividend (d0 1) .byte) ∧
    (readOp at16 (d0 0xFF) (UnaryForm.operand at16 (.eb (.reg .bx))).op = .ok 0xFF (d0 0xFF) ∧
      (2 : Int) ^ 7 ≤ (signedDividend (d0 0xFF) .byte).tdiv (signed .byte 0xFF)) := by decide

/-- Counts 0 and 0x20 (masked to 0), 1 and 31. -/
theorem test_witness_shifts :
    (ShiftForm.operands at16 (.evIb (.mem m0) 0x20)).dst.ready at16 w0 ∧
    readOp at16 w0 (ShiftForm.operands at16 (.evIb (.mem m0) 0x20)).dst = .ok 0 w0 ∧
    readOp at16 w0 (ShiftForm.operands at16 (.evIb (.mem m0) 0x20)).src = .ok 0x20 w0 ∧ (0x20 : Word) &&& 0x1F = 0 ∧
    readOp at16 w0 (ShiftForm.operands at16 (.evIb (.mem m0) 0x1F)).src = .ok 0x1F w0 ∧ (0x1F : Word) &&& 0x1F ≠ 0 ∧
    readOp at16 w0 (ShiftForm.operands at16 (.ev1 (.mem m0))).src = .ok 1 w0 ∧ (1 : Word) &&& 0x1F ≠ 0 ∧
    w0.cfg.undefFlags = .decided := ⟨ready_word, by decide, by decide, by decide, by decide, by decide, by decide, by decide, rfl⟩

/-- The reading 'any value' of UNDEF_FLAGS: counts 1 and 31 leave CF and OF, and 17, stated. -/
theorem test_witness_shifts_any :
    let s := { w0 with cfg := { w0.cfg with undefFlags := .anyValue } }
    (ShiftForm.operands at16 (.evIb (.mem m0) 0x1F)).dst.ready at16 s ∧
    readOp at16 s (ShiftForm.operands at16 (.evIb (.mem m0) 0x1F)).dst = .ok 0 s ∧
    readOp at16 s (ShiftForm.operands at16 (.evIb (.mem m0) 0x1F)).src = .ok 0x1F s ∧
    ((0x1F : Word) &&& 0x1F).toNat % Width.bits .word ≠ 0 ∧ ((0x1F : Word) &&& 0x1F).toNat % (Width.bits .word + 1) ≠ 0 ∧
    (1 : Word) &&& 0x1F = 1 ∧ ((0xF : Word) &&& 0x1F).toNat < Width.bits .word := by
  refine ⟨?_, by decide⟩
  show canAccess _ _ _ _
  unfold canAccess canAccessLinear
  decide

theorem access_string (w : Width) : canAccess w0 .ds 0x300 w ∧ canAccess w0 .es 0x400 w := by
  unfold canAccess canAccessLinear
  cases w <;> decide

theorem test_witness_StringElements : at16.rep = .none ∧
    canAccess w0 (implicitSeg at16) (srcIndex at16 w0) (StrForm.width at16 .v) ∧
    canAccess w0 .es (dstIndex at16 w0) (StrForm.width at16 .v) :=
  ⟨rfl, (access_string .word).1, (access_string .word).2⟩

def rep16 : Attrs := ⟨none, .s16, .s16, .rep, false⟩

theorem test_witness_RepeatedStrings : rep16.rep ≠ .none ∧ repCount rep16 w0 = 0 ∧
    repCount rep16 { w0 with regs := { w0.regs with ecx := 1 } } ≠ 0 ∧
    (∃ t, movsOnce rep16 .byte { w0 with regs := { w0.regs with ecx := 1 } } = .ok () t) ∧
    (∃ t, stosOnce rep16 .byte { w0 with regs := { w0.regs with ecx := 1 } } = .ok () t) ∧
    (∃ t, lodsOnce rep16 .byte { w0 with regs := { w0.regs with ecx := 1 } } = .ok () t) ∧
    (∃ t, cmpsOnce rep16 .byte { w0 with regs := { w0.regs with ecx := 1 } } = .ok () t) ∧
    ∃ t, scasOnce rep16 .byte { w0 with regs := { w0.regs with ecx := 1 } } = .ok () t :=
  ⟨by decide, by decide, by decide, ⟨_, rfl⟩, ⟨_, rfl⟩, ⟨_, rfl⟩, ⟨_, rfl⟩, ⟨_, rfl⟩⟩

/-- One iteration with DS and ES null in protected mode, and with limits of 0 in real mode. -/
def f0 (s : State) (c : SegCache → SegCache) : State :=
  let s := { s with regs := { s.regs with ecx := 1, esi := 8, edi := 8 } }
  setSeg (setSeg s .ds ⟨0, c (getSeg s .ds).cache⟩) .es ⟨0, c (getSeg s .es).cache⟩

theorem test_witness_RepeatedStrings_faults :
    let n := f0 pt0 fun c => { c with valid := false }
    let l := f0 w0 fun c => { c with limitScaled := 0 }
    repCount rep16 n ≠ 0 ∧ repCount rep16 l ≠ 0 ∧
    (movsOnce rep16 .byte n = .raised (.gp 0) n ∧ cmpsOnce rep16 .byte n = .raised (.gp 0) n ∧
      stosOnce rep16 .byte n = .raised (.gp 0) n ∧ lodsOnce rep16 .byte n = .raised (.gp 0) n ∧
      scasOnce rep16 .byte n = .raised (.gp 0) n) ∧
    (movsOnce rep16 .byte l = .aborted (.memoryFault .ds 8) l ∧ cmpsOnce rep16 .byte l = .aborted (.memoryFault .ds 8) l ∧
      stosOnce rep16 .byte l = .aborted (.memoryFault .es 8) l ∧ lodsOnce rep16 .byte l = .aborted (.memoryFault .ds 8) l ∧
      scasOnce rep16 .byte l = .aborted (.memoryFault .es 8) l) := by decide

theorem test_witness_NearJumps : (rmOp at16.osz.width (.mem m0)).ready at16 w0 := ready_word

theorem test_witness_NearCallsAndReturns : canStore w0 at16.osz at16.osz.bytes ∧ (rmOp at16.osz.width (.mem m0)).ready at16 w0 ∧
    canFetch w0 at16.osz 0 := ⟨(stack_slots 2 (by decide) .s16).1, ready_word, (stack_slots 0 (by decide) .s16).2⟩

theorem test_witness_FarTransfersRealMode : isProt w0 = false ∧ farReady at16 w0 m0 ∧ canStore w0 at16.osz at16.osz.bytes ∧
    canStore w0 at16.osz (2 * at16.osz.bytes) ∧ canFetch w0 at16.osz 0 ∧ canFetch w0 at16.osz at16.osz.bytes :=
  ⟨by decide, far_ready, (stack_slots 2 (by decide) .s16).1, (stack_slots 4 (by decide) .s16).1,
    (stack_slots 0 (by decide) .s16).2, (stack_slots 2 (by decide) .s16).2⟩

theorem test_witness_SetByteResults : (rmOp .byte (.mem m0)).ready at16 w0 ∧ (rmOp .byte (.reg .sp)).ready at16 w0 :=
  ⟨ready_byte, trivial⟩

/-- Vectors 0 and 255, the first and the last entry the reset limit of IDTR admits, and 4 with OF set. -/
theorem test_witness_RealModeDelivery : isReal w0 = true ∧ 4 * (255 : Byte).toNat + 3 ≤ w0.idtr.limit.toNat ∧
    (canAccessLinear w0 (w0.idtr.base + BitVec.ofNat 32 (4 * (255 : Byte).toNat)) .word ∧
      canAccessLinear w0 (w0.idtr.base + BitVec.ofNat 32 (4 * (255 : Byte).toNat) + 2) .word) ∧
    (canAccessLinear w0 (w0.idtr.base + BitVec.ofNat 32 (4 * (0 : Byte).toNat)) .word ∧
      canAccessLinear w0 (w0.idtr.base + BitVec.ofNat 32 (4 * (0 : Byte).toNat) + 2) .word) ∧
    (∀ k, k < 3 → canStore w0 .s16 (2 * (k + 1))) ∧
    flagOf { w0 with flags := { w0.flags with value := 0x802 } } .ovf = true ∧ flagOf w0 .ovf = false :=
  ⟨by decide, by decide, by unfold canAccessLinear; decide, by unfold canAccessLinear; decide,
    fun k h => (stack_slots (2 * (k + 1)) (by omega) .s16).1, by decide, by decide⟩

/-- A limit one byte short of the entry of vector 255. -/
theorem test_witness_RealModeDelivery_limit : let s := { w0 with idtr := ⟨0, 0x3FE⟩ }
    isReal s = true ∧ s.idtr.limit.toNat < 4 * (255 : Byte).toNat + 3 := by decide

/-- Each access of a delivery fails in turn: paging on, an entry across the end of DRAM, and SS ending at 0xFFF with the pointer at
0, 2 and 4. -/
theorem test_witness_RealModeDelivery_aborts :
    let p := setCtl w0 .cr0 0x80000000
    let e := { w0 with idtr := ⟨0x9FFFE, 3⟩ }
    let q := fun sp => setSeg { w0 with regs := { w0.regs with esp := sp } } .ss ⟨0, { (getSeg w0 .ss).cache with limitScaled := 0xFFF }⟩
    (isReal p = true ∧ linRead p p.idtr.base .word = .aborted (.unimplemented .paging) p) ∧
    (isReal e = true ∧ 4 * (0 : Byte).toNat + 3 ≤ e.idtr.limit.toNat ∧
      (∃ x, linRead e (e.idtr.base + BitVec.ofNat 32 (4 * (0 : Byte).toNat)) .word = .ok x e) ∧
      ∃ k, linRead e (e.idtr.base + BitVec.ofNat 32 (4 * (0 : Byte).toNat) + 2) .word = .aborted k e) ∧
    (∃ k t, push (touchAllFlags (q 0)) .s16 2 = .aborted k t) ∧
    (∃ u, push (touchAllFlags (q 2)) .s16 2 = .ok () u ∧ ∃ k t, push u .s16 0 = .aborted k t) ∧
    ∃ u, push (touchAllFlags (q 4)) .s16 2 = .ok () u ∧ ∃ v, push u .s16 0 = .ok () v ∧ ∃ k t, push v .s16 0 = .aborted k t :=
  ⟨by decide, ⟨by decide, by decide, ⟨_, rfl⟩, _, rfl⟩, ⟨_, _, rfl⟩, ⟨_, rfl, _, _, rfl⟩, _, rfl, _, rfl, _, _, rfl⟩

theorem test_witness_InterruptReturnRealMode : isProt w0 = false ∧ mayV86 w0 ∧ canFetch w0 at16.osz 0 ∧
    canFetch w0 at16.osz at16.osz.bytes ∧ canFetch w0 at16.osz (2 * at16.osz.bytes) :=
  ⟨by decide, by unfold mayV86; decide, (stack_slots 0 (by decide) .s16).2, (stack_slots 2 (by decide) .s16).2,
    (stack_slots 4 (by decide) .s16).2⟩

theorem test_witness_InterruptReturnRealMode_v86 : ¬mayV86 { pt0 with flags := { pt0.flags with value := 0x20002 } } :=
  test_witness_FlagTransfers_v86

/-- The gate of #GP, for an exception with an error code and for a software interrupt. -/
theorem test_witness_ProtectedDelivery : isProt pt0 = true ∧ 8 * (13 : Byte).toNat + 7 ≤ pt0.idtr.limit.toNat ∧
    readQuad pt0 (pt0.idtr.base + BitVec.ofNat 32 (8 * (13 : Byte).toNat)) = .ok 0x00008E00000830D0 pt0 ∧
    descS 0x00008E00000830D0 = false ∧ descType 0x00008E00000830D0 = 14 ∧ pt0.cpl ≤ descDpl 0x00008E00000830D0 ∧
    descP 0x00008E00000830D0 = true := by decide

theorem test_witness_ProtectedDelivery_slots : ∀ k, k < 4 →
    canStore pt0 (gateSize 0x00008E00000830D0) ((k + 1) * (gateSize 0x00008E00000830D0).bytes) := by
  unfold canStore canAccess canAccessLinear
  decide

theorem test_witness_ProtectedDelivery_load : ∃ w, loadSeg pt0 .cs (gateSelector 0x00008E00000830D0) .int true = .ok () w :=
  ⟨pt0, by decide⟩

/-- A frame whose first write raises, one whose second does (the first slot is stored), and one whose first write aborts; a CS load
that raises (a data segment) and one that aborts (a system descriptor). -/
theorem test_witness_ProtectedDelivery_failures :
    let q := fun sp l => setSeg { pt0 with regs := { pt0.regs with esp := sp } } .ss ⟨0x10, { (getSeg pt0 .ss).cache with limitScaled := l }⟩
    segWrite (touchAllFlags (q 0x9000 0x8FF0)) .ss (slotBelow (q 0x9000 0x8FF0) 4) .dword 2 =
        .raised (.ss 0) (touchAllFlags (q 0x9000 0x8FF0)) ∧
    (∃ t, storeSlots (q 4 0x8FF0) .s32 0 ([2, 8, 0x100].take 1) (touchAllFlags (q 4 0x8FF0)) = .ok () t ∧
      segWrite t .ss (slotBelow (q 4 0x8FF0) 8) .dword 8 = .raised (.ss 0) t) ∧
    (∃ k, segWrite (touchAllFlags (q 0x200004 0xFFFFFFFF)) .ss (slotBelow (q 0x200004 0xFFFFFFFF) 4) .dword 2 =
      .aborted k (touchAllFlags (q 0x200004 0xFFFFFFFF))) ∧
    (gateSelector 0x00008E00001030D0 = 0x10 ∧ loadSeg pt0 .cs 0x10 .int true = .raised (.gp 0x11) pt0) ∧
    (gateSelector 0x00008E00004030D0 = 0x40 ∧ ∃ k, loadSeg pt0 .cs 0x40 .int true = .aborted k pt0) :=
  ⟨by decide, ⟨_, rfl, by decide⟩, ⟨_, rfl⟩, by decide, by decide, _, rfl⟩

/-- A table too short, a reserved type, a task gate, a gate of level 0 called from level 3, an absent gate. -/
theorem test_witness_GateFaults : isProt pt0 = true ∧ isProt user0 = true ∧
    { pt0 with idtr := ⟨0x1800, 0x406⟩ }.idtr.limit.toNat < 8 * (128 : Byte).toNat + 7 ∧
    8 * (255 : Byte).toNat + 7 ≤ pt0.idtr.limit.toNat ∧
    (readQuad pt0 (pt0.idtr.base + BitVec.ofNat 32 (8 * (35 : Byte).toNat)) = .ok 0x0000820000080000 pt0 ∧
      descType 0x0000820000080000 ∉ [5, 6, 7, 14, 15]) ∧
    (readQuad pt0 (pt0.idtr.base + BitVec.ofNat 32 (8 * (34 : Byte).toNat)) = .ok 0x0000850000080000 pt0 ∧
      descS 0x0000850000080000 = false ∧ descType 0x0000850000080000 = 5) ∧
    (readQuad user0 (user0.idtr.base + BitVec.ofNat 32 (8 * (128 : Byte).toNat)) = .ok 0x00008E0000083800 user0 ∧
      descType 0x00008E0000083800 ∈ [6, 7, 14, 15] ∧ descDpl 0x00008E0000083800 < user0.cpl) ∧
    (readQuad pt0 (pt0.idtr.base + BitVec.ofNat 32 (8 * (33 : Byte).toNat)) = .ok 0x00000E0000083210 pt0 ∧
      descType 0x00000E0000083210 ∈ [6, 7, 14, 15] ∧ descP 0x00000E0000083210 = false) := by decide

theorem test_witness_GateFaults_abort : let s := setCtl pt0 .cr0 0x80000001
    isProt s = true ∧ 8 * (13 : Byte).toNat + 7 ≤ s.idtr.limit.toNat ∧
    readQuad s (s.idtr.base + BitVec.ofNat 32 (8 * (13 : Byte).toNat)) = .aborted (.unimplemented .paging) s := by decide

/-- A #GP that is delivered, one whose entry is beyond the IVT limit, one that nests into #DF, and one that shuts down. -/
theorem test_witness_ExceptionNesting :
    (∃ t, deliver (setEip pt0 pt0.start) (Exc.vector (.gp 0)) .exc (Exc.error (.gp 0)) pt0.start = .ok () t) ∧
    (∃ k t, deliver (setEip { w0 with idtr := ⟨0, 0⟩ } w0.start) (Exc.vector (.gp 0)) .exc (Exc.error (.gp 0)) w0.start =
      .aborted k t) ∧
    (∃ e t, deliver (setEip pt0 pt0.start) (Exc.vector .de) .exc (Exc.error .de) pt0.start = .raised e t ∧
      ∃ e3 u, deliver t 8 .exc (some 0) pt0.start = .raised e3 u) ∧
    ∃ e t, deliver (setEip { pt0 with mem := put64 tables 0x1840 0x00008E0000083080 } pt0.start) (Exc.vector .de) .exc
        (Exc.error .de) pt0.start = .raised e t ∧ ∃ u, deliver t 8 .exc (some 0) pt0.start = .ok () u :=
  ⟨⟨_, rfl⟩, ⟨_, _, rfl⟩, ⟨_, _, rfl, _, _, rfl⟩, ⟨_, _, rfl, _, rfl⟩⟩

/-- A task gate in the place of #DF aborts the delivery of the nested exception; INTO with OF = 0. -/
theorem test_witness_ExceptionNesting_abort :
    let s := { pt0 with mem := put64 tables 0x1840 0x0000850000080000 }
    (∃ e t, deliver (setEip s s.start) (Exc.vector .de) .exc (Exc.error .de) s.start = .raised e t ∧
      ∃ k u, deliver t 8 .exc (some 0) s.start = .aborted k u) ∧ flagOf pt0 .ovf = false :=
  ⟨⟨_, _, rfl, _, _, rfl⟩, by decide⟩

/-- A yielded block with IF set and vector 0x20 pending. -/
def i0 : State :=
  { w0 with flags := { w0.flags with value := 0x202 }, inputs := ⟨false, [0x20]⟩, sched := { w0.sched with runState := .yielded } }

theorem test_witness_InterruptsAtSliceStart : (i0.sched.runState = .halted ∨
      ((i0.sched.runState = .idle ∨ i0.sched.runState = .yielded) ∧ i0.inputs.pauseReq = false)) ∧
    i0.sched.shutdown = false ∧ plainFlag i0 ifPos = true ∧ i0.inputs.intr = [0x20] ∧
    { i0 with inputs := ⟨true, [0x20]⟩ }.inputs.pauseReq = true := by decide

theorem test_witness_InterruptsAtSliceStart_delivers :
    ∃ t, deliver { setRunState (setSliceCount i0 0) .running with start := i0.eip, inputs := { i0.inputs with intr := [] } } 0x20
      .ext none i0.eip = .ok () t := ⟨_, rfl⟩

/-- The same with the null gate of vector 0 of PT0: a fault of the delivery itself, of an interrupt and of INT 0. -/
theorem test_witness_ExceptionNesting_benign :
    let i := { pt0 with flags := { pt0.flags with value := 0x202 }, inputs := ⟨false, [0]⟩, sched := { pt0.sched with runState := .yielded } }
    let d := { setRunState (setSliceCount i 0) .running with start := i.eip, inputs := { i.inputs with intr := [] } }
    plainFlag i ifPos = true ∧ i.inputs.pauseReq = false ∧ deliver d 0 .ext none i.eip = .raised (.gp 3) d ∧
    deliver pt0 0 .soft none pt0.eip = .raised (.gp 2) pt0 := by decide

/-- V8086 mode, which no run reaches, with IOPL 0. -/
theorem test_witness_ExceptionNesting_v86 : mayV86 pt0 ∧ ¬mayV86 { pt0 with flags := { pt0.flags with value := 0x20002 } } ∧
    flagOf { pt0 with flags := { pt0.flags with value := 0x802 } } .ovf = true := by
  unfold mayV86
  decide

/-- A #SS of a frame write: its error code follows the parameter (log entry 12). -/
theorem test_frame_fault_code :
    let s := setSeg pt0 .ss ⟨0x10, { (getSeg pt0 .ss).cache with limitScaled := 0x8FF0 }⟩
    let x := { s with cfg := { s.cfg with frameErr := .ext } }
    deliver s 13 .exc (some 0) s.eip = .raised (.ss 0) (touchAllFlags s) ∧
    deliver x 13 .exc (some 0) x.eip = .raised (.ss 1) (touchAllFlags x) := by decide

theorem test_witness_PrivilegeChecks : pe user0 = true ∧ user0.cpl ≠ 0 ∧ isProt user0 = true := by decide

theorem test_witness_SystemRegisterMoves : mayPrivileged w0 ∧ mayPrivileged pt0 ∧ (rmOp .word (.mem m0)).ready at16 w0 :=
  ⟨by unfold mayPrivileged; decide, by unfold mayPrivileged; decide, ready_word⟩

theorem test_witness_DescriptorTableMoves : tableReady at16 w0 m0 ∧ mayPrivileged w0 :=
  ⟨table_ready, by unfold mayPrivileged; decide⟩

/-- LLDT AX: outside protected mode, a null selector, an LDT selector, and four descriptors. -/
def l0 (ax : Word) : State := { pt0 with regs := { pt0.regs with eax := ax } }

theorem test_witness_LocalTableMoves : isProt w0 = false ∧ isProt (l0 0) = true ∧ (l0 0).cpl = 0 ∧
    readOp at16 (l0 3) (rmOp .word (.reg .ax)) = .ok 3 (l0 3) ∧ (3 : Word) &&& 0xFFFC = 0 ∧
    (0xC : Word) &&& 0xFFFC ≠ 0 ∧ (0xC : Word).getLsbD 2 = true ∧
    (fetchRawDescriptor (l0 0x10) 0x10 false = .ok (0x00CF93000000FFFF, 0x1010) (l0 0x10) ∧ descS 0x00CF93000000FFFF = true) ∧
    (fetchRawDescriptor (l0 0x58) 0x58 false = .ok (0x0000020030000027, 0x1058) (l0 0x58) ∧ descS 0x0000020030000027 = false ∧
      descType 0x0000020030000027 = 2 ∧ descP 0x0000020030000027 = false) ∧
    (fetchRawDescriptor (l0 0x40) 0x40 false = .ok (0x0000820030000027, 0x1040) (l0 0x40) ∧ descS 0x0000820030000027 = false ∧
      descType 0x0000820030000027 = 2 ∧ descP 0x0000820030000027 = true) := by decide

theorem test_witness_LocalTableMoves_outside : selectorOutside (l0 0x70) 0x70 ∧ (0x70 : Word) &&& 0xFFFC ≠ 0 ∧
    (0x70 : Word).getLsbD 2 = false := by
  unfold selectorOutside
  decide

theorem test_witness_LocalTableMoves_abort : let s := setCtl (l0 0x58) .cr0 0x80000001
    isProt s = true ∧ s.cpl = 0 ∧ readOp at16 s (rmOp .word (.reg .ax)) = .ok 0x58 s ∧ (0x58 : Word) &&& 0xFFFC ≠ 0 ∧
    (0x58 : Word).getLsbD 2 = false ∧ fetchRawDescriptor s 0x58 false = .aborted (.unimplemented .paging) s := by decide

theorem test_witness_LocalTableMoves_ready : (rmOp .word (.reg .ax)).ready at16 (l0 0) := trivial

end Sys2Proof.Tests
end

section
/-! PROOFS. Of 10_state: who writes the system registers, what a register write changes, and reset. -/

namespace Sys2Proof.Machine

/-! ### Fields that most instructions leave alone -/

/-- A reading of the state that no general register, EIP, segment register, flag, byte of memory, call of the device, free value
or move of the scheduler changes. -/
structure SystemReading {α : Type} (p : State → α) : Prop where
  regs : ∀ s g, p { s with regs := g } = p s
  eip : ∀ s v, p { s with eip := v } = p s
  segs : ∀ s g, p { s with segs := g } = p s
  flags : ∀ s l, p { s with flags := l } = p s
  mem : ∀ s m, p { s with mem := m } = p s
  vga : ∀ s v, v.registered = s.vga.registered → p { s with vga := v } = p s
  free : ∀ s n, p { s with freeCount := n } = p s
  sched : ∀ s x, p { s with sched := x } = p s

theorem SystemReading.stable {α : Type} {p : State → α} (hp : SystemReading p) : Stable fun s t => p t = p s where
  refl _ := rfl
  trans h g := g.trans h
  sp s _ := hp.regs s _
  eip s v := hp.eip s v
  seg s _ _ := hp.segs s _
  touchAll s := hp.flags s _
  plain s _ _ _ := hp.flags s _
  mem s _ _ _ := hp.mem s _
  vga s v h := hp.vga s v h
  reg s _ _ _ := hp.regs s _
  flag s _ _ := hp.flags s _
  touch s _ := hp.flags s _
  store s _ _ _ _ _ _ := hp.flags s _
  storeStep s _ _ _ _ _ _ _ := hp.flags s _
  storeShift s _ _ _ _ _ _ _ _ := hp.flags s _
  write s _ _ _ := hp.flags s _
  free s := hp.free s _

/-- Halting and aborting move the scheduler and EIP alone. -/
theorem SystemReading.of_ends {α : Type} {p : State → α} (hp : SystemReading p) {s t : State}
    (h : Ends (fun s t => p t = p s) s t) : p t = p s := by
  obtain ⟨u, hu, rfl | ⟨b, rfl⟩ | ⟨k, rfl⟩⟩ := h
  · exact hu
  · exact (hp.sched u _).trans hu
  · exact ((hp.eip { u with sched := (abortState u k).sched } u.start).trans (hp.sched u _)).trans hu

section
variable {i : Instr} {s t : State} (hx : exec i s = .next t)
include hx

/-- Such a reading changes only by the instructions that write a system register it shows. -/
theorem exec_reading {α : Type} {p : State → α} (hp : SystemReading p)
    (hdbg : (∃ a c r, i = .movToDr a c r) → ∀ s x, p { s with dbg := x } = p s)
    (hctl : (∃ a c r, i = .movToCr a c r) ∨ (∃ a e, i = .lmsw a e) → ∀ s x, p { s with ctl := x } = p s)
    (hgdt : (∃ a m, i = .lgdt a m) → ∀ s x, p { s with gdtr := x } = p s)
    (hidt : (∃ a m, i = .lidt a m) → ∀ s x, p { s with idtr := x } = p s)
    (hldt : (∃ a e, i = .lldt a e) → ∀ s x, p { s with ldtr := x } = p s) : p t = p s :=
  hp.of_ends (exec_ends hp.stable i s t hx (fun hi u _ _ => hdbg hi u _) (fun hi u _ _ => hctl hi u _) hgdt hidt hldt)

/-- Debug registers change by MOV to DR alone (46_system R495). -/
theorem exec_dbg (h : ∀ a c r, i ≠ .movToDr a c r) : t.dbg = s.dbg :=
  exec_reading hx (p := State.dbg) (by constructor <;> intros <;> rfl) (fun ⟨a, c, r, e⟩ => absurd e (h a c r))
    (fun _ _ _ => rfl) (fun _ _ _ => rfl) (fun _ _ _ => rfl) (fun _ _ _ => rfl)

/-- Control registers change by MOV to CR and LMSW alone (46_system R490, R493). -/
theorem exec_ctl (hmov : ∀ a c r, i ≠ .movToCr a c r) (hlmsw : ∀ a e, i ≠ .lmsw a e) : t.ctl = s.ctl := by
  refine exec_reading hx (p := State.ctl) (by constructor <;> intros <;> rfl) (fun _ _ _ => rfl) (fun hw => ?_)
    (fun _ _ _ => rfl) (fun _ _ _ => rfl) (fun _ _ _ => rfl)
  obtain ⟨a, c, r, e⟩ | ⟨a, m, e⟩ := hw
  · exact absurd e (hmov a c r)
  · exact absurd e (hlmsw a m)

/-- GDTR changes by LGDT alone (46_system R484). -/
theorem exec_gdtr (h : ∀ a m, i ≠ .lgdt a m) : t.gdtr = s.gdtr :=
  exec_reading hx (p := State.gdtr) (by constructor <;> intros <;> rfl) (fun _ _ _ => rfl) (fun _ _ _ => rfl)
    (fun ⟨a, m, e⟩ => absurd e (h a m)) (fun _ _ _ => rfl) (fun _ _ _ => rfl)

/-- IDTR changes by LIDT alone (46_system R486). -/
theorem exec_idtr (h : ∀ a m, i ≠ .lidt a m) : t.idtr = s.idtr :=
  exec_reading hx (p := State.idtr) (by constructor <;> intros <;> rfl) (fun _ _ _ => rfl) (fun _ _ _ => rfl)
    (fun _ _ _ => rfl) (fun ⟨a, m, e⟩ => absurd e (h a m)) (fun _ _ _ => rfl)

/-- LDTR changes by LLDT alone (46_system R488). -/
theorem exec_ldtr (h : ∀ a e, i ≠ .lldt a e) : t.ldtr = s.ldtr :=
  exec_reading hx (p := State.ldtr) (by constructor <;> intros <;> rfl) (fun _ _ _ => rfl) (fun _ _ _ => rfl)
    (fun _ _ _ => rfl) (fun _ _ _ => rfl) (fun ⟨a, m, e⟩ => absurd e (h a m))

end

/-- What only the host or the start of an instruction sets: the parameters, A20, the inputs, the registered device, the start
offset. -/
def outsideFields (s : State) : Params × Bool × Inputs × Bool × Word :=
  (s.cfg, s.a20, s.inputs, s.vga.registered, s.start)

theorem outsideFields_reading : SystemReading outsideFields where
  regs _ _ := rfl
  eip _ _ := rfl
  segs _ _ := rfl
  flags _ _ := rfl
  mem _ _ := rfl
  vga s v h := by simp only [outsideFields, h]
  free _ _ := rfl
  sched _ _ := rfl

/-- Settles O10: each register is a reading that only its own instructions change. -/
theorem systemRegistersHaveFewWriters : Obligations.SystemRegistersHaveFewWriters := by
  intro i s t hx
  have ho : outsideFields t = outsideFields s := exec_reading hx outsideFields_reading (fun _ _ _ => rfl)
    (fun _ _ _ => rfl) (fun _ _ _ => rfl) (fun _ _ _ => rfl) (fun _ _ _ => rfl)
  simp only [outsideFields, Prod.mk.injEq] at ho
  exact ⟨exec_dbg hx, exec_ctl hx, exec_gdtr hx, exec_idtr hx, exec_ldtr hx, ho⟩

/-! ### The field of a register name in its 32-bit register -/

/-- The lowest bit a register name stands for in its 32-bit register: 8 for AH, CH, DH, BH, else 0 (10_state R21 to R23). -/
def fieldLow (w : Width) (high : Bool) : Nat :=
  match w with
  | .byte => if high then 8 else 0
  | .word => 0
  | .dword => 0

/-- A read of a register gives its field of the 32-bit register. -/
theorem getReg_eq_trunc (s : State) (w : Width) (r : Reg) :
    getReg s w r = trunc w (reg32 s (regHome w r) >>> fieldLow w (isHighByte r)) := by
  cases w with
  | byte => cases h : isHighByte r <;> simp [getReg, trunc, regHome, fieldLow, h]
  | word => simp [getReg, trunc, regHome, fieldLow]
  | dword => simp [getReg, trunc, regHome, fieldLow]

theorem getLsbD_trunc (w : Width) (v : Word) (i : Nat) :
    (trunc w v).getLsbD i = (decide (i < w.bits) && v.getLsbD i) := by
  rw [← BitVec.testBit_toNat, toNat_trunc, Nat.testBit_mod_two_pow, BitVec.testBit_toNat]

/-- A register write merges the value, moved to the field, under the mask of the field. -/
theorem writeReg32_eq_mergeBits (w : Width) (high : Bool) (old v : Word) :
    writeReg32 w high old v = mergeBits old (v <<< fieldLow w high) (maskOf w <<< fieldLow w high) := by
  cases w with
  | byte =>
    cases high
    · simp [writeReg32, mergeBits, maskOf, trunc, fieldLow]
    · simp [writeReg32, mergeBits, maskOf, trunc, fieldLow, BitVec.shiftLeft_and_distrib]
  | word => simp [writeReg32, mergeBits, maskOf, trunc, fieldLow]
  | dword =>
    simp only [writeReg32, mergeBits, maskOf, trunc, fieldLow, BitVec.shiftLeft_zero,
      show (0xFFFFFFFF : Word) = BitVec.allOnes 32 from rfl, BitVec.not_allOnes, BitVec.and_zero, BitVec.zero_or,
      BitVec.and_allOnes]

theorem fieldLow_add_bits_le (w : Width) (high : Bool) : fieldLow w high + w.bits ≤ 32 := by
  cases w <;> cases high <;> decide

/-- Bit by bit, a register write changes the field alone (10_state R24). -/
theorem getLsbD_writeReg32 (w : Width) (high : Bool) (old v : Word) (i : Nat) :
    (writeReg32 w high old v).getLsbD i =
      if fieldLow w high ≤ i ∧ i < fieldLow w high + w.bits then v.getLsbD (i - fieldLow w high) else old.getLsbD i := by
  have hb := fieldLow_add_bits_le w high
  rw [writeReg32_eq_mergeBits, getLsbD_mergeBits, maskOf, BitVec.getLsbD_shiftLeft, getLsbD_trunc,
    show (0xFFFFFFFF : Word) = BitVec.allOnes 32 from rfl, BitVec.getLsbD_allOnes, BitVec.getLsbD_shiftLeft]
  by_cases hi : fieldLow w high ≤ i ∧ i < fieldLow w high + w.bits
  · have h1 : i < 32 := by omega
    have h2 : ¬ i < fieldLow w high := by omega
    have h3 : i - fieldLow w high < w.bits := by omega
    have h4 : i - fieldLow w high < 32 := by omega
    simp [hi, h1, h2, h3, h4]
  · rw [if_neg hi, if_neg]
    simp only [Bool.and_eq_true, decide_eq_true_eq, Bool.not_eq_true', decide_eq_false_iff_not]
    omega

theorem getReg_setReg_same (s : State) (w : Width) (r : Reg) (v : Word) : getReg (setReg s w r v) w r = trunc w v := by
  rw [getReg_eq_trunc, reg32_setReg_home]
  apply BitVec.eq_of_getLsbD_eq
  intro i _
  rw [getLsbD_trunc, getLsbD_trunc, BitVec.getLsbD_ushiftRight, getLsbD_writeReg32, Nat.add_sub_cancel_left]
  by_cases hi : i < w.bits
  · rw [if_pos ⟨Nat.le_add_right _ _, Nat.add_lt_add_left hi _⟩]
  · rw [decide_eq_false hi, Bool.false_and, Bool.false_and]

/-- A byte register holds the low byte of its 32-bit register, or the byte above. -/
theorem toNat_getReg_byte (s : State) (r : Reg) : (getReg s .byte r).toNat =
    (if isHighByte r then (reg32 s (byteHome r)).toNat / 256 else (reg32 s (byteHome r)).toNat) % 256 := by
  rw [getReg_eq_trunc, toNat_trunc, BitVec.toNat_ushiftRight, Nat.shiftRight_eq_div_pow]
  cases h : isHighByte r <;> simp [fieldLow, regHome, Width.bits]

theorem toNat_getReg_word (s : State) (r : Reg) : (getReg s .word r).toNat = (reg32 s r).toNat % 65536 :=
  toNat_trunc .word (reg32 s r)

/-- Where byte register `r` lives (10_state R23), the table of the statement. -/
theorem byteHome_of_mem {r h : Reg} {high : Bool} (hm : (r, h, high) ∈ [(Reg.ax, Reg.ax, false), (.cx, .cx, false),
    (.dx, .dx, false), (.bx, .bx, false), (.sp, .ax, true), (.bp, .cx, true), (.si, .dx, true), (.di, .bx, true)]) :
    byteHome r = h ∧ isHighByte r = high := by
  simp only [List.mem_cons, Prod.mk.injEq, List.not_mem_nil, or_false] at hm
  rcases hm with ⟨rfl, rfl, rfl⟩ | ⟨rfl, rfl, rfl⟩ | ⟨rfl, rfl, rfl⟩ | ⟨rfl, rfl, rfl⟩ | ⟨rfl, rfl, rfl⟩ |
    ⟨rfl, rfl, rfl⟩ | ⟨rfl, rfl, rfl⟩ | ⟨rfl, rfl, rfl⟩ <;> exact ⟨rfl, rfl⟩

/-- Settles O15: reads and writes go through the position of the field in its 32-bit register. -/
theorem registerWriteChangesItsBits : Obligations.RegisterWriteChangesItsBits := by
  refine ⟨fun s r h high hm => ?_, fun s w r v => ⟨getReg_setReg_same s w r v,
    fun q hq => reg32_setReg_other s w r q v hq, fun i _ hi => ?_⟩⟩
  · obtain ⟨rfl, rfl⟩ := byteHome_of_mem hm
    exact ⟨rfl, rfl, toNat_getReg_byte s r, rfl, toNat_getReg_word s r, rfl, rfl⟩
  · rw [reg32_setReg_home, getLsbD_writeReg32, if_neg]
    cases w with
    | byte => cases hh : isHighByte r <;> simp [hh, fieldLow, Width.bits] at hi ⊢ <;> omega
    | word => simp [fieldLow, Width.bits] at hi ⊢; omega
    | dword => exact absurd hi id

/-! ### Reset -/

/-- Settles O6: every item is the value `hostReset` assigns. -/
theorem resetValues : Obligations.ResetValues := by
  refine ⟨fun s => ?_, rfl, by decide, by decide⟩
  have hsegs : ∀ r, r ≠ .cs → getSeg (hostReset s) r = ⟨0, ⟨0, 0xFFFF, 0, 3, true, 0x93, false, false, true⟩⟩ := by
    intro r hr
    cases r with
    | cs => exact absurd rfl hr
    | _ => rfl
  have hreal : isReal (hostReset s) = true := by simp [isReal, pe, hostReset, State.reset]
  exact ⟨rfl, rfl, rfl, rfl, hsegs, rfl, rfl, rfl, rfl, rfl, rfl, rfl, rfl, rfl, rfl, rfl, rfl, rfl, rfl, hreal⟩

/-- Settles O7: each part is a value of the reset state. -/
theorem resetMeetsInvariant : Obligations.ResetMeetsInvariant where
  memory := rfl
  reserved := by decide
  cpl := rfl
  dirty f hf := by rw [show State.reset.flags.dirty = Dirty.none from rfl, dirty_get_none] at hf; cases hf
  aborted := rfl
  shutdown h := by cases h

end Sys2Proof.Machine
end

section
/-! PROOFS. Every step keeps the invariant: the updates of an instruction keep it, and the scheduler moves live runs. -/

namespace Sys2Proof.Machine

/-! ### The flag register's part of the invariant -/

/-- The bits of EFLAGS outside the implemented ones, VM among them (10_state R27, R45). -/
def reservedBits : Word := ~~~(0x00017FD5 : Word)

theorem reservedBits_flag (f : Flag) : reservedBits.getLsbD f.pos = false := by
  cases f <;> decide

/-- What the invariant says of the flag register. -/
structure LazyFlags.Sound (l : LazyFlags) : Prop where
  reserved : l.value &&& reservedBits = 2
  dirty : ∀ f, l.dirty.get f = true →
    (formula f l.insnLast l.sizeLast l.valLast1 l.valLast2 l.resLast).isSome = true

/-- The uniform rows have a formula for every kind; the other three for the kinds a plain snapshot is taken with. -/
theorem formula_isSome_of_plain_kind {k : FlagKind} (hk : k = .add ∨ k = .adc ∨ k = .sub ∨ k = .sbb ∨ k = .cmp ∨
    k = .neg ∨ k = .logic ∨ k = .mul ∨ k = .imul) (f : Flag) (w : Width) (x y r : Word) :
    (formula f k w x y r).isSome = true := by
  rcases hk with rfl | rfl | rfl | rfl | rfl | rfl | rfl | rfl | rfl <;> cases f <;> rfl

/-- INC and DEC have a formula for every flag but CF (40_lazy_flags R227). -/
theorem formula_isSome_of_step_kind {k : FlagKind} (hk : k = .inc ∨ k = .dec) {f : Flag} (hf : f ≠ .cf) (w : Width)
    (x y r : Word) : (formula f k w x y r).isSome = true := by
  cases f with
  | cf => exact absurd rfl hf
  | _ => rcases hk with rfl | rfl <;> rfl

/-- The shifts have a formula for every flag but CF and OF, which they set themselves. -/
theorem formula_isSome_of_shift_kind {k : FlagKind} (hk : k = .shl ∨ k = .shr ∨ k = .sar) {f : Flag} (hf : f ≠ .cf)
    (ho : f ≠ .ovf) (w : Width) (x y r : Word) : (formula f k w x y r).isSome = true := by
  cases f with
  | cf => exact absurd rfl hf
  | ovf => exact absurd rfl ho
  | _ => rcases hk with rfl | rfl | rfl <;> rfl

namespace LazyFlags

/-- The reserved bits read the same when each of them does. -/
theorem reserved_congr {v x : Word} (h : ∀ i, reservedBits.getLsbD i = true → x.getLsbD i = v.getLsbD i) :
    x &&& reservedBits = v &&& reservedBits := by
  apply BitVec.eq_of_getLsbD_eq
  intro i _
  rw [BitVec.getLsbD_and, BitVec.getLsbD_and]
  cases hr : reservedBits.getLsbD i
  · rw [Bool.and_false, Bool.and_false]
  · rw [h i hr]

theorem Sound.setValue {l : LazyFlags} (h : l.Sound) {x : Word}
    (hx : ∀ i, reservedBits.getLsbD i = true → x.getLsbD i = l.value.getLsbD i) :
    ({ l with value := x } : LazyFlags).Sound :=
  ⟨(reserved_congr hx).trans h.reserved, h.dirty⟩

theorem setFlag_getLsbD_reserved (l : LazyFlags) (f : Flag) (b : Bool) (i : Nat) (hi : reservedBits.getLsbD i = true) :
    (l.setFlag f b).value.getLsbD i = l.value.getLsbD i := by
  rw [setFlag_getLsbD, if_neg]
  rintro rfl
  rw [reservedBits_flag] at hi
  cases hi

/-- Setting a flag needs no formula for that flag: it becomes clean. -/
theorem sound_setFlag {l : LazyFlags} {f : Flag} (b : Bool) (hr : l.value &&& reservedBits = 2)
    (hd : ∀ g, g ≠ f → l.dirty.get g = true →
      (formula g l.insnLast l.sizeLast l.valLast1 l.valLast2 l.resLast).isSome = true) : (l.setFlag f b).Sound where
  reserved := (reserved_congr (setFlag_getLsbD_reserved l f b)).trans hr
  dirty g hg := by
    rw [setFlag_dirty, dirty_get_set] at hg
    split at hg
    · cases hg
    · rename_i hne
      exact hd g hne hg

theorem Sound.setFlag {l : LazyFlags} (h : l.Sound) (f : Flag) (b : Bool) : (l.setFlag f b).Sound :=
  sound_setFlag b h.reserved fun g _ => h.dirty g

theorem Sound.evaluate {l : LazyFlags} (h : l.Sound) (f : Flag) : (l.evaluate f).Sound := by
  unfold LazyFlags.evaluate
  split
  · exact h.setFlag f _
  · exact h

theorem Sound.evaluateAll {l : LazyFlags} (h : l.Sound) : l.evaluateAll.Sound :=
  (((((h.evaluate .cf).evaluate .pf).evaluate .af).evaluate .zf).evaluate .sf).evaluate .ovf

theorem Sound.setPlain {l : LazyFlags} (h : l.Sound) {i : Nat} (b : Bool) (hi : i < 32)
    (hr : reservedBits.getLsbD i = false) : (l.setPlain i b).Sound :=
  h.setValue fun j hj => by
    rw [getLsbD_setBit _ _ _ _ hi, if_neg]
    rintro rfl
    rw [hr] at hj
    cases hj

theorem Sound.writeFlag {l : LazyFlags} (h : l.Sound) (v m : Word) (f : Flag) : (l.writeFlag v m f).Sound := by
  unfold LazyFlags.writeFlag
  split
  · exact h.setFlag f _
  · exact h

/-- A write of EFLAGS whose mask names implemented bits only keeps the reserved ones. -/
theorem Sound.writeFlags {l : LazyFlags} (h : l.Sound) (v : Word) {m : Word} (hm : m &&& reservedBits = 0) :
    (l.writeFlags v m).Sound := by
  have h6 := (((((h.writeFlag v m .cf).writeFlag v m .pf).writeFlag v m .af).writeFlag v m .zf).writeFlag v m
    .sf).writeFlag v m .ovf
  refine h6.setValue fun i hi => ?_
  have hmi : m.getLsbD i = false := by
    have := congrArg (fun x => x.getLsbD i) hm
    simpa [BitVec.getLsbD_and, hi] using this
  rw [getLsbD_mergeBits, BitVec.getLsbD_and, hmi, Bool.false_and, if_neg Bool.false_ne_true]

theorem Sound.lazyStore {l : LazyFlags} (h : l.Sound) {k : FlagKind} (hk : k = .add ∨ k = .adc ∨ k = .sub ∨ k = .sbb ∨
    k = .cmp ∨ k = .neg ∨ k = .logic ∨ k = .mul ∨ k = .imul) (w : Width) (x y r : Word) : (l.lazyStore k w x y r).Sound :=
  ⟨h.reserved, fun f _ => formula_isSome_of_plain_kind hk f w x y r⟩

/-- The snapshot of INC and DEC, with CF put back. -/
theorem Sound.lazyStore_step {l : LazyFlags} (h : l.Sound) {k : FlagKind} (hk : k = .inc ∨ k = .dec) (w : Width)
    (x y r : Word) (c : Bool) : ((l.lazyStore k w x y r).setFlag .cf c).Sound :=
  sound_setFlag c h.reserved fun _ hf _ => formula_isSome_of_step_kind hk hf w x y r

/-- The snapshot of a shift, with CF and OF set by the shift. -/
theorem Sound.lazyStore_shift {l : LazyFlags} (h : l.Sound) {k : FlagKind} (hk : k = .shl ∨ k = .shr ∨ k = .sar)
    (w : Width) (x y r : Word) (c o : Bool) : (((l.lazyStore k w x y r).setFlag .cf c).setFlag .ovf o).Sound := by
  refine sound_setFlag o ((reserved_congr (setFlag_getLsbD_reserved _ _ _)).trans h.reserved) fun f ho hd => ?_
  refine formula_isSome_of_shift_kind hk (fun hf => ?_) ho w x y r
  rw [hf, setFlag_dirty, dirty_get_set_same] at hd
  cases hd

end LazyFlags

theorem Inv.sound {s : State} (h : Inv s) : s.flags.Sound := ⟨h.reserved, h.dirty⟩

/-! ### The updates of an instruction keep the invariant -/

/-- The scheduler is as before, and the invariant is kept. -/
def KeepsInv (s t : State) : Prop := t.sched = s.sched ∧ (Inv s → Inv t)

/-- An update of fields the invariant does not read. -/
theorem keepsInv_of_eq {s t : State} (hm : t.mem = s.mem) (hf : t.flags = s.flags) (hc : t.cpl = s.cpl)
    (hs : t.sched = s.sched) : KeepsInv s t :=
  ⟨hs, fun h => ⟨hm ▸ h.memory, hf ▸ h.reserved, hc ▸ h.cpl, hf ▸ h.dirty, hs ▸ h.aborted, hs ▸ h.shutdown⟩⟩

theorem keepsInv_setFlags {s : State} {l : LazyFlags} (hl : s.flags.Sound → l.Sound) : KeepsInv s (setFlags s l) :=
  ⟨rfl, fun h => ⟨h.memory, (hl h.sound).reserved, h.cpl, (hl h.sound).dirty, h.aborted, h.shutdown⟩⟩

theorem plainPos_not_reserved {i : Nat} (h : i = tfPos ∨ i = ifPos ∨ i = dfPos ∨ i = ntPos ∨ i = rfPos) :
    i < 32 ∧ reservedBits.getLsbD i = false := by
  rcases h with rfl | rfl | rfl | rfl | rfl <;> decide

theorem keepsInv_stable : Stable KeepsInv where
  refl _ := ⟨rfl, id⟩
  trans h g := ⟨g.1.trans h.1, g.2 ∘ h.2⟩
  sp _ _ := keepsInv_of_eq rfl rfl rfl rfl
  eip _ _ := keepsInv_of_eq rfl rfl rfl rfl
  seg _ _ _ := keepsInv_of_eq rfl rfl rfl rfl
  touchAll _ := keepsInv_setFlags fun h => h.evaluateAll
  plain _ _ b hi := keepsInv_setFlags fun h => h.setPlain b (plainPos_not_reserved hi).1 (plainPos_not_reserved hi).2
  mem s a w v :=
    ⟨rfl, fun h => ⟨storeBytes_wf s.mem a w v h.memory, h.reserved, h.cpl, h.dirty, h.aborted, h.shutdown⟩⟩
  vga _ _ _ := keepsInv_of_eq rfl rfl rfl rfl
  reg _ _ _ _ := keepsInv_of_eq rfl rfl rfl rfl
  flag _ f b := keepsInv_setFlags fun h => h.setFlag f b
  touch _ f := keepsInv_setFlags fun h => h.evaluate f
  store _ _ w x y r hk := keepsInv_setFlags fun h => h.lazyStore hk w x y r
  storeStep _ _ w x y r c hk := keepsInv_setFlags fun h => h.lazyStore_step hk w x y r c
  storeShift _ _ w x y r c o hk := keepsInv_setFlags fun h => h.lazyStore_shift hk w x y r c o
  write _ v _ hm := keepsInv_setFlags fun h => h.writeFlags v hm
  free _ := keepsInv_of_eq rfl rfl rfl rfl

/-! ### The scheduler's part of the invariant -/

theorem Inv.abortInfo_eq_none {s : State} (h : Inv s) (hn : s.sched.runState ≠ .aborted) : s.sched.abortInfo = none := by
  rw [← Option.not_isSome_iff_eq_none, h.aborted, decide_eq_false hn]
  exact Bool.false_ne_true

theorem Inv.live {s : State} (h : Inv s) (ha : s.sched.runState ≠ .aborted) (hh : s.sched.runState ≠ .halted) :
    live s := ⟨ha, Bool.eq_false_iff.mpr fun hs => hh (h.shutdown hs)⟩

theorem Inv.live_of_running {s : State} (h : Inv s) (hr : s.sched.runState = .running) : Machine.live s :=
  h.live (by rw [hr]; decide) (by rw [hr]; decide)

/-- A run that is live may be put into any state but ABORTED. -/
theorem Inv.setRunState {s : State} (h : Inv s) (hl : Machine.live s) {r : RunState} (hr : r ≠ .aborted) :
    Inv (setRunState s r) where
  memory := h.memory
  reserved := h.reserved
  cpl := h.cpl
  dirty := h.dirty
  aborted := (congrArg Option.isSome (h.abortInfo_eq_none hl.1)).trans (decide_eq_false hr).symm
  shutdown hs := absurd (hl.2.symm.trans hs) Bool.false_ne_true

theorem Inv.abortState {s : State} (h : Inv s) (hl : Machine.live s) (k : AbortInfo) : Inv (abortState s k) where
  memory := h.memory
  reserved := h.reserved
  cpl := h.cpl
  dirty := h.dirty
  aborted := rfl
  shutdown hs := absurd (hl.2.symm.trans hs) Bool.false_ne_true

theorem Inv.haltState {s : State} (h : Inv s) (hl : Machine.live s) (b : Bool) : Inv (haltState s b) where
  memory := h.memory
  reserved := h.reserved
  cpl := h.cpl
  dirty := h.dirty
  aborted := congrArg Option.isSome (h.abortInfo_eq_none hl.1)
  shutdown _ := rfl

theorem Inv.setSliceCount {s : State} (h : Inv s) (n : Nat) : Inv (setSliceCount s n) :=
  ⟨h.memory, h.reserved, h.cpl, h.dirty, h.aborted, h.shutdown⟩

theorem Inv.clearPause {s : State} (h : Inv s) : Inv (clearPause s) :=
  ⟨h.memory, h.reserved, h.cpl, h.dirty, h.aborted, h.shutdown⟩

/-- Where a live run ends an instruction, normally, halted or aborted, the invariant holds. -/
theorem Ends.inv {s t : State} (h : Ends KeepsInv s t) (hi : Inv s) (hl : live s) : Inv t := by
  obtain ⟨u, ⟨hs, hu⟩, rfl | ⟨b, rfl⟩ | ⟨k, rfl⟩⟩ := h
  · exact hu hi
  · exact (hu hi).haltState (by unfold live; rwa [hs]) b
  · exact (hu hi).abortState (by unfold live; rwa [hs]) k

/-! ### One step -/

theorem Inv.endInstr {s : State} (h : Inv s) : Inv (endInstr s) := by
  unfold Machine.endInstr
  split
  · exact h
  · dsimp only
    split
    · rename_i hr
      exact (h.setSliceCount _).setRunState ((h.setSliceCount _).live_of_running hr.1) (by decide)
    · exact h.setSliceCount _

theorem exec_ends_keepsInv {i : Instr} {s t : State} (hx : exec i s = .next t) : Ends KeepsInv s t :=
  exec_ends keepsInv_stable i s t hx (fun _ _ _ _ => keepsInv_of_eq rfl rfl rfl rfl)
    (fun _ _ _ _ => keepsInv_of_eq rfl rfl rfl rfl) (fun _ _ _ => keepsInv_of_eq rfl rfl rfl rfl)
    (fun _ _ _ => keepsInv_of_eq rfl rfl rfl rfl) (fun _ _ _ => keepsInv_of_eq rfl rfl rfl rfl)

theorem endOutcome_eq_next {o : Host.Outcome State Fault Refusal} {t : State} (h : endOutcome o = .next t) :
    ∃ u, o = .next u ∧ t = endInstr u := by
  cases o with
  | next u => cases h; exact ⟨u, rfl, rfl⟩
  | fault r => cases h
  | refused r => cases h

/-- What one instruction, fetched and executed, can do before it is counted. -/
theorem runInstr_ends {s t : State} (h : runInstr s = .next t) : ∃ u, Ends KeepsInv s u ∧ t = endInstr u := by
  have hs : KeepsInv s (setStart s s.eip) := keepsInv_of_eq rfl rfl rfl rfl
  have hf := within_of_rel keepsInv_stable.1 hs (fetchDecode_within keepsInv_stable (setStart s s.eip))
  unfold runInstr at h
  split at h
  case h_1 i len s1 hd =>
    rw [hd] at hf
    obtain ⟨u, hx, rfl⟩ := endOutcome_eq_next h
    exact ⟨u, Ends.of_rel keepsInv_stable.1 (keepsInv_stable.trans hf (keepsInv_stable.eip s1 _))
      (exec_ends_keepsInv hx), rfl⟩
  case h_2 e s1 hd =>
    rw [hd] at hf
    cases h
    exact ⟨_, Ends.of_rel keepsInv_stable.1 hf (takeException_ends keepsInv_stable.1 s1 e), rfl⟩
  case h_3 k s1 hd =>
    rw [hd] at hf
    cases h
    exact ⟨_, ⟨s1, hf, .inr (.inr ⟨k, rfl⟩)⟩, rfl⟩

theorem runLoop_keeps_inv {s t : State} (hi : Inv s) (hr : s.sched.runState = .running) (h : runLoop s = .next t) :
    Inv t := by
  have hl := hi.live_of_running hr
  unfold runLoop at h
  split at h
  · cases h
    exact hi.setRunState hl (by decide)
  · split at h
    · cases h
      exact (hi.setRunState hl (by decide)).clearPause
    · obtain ⟨u, hu, rfl⟩ := runInstr_ends h
      exact (hu.inv hi hl).endInstr

theorem takeInterrupt_ends (s : State) (v : Byte) : Ends KeepsInv s (takeInterrupt s v) := by
  have h1 : KeepsInv s { s with start := s.eip, inputs := { s.inputs with intr := s.inputs.intr.tail } } :=
    keepsInv_of_eq rfl rfl rfl rfl
  exact settle_ends keepsInv_stable.1 (within_of_rel keepsInv_stable.1 h1 (deliver_within keepsInv_stable.1 _ v _ _ _))

/-- No interrupt is taken in a shutdown (60_exceptions R513). -/
theorem shutdown_of_pendingInterrupt {s : State} {v : Byte} (h : pendingInterrupt s = some v) :
    s.sched.shutdown = false := by
  unfold pendingInterrupt at h
  split at h
  · rename_i hc
    rw [Bool.and_eq_true, Bool.not_eq_true'] at hc
    exact hc.1
  · cases h

theorem enterSlice_keeps_inv {s t : State} (hi : Inv s) (ha : s.sched.runState ≠ .aborted)
    (h : enterSlice s = .next t) : Inv t := by
  have hi0 := hi.setSliceCount 0
  unfold enterSlice at h
  dsimp only at h
  split at h
  · rename_i hp
    cases h
    exact (hi0.setRunState (hi0.live ha hp.2) (by decide)).clearPause
  · split at h
    · rename_i v hv
      cases h
      have hl : live (setSliceCount s 0) := ⟨ha, shutdown_of_pendingInterrupt hv⟩
      exact (takeInterrupt_ends _ v).inv (hi0.setRunState hl (by decide)) ⟨RunState.noConfusion, hl.2⟩
    · split at h
      · cases h
        exact hi0
      · rename_i hh
        exact runLoop_keeps_inv (hi0.setRunState (hi0.live ha hh) (by decide)) rfl h

/-- Settles O8: every update of an instruction keeps the invariant and the scheduler, and the scheduler's own moves start from
live runs. -/
theorem stepKeepsInvariant : Obligations.StepKeepsInvariant := by
  intro s t hi h
  unfold step schedule at h
  split at h
  case h_1 => cases h; exact hi
  case h_2 hr => exact runLoop_keeps_inv hi hr h
  all_goals
    rename_i hr
    exact enterSlice_keeps_inv hi (by rw [hr]; decide) h

end Sys2Proof.Machine
end

section
/-! PROOFS. Of 20_memory R72 to R78: stores to a buffer, calls of the device, and the two ways an address has a second name. -/

namespace Sys2Proof.Machine

/-! ### Where an access goes -/

/-- A buffer backs an access exactly when the map answers with a region other than the device's. -/
theorem mapPhysical_of_bufferHome {s : State} {addr : Word} {w : Width} {b : Nat} (h : bufferHome s addr w = some b) :
    ∃ g a, mapPhysical s addr w = some (g, a) ∧ g ≠ .vga ∧ homeOf g a = b := by
  unfold bufferHome at h
  split at h
  · cases h
  · cases h
  · rename_i g a hg hm
    cases h
    exact ⟨g, a, hm, hg, rfl⟩

/-- The write of a buffer-backed region, all of it (20_memory R77). -/
theorem memWrite_buffer (s : State) (addr : Word) (w : Width) (v : Word) {g : Region} {a : Nat}
    (h : mapPhysical s addr w = some (g, a)) (hg : g ≠ .vga) :
    memWrite s addr w v = .ok () (setMem s (storeBytes s.mem (homeOf g a) w v)) := by
  unfold memWrite
  rw [h]
  cases g with
  | vga => exact absurd rfl hg
  | _ => rfl

/-- Settles O11: the store is `storeBytes` at the home the map gives, and it moves no address. -/
theorem storeThenLoad : Obligations.StoreThenLoad := by
  intro s addr w v b _ hb
  obtain ⟨g, a, hm, hg, rfl⟩ := mapPhysical_of_bufferHome hb
  have hload := memRead_buffer (setMem s (storeBytes s.mem (homeOf g a) w v)) addr w g a hm hg
  rw [setMem_mem, loadBytes_storeBytes] at hload
  exact ⟨_, memWrite_buffer s addr w v hm hg, hload, fun x hx => read_storeBytes_outside _ _ _ _ _ (hx _ rfl), rfl,
    fun i hi => read_storeBytes_inside _ _ _ _ _ hi⟩

/-! ### The device (R76 to R78) -/

section
variable {s : State} {addr : Word} {w : Width} {a : Nat} (h : mapPhysical s addr w = some (.vga, a))
include h

theorem memRead_vga : memRead s addr w = vgaRead s a w := by
  unfold memRead
  rw [h]

theorem memWrite_vga (v : Word) : memWrite s addr w v = vgaWrite s a w v := by
  unfold memWrite
  rw [h]

end

/-- Taking an answer leaves the record of the calls alone. -/
theorem vgaAfterAnswer_log (v : Vga) : (vgaAfterAnswer v).log = v.log := by
  unfold vgaAfterAnswer
  split <;> rfl

/-- The device gives its listed answers in order (log entry 5). -/
theorem vgaAnswer_of_listed {v : Vga} {y : Word} {ys : List Word} (h : v.answers = y :: ys) :
    vgaAnswer v = y ∧ (vgaAfterAnswer v).answers = ys := by
  unfold vgaAnswer vgaAfterAnswer
  rw [h]
  exact ⟨rfl, rfl⟩

/-- Settles O12: an access to the window is the device's operation, which touches the device's record alone. -/
theorem deviceCallsAreRecorded : Obligations.DeviceCallsAreRecorded := by
  intro s addr w v a h
  refine ⟨⟨_, memWrite_vga h v, rfl, rfl⟩, _, _, memRead_vga h, rfl, ?_, fun y ys hy => ?_⟩
  · exact congrArg (· ++ [_]) (vgaAfterAnswer_log s.vga)
  · obtain ⟨hx, hs⟩ := vgaAnswer_of_listed hy
    exact ⟨congrArg (trunc w) hx, hs⟩

/-! ### Two addresses for one byte (R72, R73) -/

/-- The A20 mask clears bit 20, so clearing it before changes nothing (R72). -/
theorem maskA20_clear_bit (addr : Word) : maskA20 false (addr &&& 0xFFEFFFFF) = maskA20 false addr := by
  simp only [maskA20, Bool.false_eq_true, if_false, BitVec.and_assoc, BitVec.and_self]

/-- An access whose first and last byte lie in one buffer-backed region is mapped there (R74, R75). -/
theorem mapPhysical_within {s : State} {addr : Word} {w : Width} {g : Region} {a : Nat}
    (ha : (maskA20 s.a20 addr).toNat = a) (hfirst : classify s.cfg.dramSize a = some g)
    (hlast : classify s.cfg.dramSize (a + w.bytes - 1) = some g) (hmax : a + w.bytes - 1 ≤ 0xFFFFFFFF) (hg : g ≠ .vga) :
    mapPhysical s addr w = some (g, a) := by
  unfold mapPhysical
  simp only [ha, hfirst]
  exact if_pos ⟨hmax, hlast, fun e => absurd e hg⟩

section
variable {s : State} {k : Nat} {w : Width} (ha : s.a20 = true) (hk : k + w.bytes ≤ Config.romSize)
include ha hk

/-- An access to the ROM window (R73). -/
theorem mapPhysical_rom : mapPhysical s (BitVec.ofNat 32 (Config.romBase + k)) w = some (.rom, Config.romBase + k) := by
  have hw := width_bytes_pos w
  unfold Config.romSize at hk
  have hlow : Config.romBase ≤ Config.romBase + k := Nat.le_add_right _ _
  have hhigh : Config.romBase + k + w.bytes - 1 ≤ Config.romEnd := by unfold Config.romBase Config.romEnd; omega
  refine mapPhysical_within ?_ (classify_rom _ _ hlow (by omega)) (classify_rom _ _ (by omega) hhigh) ?_ (by decide)
  · rw [ha, maskA20, if_pos rfl, BitVec.toNat_ofNat]
    unfold Config.romBase
    omega
  · unfold Config.romEnd at hhigh
    omega

/-- An access to the mirror of the ROM at the top of the address space (R73). -/
theorem mapPhysical_biosTop (hd : s.cfg.dramSize ≤ Config.biosTopBase) :
    mapPhysical s (BitVec.ofNat 32 (Config.biosTopBase + k)) w = some (.biosTop, Config.biosTopBase + k) := by
  have hw := width_bytes_pos w
  unfold Config.romSize at hk
  have hlow : Config.biosTopBase ≤ Config.biosTopBase + k := Nat.le_add_right _ _
  have hhigh : Config.biosTopBase + k + w.bytes - 1 ≤ 0xFFFFFFFF := by unfold Config.biosTopBase; omega
  refine mapPhysical_within ?_ (classify_bios _ _ hlow hd) (classify_bios _ _ (by omega) hd) hhigh (by decide)
  rw [ha, maskA20, if_pos rfl, BitVec.toNat_ofNat]
  omega

end

/-- The mirror and the window list a byte at the same place. -/
theorem homeOf_biosTop {k : Nat} (hk : k < Config.romSize) :
    homeOf .biosTop (Config.biosTopBase + k) = homeOf .rom (Config.romBase + k) := by
  unfold Config.romSize at hk
  simp only [homeOf, Config.biosTopBase, Config.romSize]
  omega

/-- Settles O13: the mask clears bit 20, and both addresses have one home. -/
theorem addressAliases : Obligations.AddressAliases := by
  refine ⟨fun s addr w ha => ?_, fun s k w ha hc hp hk => ?_⟩
  · simp only [mapPhysical, ha, maskA20_clear_bit]
  · have hw := width_bytes_pos w
    have hd : s.cfg.dramSize ≤ Config.biosTopBase := by
      simp only [Params.wf, Bool.and_eq_true, decide_eq_true_eq] at hc
      obtain ⟨⟨_, hd⟩, _⟩ := hc
      exact hd
    unfold linRead
    rw [hp, memRead_buffer s _ w _ _ (mapPhysical_biosTop ha hk hd) (by decide),
      memRead_buffer s _ w _ _ (mapPhysical_rom ha hk) (by decide), homeOf_biosTop (by omega)]

end Sys2Proof.Machine
end

section
/-! PROOFS. Of 20_memory R81 to R88: what stops an access, and how the instruction that makes it ends. -/

namespace Sys2Proof.Machine

/-! ### The checks of one access -/

section
variable (s : State) (r : SegReg) (off : Word) (w : Width)

/-- A register in the NullSelector state stops every access (R88). -/
theorem access_of_invalid (v : Word) (h : (getSeg s r).cache.valid = false) :
    segRead s r off w = segFault s r off 0 ∧ segWrite s r off w v = segFault s r off 0 := by
  simp only [segRead, segWrite, h, Bool.not_false, if_true, and_self]

/-- An offset above the limit stops every access (R87). -/
theorem access_above_limit (v : Word) (h : (getSeg s r).cache.valid = true) (hl : (getSeg s r).cache.limitScaled < off) :
    segRead s r off w = segFault s r off (errLimit s off) ∧ segWrite s r off w v = segFault s r off (errLimit s off) := by
  simp only [segRead, segWrite, h, hl, Bool.not_true, Bool.false_eq_true, if_false, if_true, and_self]

theorem segFault_protected {α : Type} (err : Word) (h : pe s = true) :
    (segFault s r off err : Res α) = .raised (if r = .ss then .ss err else .gp err) s := if_pos h

theorem segFault_real {α : Type} (err : Word) (h : pe s = false) :
    (segFault s r off err : Res α) = .aborted (.memoryFault r off) s := by
  rw [segFault, if_neg (by rw [h]; decide)]

end

/-- With paging on every linear access aborts (R80, R81). -/
theorem linear_of_paging (s : State) (addr : Word) (w : Width) (v : Word) (h : pg s = true) :
    linRead s addr w = .aborted (.unimplemented .paging) s ∧ linWrite s addr w v = .aborted (.unimplemented .paging) s :=
  ⟨if_pos h, if_pos h⟩

/-- A read that answers was one that can be made. -/
theorem canAccess_of_segRead {s t : State} {r : SegReg} {off : Word} {w : Width} {x : Word}
    (h : segRead s r off w = .ok x t) : canAccess s r off w := by
  unfold segRead at h
  split at h
  · rcases segFault_cases (α := Word) s r off 0 with ⟨_, e⟩ | ⟨_, e⟩ <;> rw [e] at h <;> cases h
  · rename_i hv
    split at h
    · rcases segFault_cases (α := Word) s r off (errLimit s off) with ⟨_, e⟩ | ⟨_, e⟩ <;> rw [e] at h <;> cases h
    · rename_i hl
      unfold linRead at h
      split at h
      · cases h
      · rename_i hp
        refine ⟨by simpa using hv, by simpa using hl, by simpa using hp, ?_⟩
        cases hm : mapPhysical s (linearOf s r off) w with
        | none => rw [memRead_unmapped s _ w hm] at h; cases h
        | some _ => rfl

theorem ready_of_readOp {a : Attrs} {s t : State} {op : Operand} {x : Word} (h : readOp a s op = .ok x t) :
    op.ready a s := by
  cases op with
  | reg w r => trivial
  | mem w m => exact canAccess_of_segRead h
  | imm i => trivial

/-- An operand that was read can be written (R84, R85 make the same checks). -/
theorem writeOp_after_readOp {a : Attrs} {s t : State} {op : Operand} {x : Word} (v : Word)
    (h : readOp a s op = .ok x t) : ∃ u, writeOp a t op v = .ok () u := by
  obtain ⟨u, hu, _⟩ := writeOp_ok a t op v (((readOp_device h).ready a op).mpr (ready_of_readOp h))
  exact ⟨u, hu⟩

/-! ### Pieces before the access -/

/-- What comes after a piece that answered fails where the whole fails. -/
theorem FailsLike.after {α β γ : Type} {r : Res α} {f : α → State → Res β} {q : Res γ} {x : α} {t : State}
    (h : r = .ok x t) (g : FailsLike q (f x t)) : FailsLike q (r.andThen f) := by
  rw [h]
  exact g

/-- Pieces in order, whichever way they are bracketed. -/
theorem andThen_assoc {α β γ : Type} (r : Res α) (f : α → State → Res β) (g : β → State → Res γ) :
    (r.andThen f).andThen g = r.andThen fun x s => (f x s).andThen g := by
  cases r <;> rfl

theorem raiseIf_false {c : Bool} (h : c = false) (e : Exc) (s : State) : raiseIf c e s = .ok () s := by
  rw [h]
  rfl

theorem abortIf_false {c : Bool} (h : c = false) (k : AbortInfo) (s : State) : abortIf c k s = .ok () s := by
  rw [h]
  rfl

theorem privileged_of_may {s : State} (h : mayPrivileged s) : privileged s = .ok () s := by
  refine raiseIf_false ?_ _ _
  rcases h with h | h <;> simp [h]

theorem v86Guard_of_may {s : State} (h : mayV86 s) : v86Guard s = .ok () s := by
  refine raiseIf_false ?_ _ _
  rcases h with h | h <;> simp [h]

theorem protectedOnly_of_prot {s : State} (h : isProt s = true) : protectedOnly s = .ok () s :=
  abortIf_false (by rw [h]; rfl) _ _

/-- Cleaning flags stores nothing. -/
theorem storesFrame_of_onlyFlags {s t : State} (h : onlyFlags s t) (hf : keepsFlags s t) : StoresFrame [] s t := by
  rw [h] at hf ⊢
  exact ⟨rfl, fun _ _ => rfl, hf, rfl, ⟨rfl, rfl, rfl, rfl, rfl, rfl, rfl, rfl, rfl, rfl, rfl, rfl, rfl⟩⟩

theorem storesFrame_touchAllFlags (s : State) : StoresFrame [] s (touchAllFlags s) :=
  storesFrame_of_onlyFlags rfl (keepsFlags_touchAllFlags s)

theorem storesFrame_touchCond (c : Cond) (s : State) : StoresFrame [] s (touchCond c s) :=
  storesFrame_of_onlyFlags (touchCond_spec c s).1 (touchCond_spec c s).2

theorem storesFrame_of_readOp {a : Attrs} {s t : State} {op : Operand} {x : Word} (h : readOp a s op = .ok x t) :
    StoresFrame [] s t := (readOp_device h).readFrame.storesFrame

theorem storesFrame_of_segRead {s t : State} {r : SegReg} {off : Word} {w : Width} {x : Word}
    (h : segRead s r off w = .ok x t) : StoresFrame [] s t := (segRead_device h).readFrame.storesFrame

/-! ### Operands -/

section
variable (a : Attrs) (s : State)

/-- An instruction that reads operands first, or one operand first. -/
theorem failsAs_readOps {ops : List Operand} {R : Res Unit} (h : FailsLike (readOps a ops s) R) :
    FailsAs [] s (complete R) (readOps a ops s) := h.failsAs (leaves_readOps a ops s (.refl s))

theorem failsAs_readOp {op : Operand} {R : Res Unit} (h : FailsLike (readOp a s op) R) :
    FailsAs [] s (complete R) (readOp a s op) := h.failsAs (leaves_readOp (.refl s) a op)

theorem failsAs_segRead {r : SegReg} {off : Word} {w : Width} {R : Res Unit} (h : FailsLike (segRead s r off w) R) :
    FailsAs [] s (complete R) (segRead s r off w) := h.failsAs (leaves_segRead (.refl s) r off w)

theorem failsAs_writeOp {u : State} {op : Operand} {v : Word} {R : Res Unit} (hu : StoresFrame [] s u)
    (h : FailsLike (writeOp a u op v) R) : FailsAs [] s (complete R) (writeOp a u op v) :=
  h.failsAs (leaves_writeOp hu a op v)

theorem failsAs_peekAll {sz : Size} {ks : List Nat} {R : Res Unit} (h : FailsLike (peekAll sz ks s) R) :
    FailsAs [] s (complete R) (peekAll sz ks s) := h.failsAs (leaves_peekAll sz ks s (.refl s))

theorem failsAs_readParts {m : MemRef} {w w' : Width} {k : Nat} {R : Res Unit}
    (h : FailsLike (readParts a m w k w' s) R) : FailsAs [] s (complete R) (readParts a m w k w' s) :=
  h.failsAs (leaves_readParts a m w k w')

theorem aluWrite_failsLike (t : TwoOperands) (kind : FlagKind) (useCf : Bool) (op : Word → Word → Word → Word) :
    FailsLike (readOps a [t.dst, t.src] s) (aluWrite a t kind useCf op s) := readOps_two a _ _ s _

theorem aluTest_failsLike (t : TwoOperands) (kind : FlagKind) (op : Word → Word → Word) :
    FailsLike (readOps a [t.dst, t.src] s) (aluTest a t kind op s) := readOps_two a _ _ s _

theorem logicWrite_failsLike (t : TwoOperands) (op : Word → Word → Word) :
    FailsLike (readOps a [t.dst, t.src] s) (logicWrite a t op s) := (aluWrite_failsLike a s t _ _ _).trans (.left _ _)

theorem shiftForm_failsLike (t : TwoOperands) (body : Word → Nat → State → Res Unit) :
    FailsLike (readOps a [t.dst, t.src] s) (shiftForm a t body s) := readOps_two a _ _ s _

/-- A move fails where it reads, and then where it writes. -/
theorem moveOp_failsAs (t : TwoOperands) : FailsAs [] s (complete (moveOp a t s)) (readOp a s t.src) ∧
    ∀ v u, readOp a s t.src = .ok v u → FailsAs [] s (complete (moveOp a t s)) (writeOp a u t.dst v) :=
  ⟨failsAs_readOp a s (.left _ _),
    fun _ _ h => failsAs_writeOp a s (storesFrame_of_readOp h) (.after h (.refl _))⟩

theorem setcc_failsAs (c : Cond) (e : Rm) : FailsAs [] s (exec (c.setcc a e) s)
    (writeOp a (touchCond c s) (rmOp .byte e) (if condHolds c s then 1 else 0)) := by
  have h : exec (c.setcc a e) s = complete (setCond c a e s) := by cases c <;> rfl
  rw [h]
  exact failsAs_writeOp a s (storesFrame_touchCond c s) (.refl _)

/-! ### Pointers and pseudo-descriptors in memory -/

/-- A far pointer is its two parts, the selector cut to 16 bits (R83). -/
theorem readFar_eq_readParts (m : MemRef) : readFar a s m =
    (readParts a m a.osz.width a.osz.bytes .word s).andThen fun x s => .ok (x.1, x.2.setWidth 16) s := by
  simp only [readFar, readParts, andThen_assoc, andThen_ok]

theorem readFar_failsLike (m : MemRef) : FailsLike (readParts a m a.osz.width a.osz.bytes .word s) (readFar a s m) := by
  rw [readFar_eq_readParts]
  exact .left _ _

theorem readFar_of_readParts {m : MemRef} {x : Word × Word} {t : State}
    (h : readParts a m a.osz.width a.osz.bytes .word s = .ok x t) : readFar a s m = .ok (x.1, x.2.setWidth 16) t := by
  rw [readFar_eq_readParts, h]
  rfl

theorem readParts_device {m : MemRef} {w w' : Width} {k : Nat} {x : Word × Word} {t : State}
    (h : readParts a m w k w' s = .ok x t) : DeviceOnly s t := by
  obtain ⟨y, u, h1, h⟩ := andThen_eq_ok h
  obtain ⟨z, v, h2, h⟩ := andThen_eq_ok h
  cases h
  exact (segRead_device h1).trans (segRead_device h2)

theorem loadFarPointer_failsLike (r : SegReg) (g : Reg) (m : MemRef) :
    FailsLike (readParts a m a.osz.width a.osz.bytes .word s) (loadFarPointer a r g m s) :=
  (readFar_failsLike a s m).trans (.left _ _)

theorem loadTable_failsLike (m : MemRef) : FailsLike (readParts a m .word 2 .dword s) (loadTable a m s) :=
  readParts_then a m _ _ _ s _

/-- Storing a pseudo-descriptor fails at its limit, or at its base with the limit stored (46_system R483). -/
theorem storeTable_failsAs (m : MemRef) (r : TableRegister) :
    FailsAs [] s (complete (storeTable a m r s))
      (segWrite s (segFor a m) (effAddr s m 0) .word (r.limit.setWidth 32)) ∧
    ∀ t, segWrite s (segFor a m) (effAddr s m 0) .word (r.limit.setWidth 32) = .ok () t →
      FailsAs [(storeHome s (segFor a m) (effAddr s m 0) .word, .word)] s (complete (storeTable a m r s))
        (segWrite t (segFor a m) (effAddr s m 2) .dword r.base) := by
  refine ⟨(FailsLike.left _ _).failsAs (leaves_segWrite (.refl s) _ _ _ _), fun t h => ?_⟩
  have hs := segWrite_stored h
  refine FailsLike.failsAs (.after h ?_) (leaves_segWrite hs.storesFrame _ _ _ _)
  rw [← effAddr_congr s t hs.regs]
  exact .refl _

end

/-! ### Stack slots -/

section
variable {s u : State} (hr : u.regs = s.regs) (hg : u.segs = s.segs)
include hr hg

/-- A push fails at its one slot. -/
theorem push_failsLike (sz : Size) (v : Word) : FailsLike (storeSlots s sz 0 [v] u) (push u sz v) := by
  have h : slotBelow s ((0 + 1) * sz.bytes) = slotBelow u sz.bytes := by
    rw [Nat.zero_add, Nat.one_mul, slotBelow_congr s u hr hg]
  simp only [storeSlots, push, h]
  exact .andThen _ fun _ _ _ => .of_ok _ _ _

/-- A far call fails at its two slots (45_control_transfer R458). -/
theorem farCall_failsLike (he : u.eip = s.eip) (a : Attrs) (off : Word) (sel : BitVec 16) :
    FailsLike (storeSlots s a.osz 0 [(getSeg s .cs).value.setWidth 32, s.eip] u) (farCall a off sel u) := by
  have h1 : slotBelow s ((0 + 1) * a.osz.bytes) = slotBelow u a.osz.bytes := by
    rw [Nat.zero_add, Nat.one_mul, slotBelow_congr s u hr hg]
  simp only [storeSlots, farCall, h1, getSeg_congr s u hg]
  refine .andThen _ fun _ t ht => ?_
  have hs := segWrite_stored ht
  have h2 : slotBelow s ((0 + 1 + 1) * a.osz.bytes) = slotBelow t (2 * a.osz.bytes) :=
    (slotBelow_congr s t (hs.regs.trans hr) (hs.segs.trans hg) _).symm
  rw [h2, ← he, ← hs.eip]
  exact .andThen _ fun _ _ _ => .of_ok _ _ _

end

/-- What PUSHA stores for a register, before a slot takes its low bytes (41_data_movement R296). -/
def pushedReg (s : State) (r : Reg) : Word :=
  if r = .sp then if stackBig s = true then reg32 s .sp else reg32 s .sp &&& 0xFFFF else reg32 s r

theorem getReg_size (s : State) (sz : Size) (r : Reg) : getReg s sz.width r = trunc sz.width (reg32 s r) := by
  cases sz <;> rfl

/-- A slot takes as many bytes of the register as the value PUSHA computes has. -/
theorem segWrite_pushaValue (s : State) (sz : Size) (r : Reg) (off : Word) :
    segWrite s .ss off sz.width (pushaValue s sz r) = segWrite s .ss off sz.width (pushedReg s r) := by
  unfold pushaValue pushedReg
  split
  · rfl
  · rw [getRegSize, getReg_size, segWrite_trunc]

theorem pushedReg_congr {s u : State} (hr : u.regs = s.regs) (hg : u.segs = s.segs) (r : Reg) :
    pushedReg u r = pushedReg s r := by
  simp only [pushedReg, stackBig_congr s u hg, reg32_congr s u hr]

/-- The writes of PUSHA are its slots in order. -/
theorem pushaWrites_eq_storeSlots {s : State} (sz : Size) (rs : List Reg) (i : Nat) (u : State) (hr : u.regs = s.regs)
    (hg : u.segs = s.segs) : pushaWrites sz i rs u = storeSlots s sz i (rs.map (pushedReg s)) u := by
  induction rs generalizing i u with
  | nil => rfl
  | cons r rs ih =>
    have hw : segWrite u .ss (slotBelow u (sz.bytes * (i + 1))) sz.width (pushaValue u sz r) =
        segWrite u .ss (slotBelow s ((i + 1) * sz.bytes)) sz.width (pushedReg s r) := by
      rw [segWrite_pushaValue, pushedReg_congr hr hg, slotBelow_congr s u hr hg, Nat.mul_comm]
    simp only [pushaWrites, List.map_cons, storeSlots, hw]
    cases h : segWrite u .ss (slotBelow s ((i + 1) * sz.bytes)) sz.width (pushedReg s r) with
    | ok _ t => exact ih (i + 1) t ((segWrite_stored h).regs.trans hr) ((segWrite_stored h).segs.trans hg)
    | raised e t => rfl
    | aborted k t => rfl

/-- The reads of POPA fail where its slots, read in order, do (R297). -/
theorem popaReads_failsLike (sz : Size) (rs : List Reg) (i : Nat) (s : State) :
    FailsLike (peekAll sz ((List.range' i rs.length).map fun j => j * sz.bytes) s) (popaReads sz i rs s) := by
  induction rs generalizing i s with
  | nil => exact .of_ok _ _ _
  | cons r rs ih =>
    simp only [List.length_cons, List.range'_succ, List.map_cons, peekAll, popaReads, Nat.mul_comm sz.bytes]
    exact .andThen _ fun _ t _ => ((FailsLike.of_total _ _ fun _ _ => ⟨_, _, rfl⟩).trans (ih (i + 1) t)).trans (.left _ _)

section
variable (a : Attrs) (s : State)

theorem pusha_failsInSlots : FailsInSlots s (exec (.pusha a) s) a.osz (regOrder.map (pushedReg s)) s := by
  refine failsInSlots (.refl s) (.trans ?_ (.left _ _))
  rw [pushaWrites_eq_storeSlots a.osz regOrder 0 s rfl rfl]
  exact .refl _

theorem popa_failsAs : FailsAs [] s (exec (.popa a) s) (peekAll a.osz ((List.range 8).map fun i => i * a.osz.bytes) s) := by
  rw [List.range_eq_range']
  exact failsAs_peekAll s ((popaReads_failsLike a.osz regOrder.reverse 0 s).trans (.left _ _))

theorem nearReturn_failsLike (k : Nat) : FailsLike (peek s a.osz 0) (nearReturn a k s) :=
  (FailsLike.left (peek s a.osz 0) _).trans (.left _ _)

theorem farReturn_failsLike (k : Nat) : FailsLike (peekAll a.osz [0, a.osz.bytes] s) (farReturn a k s) :=
  peekAll_two _ _ _ s _

/-- IRET past its two guards fails at its three slots (45_control_transfer R466). -/
theorem returnFromInterrupt_failsLike (sz : Size) (hv : mayV86 s) (hn : isProt s = false ∨ plainFlag s ntPos = false) :
    FailsLike (peekAll sz [0, sz.bytes, 2 * sz.bytes] s) (returnFromInterrupt s sz) := by
  have hc : (isProt s && plainFlag s ntPos) = false := by rcases hn with hn | hn <;> simp [hn]
  exact .after (v86Guard_of_may hv) (.after (abortIf_false hc _ _) (peekAll_three _ _ _ _ s _))

/-! ### String elements -/

/-- The first element of a string instruction is where it fails first, repeated or not (44_string R412, R419). -/
theorem repeated_failsLike (compare : Bool) (one : State → Res Unit) (h : a.rep = .none ∨ repCount a s ≠ 0) :
    FailsLike (one s) (repeated a compare one s) := by
  unfold repeated
  split
  · exact .refl _
  all_goals
    rename_i hrep
    have hc : repCount a s ≠ 0 := h.resolve_left (by rw [hrep]; decide)
    have hn : (repCount a s).toNat ≠ 0 := fun e => hc (BitVec.eq_of_toNat_eq e)
    obtain ⟨n, hn⟩ := Nat.exists_eq_succ_of_ne_zero hn
    rw [hn, repeatLoop, if_neg hc]
    exact .left _ _

theorem failsAs_repeated {α : Type} {r : Res α} {compare : Bool} {one : State → Res Unit}
    (h : a.rep = .none ∨ repCount a s ≠ 0) (ho : FailsLike r (one s)) (hl : LeavesStores [] s r) :
    FailsAs [] s (complete (repeated a compare one s)) r := (ho.trans (repeated_failsLike a s compare one h)).failsAs hl

/-- The destination element of MOVS and CMPS, after the source element is read. -/
theorem destination_failsLike {α β : Type} {r : SegReg} {off : Word} {w : Width} {v : Word} {t : State}
    (h : segRead s r off w = .ok v t) (q : Word → Word → State → Res α) (f : Word → α → State → Res β) :
    FailsLike (q (dstIndex a s) v t)
      ((segRead s r off w).andThen fun x s => (q (dstIndex a s) x s).andThen (f x)) := by
  refine .after h ?_
  rw [show dstIndex a t = dstIndex a s from getReg_congr s t (segRead_device h).regs _ _]
  exact .left _ _

/-- Each string instruction ends at the first of its element's accesses that fails. -/
theorem string_failsAs (f : StrForm) (h : a.rep = .none ∨ repCount a s ≠ 0) :
    FailsAs [] s (exec (.movs a f) s) (segRead s (implicitSeg a) (srcIndex a s) (StrForm.width a f)) ∧
    FailsAs [] s (exec (.cmps a f) s) (segRead s (implicitSeg a) (srcIndex a s) (StrForm.width a f)) ∧
    FailsAs [] s (exec (.lods a f) s) (segRead s (implicitSeg a) (srcIndex a s) (StrForm.width a f)) ∧
    FailsAs [] s (exec (.scas a f) s) (segRead s .es (dstIndex a s) (StrForm.width a f)) ∧
    FailsAs [] s (exec (.stos a f) s)
      (segWrite s .es (dstIndex a s) (StrForm.width a f) (getReg s (StrForm.width a f) .ax)) ∧
    ∀ v t, segRead s (implicitSeg a) (srcIndex a s) (StrForm.width a f) = .ok v t →
      FailsAs [] s (exec (.movs a f) s) (segWrite t .es (dstIndex a s) (StrForm.width a f) v) ∧
      FailsAs [] s (exec (.cmps a f) s) (segRead t .es (dstIndex a s) (StrForm.width a f)) := by
  have hs := StoresFrame.refl s
  refine ⟨failsAs_repeated a s h (.left _ _) (leaves_segRead hs _ _ _),
    failsAs_repeated a s h (.left _ _) (leaves_segRead hs _ _ _),
    failsAs_repeated a s h (.left _ _) (leaves_segRead hs _ _ _),
    failsAs_repeated a s h (.left _ _) (leaves_segRead hs _ _ _),
    failsAs_repeated a s h (.left _ _) (leaves_segWrite hs _ _ _ _), fun v t ht => ?_⟩
  have hu := storesFrame_of_segRead ht
  exact ⟨failsAs_repeated a s h
      (destination_failsLike a s ht (fun d x s => segWrite s .es d (StrForm.width a f) x) _) (leaves_segWrite hu _ _ _ _),
    failsAs_repeated a s h
      (destination_failsLike a s ht (fun d _ s => segRead s .es d (StrForm.width a f)) _) (leaves_segRead hu _ _ _)⟩

end

/-! ### Every form that makes an access -/

/-- Settles O14: in each rule the named access comes first, or after pieces that answer and store what is listed. -/
theorem accessChecks : Obligations.AccessChecks := by
  refine ⟨fun s r off w v h => access_of_invalid s r off w v h, fun s r off w v h hl => access_above_limit s r off w v h hl,
    fun s r off err h => segFault_protected s r off err h, fun s r off err h => segFault_real s r off err h,
    linear_of_paging, fun a op s t x v h => writeOp_after_readOp v h, fun a s => ?_⟩
  refine ⟨?alu, ?test, ?step, ?unary, ?imul, ?shift, ?xchg, ?extend, ?xlat, ?jmpInd, ?mov, ?moffs, ?movSeg,
    fun c e => setcc_failsAs a s c e, ?words, ?farPointers, ?farJumps, ?loadTables, ?storeTables, ?push, ?pushSeg, ?pusha,
    ?pushf, ?callRel, ?callInd, ?callFar, ?callFarInd, ?pop, ?popMem, ?popSeg, popa_failsAs a s, ?popf, ?returns,
    fun f h => string_failsAs a s f h⟩
  case alu =>
    intro mk f hm
    simp only [List.mem_cons, List.not_mem_nil, or_false] at hm
    rcases hm with rfl | rfl | rfl | rfl | rfl | rfl | rfl | rfl
    · exact failsAs_readOps a s (aluWrite_failsLike a s _ _ _ _)
    · exact failsAs_readOps a s (aluWrite_failsLike a s _ _ _ _)
    · exact failsAs_readOps a s (aluWrite_failsLike a s _ _ _ _)
    · exact failsAs_readOps a s (aluWrite_failsLike a s _ _ _ _)
    · exact failsAs_readOps a s (aluTest_failsLike a s _ _ _)
    · exact failsAs_readOps a s (logicWrite_failsLike a s _ _)
    · exact failsAs_readOps a s (logicWrite_failsLike a s _ _)
    · exact failsAs_readOps a s (logicWrite_failsLike a s _ _)
  case test => exact fun f => failsAs_readOps a s ((aluTest_failsLike a s _ _ _).trans (.left _ _))
  case step =>
    intro mk f hm
    simp only [List.mem_cons, List.not_mem_nil, or_false] at hm
    rcases hm with rfl | rfl <;> exact failsAs_readOp a s (.left _ _)
  case unary =>
    intro mk f hm
    simp only [List.mem_cons, List.not_mem_nil, or_false] at hm
    rcases hm with rfl | rfl | rfl | rfl | rfl | rfl <;> exact failsAs_readOp a s (.left _ _)
  case imul => exact fun f => failsAs_readOps a s (readOps_two a _ _ s _)
  case shift =>
    intro mk f hm
    simp only [List.mem_cons, List.not_mem_nil, or_false] at hm
    rcases hm with rfl | rfl | rfl | rfl | rfl | rfl | rfl <;> exact failsAs_readOps a s (shiftForm_failsLike a s _ _)
  case xchg => exact fun f => failsAs_readOps a s (readOps_two a _ _ s _)
  case extend => exact fun f => ⟨failsAs_readOp a s (.left _ _), failsAs_readOp a s (.left _ _)⟩
  case xlat => exact failsAs_segRead s (.left _ _)
  case jmpInd => exact fun e => failsAs_readOp a s (.left _ _)
  case mov => exact fun f => moveOp_failsAs a s _
  case moffs => exact fun f => moveOp_failsAs a s _
  case movSeg => exact fun e g => ⟨failsAs_writeOp a s (.refl s) (.refl _), failsAs_readOp a s (.left _ _)⟩
  case words =>
    refine fun e => ⟨failsAs_writeOp a s (.refl s) (.refl _), fun hp => ?_, fun hp => ?_, fun hp hc => ?_⟩
    · exact failsAs_readOp a s (.after (privileged_of_may hp) (.left _ _))
    · exact failsAs_writeOp a s (.refl s) (.after (protectedOnly_of_prot hp) (.refl _))
    · exact failsAs_readOp a s
        (.after (protectedOnly_of_prot hp) (.after (privileged_of_may (.inr hc)) (.left _ _)))
  case farPointers =>
    intro mk g m hm
    simp only [List.mem_cons, List.not_mem_nil, or_false] at hm
    rcases hm with rfl | rfl | rfl | rfl | rfl <;> exact failsAs_readParts a s (loadFarPointer_failsLike a s _ _ _)
  case farJumps =>
    intro mk m hm
    simp only [List.mem_cons, List.not_mem_nil, or_false] at hm
    rcases hm with rfl | rfl <;> exact failsAs_readParts a s ((readFar_failsLike a s m).trans (.left _ _))
  case loadTables =>
    intro mk m hm hp
    simp only [List.mem_cons, List.not_mem_nil, or_false] at hm
    rcases hm with rfl | rfl <;>
      exact failsAs_readParts a s (.after (privileged_of_may hp) ((loadTable_failsLike a s m).trans (.left _ _)))
  case storeTables =>
    rintro mk r m (⟨rfl, rfl⟩ | ⟨rfl, rfl⟩) <;> exact storeTable_failsAs a s m _
  case push =>
    refine fun f => ⟨failsAs_readOp a s (.left _ _), fun v t h => ?_⟩
    have hd := readOp_device h
    exact failsInSlots (storesFrame_of_readOp h) (.after h (push_failsLike hd.regs hd.segs _ _))
  case pushSeg => exact fun g => failsInSlots (.refl s) (push_failsLike rfl rfl _ _)
  case pusha => exact pusha_failsInSlots a s
  case pushf =>
    exact fun hv => failsInSlots (storesFrame_touchAllFlags s) (.after (v86Guard_of_may hv) (push_failsLike rfl rfl _ _))
  case callRel => exact fun d => failsInSlots (.refl s) ((push_failsLike rfl rfl _ _).trans (.left _ _))
  case callInd =>
    refine fun e => ⟨failsAs_readOp a s (.left _ _), fun v t h => ?_⟩
    have hd := readOp_device h
    refine failsInSlots (storesFrame_of_readOp h) (.after h ?_)
    rw [← hd.eip]
    exact (push_failsLike hd.regs hd.segs _ _).trans (.left _ _)
  case callFar => exact fun off v => failsInSlots (.refl s) (farCall_failsLike rfl rfl rfl a _ v)
  case callFarInd =>
    intro m x t h
    have hd := readParts_device a s h
    exact failsInSlots hd.readFrame.storesFrame
      (.after (readFar_of_readParts a s h) (farCall_failsLike hd.regs hd.segs hd.eip a _ _))
  case pop => exact fun f => failsAs_segRead s (.left _ _)
  case popMem => exact fun m v t h => failsAs_writeOp a s (storesFrame_of_segRead h) (.after h (.left _ _))
  case popSeg => exact fun g => failsAs_segRead s (.left _ _)
  case popf =>
    refine fun hv => ⟨failsAs_segRead s (.after (v86Guard_of_may hv) ?_), fun hn => ?_⟩
    · exact (FailsLike.left (peek s a.osz 0) _).trans (.left _ _)
    · exact failsAs_peekAll s (returnFromInterrupt_failsLike s a.osz hv hn)
  case returns =>
    exact fun i => ⟨failsAs_segRead s (nearReturn_failsLike a s 0), failsAs_segRead s (nearReturn_failsLike a s i.toNat),
      failsAs_peekAll s (farReturn_failsLike a s 0), failsAs_peekAll s (farReturn_failsLike a s i.toNat)⟩

end Sys2Proof.Machine
end

section
/-! PROOFS. Of 20_memory R92 to R107: what loading a segment register does, and how the instructions that load one end. -/

namespace Sys2Proof.Machine

/-! ### How an instruction ends with a load -/

theorem endsAs_complete (r : Res Unit) : EndsAs (complete r) r id :=
  ⟨fun _ h => by rw [h]; rfl, fun _ _ h => by rw [h]; rfl, fun _ _ h => by rw [h]; rfl⟩

/-- What goes on after the load answers always. -/
theorem endsAs_andThen {r : Res Unit} {f : Unit → State → Res Unit} {g : State → State}
    (h : ∀ t, r = .ok () t → f () t = .ok () (g t)) : EndsAs (complete (r.andThen f)) r g :=
  ⟨fun t e => by rw [e, andThen_ok, h t e]; rfl, fun _ _ e => by rw [e]; rfl, fun _ _ e => by rw [e]; rfl⟩

section
variable {a : Attrs} {s u : State}

/-- MOV to a segment register, once its operand is read (41_data_movement R274). -/
theorem movToSeg_endsAs {e : Rm} {v : Word} (h : readOp a s (rmOp .word e) = .ok v u) (g : SegReg) :
    EndsAs (exec (.movToSeg a g e) s) (loadSeg u g (v.setWidth 16) .jump false) id := by
  show EndsAs (complete ((readOp a s (rmOp .word e)).andThen fun v s => loadSegPlain s g v)) _ _
  rw [h]
  exact endsAs_complete _

/-- POP of a segment register, once its slot is read (R295). -/
theorem popSeg_endsAs {v : Word} (h : peek s a.osz 0 = .ok v u) (g : SegReg) :
    EndsAs (exec (.popSeg a g) s) (loadSeg u g (v.setWidth 16) .jump false) fun t => drop t a.osz.bytes := by
  show EndsAs (complete ((peek s a.osz 0).andThen fun v s =>
    (loadSegPlain s g v).andThen fun _ s => .ok () (drop s a.osz.bytes))) _ _
  rw [h]
  exact endsAs_andThen fun _ _ => rfl

/-- A far-pointer load, once its pointer is read (R299). -/
theorem loadFarPointer_endsAs {m : MemRef} {off : Word} {v : BitVec 16} (h : readFar a s m = .ok (off, v) u) (r : SegReg)
    (g : Reg) : EndsAs (complete (loadFarPointer a r g m s)) (loadSeg u r v .jump false) fun t => setRegSize t a.osz g off := by
  rw [loadFarPointer, h]
  exact endsAs_andThen fun _ _ => rfl

variable (a s)

theorem movToSeg_of_ready {e : Rm} (h : (rmOp .word e).ready a s) (g : SegReg) :
    ∃ v u, readOp a s (rmOp .word e) = .ok v u ∧ ReadFrame s u ∧
      EndsAs (exec (.movToSeg a g e) s) (loadSeg u g (v.setWidth 16) .jump false) id := by
  obtain ⟨v, u, hv, hd⟩ := readOp_ok a s _ h
  exact ⟨v, u, hv, hd.readFrame, movToSeg_endsAs hv g⟩

theorem popSeg_of_ready (h : canFetch s a.osz 0) (g : SegReg) :
    ∃ v u, peek s a.osz 0 = .ok v u ∧ ReadFrame s u ∧
      EndsAs (exec (.popSeg a g) s) (loadSeg u g (v.setWidth 16) .jump false) fun t => drop t a.osz.bytes := by
  obtain ⟨v, u, hv, hd⟩ := peek_ok s a.osz 0 h
  exact ⟨v, u, hv, hd.readFrame, popSeg_endsAs hv g⟩

theorem loadFarPointer_of_ready {m : MemRef} (h : farReady a s m) (r : SegReg) (g : Reg) :
    ∃ off v u, readFar a s m = .ok (off, v) u ∧ ReadFrame s u ∧
      EndsAs (complete (loadFarPointer a r g m s)) (loadSeg u r v .jump false) fun t => setRegSize t a.osz g off := by
  obtain ⟨⟨off, v⟩, u, hv, hd⟩ := readFar_ok a s m h
  exact ⟨off, v, u, hv, hd.readFrame, loadFarPointer_endsAs hv r g⟩

end

/-! ### The frame of a load -/

/-- Writing one segment register, after stores and reads (20_memory R96, R105). -/
theorem segFrame_setSeg {s t : State} (hk : KeepsSystem s t) (hf : keepsFlags s t) (r : SegReg) (g : SegRegister) :
    SegFrame [r] s (setSeg t r g) where
  segs q hq := (getSeg_setSeg_other t r q g (List.ne_of_not_mem_cons hq)).trans (getSeg_congr s t hk.segs q)
  flags := hf
  ldtr := hk.ldtr
  gdtr := hk.gdtr
  idtr := hk.idtr
  ctl := hk.ctl
  dbg := hk.dbg
  cpl := hk.cpl
  a20 := hk.a20
  sched := hk.sched
  inputs := hk.inputs
  cfg := hk.cfg

theorem SegFrame.setEip {rs : List SegReg} {s t : State} (h : SegFrame rs s t) (v : Word) : SegFrame rs s (setEip t v) :=
  ⟨h.segs, h.flags, h.ldtr, h.gdtr, h.idtr, h.ctl, h.dbg, h.cpl, h.a20, h.sched, h.inputs, h.cfg⟩

theorem ReadFrame.refl (s : State) : ReadFrame s s := (DeviceOnly.refl s).readFrame

/-- The mode is read from CR0 and EFLAGS (10_state R45). -/
theorem ReadFrame.isProt {s t : State} (h : ReadFrame s t) : isProt t = isProt s := by
  simp only [Machine.isProt, pe, vmFlag, h.system.ctl, h.flags]

/-! ### Outside protected mode (R96) -/

theorem loadSeg_real {s : State} (h : isProt s = false) (r : SegReg) (v : BitVec 16) (kind : CsKind) (ext : Bool) :
    loadSeg s r v kind ext = .ok () (loadSegReal s r v) := by
  unfold loadSeg
  rw [if_neg (by rw [h]; decide)]

/-- The base is 16 times the value. -/
theorem setWidth_shiftLeft_four (v : BitVec 16) : (v.setWidth 32 <<< 4 : Word) = BitVec.ofNat 32 (v.toNat * 16) := by
  apply BitVec.eq_of_toNat_eq
  simp [Nat.shiftLeft_eq]

theorem getSeg_loadSegReal {s u : State} (h : ReadFrame s u) (r : SegReg) (v : BitVec 16) :
    getSeg (loadSegReal u r v) r =
      ⟨v, { (getSeg s r).cache with base := BitVec.ofNat 32 (v.toNat * 16), present := true, valid := true }⟩ := by
  rw [loadSegReal, getSeg_setSeg_same, getSeg_congr s u h.system.segs, setWidth_shiftLeft_four]

/-- Settles O29: the load answers without a check, so each instruction ends normally. -/
theorem segmentLoadsRealMode : Obligations.SegmentLoadsRealMode := by
  intro a s hs
  have hload : ∀ {u : State}, ReadFrame s u → ∀ g v, loadSeg u g v .jump false = .ok () (loadSegReal u g v) :=
    fun hu g v => loadSeg_real (hu.isProt.trans hs) g v _ _
  refine ⟨fun u g v k e hu => loadSeg_real hu g v k e, fun u g v => rfl, fun u g v hu => ?_, fun g e h => ?_,
    fun g h => ?_, fun g m h => ?_⟩
  · exact ⟨segFrame_setSeg hu.system (keepsFlags_of_flags hu.flags) g _, getSeg_loadSegReal hu g v⟩
  · obtain ⟨v, u, hv, hu, he⟩ := movToSeg_of_ready a s h g
    exact ⟨v, u, hv, hu, he.normal _ (hload hu _ _)⟩
  · obtain ⟨v, u, hv, hu, he⟩ := popSeg_of_ready a s h g
    exact ⟨v, u, hv, hu, he.normal _ (hload hu _ _)⟩
  · obtain ⟨⟨off, v⟩, u, hv, hd⟩ := readFar_ok a s m h
    have hu := hd.readFrame
    have hends := fun r => (loadFarPointer_endsAs hv r g).normal _ (hload hu _ _)
    obtain ⟨⟨o, x⟩, t, hx, ht⟩ := andThen_eq_ok ((readFar_eq_readParts a s m).symm.trans hv)
    cases ht
    exact ⟨o, _, u, hv, hu, ⟨x, hx, rfl⟩, hends .ds, hends .es, hends .ss, hends .fs, hends .gs⟩

/-! ### The selector and its descriptor (R92) -/

theorem selNull_of_eq {v : BitVec 16} (h : v &&& 0xFFFC = 0) : selNull v = true := beq_iff_eq.mpr h

theorem selNull_of_ne {v : BitVec 16} (h : v &&& 0xFFFC ≠ 0) : selNull v = false := beq_eq_false_iff_ne.mpr h

@[simp] theorem selFault_false (v : BitVec 16) : selFault v false = selError v := BitVec.or_zero

theorem selIndex_eq (v : BitVec 16) : selIndex v = v.toNat / 8 := by
  rw [selIndex, BitVec.toNat_ushiftRight, Nat.shiftRight_eq_div_pow]

/-- A selector that names no descriptor raises #GP with the selector as error code. -/
theorem fetchRawDescriptor_outside {s : State} {v : BitVec 16} (h : selectorOutside s v) (ext : Bool) :
    fetchRawDescriptor s v ext = .raised (.gp (selFault v ext)) s := by
  unfold selectorOutside at h
  unfold fetchRawDescriptor tableOf selLocal
  rw [selIndex_eq]
  split at h
  · rename_i hlocal
    rw [if_pos hlocal]
    cases hv : s.ldtr.valid with
    | false => rfl
    | true => exact if_pos (h.resolve_left (by rw [hv]; decide))
  · rename_i hlocal
    rw [if_neg hlocal]
    exact if_pos h

theorem fetchRawDescriptor_frame {s u : State} {v : BitVec 16} {ext : Bool} {x : Descriptor × Word}
    (h : fetchRawDescriptor s v ext = .ok x u) : ReadFrame s u := by
  rcases fetchRawDescriptor_cases s v ext with ⟨d, t, e, f⟩ | ⟨e, g⟩ | ⟨k, t, g, _⟩
  · rw [h] at e
    cases e
    exact f
  · rw [h] at g
    cases g
  · rw [h] at g
    cases g

/-! ### The Accessed bit (R105) -/

theorem StoresFrame.mono {s t : State} {xs ys : List (Option Nat × Width)} (h : StoresFrame xs s t)
    (hs : ∀ p, p ∈ xs → p ∈ ys) : StoresFrame ys s t :=
  ⟨h.regs, keepsMemoryButAll_mono h.memory hs, h.flags, h.eip, h.system⟩

/-- A linear write that answers was one that can be made. -/
theorem linWrite_stored {s t : State} {addr : Word} {w : Width} {v : Word} (h : linWrite s addr w v = .ok () t) :
    Stored s t (bufferHome s addr w) w v := by
  unfold linWrite at h
  split at h
  · cases h
  · cases hm : mapPhysical s addr w with
    | none => rw [memWrite_unmapped s addr w v hm] at h; cases h
    | some x =>
      obtain ⟨u, hu, hs⟩ := memWrite_ok s addr w v (by rw [hm]; rfl)
      rw [h] at hu
      cases hu
      exact hs

section
variable {s t : State} {d : Descriptor} {a : Word}

theorem markAccessed_of_set (h : d.getLsbD 40 = true) : markAccessed s d a = .ok () s := if_pos h

theorem markAccessed_of_clear (h : d.getLsbD 40 = false) :
    markAccessed s d a = linWrite s (a + 5) .byte ((descAccess d ||| 1).setWidth 32) := if_neg (by rw [h]; decide)

/-- Marking a descriptor stores at most its access byte. -/
theorem markAccessed_frame (h : markAccessed s d a = .ok () t) : StoresFrame [(bufferHome s (a + 5) .byte, .byte)] s t := by
  cases hb : d.getLsbD 40 with
  | true =>
    rw [markAccessed_of_set hb] at h
    cases h
    exact (StoresFrame.refl s).mono fun _ hp => absurd hp List.not_mem_nil
  | false =>
    rw [markAccessed_of_clear hb] at h
    exact (linWrite_stored h).storesFrame

end

/-- After the descriptor is read, a load that passed its checks marks it accessed and fills the cache. -/
theorem commitSeg_of_ready {s u : State} (hu : ReadFrame s u) (r : SegReg) (v : BitVec 16) (d : Descriptor) (ad : Word)
    (h : d.getLsbD 40 = true ∨ canAccessLinear s (ad + 5) .byte) :
    ∃ t, commitSeg u r v d ad = .ok () (setSeg t r (loadedSeg v d)) ∧ (d.getLsbD 40 = true → t = u) ∧
      (d.getLsbD 40 = false → linWrite u (ad + 5) .byte ((descAccess d ||| 1).setWidth 32) = .ok () t) ∧
      StoresFrame [(bufferHome s (ad + 5) .byte, .byte)] s t ∧ SegFrame [r] s (setSeg t r (loadedSeg v d)) := by
  have hk := hu.system
  have hmark : ∃ t, markAccessed u d ad = .ok () t := by
    cases hb : d.getLsbD 40 with
    | true => exact ⟨u, markAccessed_of_set hb⟩
    | false =>
      have hc := (canAccessLinear_congr s u hk.a20 hk.cfg hk.registered hk.ctl _ _).mpr (h.resolve_left (by rw [hb]; decide))
      obtain ⟨t, ht, _⟩ := linWrite_ok u _ _ ((descAccess d ||| 1).setWidth 32) hc
      exact ⟨t, (markAccessed_of_clear hb).trans ht⟩
  obtain ⟨t, ht⟩ := hmark
  have hf := hu.storesFrame.trans (markAccessed_frame ht)
  rw [bufferHome_congr s u hk.a20 hk.cfg hk.registered, List.nil_append] at hf
  refine ⟨t, by rw [commitSeg, ht]; rfl, fun hb => ?_, fun hb => (markAccessed_of_clear hb).symm.trans ht, hf,
    segFrame_setSeg hf.system hf.flags r _⟩
  rw [markAccessed_of_set hb] at ht
  cases ht
  rfl

/-! ### The data segment registers (R103) -/

section
variable {s u : State} {r : SegReg} {v : BitVec 16} (hp : isProt s = true) (hc : r ≠ .cs) (hs : r ≠ .ss)
include hp hc hs

theorem loadSeg_data (kind : CsKind) (ext : Bool) : loadSeg s r v kind ext = loadData s r v := by
  unfold loadSeg
  rw [if_pos hp]
  cases r with
  | cs => exact absurd rfl hc
  | ss => exact absurd rfl hs
  | _ => rfl

theorem loadSeg_data_null (hn : v &&& 0xFFFC = 0) (kind : CsKind) (ext : Bool) : loadSeg s r v kind ext =
    .ok () (setSeg s r ⟨v, { (getSeg s r).cache with valid := false }⟩) := by
  rw [loadSeg_data hp hc hs, loadData, if_pos (selNull_of_eq hn)]

/-- A load of a selector that is not null starts with its descriptor. -/
theorem loadSeg_data_of_descriptor (hn : v &&& 0xFFFC ≠ 0) (kind : CsKind) (ext : Bool) : loadSeg s r v kind ext =
    (fetchRawDescriptor s v false).andThen fun da s =>
      if !isReadable da.1 then .raised (.gp (selError v)) s
      else if isExpandDown da.1 then .aborted (.unimplemented .expandDown) s
      else if descDpl da.1 < maxRplCpl s v then .raised (.gp (selError v)) s
      else if !descP da.1 then .raised (.np (selError v)) s
      else commitSeg s r v da.1 da.2 := by
  rw [loadSeg_data hp hc hs, loadData, if_neg (by rw [selNull_of_ne hn]; decide)]

end

theorem lt_maxRplCpl_iff (s : State) (v : BitVec 16) (x : BitVec 2) :
    x < maxRplCpl s v ↔ x < selRpl v ∨ x < s.cpl := by
  unfold maxRplCpl
  simp only [BitVec.lt_def]
  split <;> omega

/-- Settles O30: the load's checks in order, and each instruction ends as the load does. -/
theorem dataSegmentLoads : Obligations.DataSegmentLoads := by
  refine ⟨fun a s => ⟨fun g e _ _ h => movToSeg_of_ready a s h g, fun g _ _ h => popSeg_of_ready a s h g, ?_⟩,
    fun s r v hc hs => ⟨(failsReading_loadSeg s r v _ _).raised, (failsReading_loadSeg s r v _ _).aborted, ?_⟩,
    fun s r v hp hc hs => ⟨fun hn => loadSeg_data_null hp hc hs hn _ _, ?_, ?_⟩⟩
  · intro mk g q m hm h
    simp only [List.mem_cons, Prod.mk.injEq, List.not_mem_nil, or_false] at hm
    rcases hm with ⟨rfl, rfl⟩ | ⟨rfl, rfl⟩ | ⟨rfl, rfl⟩ | ⟨rfl, rfl⟩ <;> exact loadFarPointer_of_ready a s h _ g
  · intro hp hn k t hk
    rw [loadSeg_data_of_descriptor hp hc hs hn, hk, andThen_aborted]
  · intro hn ho
    rw [loadSeg_data_of_descriptor hp hc hs hn, fetchRawDescriptor_outside ho, andThen_raised, selFault_false]
  · intro d ad u hn hd
    have hu := fetchRawDescriptor_frame hd
    rw [loadSeg_data_of_descriptor hp hc hs hn, hd, andThen_ok]
    simp only [lt_maxRplCpl_iff, hu.system.cpl]
    have hpriv : selRpl v ≤ descDpl d → s.cpl ≤ descDpl d → ¬(descDpl d < selRpl v ∨ descDpl d < s.cpl) :=
      fun h1 h2 => not_or.mpr ⟨BitVec.not_lt.mpr h1, BitVec.not_lt.mpr h2⟩
    refine ⟨fun h1 => ?_, fun h1 h2 => ?_, fun h1 h2 h3 => ?_, fun h1 h2 h3 h4 h5 => ?_, fun h1 h2 h3 h4 h5 hw => ?_⟩
    · simp [h1]
    · simp [h1, h2]
    · simp [h1, h2, h3]
    · simp [h1, h2, hpriv h3 h4, h5]
    · simp only [h1, h2, hpriv h3 h4, h5, Bool.not_true, Bool.false_eq_true, if_false]
      exact commitSeg_of_ready hu r v d ad (.inr hw)

/-! ### SS (R101) -/

section
variable {s : State} {v : BitVec 16} (hp : isProt s = true)
include hp

theorem loadSeg_ss (kind : CsKind) (ext : Bool) : loadSeg s .ss v kind ext = loadSs s v := by
  unfold loadSeg
  rw [if_pos hp]

theorem loadSeg_ss_null (hn : v &&& 0xFFFC = 0) (kind : CsKind) (ext : Bool) :
    loadSeg s .ss v kind ext = .raised (.gp 0) s := by
  rw [loadSeg_ss hp, loadSs, if_pos (selNull_of_eq hn)]

theorem loadSeg_ss_of_rpl_ne (hn : v &&& 0xFFFC ≠ 0) (hr : selRpl v ≠ s.cpl) (kind : CsKind) (ext : Bool) :
    loadSeg s .ss v kind ext = .raised (.gp (selError v)) s := by
  rw [loadSeg_ss hp, loadSs, if_neg (by rw [selNull_of_ne hn]; decide), if_pos hr]

/-- A load of a selector that passes both checks of the selector goes on with its descriptor. -/
theorem loadSeg_ss_of_descriptor (hn : v &&& 0xFFFC ≠ 0) (hr : selRpl v = s.cpl) (kind : CsKind) (ext : Bool) :
    loadSeg s .ss v kind ext = (fetchRawDescriptor s v false).andThen fun da s =>
      if !isWritable da.1 then .raised (.gp (selError v)) s
      else if isExpandDown da.1 then .aborted (.unimplemented .expandDown) s
      else if descDpl da.1 ≠ s.cpl then .raised (.gp (selError v)) s
      else if !descP da.1 then .raised (.ss (selError v)) s
      else commitSeg s .ss v da.1 da.2 := by
  rw [loadSeg_ss hp, loadSs, if_neg (by rw [selNull_of_ne hn]; decide), if_neg (not_not.mpr hr)]

end

/-- Settles O31: the load's checks in order, and each instruction ends as the load does. -/
theorem stackSegmentLoads : Obligations.StackSegmentLoads := by
  refine ⟨fun a s => ⟨fun e h => movToSeg_of_ready a s h .ss, fun h => popSeg_of_ready a s h .ss,
    fun g m h => loadFarPointer_of_ready a s h .ss g⟩,
    fun s v => ⟨(failsReading_loadSeg s .ss v _ _).raised, (failsReading_loadSeg s .ss v _ _).aborted, ?_⟩,
    fun s v hp => ⟨fun hn => loadSeg_ss_null hp hn _ _, fun hn hr => loadSeg_ss_of_rpl_ne hp hn hr _ _, ?_, ?_⟩⟩
  · intro hp hn hr k t hk
    rw [loadSeg_ss_of_descriptor hp hn hr, hk, andThen_aborted]
  · intro hn ho
    by_cases hr : selRpl v = s.cpl
    · rw [loadSeg_ss_of_descriptor hp hn hr, fetchRawDescriptor_outside ho, andThen_raised, selFault_false]
    · exact loadSeg_ss_of_rpl_ne hp hn hr _ _
  · intro d ad u hn hr hd
    have hu := fetchRawDescriptor_frame hd
    rw [loadSeg_ss_of_descriptor hp hn hr, hd, andThen_ok]
    simp only [hu.system.cpl]
    refine ⟨fun h1 => ?_, fun h1 h2 => ?_, fun h1 h2 h3 => ?_, fun h1 h2 h3 h4 => ?_, fun h1 h2 h3 h4 => ?_, hu.system.segs⟩
    · simp [h1]
    · simp [h1, h2]
    · simp [h1, h2, h3]
    · simp [h1, h2, h3, h4]
    · simp only [h1, h2, h3, h4, ne_eq, not_true_eq_false, Bool.not_true, Bool.false_eq_true, if_false]
      refine ⟨fun hb => ?_, fun hb hw => ?_⟩
      · obtain ⟨t, ht, hset, _⟩ := commitSeg_of_ready hu .ss v d ad (.inl hb)
        rw [ht, hset hb]
      · obtain ⟨t, ht, _, hclear, hframe⟩ := commitSeg_of_ready hu .ss v d ad (.inr hw)
        exact ⟨t, hclear hb, ht, hframe⟩

end Sys2Proof.Machine
end

section
/-! PROOFS. Of 20_memory R107 and R108: what loading CS does, and how far JMP, CALL, RET and IRET end. -/

namespace Sys2Proof.Machine

/-! ### The privilege rules (R107) -/

section
variable {s : State} {v : BitVec 16} {d : Descriptor} {kind : CsKind} (err : Word)

theorem csAllowed_congr {t : State} (h : t.cpl = s.cpl) : csAllowed t v d kind ↔ csAllowed s v d kind := by
  cases kind <;> simp only [csAllowed, h]

theorem csPrivilege_of_allowed (h : csAllowed s v d kind) : csPrivilege s v d kind err = .ok () s := by
  cases kind with
  | jump => cases hc : isConforming d <;> simpa [csAllowed, csPrivilege, raiseIf, hc] using h
  | ret =>
    obtain ⟨hr, h⟩ := h
    cases hc : isConforming d <;> simpa [csPrivilege, raiseIf, abortIf, hr, hc] using h
  | int =>
    cases hc : isConforming d
    · have h : descDpl d = s.cpl := by simpa [csAllowed, hc] using h
      simp [csPrivilege, raiseIf, abortIf, h]
    · have h : ¬ s.cpl < descDpl d := by simpa [csAllowed, hc] using h
      simp [csPrivilege, raiseIf, abortIf, h, hc]

/-- A return to an outer level. -/
theorem csPrivilege_outer (h : s.cpl < selRpl v) :
    csPrivilege s v d .ret err = .aborted (.unimplemented .returnToOuterLevel) s := by
  have hlt : ¬ selRpl v < s.cpl := BitVec.not_lt.mpr (BitVec.le_of_lt h)
  simp [csPrivilege, raiseIf, abortIf, hlt, h]

/-- A delivery to an inner level. -/
theorem csPrivilege_inner (hc : isConforming d = false) (h : descDpl d < s.cpl) :
    csPrivilege s v d .int err = .aborted (.unimplemented .interLevelInterrupt) s := by
  have hlt : ¬ s.cpl < descDpl d := BitVec.not_lt.mpr (BitVec.le_of_lt h)
  simp [csPrivilege, raiseIf, abortIf, hlt, h, hc]

/-- Any other breach of the rule. -/
theorem csPrivilege_refused (h : ¬csAllowed s v d kind) (ho : ¬(kind = .ret ∧ s.cpl < selRpl v))
    (hi : ¬(kind = .int ∧ isConforming d = false ∧ descDpl d < s.cpl)) :
    csPrivilege s v d kind err = .raised (.gp err) s := by
  cases kind with
  | jump =>
    cases hc : isConforming d
    · have h : s.cpl < selRpl v ∨ descDpl d ≠ s.cpl := by
        simpa only [csAllowed, hc, Bool.false_eq_true, if_false, not_and_or, BitVec.not_le] using h
      simp [csPrivilege, raiseIf, hc, h]
    · have h : s.cpl < descDpl d := by simpa [csAllowed, hc] using h
      simp [csPrivilege, raiseIf, hc, h]
  | ret =>
    have ho : ¬ s.cpl < selRpl v := fun h => ho ⟨rfl, h⟩
    by_cases hl : selRpl v < s.cpl
    · simp [csPrivilege, raiseIf, hl]
    · have hr : selRpl v = s.cpl := BitVec.le_antisymm (BitVec.not_lt.mp ho) (BitVec.not_lt.mp hl)
      cases hc : isConforming d
      · have h : descDpl d ≠ selRpl v := by simpa [csAllowed, hc, hr] using h
        simp [csPrivilege, raiseIf, abortIf, hl, ho, hc, h]
      · have h : selRpl v < descDpl d := by simpa [csAllowed, hc, hr] using h
        simp [csPrivilege, raiseIf, abortIf, hl, ho, hc, h]
  | int =>
    have h : s.cpl < descDpl d := by
      cases hc : isConforming d
      · have h : descDpl d ≠ s.cpl := by simpa [csAllowed, hc] using h
        have hi : ¬ descDpl d < s.cpl := fun hl => hi ⟨rfl, hc, hl⟩
        exact BitVec.lt_of_le_ne (BitVec.not_lt.mp hi) h.symm
      · simpa [csAllowed, hc] using h
    simp [csPrivilege, raiseIf, h]

end

/-! ### The load (R107, R108) -/

theorem descS_of_isCode {d : Descriptor} (h : isCode d = true) : descS d = true := by
  rw [isCode, Bool.and_eq_true] at h
  exact h.1

section
variable {s : State} {v : BitVec 16} {kind : CsKind} {ext : Bool} (hp : isProt s = true)
include hp

theorem loadSeg_cs : loadSeg s .cs v kind ext = loadCs s v kind ext := by
  unfold loadSeg
  rw [if_pos hp]

theorem loadSeg_cs_null (hn : v &&& 0xFFFC = 0) : loadSeg s .cs v kind ext = .raised (.gp (extBit ext)) s := by
  rw [loadSeg_cs hp, loadCs, if_pos (selNull_of_eq hn)]

/-- A load of a selector that is not null goes on with its descriptor. -/
theorem loadSeg_cs_of_descriptor (hn : v &&& 0xFFFC ≠ 0) : loadSeg s .cs v kind ext =
    (fetchRawDescriptor s v ext).andThen fun da s =>
      if !descS da.1 then .aborted (.unimplemented (.gateOrTask (descType da.1))) s
      else if !isCode da.1 then .raised (.gp (selFault v ext)) s
      else (csPrivilege s v da.1 kind (selFault v ext)).andThen fun _ s =>
        if !descP da.1 then .raised (.np (selFault v ext)) s
        else (commitSeg s .cs (csSelector s v) da.1 da.2).andThen fun _ s =>
          .ok () (setCpl s (selRpl (getSeg s .cs).value)) := by
  rw [loadSeg_cs hp, loadCs, if_neg (by rw [selNull_of_ne hn]; decide)]

theorem loadSeg_cs_of_aborted (hn : v &&& 0xFFFC ≠ 0) {k : AbortInfo} {t : State}
    (h : fetchRawDescriptor s v ext = .aborted k t) : loadSeg s .cs v kind ext = .aborted k t := by
  rw [loadSeg_cs_of_descriptor hp hn, h, andThen_aborted]

theorem loadSeg_cs_outside (hn : v &&& 0xFFFC ≠ 0) (h : selectorOutside s v) :
    loadSeg s .cs v kind ext = .raised (.gp (selFault v ext)) s := by
  rw [loadSeg_cs_of_descriptor hp hn, fetchRawDescriptor_outside h, andThen_raised]

section
variable {d : Descriptor} {ad : Word} {u : State} (hn : v &&& 0xFFFC ≠ 0)
  (hd : fetchRawDescriptor s v ext = .ok (d, ad) u)
include hn hd

theorem loadSeg_cs_system (h : descS d = false) :
    loadSeg s .cs v kind ext = .aborted (.unimplemented (.gateOrTask (descType d))) u := by
  rw [loadSeg_cs_of_descriptor hp hn, hd, andThen_ok, if_pos (by rw [h]; rfl)]

theorem loadSeg_cs_not_code (h : descS d = true) (hc : isCode d = false) :
    loadSeg s .cs v kind ext = .raised (.gp (selFault v ext)) u := by
  rw [loadSeg_cs_of_descriptor hp hn, hd, andThen_ok, if_neg (by rw [h]; decide),
    if_pos (by rw [hc]; rfl)]

/-- A code segment is loaded as the privilege rules say, then as it is present or not. -/
theorem loadSeg_cs_code (hc : isCode d = true) : loadSeg s .cs v kind ext =
    (csPrivilege u v d kind (selFault v ext)).andThen fun _ s =>
      if !descP d then .raised (.np (selFault v ext)) s
      else (commitSeg s .cs (csSelector s v) d ad).andThen fun _ s =>
        .ok () (setCpl s (selRpl (getSeg s .cs).value)) := by
  rw [loadSeg_cs_of_descriptor hp hn, hd, andThen_ok,
    if_neg (by rw [descS_of_isCode hc]; decide), if_neg (by rw [hc]; decide)]

theorem loadSeg_cs_absent (hc : isCode d = true) (ha : csAllowed s v d kind) (h : descP d = false) :
    loadSeg s .cs v kind ext = .raised (.np (selFault v ext)) u := by
  have ha := (csAllowed_congr (fetchRawDescriptor_frame hd).system.cpl).mpr ha
  rw [loadSeg_cs_code hp hn hd hc, csPrivilege_of_allowed _ ha, andThen_ok, if_pos (by rw [h]; rfl)]

/-- A load that passes changes CS alone: CPL is the level of the stored selector already. -/
theorem loadSeg_cs_present (hc : isCode d = true) (ha : csAllowed s v d kind) (h : descP d = true)
    (hw : canAccessLinear s (ad + 5) .byte) :
    ∃ t, loadSeg s .cs v kind ext = .ok () (setSeg t .cs (loadedSeg (csSelector s v) d)) ∧ (d.getLsbD 40 = true → t = u) ∧
      (d.getLsbD 40 = false → linWrite u (ad + 5) .byte ((descAccess d ||| 1).setWidth 32) = .ok () t) ∧
      StoresFrame [(bufferHome s (ad + 5) .byte, .byte)] s t ∧
      SegFrame [.cs] s (setSeg t .cs (loadedSeg (csSelector s v) d)) := by
  have hu := fetchRawDescriptor_frame hd
  have hsel : csSelector u v = csSelector s v := by rw [csSelector, csSelector, hu.system.cpl]
  obtain ⟨t, ht, hset, hclear, hf, hsegs⟩ := commitSeg_of_ready hu .cs (csSelector s v) d ad (.inr hw)
  refine ⟨t, ?_, hset, hclear, hf, hsegs⟩
  rw [loadSeg_cs_code hp hn hd hc, csPrivilege_of_allowed _ ((csAllowed_congr hu.system.cpl).mpr ha), andThen_ok,
    if_neg (by rw [h]; decide), hsel, ht, andThen_ok, getSeg_setSeg_same, show (loadedSeg (csSelector s v) d).value =
    csSelector s v from rfl, selRpl_csSelector, ← hf.system.cpl]
  rfl

end

end

theorem commitSeg_keeps {s t : State} {r : SegReg} {v : BitVec 16} {d : Descriptor} {a : Word}
    (h : commitSeg s r v d a = .ok () t) : t.regs = s.regs ∧ ∀ q, q ≠ r → getSeg t q = getSeg s q := by
  obtain ⟨_, u, hm, h⟩ := andThen_eq_ok h
  cases h
  have hf := markAccessed_frame hm
  exact ⟨hf.regs, fun q hq => (getSeg_setSeg_other u r q _ hq).trans (getSeg_congr s u hf.system.segs q)⟩

/-- Loading CS leaves the general registers and SS alone (R107). -/
theorem loadSeg_cs_keeps_stack {s t : State} {v : BitVec 16} {kind : CsKind} {ext : Bool}
    (h : loadSeg s .cs v kind ext = .ok () t) : t.regs = s.regs ∧ getSeg t .ss = getSeg s .ss := by
  cases hp : isProt s with
  | false =>
    rw [loadSeg_real hp] at h
    cases h
    exact ⟨rfl, rfl⟩
  | true =>
    have hn : v &&& 0xFFFC ≠ 0 := fun e => by rw [loadSeg_cs_null hp e] at h; cases h
    rw [loadSeg_cs_of_descriptor hp hn] at h
    obtain ⟨d, u, hd, h⟩ := andThen_eq_ok h
    have hu := fetchRawDescriptor_frame hd
    split at h
    · cases h
    · split at h
      · cases h
      · obtain ⟨_, x, hx, h⟩ := andThen_eq_ok h
        rw [csPrivilege_state hx] at h
        split at h
        · cases h
        · obtain ⟨_, y, hy, h⟩ := andThen_eq_ok h
          cases h
          obtain ⟨hregs, hsegs⟩ := commitSeg_keeps hy
          exact ⟨hregs.trans hu.regs, (hsegs .ss (by decide)).trans (getSeg_congr s u hu.system.segs .ss)⟩

/-! ### Far transfers (45_control_transfer R433 to R468) -/

/-- An instruction that ends with a far transfer ends as its CS load does. -/
theorem farTransfer_endsAs {s : State} {sel : BitVec 16} {off : Word} {kind : CsKind} {f : Unit → State → Res Unit}
    {g : State → State} (h : ∀ t, loadSeg s .cs sel kind false = .ok () t → f () (setEip t off) = .ok () (g t)) :
    EndsAs (complete ((farTransfer s sel off kind).andThen f)) (loadSeg s .cs sel kind false) g := by
  rw [farTransfer, andThen_assoc]
  exact endsAs_andThen h

section
variable (a : Attrs) (s : State)

theorem jmpFar_endsAs (off : Word) (v : BitVec 16) :
    EndsAs (exec (.jmpFar a off v) s) (loadSeg s .cs v .jump false) fun t => setEip t (truncSize a.osz off) :=
  endsAs_andThen fun _ _ => rfl

theorem jmpFarInd_of_ready {m : MemRef} (h : farReady a s m) : ∃ off v u, readFar a s m = .ok (off, v) u ∧ ReadFrame s u ∧
    EndsAs (exec (.jmpFarInd a m) s) (loadSeg u .cs v .jump false) fun t => setEip t off := by
  obtain ⟨⟨off, v⟩, u, hv, hd⟩ := readFar_ok a s m h
  refine ⟨off, v, u, hv, hd.readFrame, ?_⟩
  show EndsAs (complete ((readFar a s m).andThen fun p s => farTransfer s p.2 p.1 .jump)) _ _
  rw [hv]
  exact endsAs_andThen fun _ _ => rfl

/-- The stack slots are where the general registers and SS say (41_data_movement R290). -/
theorem slotBelow_of_stack {s t : State} (hr : t.regs = s.regs) (hg : getSeg t .ss = getSeg s .ss) (k : Nat) :
    slotBelow t k = slotBelow s k := by
  have hbig : stackBig t = stackBig s := congrArg (fun g => g.cache.big) hg
  simp only [slotBelow, wrapSp, stackPtr, hbig, reg32_congr s t hr, getReg_congr s t hr]

/-- A far call once its two slots are stored: the pointer moves after the load (R458). -/
theorem farCall_endsAs {r u t : State} {a : Attrs} {off : Word} {v : BitVec 16}
    (h1 : segWrite r .ss (slotBelow r a.osz.bytes) a.osz.width ((getSeg r .cs).value.setWidth 32) = .ok () u)
    (h2 : segWrite u .ss (slotBelow r (2 * a.osz.bytes)) a.osz.width r.eip = .ok () t) :
    EndsAs (complete (farCall a off v r)) (loadSeg t .cs v .jump false) fun w =>
      setEip (setStackPtr w (slotBelow r (2 * a.osz.bytes))) off := by
  have hu := segWrite_stored h1
  have ht := segWrite_stored h2
  rw [farCall, h1, andThen_ok, slotBelow_congr r u hu.regs hu.segs, hu.eip, h2, andThen_ok]
  refine farTransfer_endsAs fun w hw => ?_
  obtain ⟨hregs, hss⟩ := loadSeg_cs_keeps_stack hw
  have hslot : slotBelow (setEip w off) (2 * a.osz.bytes) = slotBelow r (2 * a.osz.bytes) :=
    slotBelow_of_stack ((hregs.trans ht.regs).trans hu.regs)
      ((hss.trans (getSeg_congr u t ht.segs .ss)).trans (getSeg_congr r u hu.segs .ss)) _
  rw [hslot]
  rfl

/-- The two slots of a far call can be stored from any state `r` that reading has led to. -/
theorem farCall_of_ready {s r : State} (hr : ReadFrame s r) (h1 : canStore s a.osz a.osz.bytes)
    (h2 : canStore s a.osz (2 * a.osz.bytes)) (off : Word) (v : BitVec 16) : ∃ u t,
      segWrite r .ss (slotBelow s a.osz.bytes) a.osz.width ((getSeg s .cs).value.setWidth 32) = .ok () u ∧
      segWrite u .ss (slotBelow s (2 * a.osz.bytes)) a.osz.width s.eip = .ok () t ∧
      StoresFrame [(storeHome s .ss (slotBelow s a.osz.bytes) a.osz.width, a.osz.width),
        (storeHome s .ss (slotBelow s (2 * a.osz.bytes)) a.osz.width, a.osz.width)] s t ∧
      EndsAs (complete (farCall a off v r)) (loadSeg t .cs v .jump false) fun w =>
        setEip (setStackPtr w (slotBelow s (2 * a.osz.bytes))) off := by
  have hslot := slotBelow_congr s r hr.regs hr.system.segs
  obtain ⟨u, hu, su⟩ := segWrite_ok r .ss (slotBelow s a.osz.bytes) a.osz.width ((getSeg s .cs).value.setWidth 32)
    ((canAccess_of_system hr.system _ _ _).mpr h1)
  have hk := hr.system.trans su.keepsSystem
  obtain ⟨t, ht, st⟩ := segWrite_ok u .ss (slotBelow s (2 * a.osz.bytes)) a.osz.width s.eip
    ((canAccess_of_system hk _ _ _).mpr h2)
  have hf := (hr.storesFrame.trans su.storesFrame).trans st.storesFrame
  rw [storeHome_of_system hr.system, storeHome_of_system hk] at hf
  refine ⟨u, t, hu, ht, hf, ?_⟩
  rw [← hslot, ← getSeg_congr s r hr.system.segs] at hu
  rw [← hslot, ← hr.eip] at ht
  rw [← hslot]
  exact farCall_endsAs hu ht

theorem callFarInd_of_ready {m : MemRef} (h1 : canStore s a.osz a.osz.bytes) (h2 : canStore s a.osz (2 * a.osz.bytes))
    (h : farReady a s m) : ∃ off v r u t, readFar a s m = .ok (off, v) r ∧
      segWrite r .ss (slotBelow s a.osz.bytes) a.osz.width ((getSeg s .cs).value.setWidth 32) = .ok () u ∧
      segWrite u .ss (slotBelow s (2 * a.osz.bytes)) a.osz.width s.eip = .ok () t ∧
      StoresFrame [(storeHome s .ss (slotBelow s a.osz.bytes) a.osz.width, a.osz.width),
        (storeHome s .ss (slotBelow s (2 * a.osz.bytes)) a.osz.width, a.osz.width)] s t ∧
      EndsAs (exec (.callFarInd a m) s) (loadSeg t .cs v .jump false) fun w =>
        setEip (setStackPtr w (slotBelow s (2 * a.osz.bytes))) off := by
  obtain ⟨⟨off, v⟩, r, hv, hd⟩ := readFar_ok a s m h
  obtain ⟨u, t, hu, ht, hf, he⟩ := farCall_of_ready a hd.readFrame h1 h2 off v
  refine ⟨off, v, r, u, t, hv, hu, ht, hf, ?_⟩
  show EndsAs (complete ((readFar a s m).andThen fun p s => farCall a p.1 p.2 s)) _ _
  rw [hv]
  exact he

/-- A far return, once its two slots are read (R462, R463). -/
theorem farReturn_of_ready (h1 : canFetch s a.osz 0) (h2 : canFetch s a.osz a.osz.bytes) : ∃ off sel u t,
    peek s a.osz 0 = .ok off u ∧ peek u a.osz a.osz.bytes = .ok sel t ∧ ReadFrame s t ∧
      ∀ k, EndsAs (complete (farReturn a k s)) (loadSeg t .cs (sel.setWidth 16) .ret false) fun w =>
        drop (setEip w off) (2 * a.osz.bytes + k) := by
  obtain ⟨off, u, hu, du⟩ := peek_ok s a.osz 0 h1
  obtain ⟨sel, t, ht, dt⟩ := peek_ok u a.osz a.osz.bytes ((du.canFetch _ _).mpr h2)
  refine ⟨off, sel, u, t, hu, ht, (du.trans dt).readFrame, fun k => ?_⟩
  rw [farReturn, hu, andThen_ok, ht, andThen_ok]
  exact farTransfer_endsAs fun _ _ => rfl

end

/-! ### IRET (R466) -/

theorem mayV86_of_prot {s : State} (h : isProt s = true) : mayV86 s := by
  simp only [isProt, Bool.and_eq_true, Bool.not_eq_true'] at h
  obtain ⟨_, hvm⟩ := h
  exact .inl (by rw [isV86, hvm, Bool.and_false])

theorem iret_nested {a : Attrs} {s : State} (hp : isProt s = true) (hn : plainFlag s ntPos = true) :
    exec (.iret a) s = .next (abortState s (.unimplemented .taskReturn)) := by
  show complete (returnFromInterrupt s a.osz) = _
  rw [returnFromInterrupt, v86Guard_of_may (mayV86_of_prot hp), andThen_ok, hp, hn]
  rfl

/-- IRET past its guards, once its three slots are read. -/
theorem returnFromInterrupt_of_slots {s s1 s2 s3 : State} {sz : Size} {off sel f : Word} (hp : isProt s = true)
    (hn : plainFlag s ntPos = false) (h1 : peek s sz 0 = .ok off s1) (h2 : peek s1 sz sz.bytes = .ok sel s2)
    (h3 : peek s2 sz (2 * sz.bytes) = .ok f s3) : returnFromInterrupt s sz =
      (abortIf (isProt s3 && decide (sz = .s32) && f.getLsbD 17) (.unimplemented .returnToV8086) s3).andThen fun _ s =>
        (farTransfer s (sel.setWidth 16) off .ret).andThen fun _ t =>
          .ok () (writeFlags (drop t (3 * sz.bytes)) f (iretMask s sz)) := by
  rw [returnFromInterrupt, v86Guard_of_may (mayV86_of_prot hp), andThen_ok,
    abortIf_false (by rw [hn, Bool.and_false]), andThen_ok, h1, andThen_ok, h2, andThen_ok, h3, andThen_ok]

/-- The bits IRET loads depend on the mode, CPL and IOPL. -/
theorem ReadFrame.iretMask {s t : State} (h : ReadFrame s t) (sz : Size) : iretMask t sz = iretMask s sz := by
  have hreal : isReal t = isReal s := by simp only [isReal, pe, h.system.ctl]
  have hiopl : iopl t = iopl s := by simp only [iopl, h.flags]
  simp only [Machine.iretMask, loadableFlags, hreal, hiopl, h.system.cpl]

theorem iret_of_ready (a : Attrs) {s : State} (hp : isProt s = true) (hn : plainFlag s ntPos = false)
    (h1 : canFetch s a.osz 0) (h2 : canFetch s a.osz a.osz.bytes) (h3 : canFetch s a.osz (2 * a.osz.bytes)) :
    ∃ off sel f s1 s2 s3, peek s a.osz 0 = .ok off s1 ∧ peek s1 a.osz a.osz.bytes = .ok sel s2 ∧
      peek s2 a.osz (2 * a.osz.bytes) = .ok f s3 ∧ ReadFrame s s3 ∧
      (a.osz = .s32 → f.getLsbD 17 = true →
        exec (.iret a) s = .next (abortState s3 (.unimplemented .returnToV8086))) ∧
      ((a.osz = .s16 ∨ f.getLsbD 17 = false) →
        EndsAs (exec (.iret a) s) (loadSeg s3 .cs (sel.setWidth 16) .ret false) fun w =>
          writeFlags (drop (setEip w off) (3 * a.osz.bytes)) f (Machine.iretMask s a.osz)) := by
  obtain ⟨off, s1, e1, d1⟩ := peek_ok s a.osz 0 h1
  obtain ⟨sel, s2, e2, d2⟩ := peek_ok s1 a.osz a.osz.bytes ((d1.canFetch _ _).mpr h2)
  obtain ⟨f, s3, e3, d3⟩ := peek_ok s2 a.osz (2 * a.osz.bytes) (((d1.trans d2).canFetch _ _).mpr h3)
  have hf := ((d1.trans d2).trans d3).readFrame
  have hret : exec (.iret a) s = complete _ := congrArg complete (returnFromInterrupt_of_slots hp hn e1 e2 e3)
  refine ⟨off, sel, f, s1, s2, s3, e1, e2, e3, hf, fun hs hv => ?_, fun hv => ?_⟩
  · rw [hret, hf.isProt, hp, hs, hv]
    rfl
  · have hc : (isProt s3 && decide (a.osz = .s32) && f.getLsbD 17) = false := by
      rcases hv with hv | hv
      · simp [hv]
      · rw [hv, Bool.and_false]
    rw [hret, abortIf_false hc, andThen_ok, hf.iretMask]
    exact farTransfer_endsAs fun _ _ => rfl

/-! ### The whole load, and a far jump through it -/

/-- The load's checks in order (R92, R105, R107). -/
theorem loadSeg_cs_checks {s : State} {v : BitVec 16} {kind : CsKind} {ext : Bool} {d : Descriptor} {ad : Word}
    {u : State} (hp : isProt s = true) (hn : v &&& 0xFFFC ≠ 0) (hd : fetchRawDescriptor s v ext = .ok (d, ad) u) :
    (isCode d = true → kind = .ret → s.cpl < selRpl v →
      loadSeg s .cs v kind ext = .aborted (.unimplemented .returnToOuterLevel) u) ∧
    (isCode d = true → kind = .int → isConforming d = false → descDpl d < s.cpl →
      loadSeg s .cs v kind ext = .aborted (.unimplemented .interLevelInterrupt) u) ∧
    (isCode d = true → ¬csAllowed s v d kind → ¬(kind = .ret ∧ s.cpl < selRpl v) →
      ¬(kind = .int ∧ isConforming d = false ∧ descDpl d < s.cpl) →
      loadSeg s .cs v kind ext = .raised (.gp (selFault v ext)) u) := by
  have hu := fetchRawDescriptor_frame hd
  have hcpl := hu.system.cpl
  refine ⟨?_, ?_, fun hc ha ho hi => ?_⟩
  · rintro hc rfl hr
    rw [loadSeg_cs_code hp hn hd hc, csPrivilege_outer _ (by rwa [hcpl]), andThen_aborted]
  · rintro hc rfl hf hr
    rw [loadSeg_cs_code hp hn hd hc, csPrivilege_inner _ hf (by rwa [hcpl]), andThen_aborted]
  · rw [← hcpl] at ho hi
    rw [loadSeg_cs_code hp hn hd hc, csPrivilege_refused _ (mt (csAllowed_congr hcpl).mp ha) ho hi, andThen_raised]

/-- Settles O32: the load's checks in order, and each far transfer ends as the load does. -/
theorem codeSegmentLoads : Obligations.CodeSegmentLoads := by
  refine ⟨fun s v kind ext hp => ⟨fun hn => loadSeg_cs_null hp hn, fun hn ho => loadSeg_cs_outside hp hn ho,
      (failsReading_loadSeg s .cs v kind ext).raised, (failsReading_loadSeg s .cs v kind ext).aborted,
      fun hn k t hk => loadSeg_cs_of_aborted hp hn hk, fun d ad u hn hd => ?load⟩,
    fun a s hp => ⟨fun off v => jmpFar_endsAs a s off v, fun m h => jmpFarInd_of_ready a s h, fun h1 h2 => ?call,
      fun h1 h2 => ?ret, fun hn => iret_nested hp hn, fun hn h1 h2 h3 => iret_of_ready a hp hn h1 h2 h3⟩,
    fun a s off v d ad u hp hn hd => ?jump⟩
  case load =>
    obtain ⟨houter, hinner, hrefused⟩ := loadSeg_cs_checks hp hn hd
    exact ⟨fun h => loadSeg_cs_system hp hn hd h, fun h hc => loadSeg_cs_not_code hp hn hd h hc, houter, hinner, hrefused,
      fun hc ha h => loadSeg_cs_absent hp hn hd hc ha h, fun hc ha h hw => loadSeg_cs_present hp hn hd hc ha h hw⟩
  case call =>
    exact ⟨fun off v => farCall_of_ready a (.refl s) h1 h2 (truncSize a.osz off) v,
      fun m h => callFarInd_of_ready a s h1 h2 h⟩
  case ret =>
    obtain ⟨off, sel, u, t, hu, ht, hf, he⟩ := farReturn_of_ready a s h1 h2
    exact ⟨off, sel, u, t, hu, ht, hf, he 0, fun i => he i.toNat⟩
  case jump =>
    have he := jmpFar_endsAs a s off v
    refine ⟨fun h => he.aborted _ _ (loadSeg_cs_system hp hn hd h), fun h hc => ?_, fun hc ha h => ?_,
      fun hc ha h hw => ?_⟩
    · rw [← selFault_false]
      exact he.raised _ _ (loadSeg_cs_not_code hp hn hd h hc)
    · rw [← selFault_false]
      exact he.raised _ _ (loadSeg_cs_absent hp hn hd hc ha h)
    · obtain ⟨t, ht, hset, _, hf, hsegs⟩ := loadSeg_cs_present hp hn hd hc ha h hw
      refine ⟨_, he.normal _ ht, rfl, hf.system.cpl, rfl, rfl, hf.regs, hsegs.setEip _, fun x hx => ?_, fun hb => ?_⟩
      · exact hf.memory x fun p hm b hb => by
          rw [List.mem_singleton.mp hm] at hb
          rw [List.mem_singleton.mp hm]
          exact hx b hb
      · rw [← (fetchRawDescriptor_frame hd).mem, ← hset hb]
        rfl

end Sys2Proof.Machine
end

section
/-! PROOFS. Of 30_encoding R132 to R195: the decoder reads back what the encoder writes. -/

namespace Sys2Proof

/-! ### Reading a value back -/

/-- The parser `p` reads `x` from the bytes `bs`, at most `n` of them, whatever follows. -/
structure Reads {α : Type} (bs : List Byte) (x : α) (n : Nat) (p : List Byte → Parse α) : Prop where
  length_le : bs.length ≤ n
  parse : ∀ rest, p (bs ++ rest) = .ok x rest

section
variable {α β : Type} {x : α} {bs : List Byte} {n : Nat} {p : List Byte → Parse α}

theorem Reads.map (h : Reads bs x n p) (f : α → β) : Reads bs (f x) n (fun bs => (p bs).map f) :=
  ⟨h.length_le, fun rest => congrArg (·.map f) (h.parse rest)⟩

theorem Reads.andThen {y : β} {cs : List Byte} {m : Nat} {f : α → List Byte → Parse β} (h : Reads bs x n p)
    (g : Reads cs y m (f x)) : Reads (bs ++ cs) y (n + m) (fun bs => (p bs).andThen f) where
  length_le := by
    rw [List.length_append]
    exact Nat.add_le_add h.length_le g.length_le
  parse rest := by
    rw [List.append_assoc, h.parse, parse_andThen_ok, g.parse]

theorem reads_ok (x : α) : Reads [] x 0 (Parse.ok x) := ⟨Nat.le_refl 0, fun _ => rfl⟩

theorem reads_byte (b : Byte) : Reads [b] b 1 getByte := ⟨Nat.le_refl 1, fun _ => rfl⟩

theorem reads_u16 (v : BitVec 16) : Reads (putU16 v) v 2 getU16 := ⟨Nat.le_refl 2, getU16_putU16 v⟩

theorem reads_sized {sz : Size} {v : Word} (h : sz.fits v = true) : Reads (putSized sz v) v 4 (getSized sz) :=
  ⟨by rw [putSized_length]; cases sz <;> decide, fun rest => getSized_putSized sz v rest h⟩

theorem reads_byteImm (mk : Byte → Instr) (d : Byte) : Reads [d] (mk d) 1 (fun bs => (getByte bs).map mk) :=
  (reads_byte d).map mk

theorem reads_u16Imm (mk : BitVec 16 → Instr) (v : BitVec 16) :
    Reads (putU16 v) (mk v) 2 (fun bs => (getU16 bs).map mk) := (reads_u16 v).map mk

theorem reads_sizedImm {sz : Size} {v : Word} (mk : Word → Instr) (h : sz.fits v = true) :
    Reads (putSized sz v) (mk v) 4 (fun bs => (getSized sz bs).map mk) := (reads_sized h).map mk

theorem reads_rowAp {a : Attrs} {off : Word} (mk : Word → BitVec 16 → Instr) (h : a.osz.fits off = true)
    (sel : BitVec 16) : Reads (putSized a.osz off ++ putU16 sel) (mk off sel) 6 (fun bs => rowAp a bs mk) :=
  (reads_sized h).andThen (f := fun off rest => (getU16 rest).map (mk off)) ((reads_u16 sel).map (mk off))

end

/-! ### Operands behind a ModR/M byte -/

section
variable {a : Attrs} {n : Nat} {e : Rm} {p : List Byte → Parse Instr}

/-- A list from which `withModRM` hands on `m` begins with the byte of `m`. -/
theorem eq_cons_of_withModRM {l bs : List Byte} {m : ModRM}
    (h : ∀ {α : Type} (k : ModRM → List Byte → Parse α), withModRM l k = k m bs) :
    ∃ b, l = b :: bs ∧ ModRM.ofByte b = m := by
  have hfields := h fun m bs => .ok (m, bs) []
  cases l with
  | nil => cases hfields
  | cons b tl =>
    cases hfields
    exact ⟨b, rfl, rfl⟩

/-- An E operand stands behind its ModR/M byte, whose `nnn` is the one written. -/
theorem encodeE_eq_cons (hn : n < 8) (h : e.wf a.asz = true) (rest : List Byte) : ∃ b bs,
    encodeE n e ++ rest = b :: bs ∧ (ModRM.ofByte b).nnn = BitVec.ofNat 3 n ∧
      decodeE a.asz (ModRM.ofByte b) bs = .ok e rest := by
  obtain ⟨m, bs, hnnn, hk, he⟩ := decode_encodeE a.asz n e rest hn h
  obtain ⟨b, heq, rfl⟩ := eq_cons_of_withModRM hk
  exact ⟨b, bs, heq, hnnn, he⟩

/-- A row that begins with an E operand and goes on with `q`. -/
theorem reads_E {tl : List Byte} {i : Instr} {k : Nat} (q : Rm → List Byte → Parse Instr) (h : e.wf a.asz = true)
    (hq : Reads tl i k (q e))
    (hp : ∀ b bs, (ModRM.ofByte b).nnn = BitVec.ofNat 3 n →
      p (b :: bs) = (decodeE a.asz (ModRM.ofByte b) bs).andThen q)
    (hn : n < 8 := by decide) : Reads (encodeE n e ++ tl) i (5 + k) p where
  length_le := by
    rw [List.length_append]
    exact Nat.add_le_add (encodeE_length n e).2 hq.length_le
  parse rest := by
    obtain ⟨b, bs, heq, hnnn, he⟩ := encodeE_eq_cons hn h (tl ++ rest)
    rw [List.append_assoc, heq, hp b bs hnnn, he, parse_andThen_ok, hq.parse]

/-- A row or group entry with an E operand alone; `hp` says what the row does behind a ModR/M byte with this `nnn`. -/
theorem reads_tailE (mk : Rm → Instr) (h : e.wf a.asz = true)
    (hp : ∀ b bs, (ModRM.ofByte b).nnn = BitVec.ofNat 3 n → p (b :: bs) = tailE a (ModRM.ofByte b) bs mk)
    (hn : n < 8 := by decide) : Reads (encodeE n e) (mk e) 5 p := by
  rw [← List.append_nil (encodeE n e)]
  exact reads_E (fun e => .ok (mk e)) h (reads_ok (mk e)) hp hn

theorem reads_tailEIb {d : Byte} (mk : Rm → Byte → Instr) (h : e.wf a.asz = true)
    (hp : ∀ b bs, (ModRM.ofByte b).nnn = BitVec.ofNat 3 n → p (b :: bs) = tailEIb a (ModRM.ofByte b) bs mk)
    (hn : n < 8 := by decide) : Reads (encodeE n e ++ [d]) (mk e d) 6 p :=
  reads_E _ h ((reads_byte d).map (mk e)) hp hn

theorem reads_tailEIv {v : Word} (mk : Rm → Word → Instr) (h : e.wf a.asz = true) (hv : a.osz.fits v = true)
    (hp : ∀ b bs, (ModRM.ofByte b).nnn = BitVec.ofNat 3 n → p (b :: bs) = tailEIv a (ModRM.ofByte b) bs mk)
    (hn : n < 8 := by decide) : Reads (encodeE n e ++ putSized a.osz v) (mk e v) 9 p :=
  reads_E _ h ((reads_sized hv).map (mk e)) hp hn

theorem reads_rowEG {g : Reg} (mk : Rm → Reg → Instr) (h : e.wf a.asz = true) :
    Reads (encodeE g.num e) (mk e g) 5 (fun bs => rowEG a bs mk) := by
  refine reads_tailE (fun e => mk e g) h (fun b bs hb => ?_) g.num_lt
  rw [← regOf_num g, ← hb]
  rfl

/-- A memory operand stands behind its ModR/M byte, whose `nnn` is the one written. -/
theorem encodeM_eq_cons {x : MemRef} (hn : n < 8) (h : x.wf a.asz = true) (rest : List Byte) : ∃ b bs,
    encodeM n x ++ rest = b :: bs ∧ (ModRM.ofByte b).nnn = BitVec.ofNat 3 n ∧
      decodeM a.asz (ModRM.ofByte b) bs = .ok x rest := by
  obtain ⟨m, bs, hnnn, hk, hx, _⟩ := decode_encodeM a.asz n x rest hn h
  obtain ⟨b, heq, rfl⟩ := eq_cons_of_withModRM hk
  exact ⟨b, bs, heq, hnnn, hx⟩

theorem reads_tailM {x : MemRef} (mk : MemRef → Instr) (h : x.wf a.asz = true)
    (hp : ∀ b bs, (ModRM.ofByte b).nnn = BitVec.ofNat 3 n → p (b :: bs) = tailM a (ModRM.ofByte b) bs mk)
    (hn : n < 8 := by decide) : Reads (encodeM n x) (mk x) 5 p where
  length_le := (encodeE_length n (.mem x)).2
  parse rest := by
    obtain ⟨b, bs, heq, hnnn, hx⟩ := encodeM_eq_cons hn h rest
    rw [heq, hp b bs hnnn, tailM, hx, parse_map_ok]

theorem reads_rowGM {g : Reg} {x : MemRef} (mk : Reg → MemRef → Instr) (h : x.wf a.asz = true) :
    Reads (encodeM g.num x) (mk g x) 5 (fun bs => rowGM a bs mk) := by
  refine reads_tailM (mk g) h (fun b bs hb => ?_) g.num_lt
  rw [← regOf_num g, ← hb]
  rfl

end

/-! ### The bytes after the prefixes -/

/-- These bytes are an opcode byte (none of those of R133), or the escape and an opcode byte, then operands; from them the
decoder reads `i` when the prefixes have given the attributes `a`. -/
inductive ReadsBody (a : Attrs) (i : Instr) : List Byte → Prop
  | one {op : Byte} {tail : List Byte} {n : Nat} (h : Reads tail i n (decodeOne a op)) (hn : n ≤ 9 := by decide)
      (hop : isOpcode op = true := by decide) (hesc : op ≠ 0x0F := by decide) : ReadsBody a i (op :: tail)
  | two {op : Byte} {tail : List Byte} {n : Nat} (h : Reads tail i n (decodeTwo a op)) (hn : n ≤ 8 := by decide) :
      ReadsBody a i (0x0F :: op :: tail)

section
variable {a : Attrs} {x : Nat}

/-- Opcode `8x + k` is row `k` of the ALU instruction `x` (30_encoding R191). -/
theorem decodeOne_aluRow {k : Nat} (hx : x < 8) (hk : k < 6) (bs : List Byte) :
    decodeOne a (opByte (8 * x + k)) bs = decodeAluRow a (aluOf x) k bs := by
  interval_cases x <;> interval_cases k <;> rfl

theorem isOpcode_aluRow :
    ∀ x < 8, ∀ k < 6, isOpcode (opByte (8 * x + k)) = true ∧ opByte (8 * x + k) ≠ 0x0F := by decide

theorem readsBody_aluRow {i : Instr} {k n : Nat} {tail : List Byte} (hx : x < 8)
    (h : Reads tail i n (decodeAluRow a (aluOf x) k)) (hn : n ≤ 9 := by decide) (hk : k < 6 := by decide) :
    ReadsBody a i (opByte (8 * x + k) :: tail) :=
  .one (by rwa [funext (decodeOne_aluRow hx hk)]) hn (isOpcode_aluRow x hx k hk).1 (isOpcode_aluRow x hx k hk).2

/-- The nine forms of a two-operand instruction: six rows of its own and groups 0x80, 0x81, 0x83 (R194). -/
theorem readsBody_alu {f : AluForm} (hx : x < 8) (h : f.wf a = true) : ReadsBody a (aluOf x a f) (encodeAlu x a f) := by
  have hm : x % 8 = x := Nat.mod_eq_of_lt hx
  cases f with
  | ebGb e g => exact readsBody_aluRow (k := 0) hx (reads_rowEG (fun e g => aluOf x a (.ebGb e g)) h)
  | evGv e g => exact readsBody_aluRow hx (reads_rowEG (fun e g => aluOf x a (.evGv e g)) h)
  | gbEb g e => exact readsBody_aluRow hx (reads_rowEG (fun e g => aluOf x a (.gbEb g e)) h)
  | gvEv g e => exact readsBody_aluRow hx (reads_rowEG (fun e g => aluOf x a (.gvEv g e)) h)
  | alIb i => exact readsBody_aluRow hx (reads_byteImm (fun i => aluOf x a (.alIb i)) i)
  | eaxIv i => exact readsBody_aluRow hx (reads_sizedImm (fun i => aluOf x a (.eaxIv i)) h)
  | ebIb e i => exact .one (reads_tailEIb (fun e i => aluOf x a (.ebIb e i)) h
      (fun _ _ hb => by simp [decodeOne, decodeRow8, withModRM, hb, hm]) hx)
  | evIv e i =>
    obtain ⟨he, hi⟩ := Bool.and_eq_true_iff.mp h
    exact .one (reads_tailEIv (fun e i => aluOf x a (.evIv e i)) he hi
      (fun _ _ hb => by simp [decodeOne, decodeRow8, withModRM, hb, hm]) hx)
  | evIb e i => exact .one (reads_tailEIb (fun e i => aluOf x a (.evIb e i)) h
      (fun _ _ hb => by simp [decodeOne, decodeRow8, withModRM, hb, hm]) hx)

theorem readsBody_shift {mk : Attrs → ShiftForm → Instr} {f : ShiftForm} (hx : x < 8) (hmk : shiftOf x = some mk)
    (h : f.wf a = true) : ReadsBody a (mk a f) (encodeShift x f) := by
  have hm : x % 8 = x := Nat.mod_eq_of_lt hx
  cases f with
  | ebIb e i => exact .one (reads_tailEIb (fun e i => mk a (.ebIb e i)) h
      (fun _ _ hb => by simp [decodeOne, decodeRowC, withModRM, decodeShiftGroup, hb, hm, hmk]) hx)
  | evIb e i => exact .one (reads_tailEIb (fun e i => mk a (.evIb e i)) h
      (fun _ _ hb => by simp [decodeOne, decodeRowC, withModRM, decodeShiftGroup, hb, hm, hmk]) hx)
  | eb1 e => exact .one (reads_tailE (fun e => mk a (.eb1 e)) h
      (fun _ _ hb => by simp [decodeOne, decodeRowD, withModRM, decodeShiftGroup, hb, hm, hmk]) hx)
  | ev1 e => exact .one (reads_tailE (fun e => mk a (.ev1 e)) h
      (fun _ _ hb => by simp [decodeOne, decodeRowD, withModRM, decodeShiftGroup, hb, hm, hmk]) hx)
  | ebCL e => exact .one (reads_tailE (fun e => mk a (.ebCL e)) h
      (fun _ _ hb => by simp [decodeOne, decodeRowD, withModRM, decodeShiftGroup, hb, hm, hmk]) hx)
  | evCL e => exact .one (reads_tailE (fun e => mk a (.evCL e)) h
      (fun _ _ hb => by simp [decodeOne, decodeRowD, withModRM, decodeShiftGroup, hb, hm, hmk]) hx)

/-- Groups 0xF6 and 0xF7, where `hmk` says that `nnn` = `x` stands for the instruction (R194). -/
theorem readsBody_unary {mk : Attrs → UnaryForm → Instr} {f : UnaryForm} (hx : x < 8) (h : f.wf a = true)
    (hmk : ∀ wide b bs, (ModRM.ofByte b).nnn = BitVec.ofNat 3 x → decodeUnaryGroup a wide (b :: bs) =
      tailE a (ModRM.ofByte b) bs fun e => mk a (if wide then .ev e else .eb e)) :
    ReadsBody a (mk a f) (encodeUnary x f) := by
  cases f with
  | eb e => exact .one (reads_tailE (fun e => mk a (.eb e)) h (hmk false) hx)
  | ev e => exact .one (reads_tailE (fun e => mk a (.ev e)) h (hmk true) hx)

theorem readsBody_inc {f : IncForm} (h : f.wf a = true) : ReadsBody a (.inc a f) (encodeInc 0 f) := by
  cases f with
  | r g => cases g <;> exact .one (reads_ok _)
  | eb e => exact .one (reads_tailE (fun e => .inc a (.eb e)) h fun _ _ hb => by
      simp [decodeOne, decodeRowF, withModRM, hb])
  | ev e => exact .one (reads_tailE (fun e => .inc a (.ev e)) h fun _ _ hb => by
      simp [decodeOne, decodeRowF, decodeGroupFF, withModRM, hb])

theorem readsBody_dec {f : IncForm} (h : f.wf a = true) : ReadsBody a (.dec a f) (encodeInc 1 f) := by
  cases f with
  | r g => cases g <;> exact .one (reads_ok _)
  | eb e => exact .one (reads_tailE (fun e => .dec a (.eb e)) h fun _ _ hb => by
      simp [decodeOne, decodeRowF, withModRM, hb])
  | ev e => exact .one (reads_tailE (fun e => .dec a (.ev e)) h fun _ _ hb => by
      simp [decodeOne, decodeRowF, decodeGroupFF, withModRM, hb])

theorem readsBody_jcc {f : RelForm} (hx : x < 16) (h : f.wf a = true) :
    ReadsBody a ((condOf x).jcc a f) (encodeJcc x a f) := by
  cases f with
  | jb d => interval_cases x <;> exact .one (reads_byteImm (fun d => Cond.jcc _ a (.jb d)) d)
  | jv d => interval_cases x <;> exact .two (reads_sizedImm (fun d => Cond.jcc _ a (.jv d)) h)

theorem readsBody_setcc {e : Rm} (hx : x < 16) (h : e.wf a.asz = true) :
    ReadsBody a ((condOf x).setcc a e) (encodeSetcc x e) := by
  interval_cases x <;> exact .two (reads_tailE (n := 0) (Cond.setcc _ a) h fun _ _ _ => rfl)

theorem readsBody_mov {f : MovForm} (h : f.wf a = true) : ReadsBody a (.mov a f) (encodeMov a f) := by
  cases f with
  | ebGb e g => exact .one (reads_rowEG (fun e g => .mov a (.ebGb e g)) h)
  | evGv e g => exact .one (reads_rowEG (fun e g => .mov a (.evGv e g)) h)
  | gbEb g e => exact .one (reads_rowEG (fun e g => .mov a (.gbEb g e)) h)
  | gvEv g e => exact .one (reads_rowEG (fun e g => .mov a (.gvEv g e)) h)
  | rbIb g i => cases g <;> exact .one (reads_byteImm (fun i => .mov a (.rbIb _ i)) i)
  | rvIv g i => cases g <;> exact .one (reads_sizedImm (fun i => .mov a (.rvIv _ i)) h)
  | ebIb e i => exact .one (reads_tailEIb (fun e i => .mov a (.ebIb e i)) h fun _ _ hb => by
      simp [decodeOne, decodeRowC, withModRM, hb])
  | evIv e i =>
    obtain ⟨he, hi⟩ := Bool.and_eq_true_iff.mp h
    exact .one (reads_tailEIv (fun e i => .mov a (.evIv e i)) he hi fun _ _ hb => by
      simp [decodeOne, decodeRowC, withModRM, hb])

theorem readsBody_moffs {f : MoffsForm} (h : f.wf a = true) : ReadsBody a (.movMoffs a f) (encodeMoffs a f) := by
  cases f with
  | alOb o => exact .one (reads_sizedImm (fun o => .movMoffs a (.alOb o)) h)
  | eaxOv o => exact .one (reads_sizedImm (fun o => .movMoffs a (.eaxOv o)) h)
  | obAl o => exact .one (reads_sizedImm (fun o => .movMoffs a (.obAl o)) h)
  | ovEax o => exact .one (reads_sizedImm (fun o => .movMoffs a (.ovEax o)) h)

theorem readsBody_test {f : TestForm} (h : f.wf a = true) : ReadsBody a (.test a f) (encodeTest a f) := by
  cases f with
  | ebGb e g => exact .one (reads_rowEG (fun e g => .test a (.ebGb e g)) h)
  | evGv e g => exact .one (reads_rowEG (fun e g => .test a (.evGv e g)) h)
  | alIb i => exact .one (reads_byteImm (fun i => .test a (.alIb i)) i)
  | eaxIv i => exact .one (reads_sizedImm (fun i => .test a (.eaxIv i)) h)
  | ebIb e i => exact .one (reads_tailEIb (fun e i => .test a (.ebIb e i)) h fun _ _ hb => by
      simp [decodeOne, decodeRowF, decodeUnaryGroup, withModRM, hb])
  | evIv e i =>
    obtain ⟨he, hi⟩ := Bool.and_eq_true_iff.mp h
    exact .one (reads_tailEIv (fun e i => .test a (.evIv e i)) he hi fun _ _ hb => by
      simp [decodeOne, decodeRowF, decodeUnaryGroup, withModRM, hb])

theorem readsBody_imul {f : ImulForm} (h : f.wf a = true) : ReadsBody a (.imul a f) (encodeImul a f) := by
  cases f with
  | gvEv g e => exact .two (reads_rowEG (fun e g => .imul a (.gvEv g e)) h)
  | gvEvIv g e i =>
    obtain ⟨he, hi⟩ := Bool.and_eq_true_iff.mp h
    exact .one (reads_tailEIv (fun e i => .imul a (.gvEvIv g e i)) he hi
      (fun _ _ hb => by simp [decodeOne, decodeRow6, withModRM, hb]) g.num_lt)
  | gvEvIb g e i => exact .one (reads_tailEIb (fun e i => .imul a (.gvEvIb g e i)) h
      (fun _ _ hb => by simp [decodeOne, decodeRow6, withModRM, hb]) g.num_lt)

theorem readsBody_xchg {f : XchgForm} (h : f.wf a = true) : ReadsBody a (.xchg a f) (encodeXchg f) := by
  cases f with
  | ebGb e g => exact .one (reads_rowEG (fun e g => .xchg a (.ebGb e g)) h)
  | evGv e g => exact .one (reads_rowEG (fun e g => .xchg a (.evGv e g)) h)
  | eaxR g =>
    cases g with
    | ax => cases h
    | _ => exact .one (reads_ok _)

theorem readsBody_movzx {f : ExtForm} (h : f.wf a = true) : ReadsBody a (.movzx a f) (encodeExt 0xB6 f) := by
  cases f with
  | gvEb g e => exact .two (reads_rowEG (fun e g => .movzx a (.gvEb g e)) h)
  | gvEw g e => exact .two (reads_rowEG (fun e g => .movzx a (.gvEw g e)) h)

theorem readsBody_movsx {f : ExtForm} (h : f.wf a = true) : ReadsBody a (.movsx a f) (encodeExt 0xBE f) := by
  cases f with
  | gvEb g e => exact .two (reads_rowEG (fun e g => .movsx a (.gvEb g e)) h)
  | gvEw g e => exact .two (reads_rowEG (fun e g => .movsx a (.gvEw g e)) h)

theorem readsBody_push {f : PushForm} (h : f.wf a = true) : ReadsBody a (.push a f) (encodePush a f) := by
  cases f with
  | r g => cases g <;> exact .one (reads_ok _)
  | iv i => exact .one (reads_sizedImm (fun i => .push a (.iv i)) h)
  | ib i => exact .one (reads_byteImm (fun i => .push a (.ib i)) i)
  | ev e => exact .one (reads_tailE (fun e => .push a (.ev e)) h fun _ _ hb => by
      simp [decodeOne, decodeRowF, decodeGroupFF, withModRM, hb])

theorem readsBody_pop {f : PopForm} (h : f.wf a = true) : ReadsBody a (.pop a f) (encodePop f) := by
  cases f with
  | r g => cases g <;> exact .one (reads_ok _)
  | ev e => exact .one (reads_tailE (fun e => .pop a (.ev e)) h fun _ _ hb => by
      simp [decodeOne, decodeRow8, withModRM, hb])

theorem readsBody_pushSeg (g : SegReg) : ReadsBody a (.pushSeg a g) (encodePushSeg g) := by
  cases g with
  | fs => exact .two (reads_ok _)
  | gs => exact .two (reads_ok _)
  | _ => exact .one (reads_ok _)

theorem readsBody_popSeg {g : SegReg} (h : decide (g ≠ .cs) = true) : ReadsBody a (.popSeg a g) (encodePopSeg g) := by
  cases g with
  | cs => cases h
  | fs => exact .two (reads_ok _)
  | gs => exact .two (reads_ok _)
  | _ => exact .one (reads_ok _)

theorem readsBody_jmpRel {f : RelForm} (h : f.wf a = true) : ReadsBody a (.jmpRel a f) (encodeJmpRel a f) := by
  cases f with
  | jb d => exact .one (reads_byteImm (fun d => .jmpRel a (.jb d)) d)
  | jv d => exact .one (reads_sizedImm (fun d => .jmpRel a (.jv d)) h)

theorem readsBody_movFromSeg {e : Rm} (h : e.wf a.asz = true) (g : SegReg) :
    ReadsBody a (.movFromSeg a e g) (0x8C :: encodeE g.num e) :=
  .one (reads_tailE (fun e => .movFromSeg a e g) h
    (fun _ _ hb => by simp [decodeOne, decodeRow8, withModRM, decodeS, tailE, Parse.map, hb]) g.num_lt)

theorem readsBody_movToSeg {e : Rm} {g : SegReg} (hg : decide (g ≠ .cs) = true) (h : e.wf a.asz = true) :
    ReadsBody a (.movToSeg a g e) (0x8E :: encodeE g.num e) := by
  refine .one (reads_tailE (.movToSeg a g) h (fun _ _ hb => ?_) g.num_lt)
  cases g with
  | cs => cases hg
  | _ => simp [decodeOne, decodeRow8, withModRM, decodeSDest, tailE, hb]

theorem readsBody_movFromCr (r : Reg) (c : CtlReg) :
    ReadsBody a (.movFromCr a r c) [0x0F, 0x20, modrmByte 3 c.num r.num] := by
  refine .two ⟨Nat.le_refl 1, fun rest => ?_⟩
  simp [decodeTwo, decodeTwoRow, withModRM_modrmByte 3 c.num r.num rest _ (by decide) c.num_lt r.num_lt, decodeR,
    decodeC]

theorem readsBody_movToCr (c : CtlReg) (r : Reg) :
    ReadsBody a (.movToCr a c r) [0x0F, 0x22, modrmByte 3 c.num r.num] := by
  refine .two ⟨Nat.le_refl 1, fun rest => ?_⟩
  simp [decodeTwo, decodeTwoRow, withModRM_modrmByte 3 c.num r.num rest _ (by decide) c.num_lt r.num_lt, decodeR,
    decodeC]

theorem readsBody_movFromDr (r : Reg) (c : DbgReg) :
    ReadsBody a (.movFromDr a r c) [0x0F, 0x21, modrmByte 3 c.num r.num] := by
  refine .two ⟨Nat.le_refl 1, fun rest => ?_⟩
  simp [decodeTwo, decodeTwoRow, withModRM_modrmByte 3 c.num r.num rest _ (by decide) c.num_lt r.num_lt, decodeR]

theorem readsBody_movToDr (c : DbgReg) (r : Reg) :
    ReadsBody a (.movToDr a c r) [0x0F, 0x23, modrmByte 3 c.num r.num] := by
  refine .two ⟨Nat.le_refl 1, fun rest => ?_⟩
  simp [decodeTwo, decodeTwoRow, withModRM_modrmByte 3 c.num r.num rest _ (by decide) c.num_lt r.num_lt, decodeR]

end

/-- What the encoder writes after the prefixes is read back, for every well-formed instruction. -/
theorem readsBody_encodeBody (i : Instr) (h : i.wf = true) : ReadsBody i.attrs i (encodeBody i) := by
  cases i with
  | add a f => exact readsBody_alu (x := 0) (by decide) h
  | or a f => exact readsBody_alu (x := 1) (by decide) h
  | adc a f => exact readsBody_alu (x := 2) (by decide) h
  | sbb a f => exact readsBody_alu (x := 3) (by decide) h
  | and a f => exact readsBody_alu (x := 4) (by decide) h
  | sub a f => exact readsBody_alu (x := 5) (by decide) h
  | xor a f => exact readsBody_alu (x := 6) (by decide) h
  | cmp a f => exact readsBody_alu (x := 7) (by decide) h
  | inc a f => exact readsBody_inc h
  | dec a f => exact readsBody_dec h
  | neg a f =>
    exact readsBody_unary (x := 3) (by decide) h fun _ _ _ hb => by simp [decodeUnaryGroup, withModRM, hb]
  | mul a f =>
    exact readsBody_unary (x := 4) (by decide) h fun _ _ _ hb => by simp [decodeUnaryGroup, withModRM, hb]
  | imulOne a f =>
    exact readsBody_unary (x := 5) (by decide) h fun _ _ _ hb => by simp [decodeUnaryGroup, withModRM, hb]
  | imul a f => exact readsBody_imul h
  | div a f =>
    exact readsBody_unary (x := 6) (by decide) h fun _ _ _ hb => by simp [decodeUnaryGroup, withModRM, hb]
  | idiv a f =>
    exact readsBody_unary (x := 7) (by decide) h fun _ _ _ hb => by simp [decodeUnaryGroup, withModRM, hb]
  | test a f => exact readsBody_test h
  | not a f =>
    exact readsBody_unary (x := 2) (by decide) h fun _ _ _ hb => by simp [decodeUnaryGroup, withModRM, hb]
  | rol a f => exact readsBody_shift (x := 0) (by decide) rfl h
  | ror a f => exact readsBody_shift (x := 1) (by decide) rfl h
  | rcl a f => exact readsBody_shift (x := 2) (by decide) rfl h
  | rcr a f => exact readsBody_shift (x := 3) (by decide) rfl h
  | shl a f => exact readsBody_shift (x := 4) (by decide) rfl h
  | shr a f => exact readsBody_shift (x := 5) (by decide) rfl h
  | sar a f => exact readsBody_shift (x := 7) (by decide) rfl h
  | mov a f => exact readsBody_mov h
  | movMoffs a f => exact readsBody_moffs h
  | movFromSeg a e g => exact readsBody_movFromSeg h g
  | movToSeg a g e =>
    obtain ⟨hg, he⟩ := Bool.and_eq_true_iff.mp h
    exact readsBody_movToSeg hg he
  | xchg a f => exact readsBody_xchg h
  | nop a => exact .one (reads_ok _)
  | lea a g m => exact .one (reads_rowGM (.lea a) h)
  | movzx a f => exact readsBody_movzx h
  | movsx a f => exact readsBody_movsx h
  | cbw a => exact .one (reads_ok _)
  | cwd a => exact .one (reads_ok _)
  | xlat a => exact .one (reads_ok _)
  | push a f => exact readsBody_push h
  | pushSeg a g => exact readsBody_pushSeg g
  | pop a f => exact readsBody_pop h
  | popSeg a g => exact readsBody_popSeg h
  | pusha a => exact .one (reads_ok _)
  | popa a => exact .one (reads_ok _)
  | lds a g m => exact .one (reads_rowGM (.lds a) h)
  | les a g m => exact .one (reads_rowGM (.les a) h)
  | lss a g m => exact .two (reads_rowGM (.lss a) h)
  | lfs a g m => exact .two (reads_rowGM (.lfs a) h)
  | lgs a g m => exact .two (reads_rowGM (.lgs a) h)
  | movs a f => cases f <;> exact .one (reads_ok _)
  | cmps a f => cases f <;> exact .one (reads_ok _)
  | stos a f => cases f <;> exact .one (reads_ok _)
  | lods a f => cases f <;> exact .one (reads_ok _)
  | scas a f => cases f <;> exact .one (reads_ok _)
  | jmpRel a f => exact readsBody_jmpRel h
  | jmpInd a e => exact .one (reads_tailE (.jmpInd a) h fun _ _ hb => by
      simp [decodeOne, decodeRowF, decodeGroupFF, withModRM, hb, Instr.attrs])
  | jmpFar a off sel => exact .one (reads_rowAp (.jmpFar a) h sel)
  | jmpFarInd a m => exact .one (reads_tailM (.jmpFarInd a) h fun _ _ hb => by
      simp [decodeOne, decodeRowF, decodeGroupFF, withModRM, hb, Instr.attrs])
  | jo a f => exact readsBody_jcc (x := 0) (by decide) h
  | jno a f => exact readsBody_jcc (x := 1) (by decide) h
  | jb a f => exact readsBody_jcc (x := 2) (by decide) h
  | jae a f => exact readsBody_jcc (x := 3) (by decide) h
  | je a f => exact readsBody_jcc (x := 4) (by decide) h
  | jne a f => exact readsBody_jcc (x := 5) (by decide) h
  | jbe a f => exact readsBody_jcc (x := 6) (by decide) h
  | ja a f => exact readsBody_jcc (x := 7) (by decide) h
  | js a f => exact readsBody_jcc (x := 8) (by decide) h
  | jns a f => exact readsBody_jcc (x := 9) (by decide) h
  | jp a f => exact readsBody_jcc (x := 10) (by decide) h
  | jnp a f => exact readsBody_jcc (x := 11) (by decide) h
  | jl a f => exact readsBody_jcc (x := 12) (by decide) h
  | jge a f => exact readsBody_jcc (x := 13) (by decide) h
  | jle a f => exact readsBody_jcc (x := 14) (by decide) h
  | jg a f => exact readsBody_jcc (x := 15) (by decide) h
  | jcxz a d => exact .one (reads_byteImm (.jcxz a) d)
  | loop a d => exact .one (reads_byteImm (.loop a) d)
  | loope a d => exact .one (reads_byteImm (.loope a) d)
  | loopne a d => exact .one (reads_byteImm (.loopne a) d)
  | callRel a d => exact .one (reads_sizedImm (.callRel a) h)
  | callInd a e => exact .one (reads_tailE (.callInd a) h fun _ _ hb => by
      simp [decodeOne, decodeRowF, decodeGroupFF, withModRM, hb, Instr.attrs])
  | callFar a off sel => exact .one (reads_rowAp (.callFar a) h sel)
  | callFarInd a m => exact .one (reads_tailM (.callFarInd a) h fun _ _ hb => by
      simp [decodeOne, decodeRowF, decodeGroupFF, withModRM, hb, Instr.attrs])
  | ret a => exact .one (reads_ok _)
  | retImm a i => exact .one (reads_u16Imm (.retImm a) i)
  | retf a => exact .one (reads_ok _)
  | retfImm a i => exact .one (reads_u16Imm (.retfImm a) i)
  | int a i => exact .one (reads_byteImm (.int a) i)
  | int3 a => exact .one (reads_ok _)
  | iret a => exact .one (reads_ok _)
  | into a => exact .one (reads_ok _)
  | seto a e => exact readsBody_setcc (x := 0) (by decide) h
  | setno a e => exact readsBody_setcc (x := 1) (by decide) h
  | setb a e => exact readsBody_setcc (x := 2) (by decide) h
  | setae a e => exact readsBody_setcc (x := 3) (by decide) h
  | sete a e => exact readsBody_setcc (x := 4) (by decide) h
  | setne a e => exact readsBody_setcc (x := 5) (by decide) h
  | setbe a e => exact readsBody_setcc (x := 6) (by decide) h
  | seta a e => exact readsBody_setcc (x := 7) (by decide) h
  | sets a e => exact readsBody_setcc (x := 8) (by decide) h
  | setns a e => exact readsBody_setcc (x := 9) (by decide) h
  | setp a e => exact readsBody_setcc (x := 10) (by decide) h
  | setnp a e => exact readsBody_setcc (x := 11) (by decide) h
  | setl a e => exact readsBody_setcc (x := 12) (by decide) h
  | setge a e => exact readsBody_setcc (x := 13) (by decide) h
  | setle a e => exact readsBody_setcc (x := 14) (by decide) h
  | setg a e => exact readsBody_setcc (x := 15) (by decide) h
  | clc a => exact .one (reads_ok _)
  | stc a => exact .one (reads_ok _)
  | cmc a => exact .one (reads_ok _)
  | cld a => exact .one (reads_ok _)
  | std a => exact .one (reads_ok _)
  | cli a => exact .one (reads_ok _)
  | sti a => exact .one (reads_ok _)
  | pushf a => exact .one (reads_ok _)
  | popf a => exact .one (reads_ok _)
  | lahf a => exact .one (reads_ok _)
  | sahf a => exact .one (reads_ok _)
  | hlt a => exact .one (reads_ok _)
  | sgdt a m => exact .two (reads_tailM (.sgdt a) h fun _ _ hb => by
      simp [decodeTwo, decodeTwoRow, withModRM, hb, Instr.attrs])
  | lgdt a m => exact .two (reads_tailM (.lgdt a) h fun _ _ hb => by
      simp [decodeTwo, decodeTwoRow, withModRM, hb, Instr.attrs])
  | sidt a m => exact .two (reads_tailM (.sidt a) h fun _ _ hb => by
      simp [decodeTwo, decodeTwoRow, withModRM, hb, Instr.attrs])
  | lidt a m => exact .two (reads_tailM (.lidt a) h fun _ _ hb => by
      simp [decodeTwo, decodeTwoRow, withModRM, hb, Instr.attrs])
  | sldt a e => exact .two (reads_tailE (.sldt a) h fun _ _ hb => by
      simp [decodeTwo, decodeTwoRow, withModRM, hb, Instr.attrs])
  | lldt a e => exact .two (reads_tailE (.lldt a) h fun _ _ hb => by
      simp [decodeTwo, decodeTwoRow, withModRM, hb, Instr.attrs])
  | lmsw a e => exact .two (reads_tailE (.lmsw a) h fun _ _ hb => by
      simp [decodeTwo, decodeTwoRow, withModRM, hb, Instr.attrs])
  | smsw a e => exact .two (reads_tailE (.smsw a) h fun _ _ hb => by
      simp [decodeTwo, decodeTwoRow, withModRM, hb, Instr.attrs])
  | movFromCr a r c => exact readsBody_movFromCr r c
  | movToCr a c r => exact readsBody_movToCr c r
  | movFromDr a r c => exact readsBody_movFromDr r c
  | movToDr a c r => exact readsBody_movToDr c r

/-! ### The whole encoding -/

section
variable {a : Attrs} {i : Instr} {bs : List Byte}

theorem ReadsBody.length_pos (h : ReadsBody a i bs) : 1 ≤ bs.length := by
  cases h with
  | one h hn => simp
  | two h hn => simp

theorem ReadsBody.length_le (h : ReadsBody a i bs) : bs.length ≤ 10 := by
  cases h with
  | one h hn =>
    have := h.length_le
    simp only [List.length_cons]
    omega
  | two h hn =>
    have := h.length_le
    simp only [List.length_cons]
    omega

/-- Behind the prefixes of its attributes the body is decoded. -/
theorem ReadsBody.decode (h : ReadsBody a i bs) (mode : SizePrefixMode) (big : Bool) (rest : List Byte) :
    decode mode big (encodePrefixes big a ++ bs ++ rest) = .ok i rest := by
  rw [List.append_assoc]
  cases h with
  | @one op tail _ h hn hop hesc =>
    obtain ⟨p, hscan, rfl⟩ := scanPrefixes_encodePrefixes mode big a op (tail ++ rest) hop
    rw [List.cons_append, Sys2Proof.decode, hscan, parse_andThen_ok, decodeOpcode, if_neg hesc]
    exact h.parse rest
  | @two op tail _ h hn =>
    obtain ⟨p, hscan, rfl⟩ := scanPrefixes_encodePrefixes mode big a 0x0F (op :: tail ++ rest) (by decide)
    rw [List.cons_append, Sys2Proof.decode, hscan, parse_andThen_ok, decodeOpcode, if_pos rfl]
    exact h.parse rest

end

/-- Settles O2: the prefixes give back the attributes, and the body behind them is read back. -/
theorem decodeOfEncode : Obligations.DecodeOfEncode := by
  intro mode big i hwf
  have hbody := readsBody_encodeBody i hwf
  refine ⟨hbody.decode mode big, ?_⟩
  have hprefixes := encodePrefixes_length big i.attrs
  have hpos := hbody.length_pos
  have hle := hbody.length_le
  rw [encode, List.length_append, Config.maxInsnLen]
  omega

theorem decode_of_encode_eq {mode : SizePrefixMode} {big : Bool} {i : Instr} {bs : List Byte} (h : encode big i = bs)
    (hwf : i.wf = true) : decode mode big bs = .ok i [] := by
  rw [← h, ← List.append_nil (encode big i)]
  exact (decodeOfEncode mode big i hwf).1 []

/-- Settles O1: each word is the encoding of its instruction. -/
theorem specWordsDecode : Obligations.SpecWordsDecode :=
  ⟨decode_of_encode_eq rfl rfl, decode_of_encode_eq rfl rfl, decode_of_encode_eq rfl rfl, decode_of_encode_eq rfl rfl,
    decode_of_encode_eq rfl rfl, decode_of_encode_eq rfl rfl, decode_of_encode_eq rfl rfl, decode_of_encode_eq rfl rfl,
    decode_of_encode_eq rfl rfl, decode_of_encode_eq rfl rfl⟩

end Sys2Proof
end

section
/-! PROOFS. Of 30_encoding R131 to R145: how a step ends whose bytes decode to nothing, or are not all fetched. -/

namespace Sys2Proof.Machine

/-! ### A step that runs an instruction -/

theorem step_of_runsNext {s : State} (h : runsNext s) : step s = runInstr s := by
  obtain ⟨hrun, hbudget, hpause⟩ := h
  simp only [step, schedule, hrun, runLoop, if_neg (Nat.not_le.mpr hbudget), hpause, Bool.false_eq_true, if_false]

theorem endInstr_abortState (s : State) (k : AbortInfo) : endInstr (abortState s k) = abortState s k := if_pos rfl

theorem step_of_fetch_raised {s t : State} {e : Exc} (h : runsNext s)
    (hf : fetchDecode (setStart s s.eip) = .raised e t) : step s = endOutcome (.next (takeException t e)) := by
  rw [step_of_runsNext h, runInstr, hf]
  rfl

theorem step_of_fetch_aborted {s t : State} {k : AbortInfo} (h : runsNext s)
    (hf : fetchDecode (setStart s s.eip) = .aborted k t) : step s = .next (abortState t k) := by
  rw [step_of_runsNext h, runInstr, hf]
  exact congrArg Host.Outcome.next (endInstr_abortState t k)

/-! ### The fetch -/

section
variable {s : State} {bs : List Byte}

/-- Fetching any number of the held bytes changes nothing. -/
theorem fetchBytes_take {off : Word} {n : Nat} (h : holdsAt s off bs) (hn : n ≤ bs.length) :
    fetchBytes n off s = (bs.take n, .ok () s) := by
  have hlen : (bs.take n).length = n := by rw [List.length_take, Nat.min_eq_left hn]
  have htake : holdsAt s off (bs.take n) := holdsAt_take (cs := bs.drop n) (by rwa [List.take_append_drop])
  have := fetchBytes_holds_all s (bs.take n) off htake
  rwa [hlen] at this

theorem holdsAt_setStart {off v : Word} (h : holdsAt s off bs) : holdsAt (setStart s v) off bs := h

theorem fetchDecode_err {e : DecodeErr} {rest : List Byte} (h : holdsAt s s.eip bs)
    (hlen : bs.length = Config.maxInsnLen) (hd : decode s.cfg.sizePrefix (getSeg s .cs).cache.big bs = .err e rest) :
    fetchDecode s = .aborted (decodeAbort e (bs.take (bs.length - rest.length))) s := by
  simp only [fetchDecode, ← hlen, fetchBytes_holds_all s bs s.eip h, hd, fetchBytes_take h (Nat.sub_le _ _),
    andThen_ok]

theorem fetchDecode_tooLong (h : holdsAt s s.eip bs) (hlen : bs.length = Config.maxInsnLen)
    (hd : decode s.cfg.sizePrefix (getSeg s .cs).cache.big bs = .more) :
    fetchDecode s = .aborted (.decodeError .tooLong bs) s := by
  simp only [fetchDecode, ← hlen, fetchBytes_holds_all s bs s.eip h, hd, andThen_ok]

/-- Where decoding needs a byte beyond the held ones, the fetch is what the read of that byte makes of it. -/
theorem fetchDecode_of_failing_byte {r : Res Unit} (h : holdsAt s s.eip bs) (hlen : bs.length < Config.maxInsnLen)
    (hd : decode s.cfg.sizePrefix (getSeg s .cs).cache.big bs = .more)
    (hr : ∀ n, fetchBytes (n + 1) (s.eip + BitVec.ofNat 32 bs.length) s = ([], r)) :
    fetchDecode s = r.andThen fun _ t => .aborted (.decodeError .tooLong bs) t := by
  have hf := fetchBytes_holds s bs s.eip (Config.maxInsnLen - bs.length - 1 + 1) h
  rw [hr, show bs.length + (Config.maxInsnLen - bs.length - 1 + 1) = Config.maxInsnLen by omega, List.append_nil] at hf
  simp only [fetchDecode, hf, hd]

theorem fetchDecode_raised {e : Exc} {t : State} (h : holdsAt s s.eip bs) (hlen : bs.length < Config.maxInsnLen)
    (hd : decode s.cfg.sizePrefix (getSeg s .cs).cache.big bs = .more)
    (hr : segRead s .cs (s.eip + BitVec.ofNat 32 bs.length) .byte = .raised e t) : fetchDecode s = .raised e t :=
  fetchDecode_of_failing_byte (r := .raised e t) h hlen hd fun n => by rw [fetchBytes, hr]

theorem fetchDecode_aborted {k : AbortInfo} {t : State} (h : holdsAt s s.eip bs) (hlen : bs.length < Config.maxInsnLen)
    (hd : decode s.cfg.sizePrefix (getSeg s .cs).cache.big bs = .more)
    (hr : segRead s .cs (s.eip + BitVec.ofNat 32 bs.length) .byte = .aborted k t) : fetchDecode s = .aborted k t :=
  fetchDecode_of_failing_byte (r := .aborted k t) h hlen hd fun n => by rw [fetchBytes, hr]

end

/-- A read that fails has changed nothing. -/
theorem segRead_raised_state {s t : State} {r : SegReg} {off : Word} {w : Width} {e : Exc}
    (h : segRead s r off w = .raised e t) : t = s := by
  rcases segRead_cases s r off w with ⟨_, _, c, _⟩ | ⟨_, c⟩ | ⟨_, c⟩ <;> rw [h] at c <;> cases c
  rfl

theorem segRead_aborted_state {s t : State} {r : SegReg} {off : Word} {w : Width} {k : AbortInfo}
    (h : segRead s r off w = .aborted k t) : t = s := by
  rcases segRead_cases s r off w with ⟨_, _, c, _⟩ | ⟨_, c⟩ | ⟨_, c⟩ <;> rw [h] at c <;> cases c
  rfl

/-- Settles O5: the step ends as the fetch does, which stops at the reason or at the byte that cannot be read. -/
theorem undecodableAborts : Obligations.UndecodableAborts := by
  refine ⟨fun s bs hrun hlen hcode => ⟨fun e rest hd => ?_, fun hd => ?_⟩,
    fun s bs o hrun hlen hcode hd ho => ?_⟩
  · exact step_of_fetch_aborted hrun (fetchDecode_err (holdsAt_setStart hcode) hlen hd)
  · exact step_of_fetch_aborted hrun (fetchDecode_tooLong (holdsAt_setStart hcode) hlen hd)
  · subst ho
    have hcode : holdsAt (setStart s s.eip) (setStart s s.eip).eip bs := holdsAt_setStart hcode
    have raised : ∀ e t, segRead (setStart s s.eip) .cs (s.eip + BitVec.ofNat 32 bs.length) .byte = .raised e t →
        step s = endOutcome (.next (takeException t e)) :=
      fun e t hr => step_of_fetch_raised hrun (fetchDecode_raised hcode hlen hd hr)
    have aborted : ∀ k t, segRead (setStart s s.eip) .cs (s.eip + BitVec.ofNat 32 bs.length) .byte = .aborted k t →
        step s = .next (abortState t k) :=
      fun k t hr => step_of_fetch_aborted hrun (fetchDecode_aborted hcode hlen hd hr)
    refine ⟨fun e t hr => ⟨raised e t hr, segRead_raised_state hr⟩,
      fun k t hr => ⟨aborted k t hr, segRead_aborted_state hr⟩, fun hvalid hlimit => ?_⟩
    have hfault := (access_above_limit (setStart s s.eip) .cs _ .byte 0 hvalid hlimit).1
    exact ⟨fun hp => raised _ _ (hfault.trans (segFault_protected _ _ _ _ hp)),
      fun hp => aborted _ _ (hfault.trans (segFault_real _ _ _ _ hp))⟩

end Sys2Proof.Machine
end

section
/-! PROOFS. Of 30_encoding R165 to R184 and 41_data_movement R277 to R282: the address and the segment of a memory operand,
and the instructions that write one register. -/

namespace Sys2Proof.Machine

/-! ### Displacements -/

/-- A word is its signed value modulo any smaller power of two. -/
theorem toInt_emod_two_pow {w n : Nat} (x : BitVec w) (h : n ≤ w) : x.toInt % 2 ^ n = (x.toNat : Int) % 2 ^ n := by
  have hw : x.toInt % ((2 ^ w : Nat) : Int) = (x.toNat : Int) % ((2 ^ w : Nat) : Int) := by
    rw [BitVec.toInt_eq_toNat_bmod, Int.bmod_emod]
  have hdvd : (2 ^ n : Int) ∣ ((2 ^ w : Nat) : Int) := by
    rw [Nat.cast_pow]
    exact pow_dvd_pow 2 h
  rw [← Int.emod_emod_of_dvd x.toInt hdvd, hw, Int.emod_emod_of_dvd _ hdvd]

/-- A displacement of an `n`-bit form counts with its sign, modulo 2^n (30_encoding R168). -/
theorem dispValue_emod {n : Nat} (hn : n ≤ 32) {d : Disp n} {e : Int}
    (h : d = .none ∧ e = 0 ∨ (∃ y, d = .d8 y ∧ e = y.toInt) ∨ ∃ y, d = .full y ∧ e = y.toInt) :
    ((dispValue d).toNat : Int) % 2 ^ n = e % 2 ^ n := by
  obtain ⟨rfl, rfl⟩ | ⟨y, rfl, rfl⟩ | ⟨y, rfl, rfl⟩ := h
  · rfl
  · rw [← toInt_emod_two_pow _ hn]
    exact congrArg (· % 2 ^ n) (BitVec.toInt_signExtend_of_le (by decide))
  · rw [toInt_emod_two_pow y (Nat.le_refl n), dispValue, BitVec.toNat_setWidth_of_le hn]

/-! ### Effective addresses -/

section
variable {s : State}

/-- The registers of a form of 16 bits (30_encoding R165). -/
theorem base16Value_emod {b : Base16} {rs : List Reg}
    (h : (b, rs) ∈ [(Base16.bxsi, [Reg.bx, Reg.si]), (.bxdi, [.bx, .di]), (.bpsi, [.bp, .si]), (.bpdi, [.bp, .di]),
      (.si, [.si]), (.di, [.di]), (.bp, [.bp]), (.bx, [.bx])]) :
    ((base16Value s b).toNat : Int) % 65536 = (rs.map fun r => ((reg32 s r).toNat % 65536 : Int)).sum % 65536 := by
  simp only [List.mem_cons, Prod.mk.injEq, List.not_mem_nil, or_false] at h
  rcases h with ⟨rfl, rfl⟩ | ⟨rfl, rfl⟩ | ⟨rfl, rfl⟩ | ⟨rfl, rfl⟩ | ⟨rfl, rfl⟩ | ⟨rfl, rfl⟩ | ⟨rfl, rfl⟩ | ⟨rfl, rfl⟩ <;>
    simp [base16Value, toNat_getReg_word, BitVec.toNat_add]

theorem effAddr_base16 {b : Base16} {d : Disp 16} {e r : Int} (k : Nat)
    (hb : ((base16Value s b).toNat : Int) % 65536 = r % 65536) (hd : ((dispValue d).toNat : Int) % 65536 = e % 65536) :
    ((effAddr s (.base16 b d) k).toNat : Int) = (r + k + e) % 65536 := by
  have htrunc : (effAddr s (.base16 b d) k).toNat = (base16Value s b + BitVec.ofNat 32 k + dispValue d).toNat % 65536 :=
    toNat_trunc .word _
  rw [htrunc, BitVec.toNat_add, BitVec.toNat_add, BitVec.toNat_ofNat]
  omega

theorem effAddr_abs16 (x : BitVec 16) (k : Nat) : (effAddr s (.abs16 x) k).toNat = (x.toNat + k) % 65536 := by
  have htrunc : (effAddr s (.abs16 x) k).toNat = (BitVec.ofNat 32 k + x.setWidth 32).toNat % 65536 := toNat_trunc .word _
  rw [htrunc, BitVec.toNat_add, BitVec.toNat_ofNat, BitVec.toNat_setWidth_of_le (by decide)]
  omega

theorem effAddr_base32 {r : Reg} {d : Disp 32} {e : Int} (k : Nat)
    (hd : ((dispValue d).toNat : Int) % 2 ^ 32 = e % 2 ^ 32) :
    ((effAddr s (.base32 r d) k).toNat : Int) = ((reg32 s r).toNat + k + e) % 2 ^ 32 := by
  rw [effAddr, BitVec.toNat_add, BitVec.toNat_add, BitVec.toNat_ofNat]
  omega

theorem effAddr_abs32 (x : Word) (k : Nat) : (effAddr s (.abs32 x) k).toNat = (x.toNat + k) % 2 ^ 32 := by
  rw [effAddr, BitVec.toNat_add, BitVec.toNat_ofNat]
  omega

end

/-! ### Segments of memory operands -/

section
variable {a : Attrs}

theorem segFor_override {g : SegReg} (h : a.seg = some g) (m : MemRef) : segFor a m = g ∧ implicitSeg a = g := by
  simp only [segFor, implicitSeg, h, Option.getD_some, and_self]

theorem segFor_default (h : a.seg = none) (m : MemRef) : segFor a m = defaultSeg m := by
  rw [segFor, h, Option.getD_none]

theorem defaultSeg_base16 (b : Base16) (d : Disp 16) :
    defaultSeg (.base16 b d) = if b ∈ [.bpsi, .bpdi, .bp] then .ss else .ds := by
  cases b <;> rfl

theorem defaultSeg_base32 (r : Reg) (d : Disp 32) : defaultSeg (.base32 r d) = if r = .bp then .ss else .ds := by
  cases r <;> rfl

end

/-! ### Writing one register -/

/-- The signed value of the low `w` bits is negative when the sign bit is set (00_scope R13). -/
theorem signed_neg_iff (w : Width) (v : Word) : signed w v < 0 ↔ signBit w v = true := by
  have hmsb : ∀ {n : Nat} (x : BitVec n), x.toInt < 0 ↔ x.msb = true := fun x => by
    rw [BitVec.msb_eq_toInt, decide_eq_true_eq]
  cases w with
  | byte =>
    rw [signed, sext, BitVec.toInt_signExtend_of_le (by decide), hmsb, BitVec.msb_eq_getLsbD_last,
      BitVec.getLsbD_setWidth]
    rfl
  | word =>
    rw [signed, sext, BitVec.toInt_signExtend_of_le (by decide), hmsb, BitVec.msb_eq_getLsbD_last,
      BitVec.getLsbD_setWidth]
    rfl
  | dword => exact hmsb v

theorem regHome_size (sz : Size) (r : Reg) : regHome sz.width r = r := by cases sz <;> rfl

theorem RegsFrame.setReg {but : List Reg} {s u : State} {w : Width} {r : Reg} (h : RegsFrame but s u)
    (hr : regHome w r ∈ but) (v : Word) : RegsFrame but s (setReg u w r v) :=
  ⟨fun q hq => (reg32_setReg_other u w r q v fun e => hq (e ▸ hr)).trans (h.regs q hq), h.memory, h.plain,
    h.system.trans ⟨rfl, rfl, rfl, rfl, rfl, rfl, rfl, rfl, rfl, rfl, rfl, rfl, rfl⟩, h.eip⟩

section
variable {a : Attrs} {s : State}

/-- MOVZX and MOVSX (41_data_movement R278, R279). -/
theorem extend_of_ready {f : ExtForm} (h : (ExtForm.source f).op.ready a s) :
    ∃ v u, readOp a s (ExtForm.source f).op = .ok v u ∧ ReadFrame s u ∧ v.toNat < 2 ^ (ExtForm.source f).width.bits ∧
      exec (.movzx a f) s = .next (setRegSize u a.osz (ExtForm.target f) v) ∧
      exec (.movsx a f) s = .next (setRegSize u a.osz (ExtForm.target f) (sext (ExtForm.source f).width v)) := by
  obtain ⟨v, u, hv, hu⟩ := readOp_ok a s _ h
  have hlt := readOp_lt hv (ext_fits f)
  have hzx : exec (.movzx a f) s = execMovzx a f s := rfl
  have hsx : exec (.movsx a f) s = execMovsx a f s := rfl
  refine ⟨v, u, hv, hu.readFrame, hlt, ?_, ?_⟩
  · rw [hzx, execMovzx, hv, andThen_ok, complete_ok, trunc_of_lt _ _ hlt]
  · rw [hsx, execMovsx, hv, andThen_ok, complete_ok]

/-- CWD and CDQ fill with the sign of the accumulator (R281). -/
theorem exec_cwd : exec (.cwd a) s = .next (setRegSize s a.osz .dx
    (if signed a.osz.width (getRegSize s a.osz .ax) < 0 then maskOf a.osz.width else 0)) := by
  simp only [signed_neg_iff]
  rfl

/-- XLAT (R282). -/
theorem xlat_of_access
    (h : canAccess s (implicitSeg a) (truncSize a.asz (getRegSize s a.asz .bx + getReg s .byte .ax)) .byte) :
    ∃ v u, segRead s (implicitSeg a) (truncSize a.asz (getRegSize s a.asz .bx + getReg s .byte .ax)) .byte = .ok v u ∧
      ReadFrame s u ∧ exec (.xlat a) s = .next (setReg u .byte .ax v) := by
  obtain ⟨v, u, hv, hu⟩ := segRead_ok s _ _ _ h
  have hx : exec (.xlat a) s = execXlat a s := rfl
  exact ⟨v, u, hv, hu.readFrame, by rw [hx, execXlat, hv, andThen_ok, complete_ok]⟩

end

/-- Settles O25: each address and segment by its form, and each instruction ends in one register write. -/
theorem registerResults : Obligations.RegisterResults := by
  refine ⟨fun s b rs d e x k hb hd => ?address16, fun s r d e x k hd => ?address32,
    fun a g b d r d' x y m => ?segment, fun a s => ?instructions⟩
  case address16 => exact ⟨effAddr_base16 k (base16Value_emod hb) (dispValue_emod (by decide) hd), effAddr_abs16 x k⟩
  case address32 => exact ⟨effAddr_base32 k (dispValue_emod (Nat.le_refl 32) hd), effAddr_abs32 x k⟩
  case segment =>
    refine ⟨fun h => segFor_override h m, fun h => ?_⟩
    simp only [segFor_default h, defaultSeg_base16, defaultSeg_base32]
    exact ⟨trivial, trivial, rfl, rfl, by rw [implicitSeg, h, Option.getD_none]⟩
  case instructions =>
    refine ⟨fun g m => rfl, fun f h => ?_, rfl, exec_cwd, fun h => ?_⟩
    · obtain ⟨v, u, hv, hu, hlt, hzx, hsx⟩ := extend_of_ready h
      exact ⟨v, u, hv, hu, hlt, hzx, hsx, (hu.regsFrame _).setReg (by simp [regHome_size])⟩
    · obtain ⟨v, u, hv, hu, hx⟩ := xlat_of_access h
      exact ⟨v, u, hv, hu, hx, (hu.regsFrame _).setReg (by decide) v⟩

end Sys2Proof.Machine
end

section
/-! PROOFS. Of 40_lazy_flags R223 to R260: the flag register as a program sees it, and the instructions that move it. -/

namespace Sys2Proof.Machine

/-! ### The lazy evaluator -/

/-- After a snapshot a flag that has a formula has its value (R226). -/
theorem flagOf_lazyStore_of_formula (s : State) {k : FlagKind} {w : Width} {x y r : Word} {f : Flag} {b : Bool}
    (h : formula f k w x y r = some b) : flagOf (lazyStore s k w x y r) f = b := by
  rw [flagOf_lazyStore, h, Option.getD_some]

/-- Settles O16: what each operation leaves of a flag's value and of its dirty bit. -/
theorem lazyFlagsAreInvisible : Obligations.LazyFlagsAreInvisible := by
  refine ⟨fun s f g => ⟨flagOf_touchFlag s f g, ?_, rfl⟩, fun s f g b => flagOf_setFlag s f g b,
    fun s k w x y r g b h => flagOf_lazyStore_of_formula s h⟩
  exact (LazyFlags.evaluate_dirty s.flags f f).trans (if_pos rfl)

/-! ### Masks, bit by bit -/

/-- A mask is known by its 32 bits. -/
theorem getLsbD_mask {m : Word} {p : Nat → Bool} (h : ∀ i < 32, m.getLsbD i = p i) (hp : ∀ i, p i = true → i < 32)
    (i : Nat) : m.getLsbD i = p i := by
  by_cases hi : i < 32
  · exact h i hi
  · rw [BitVec.getLsbD_of_ge m i (by omega), Bool.eq_false_iff.mpr fun e => hi (hp i e)]

/-- The implemented bits that hold no status flag are the plain ones (10_state R27, R29). -/
theorem eflagsPlain_getLsbD {i : Nat} (h : i ∉ [0, 2, 4, 6, 7, 11]) :
    eflagsPlain.getLsbD i = eflagsImplemented.getLsbD i := by
  by_cases hi : i < 32
  · revert h
    revert i
    decide
  · rw [BitVec.getLsbD_of_ge _ i (by omega), BitVec.getLsbD_of_ge _ i (by omega)]

theorem eflagsImplemented_flag (f : Flag) : eflagsImplemented.getLsbD f.pos = true := by cases f <;> rfl

/-- The bit that always reads 1 is not implemented (10_state R27). -/
theorem constantBit_of_implemented {i : Nat} (h : eflagsImplemented.getLsbD i = true) :
    (2 : Word).getLsbD i = false := by
  by_cases hi : i < 32
  · revert h
    revert i
    decide
  · exact BitVec.getLsbD_of_ge _ i (by omega)

/-! ### The EFLAGS image -/

/-- Two words that agree on the six status flags and on every other bit are equal. -/
theorem eq_of_flag_bits {x y : Word} (h : ∀ f : Flag, x.getLsbD f.pos = y.getLsbD f.pos)
    (g : ∀ i, i ∉ [0, 2, 4, 6, 7, 11] → x.getLsbD i = y.getLsbD i) : x = y := by
  apply BitVec.eq_of_getLsbD_eq
  intro i _
  by_cases hm : i ∈ [0, 2, 4, 6, 7, 11]
  · simp only [List.mem_cons, List.not_mem_nil, or_false] at hm
    rcases hm with rfl | rfl | rfl | rfl | rfl | rfl
    exacts [h .cf, h .pf, h .af, h .zf, h .sf, h .ovf]
  · exact g i hm

/-- `ReadFlags` after `WriteFlags` (R228, R229). -/
theorem flagsImage_writeFlags (s : State) (v m : Word) :
    flagsImage (writeFlags s v m) = mergeBits (flagsImage s) v (m &&& eflagsImplemented) := by
  have hflag : ∀ (t : State) (f : Flag), (flagsImage t).getLsbD f.pos = flagOf t f := fun t =>
    LazyFlags.image_getLsbD_flag t.flags
  refine eq_of_flag_bits (fun f => ?_) (fun i hi => ?_)
  · rw [getLsbD_mergeBits, BitVec.getLsbD_and, eflagsImplemented_flag, Bool.and_true, hflag, hflag, flagOf_writeFlags]
  · rw [getLsbD_mergeBits, BitVec.getLsbD_and, flagsImage, LazyFlags.image_getLsbD _ i hi, writeFlags_flags,
      LazyFlags.writeFlags_getLsbD _ v m i hi, eflagsPlain_getLsbD hi, flagsImage, LazyFlags.image_getLsbD _ i hi]
    cases himpl : eflagsImplemented.getLsbD i with
    | false => simp
    | true =>
      rw [constantBit_of_implemented himpl, Bool.and_true, Bool.and_true, Bool.and_true, Bool.or_false, Bool.or_false]

/-- Settles O17: the image bit by bit, then what evaluating all flags leaves. -/
theorem flagsImageAfterWrite : Obligations.FlagsImageAfterWrite := by
  refine fun s v m => ⟨flagsImage_writeFlags s v m, fun f => ?_, rfl, rfl, flagsImage_touchAllFlags s,
    LazyFlags.evaluateAll_dirty s.flags, rfl⟩
  rw [writeFlags_flags, LazyFlags.writeFlags_dirty]
  cases m.getLsbD f.pos <;> simp

/-! ### Instructions that change one flag (R250 to R256) -/

theorem setsStatusFlag_setFlag (f : Flag) (b : Bool) (s : State) : SetsStatusFlag f b s (setFlag s f b) where
  only := rfl
  value := by rw [flagOf_setFlag, if_pos rfl]
  others g hg := by rw [flagOf_setFlag, if_neg hg]
  plain := keepsPlainFlags_setFlag s f b

/-- Evaluating flags first does not show. -/
theorem SetsStatusFlag.after {f : Flag} {b : Bool} {s u t : State} (h : SetsStatusFlag f b u t) (hu : onlyFlags s u)
    (hf : keepsFlags s u) : SetsStatusFlag f b s t where
  only := by
    have ht := h.only
    unfold onlyFlags at hu ht ⊢
    rw [ht, hu]
  value := h.value
  others g hg := (h.others g hg).trans (hf.1 g)
  plain := keepsPlainFlags_trans hf.2 h.plain

theorem setsPlainFlag_setPlainFlag {i : Nat} (hi : i < 32) (h : ∀ f : Flag, i ≠ f.pos) (b : Bool) (s : State) :
    SetsPlainFlag i b s (setPlainFlag s i b) where
  only := rfl
  value := by rw [plainFlag_setPlainFlag _ _ _ _ hi, if_pos rfl]
  others j hj := by rw [plainFlag_setPlainFlag _ _ _ _ hi, if_neg hj]
  status f := flagOf_setPlainFlag s i b f hi (h f)

theorem dfPos_plain (f : Flag) : dfPos ≠ f.pos := by cases f <;> decide

theorem ifPos_plain (f : Flag) : ifPos ≠ f.pos := by cases f <;> decide

theorem ioplGuard_of_may {s : State} (h : pe s = false ∨ s.cpl ≤ iopl s) : ioplGuard s = .ok () s := by
  refine raiseIf_false ?_ _ _
  rcases h with h | h
  · rw [h, Bool.false_and]
  · rw [decide_eq_false (BitVec.not_lt.mpr h), Bool.and_false]

theorem ioplGuard_of_above {s : State} (hp : pe s = true) (h : iopl s < s.cpl) : ioplGuard s = .raised (.gp 0) s := by
  rw [ioplGuard, hp, decide_eq_true h]
  rfl

/-- CLI and STI, past their guard and stopped by it (R255, R256). -/
theorem exec_cli_sti (a : Attrs) (s : State) :
    exec (.cli a) s = complete ((ioplGuard s).andThen fun _ s => .ok () (setPlainFlag s ifPos false)) ∧
    exec (.sti a) s = complete ((ioplGuard s).andThen fun _ s => .ok () (setPlainFlag s ifPos true)) := ⟨rfl, rfl⟩

/-- Settles O21: each instruction is one update of the flag register, after its guard. -/
theorem flagInstructions : Obligations.FlagInstructions := by
  intro a s
  obtain ⟨hcli, hsti⟩ := exec_cli_sti a s
  refine ⟨⟨_, rfl, setsStatusFlag_setFlag .cf false s⟩, ⟨_, rfl, setsStatusFlag_setFlag .cf true s⟩, ⟨_, rfl, ?_⟩,
    ⟨_, rfl, setsPlainFlag_setPlainFlag (by decide) dfPos_plain false s⟩,
    ⟨_, rfl, setsPlainFlag_setPlainFlag (by decide) dfPos_plain true s⟩, fun h => ?_, fun hp h => ?_⟩
  · exact (setsStatusFlag_setFlag .cf _ (touchFlag s .cf)).after rfl (keepsFlags_touchFlag s .cf)
  · rw [hcli, hsti, ioplGuard_of_may h]
    exact ⟨⟨_, rfl, setsPlainFlag_setPlainFlag (by decide) ifPos_plain false s⟩,
      ⟨_, rfl, setsPlainFlag_setPlainFlag (by decide) ifPos_plain true s⟩⟩
  · rw [hcli, hsti, ioplGuard_of_above hp h]
    exact ⟨rfl, rfl⟩

/-! ### PUSHF, POPF, LAHF, SAHF (R257 to R260) -/

/-- The image PUSHF stores, bit by bit (R257). -/
theorem pushfImage_getLsbD (v : Word) (i : Nat) :
    (pushfImage .s16 v).getLsbD i = (v.getLsbD i && decide (i < 16)) ∧
    (pushfImage .s32 v).getLsbD i = (v.getLsbD i && decide (i < 24 ∧ i ≠ 16 ∧ i ≠ 17)) := by
  refine ⟨(getLsbD_trunc .word v i).trans (Bool.and_comm _ _), ?_⟩
  rw [pushfImage, BitVec.getLsbD_and,
    getLsbD_mask (m := 0x00FCFFFF) (p := fun i => decide (i < 24 ∧ i ≠ 16 ∧ i ≠ 17)) (by decide)
      fun i h => by rw [decide_eq_true_eq] at h; omega]

/-- The bits POPF may load (R258). -/
theorem loadableFlags_getLsbD (s : State) (i : Nat) : (loadableFlags s).getLsbD i = true ↔
    i ∈ [0, 2, 4, 6, 7, 8, 10, 11, 14] ∨ (i = 9 ∧ (pe s = false ∨ s.cpl ≤ iopl s)) ∨
      ((i = 12 ∨ i = 13) ∧ (pe s = false ∨ s.cpl = 0)) := by
  have hbase := getLsbD_mask (m := 0x00004DD5) (p := fun i => decide (i ∈ [0, 2, 4, 6, 7, 8, 10, 11, 14])) (by decide)
    (fun i h => by simp at h; omega) i
  have hif := getLsbD_mask (m := 0x00000200) (p := fun i => decide (i = 9)) (by decide)
    (fun i h => by simp at h; omega) i
  have hiopl := getLsbD_mask (m := 0x00003000) (p := fun i => decide (i = 12 ∨ i = 13)) (by decide)
    (fun i h => by simp at h; omega) i
  have hsel : ∀ (c : Prop) [Decidable c] (m : Word),
      (if c then m else 0).getLsbD i = true ↔ m.getLsbD i = true ∧ c := by
    intro c _ m
    split <;> simp [*]
  simp only [loadableFlags, BitVec.getLsbD_or, hsel, hbase, hif, hiopl, isReal, Bool.or_eq_true, decide_eq_true_eq,
    Bool.not_eq_true', or_assoc]

theorem v86Guard_of_low {s : State} (h : ¬mayV86 s) : v86Guard s = .raised (.gp 0) s := by
  obtain ⟨hv, hi⟩ := not_or.mp h
  rw [v86Guard, Bool.eq_true_of_not_eq_false hv, decide_eq_true hi]
  rfl

/-- Moving the stack pointer writes ESP alone (41_data_movement R290). -/
theorem keepsRegs_setStackPtr (s : State) (v : Word) : keepsRegs [.sp] s (setStackPtr s v) := by
  intro r hr
  refine reg32_setReg_other s _ .sp r v fun e => hr ?_
  rw [e]
  split <;> exact List.mem_singleton.mpr rfl

/-- What a push leaves, from a state that differs in the flag register's stored form alone. -/
theorem stackFrame_of_push {s u t : State} {k : Nat} {w : Width} {v p : Word} (hu : StoresFrame [] s u)
    (hs : segWrite u .ss (slotBelow s k) w v = .ok () t) : StackFrame s (setStackPtr t p) k w := by
  have hst := segWrite_stored hs
  rw [storeHome_of_system hu.system] at hst
  obtain ⟨hregs, hmem, hflags, heip, hsys⟩ := hu.trans hst.storesFrame
  refine ⟨fun r hr => (keepsRegs_setStackPtr t p r hr).trans (reg32_congr s t hregs r), fun x hx => ?_, hflags,
    hsys.trans ⟨rfl, rfl, rfl, rfl, rfl, rfl, rfl, rfl, rfl, rfl, rfl, rfl, rfl⟩⟩
  exact hmem x fun q hq b hb => by
    rw [List.nil_append, List.mem_singleton] at hq
    rw [hq] at hb ⊢
    exact hx b hb

section
variable {a : Attrs} {s : State}

/-- PUSHF and POPF in V8086 mode with IOPL below 3 (R257, R258). -/
theorem pushf_popf_of_low (h : ¬mayV86 s) :
    exec (.pushf a) s = .next (takeException s (.gp 0)) ∧ exec (.popf a) s = .next (takeException s (.gp 0)) := by
  have hpush : exec (.pushf a) s = execPushf a s := rfl
  have hpop : exec (.popf a) s = execPopf a s := rfl
  rw [hpush, hpop, execPushf, execPopf, v86Guard_of_low h]
  exact ⟨rfl, rfl⟩

/-- PUSHF (R257). -/
theorem pushf_of_ready (hv : mayV86 s) (h : canStore s a.osz a.osz.bytes) :
    ∃ u, segWrite (touchAllFlags s) .ss (slotBelow s a.osz.bytes) a.osz.width (pushfImage a.osz (flagsImage s)) =
        .ok () u ∧
      exec (.pushf a) s = .next (setStackPtr u (slotBelow s a.osz.bytes)) ∧
      StackFrame s (setStackPtr u (slotBelow s a.osz.bytes)) a.osz.bytes a.osz.width ∧ u.eip = s.eip := by
  obtain ⟨u, hu, hpush, hst⟩ := push_ok (touchAllFlags s) a.osz (pushfImage a.osz (flagsImage s)) h
  have hx : exec (.pushf a) s = execPushf a s := rfl
  refine ⟨u, hu, ?_, stackFrame_of_push (storesFrame_touchAllFlags s) hu, hst.eip⟩
  rw [hx, execPushf, v86Guard_of_may hv, andThen_ok, hpush, complete_ok]
  rfl

/-- The mask of POPF reads the mode and the privilege alone. -/
theorem ReadFrame.loadableFlags_drop {u : State} (h : ReadFrame s u) (k : Nat) :
    loadableFlags (drop u k) = loadableFlags s := by
  have hreal : isReal (drop u k) = isReal s := congrArg (fun c : CtlRegs => !c.cr0.getLsbD 0) h.system.ctl
  have hcpl : (drop u k).cpl = s.cpl := h.system.cpl
  have hiopl : iopl (drop u k) = iopl s := congrArg (fun l : LazyFlags => l.value.extractLsb' 12 2) h.flags
  rw [loadableFlags, hreal, hcpl, hiopl]
  rfl

/-- POPF (R258). -/
theorem popf_of_ready (hv : mayV86 s) (h : canFetch s a.osz 0) :
    ∃ v u, peek s a.osz 0 = .ok v u ∧ ReadFrame s u ∧
      exec (.popf a) s = .next (writeFlags (drop u a.osz.bytes) v (loadableFlags s)) ∧
      keepsRegs [.sp] s (writeFlags (drop u a.osz.bytes) v (loadableFlags s)) := by
  obtain ⟨v, u, hpeek, hpop, hd⟩ := pop_ok s a.osz h
  have hx : exec (.popf a) s = execPopf a s := rfl
  refine ⟨v, u, hpeek, hd.readFrame, ?_, fun r hr => ?_⟩
  · rw [hx, execPopf, v86Guard_of_may hv, andThen_ok, hpop, andThen_ok, complete_ok, hd.readFrame.loadableFlags_drop]
  · exact (keepsRegs_setStackPtr u _ r hr).trans (reg32_congr s u hd.regs r)

/-- AH is written without a change to AL (10_state R23). -/
theorem getReg_al_setReg_ah (t : State) (v : Word) : getReg (setReg t .byte .sp v) .byte .ax = getReg t .byte .ax := by
  apply BitVec.eq_of_getLsbD_eq
  intro i _
  have hal : ∀ u, (getReg u .byte .ax).getLsbD i = (decide (i < 8) && (reg32 u .ax).getLsbD i) := fun u =>
    getLsbD_trunc .byte (reg32 u .ax) i
  have hhome : reg32 (setReg t .byte .sp v) .ax = writeReg32 .byte true (reg32 t .ax) v :=
    reg32_setReg_home t .byte .sp v
  rw [hal, hal, hhome, getLsbD_writeReg32, fieldLow]
  by_cases hi : i < 8
  · rw [if_neg fun h => absurd h.1 (Nat.not_le.mpr hi)]
  · rw [decide_eq_false hi, Bool.false_and, Bool.false_and]

/-- LAHF (R259). -/
theorem exec_lahf : ∃ t, exec (.lahf a) s = .next t ∧ getReg t .byte .sp = flagsImage s &&& 0xFF ∧ RegsFrame [.ax] s t ∧
    getReg t .byte .ax = getReg s .byte .ax ∧ ∀ f, flagOf t f = flagOf s f := by
  obtain ⟨hregs, hmem, hflags, heip, hsys⟩ := storesFrame_touchAllFlags s
  have hframe : RegsFrame [.ax] s (touchAllFlags s) :=
    ⟨fun r _ => reg32_congr s _ hregs r, fun _ => rfl, hflags.2, hsys, heip⟩
  exact ⟨_, rfl, getReg_setReg_same _ .byte .sp _, hframe.setReg (List.mem_singleton.mpr rfl) _,
    getReg_al_setReg_ah _ _, hflags.1⟩

end

/-- Settles O22: the image and the loadable bits bit by bit, and each instruction by its one access. -/
theorem flagTransfers : Obligations.FlagTransfers := by
  exact ⟨pushfImage_getLsbD, fun a s => ⟨pushf_popf_of_low, pushf_of_ready, popf_of_ready, exec_lahf,
    loadableFlags_getLsbD s, _, rfl, rfl, flagsImage_writeFlags s (getReg s .byte .sp) 0xD5⟩⟩

end Sys2Proof.Machine
end

section
/-! PROOFS. Of 40_lazy_flags R225 to R233: what the rows of the formula table mean in integers. -/

namespace Sys2Proof.Machine

/-! ### Numbers of a width -/

/-- Half the range of a width: the weight of the sign bit. -/
def halfRange (w : Width) : Nat := 2 ^ (w.bits - 1)

theorem two_pow_bits (w : Width) : 2 ^ w.bits = 2 * halfRange w := by cases w <;> rfl

theorem int_two_pow_halfRange (w : Width) : (2 : Int) ^ (w.bits - 1) = halfRange w := by cases w <;> rfl

theorem bits_le (w : Width) : w.bits ≤ 32 := by cases w <;> decide

theorem two_pow_bits_dvd (w : Width) : ((2 ^ w.bits : Nat) : Int) ∣ ((2 ^ 32 : Nat) : Int) :=
  Int.natCast_dvd_natCast.mpr (pow_dvd_pow 2 (bits_le w))

theorem signBit_eq {w : Width} {x : Word} (h : x.toNat < 2 ^ w.bits) :
    signBit w x = decide (halfRange w ≤ x.toNat) := by
  rw [signBit, ← BitVec.testBit_toNat, halfRange]
  by_cases hx : 2 ^ (w.bits - 1) ≤ x.toNat
  · have hlt : x.toNat < 2 ^ (w.bits - 1 + 1) := by cases w <;> exact h
    simp [hx, Nat.testBit_of_two_pow_le_and_two_pow_add_one_gt hx hlt]
  · simp [hx, Nat.testBit_lt_two_pow (Nat.lt_of_not_le hx)]

/-- `signed_N` is the balanced remainder modulo 2^N (00_scope R13). -/
theorem signed_eq_bmod (w : Width) (v : Word) : signed w v = (v.toNat : Int).bmod (2 ^ w.bits) := by
  cases w with
  | byte =>
    rw [signed, sext, BitVec.toInt_signExtend_of_le (by decide), BitVec.toInt_eq_toNat_bmod, BitVec.toNat_setWidth,
      Int.natCast_emod, Int.emod_bmod]
    rfl
  | word =>
    rw [signed, sext, BitVec.toInt_signExtend_of_le (by decide), BitVec.toInt_eq_toNat_bmod, BitVec.toNat_setWidth,
      Int.natCast_emod, Int.emod_bmod]
    rfl
  | dword => exact BitVec.toInt_eq_toNat_bmod v

theorem signed_cases {w : Width} {x : Word} (h : x.toNat < 2 ^ w.bits) :
    (x.toNat < halfRange w ∧ signed w x = x.toNat) ∨
      (halfRange w ≤ x.toNat ∧ signed w x = x.toNat - 2 * halfRange w) := by
  rw [two_pow_bits] at h
  have hmod : (x.toNat : Int) % ((2 * halfRange w : Nat) : Int) = x.toNat := Int.emod_eq_of_lt (by omega) (by omega)
  rw [signed_eq_bmod, two_pow_bits, Int.bmod, hmod]
  split <;> omega

/-! ### Sums and differences -/

theorem bitWord_eq (c : Bool) : bitWord c = (BitVec.ofBool c).setWidth 32 := by cases c <;> rfl

theorem toNat_bitWord (c : Bool) : (bitWord c).toNat = c.toNat := by cases c <;> rfl

theorem toInt_bool (c : Bool) : c.toInt = c.toNat := by cases c <;> rfl

theorem toNat_trunc_add (w : Width) (x y : Word) (c : Bool) :
    (trunc w (x + y + bitWord c)).toNat = (x.toNat + y.toNat + c.toNat) % 2 ^ w.bits := by
  rw [toNat_trunc, BitVec.toNat_add, BitVec.toNat_add, toNat_bitWord]
  cases w <;> simp only [Width.bits] <;> omega

theorem toNat_trunc_sub {w : Width} (x : Word) {y : Word} (hy : y.toNat < 2 ^ w.bits) (c : Bool) :
    (trunc w (x - y - bitWord c)).toNat = (x.toNat + 2 * 2 ^ w.bits - y.toNat - c.toNat) % 2 ^ w.bits := by
  have hc := c.toNat_lt
  rw [toNat_trunc, BitVec.toNat_sub, BitVec.toNat_sub, toNat_bitWord]
  cases w <;> simp only [Width.bits] at * <;> omega

section
variable {w : Width} {x y : Word} (hx : x.toNat < 2 ^ w.bits) (hy : y.toNat < 2 ^ w.bits) (c : Bool)
include hx hy

/-- A sum of the width is the integer sum, or 2^N less when it carries. -/
theorem toNat_trunc_add_cases : (x.toNat + y.toNat + c.toNat < 2 ^ w.bits ∧
      (trunc w (x + y + bitWord c)).toNat = x.toNat + y.toNat + c.toNat) ∨
    (2 ^ w.bits ≤ x.toNat + y.toNat + c.toNat ∧
      (trunc w (x + y + bitWord c)).toNat + 2 ^ w.bits = x.toNat + y.toNat + c.toNat) := by
  have hc := c.toNat_lt
  rw [toNat_trunc_add]
  cases w <;> simp only [Width.bits] at * <;> omega

/-- A difference of the width is the integer difference, or 2^N more when it borrows. -/
theorem toNat_trunc_sub_cases : (y.toNat + c.toNat ≤ x.toNat ∧
      (trunc w (x - y - bitWord c)).toNat + y.toNat + c.toNat = x.toNat) ∨
    (x.toNat < y.toNat + c.toNat ∧
      (trunc w (x - y - bitWord c)).toNat + y.toNat + c.toNat = x.toNat + 2 ^ w.bits) := by
  have hc := c.toNat_lt
  rw [toNat_trunc_sub x hy]
  cases w <;> simp only [Width.bits] at * <;> omega

end

theorem eq_zero_iff_toNat (r : Word) : r = 0 ↔ r.toNat = 0 := BitVec.toNat_inj.symm

/-- The carry in is what is left of the sum, and of the difference (40_lazy_flags R233). -/
theorem carryIn_of_sum (w : Width) (x y z : Word) : trunc w (trunc w (x + y + z) - x - y) = trunc w z := by
  apply BitVec.eq_of_toNat_eq
  simp only [toNat_trunc, BitVec.toNat_sub, BitVec.toNat_add]
  cases w <;> simp only [Width.bits] <;> omega

theorem borrowIn_of_difference (w : Width) (x y z : Word) : trunc w (x - y - trunc w (x - y - z)) = trunc w z := by
  apply BitVec.eq_of_toNat_eq
  simp only [toNat_trunc, BitVec.toNat_sub]
  cases w <;> simp only [Width.bits] <;> omega

theorem trunc_bitWord_eq_zero (w : Width) (c : Bool) : trunc w (bitWord c) = 0 ↔ c = false := by
  cases w <;> cases c <;> decide

/-! ### The carry into bit 4 (R231) -/

theorem four_lt_bits (w : Width) : 4 < w.bits := by cases w <;> decide

theorem halfCarry_add (w : Width) (x y : Word) (c : Bool) :
    (x ^^^ y ^^^ trunc w (x + y + bitWord c)).getLsbD 4 = decide (16 ≤ x.toNat % 16 + y.toNat % 16 + c.toNat) := by
  have hcarry : BitVec.carry 4 x y c = decide (16 ≤ x.toNat % 16 + y.toNat % 16 + c.toNat) := rfl
  rw [BitVec.getLsbD_xor, BitVec.getLsbD_xor, getLsbD_trunc, decide_eq_true (four_lt_bits w), Bool.true_and, bitWord_eq,
    BitVec.getLsbD_add_add_bool (by decide), hcarry]
  cases x.getLsbD 4 <;> cases y.getLsbD 4 <;> simp

/-- A difference is a sum with the complement: no borrow is a carry. -/
theorem sub_eq_add_not (x y : Word) (c : Bool) : x - y - bitWord c = x + ~~~y + bitWord (!c) := by
  have hone : bitWord (!c) = 1#32 - bitWord c := by cases c <;> rfl
  rw [hone, BitVec.sub_eq_add_neg x y, BitVec.neg_eq_not_add]
  ring

theorem halfBorrow_sub (w : Width) (x y : Word) (c : Bool) :
    (x ^^^ y ^^^ trunc w (x - y - bitWord c)).getLsbD 4 = decide (x.toNat % 16 < y.toNat % 16 + c.toNat) := by
  have hsum := halfCarry_add w x (~~~y) (!c)
  rw [← sub_eq_add_not, BitVec.getLsbD_xor, BitVec.getLsbD_xor, BitVec.getLsbD_not, decide_eq_true (by decide),
    Bool.true_and, Bool.xor_not, Bool.not_xor] at hsum
  rw [BitVec.getLsbD_xor, BitVec.getLsbD_xor, ← Bool.not_not (_ ^^ _), hsum, ← decide_not, decide_eq_decide,
    BitVec.toNat_not]
  have hy := y.isLt
  cases c <;> simp <;> omega

/-! ### Signed overflow (R232) -/

theorem signBit_xor_and (w : Width) (a b c d : Word) :
    signBit w ((a ^^^ b) &&& (c ^^^ d)) = ((signBit w a ^^ signBit w b) && (signBit w c ^^ signBit w d)) := by
  simp only [signBit, BitVec.getLsbD_and, BitVec.getLsbD_xor]

section
variable {w : Width} {x y : Word} (hx : x.toNat < 2 ^ w.bits) (hy : y.toNat < 2 ^ w.bits) (c : Bool)
include hx hy

theorem overflow_add : signBit w ((x ^^^ trunc w (x + y + bitWord c)) &&& (y ^^^ trunc w (x + y + bitWord c))) =
    decide (signed w x + signed w y + c.toInt < -2 ^ (w.bits - 1) ∨
      2 ^ (w.bits - 1) ≤ signed w x + signed w y + c.toInt) := by
  have hr := toNat_trunc_add_cases hx hy c
  have hlt := trunc_lt w (x + y + bitWord c)
  have hsx := signed_cases hx
  have hsy := signed_cases hy
  have hc := c.toNat_lt
  rw [signBit_xor_and, signBit_eq hx, signBit_eq hy, signBit_eq (trunc_lt _ _), Bool.eq_iff_iff, int_two_pow_halfRange,
    toInt_bool, Bool.and_eq_true, bne_iff_ne, bne_iff_ne, Ne, Ne]
  simp only [decide_eq_decide, decide_eq_true_eq]
  rw [two_pow_bits] at hx hy hr hlt
  omega

theorem overflow_sub : signBit w ((x ^^^ y) &&& (x ^^^ trunc w (x - y - bitWord c))) =
    decide (signed w x - signed w y - c.toInt < -2 ^ (w.bits - 1) ∨
      2 ^ (w.bits - 1) ≤ signed w x - signed w y - c.toInt) := by
  have hr := toNat_trunc_sub_cases hx hy c
  have hlt := trunc_lt w (x - y - bitWord c)
  have hsx := signed_cases hx
  have hsy := signed_cases hy
  have hc := c.toNat_lt
  rw [signBit_xor_and, signBit_eq hx, signBit_eq hy, signBit_eq (trunc_lt _ _), Bool.eq_iff_iff, int_two_pow_halfRange,
    toInt_bool, Bool.and_eq_true, bne_iff_ne, bne_iff_ne, Ne, Ne]
  simp only [decide_eq_decide, decide_eq_true_eq]
  rw [two_pow_bits] at hx hy hr hlt
  omega

end

/-! ### Reading a flag after a snapshot of operands that fit -/

section
variable {w : Width} {x y r : Word} {k : FlagKind} {b : Bool} (hx : x.toNat < 2 ^ w.bits) (hy : y.toNat < 2 ^ w.bits)
  (hr : r.toNat < 2 ^ w.bits) (s : State)
include hx hy hr

theorem flagOf_cf_lazyStore (h : formulaCf k w x y r = some b) : flagOf (lazyStore s k w x y r) .cf = b :=
  flagOf_lazyStore_of_formula s (by rw [formula, trunc_of_lt w x hx, trunc_of_lt w y hy, trunc_of_lt w r hr]; exact h)

theorem flagOf_af_lazyStore (h : formulaAf k x y r = some b) : flagOf (lazyStore s k w x y r) .af = b :=
  flagOf_lazyStore_of_formula s (by rw [formula, trunc_of_lt w x hx, trunc_of_lt w y hy, trunc_of_lt w r hr]; exact h)

theorem flagOf_ovf_lazyStore (h : formulaOf k w x y r = some b) : flagOf (lazyStore s k w x y r) .ovf = b :=
  flagOf_lazyStore_of_formula s (by rw [formula, trunc_of_lt w x hx, trunc_of_lt w y hy, trunc_of_lt w r hr]; exact h)

end

/-! ### ADD and ADC -/

section
variable {w : Width} {x y : Word} {k : FlagKind} {c : Bool}

/-- The carry out, with and without a carry in (R230, R233). -/
theorem formulaCf_sum (hx : x.toNat < 2 ^ w.bits) (hy : y.toNat < 2 ^ w.bits) (hk : k = .adc ∨ (k = .add ∧ c = false)) :
    formulaCf k w x y (trunc w (x + y + bitWord c)) = some (decide (2 ^ w.bits ≤ x.toNat + y.toNat + c.toNat)) := by
  have hsum := toNat_trunc_add_cases hx hy c
  have hcarry : trunc w (trunc w (x + y + bitWord c) - x - y) = 0 ↔ c = false :=
    (carryIn_of_sum w x y (bitWord c)).symm ▸ trunc_bitWord_eq_zero w c
  rcases hk with rfl | ⟨rfl, rfl⟩
  · simp only [formulaCf, hcarry, BitVec.lt_def, BitVec.le_def]
    cases c <;> simp at hsum ⊢ <;> omega
  · simp only [formulaCf, BitVec.lt_def, Option.some.injEq, decide_eq_decide]
    simp at hsum ⊢
    omega

theorem formulaAf_sum (hk : k = .adc ∨ (k = .add ∧ c = false)) :
    formulaAf k x y (trunc w (x + y + bitWord c)) = some (decide (16 ≤ x.toNat % 16 + y.toNat % 16 + c.toNat)) := by
  rw [← halfCarry_add w]
  rcases hk with rfl | ⟨rfl, _⟩ <;> rfl

theorem formulaOf_sum (hx : x.toNat < 2 ^ w.bits) (hy : y.toNat < 2 ^ w.bits) (hk : k = .adc ∨ (k = .add ∧ c = false)) :
    formulaOf k w x y (trunc w (x + y + bitWord c)) =
      some (decide (signed w x + signed w y + c.toInt < -2 ^ (w.bits - 1) ∨
        2 ^ (w.bits - 1) ≤ signed w x + signed w y + c.toInt)) := by
  rw [← overflow_add hx hy]
  rcases hk with rfl | ⟨rfl, _⟩ <;> rfl

end

/-- Settles O18: each row by its formula, ZF by the sum modulo 2^N. -/
theorem additionFlags : Obligations.AdditionFlags := by
  intro s w x y c k hx hy hk
  have hlt := trunc_lt w (x + y + bitWord c)
  have hres := resultFlags_lazyStore s k w x y (x + y + bitWord c)
  refine ⟨flagOf_cf_lazyStore hx hy hlt s (formulaCf_sum hx hy hk),
    flagOf_af_lazyStore hx hy hlt s (formulaAf_sum hk), ?_,
    flagOf_ovf_lazyStore hx hy hlt s (formulaOf_sum hx hy hk), hres⟩
  rw [hres.zf, decide_eq_decide, eq_zero_iff_toNat, toNat_trunc_add]

/-! ### SUB, CMP and SBB -/

/-- The greatest number of a width. -/
theorem toNat_maskOf (w : Width) : (maskOf w).toNat + 1 = 2 ^ w.bits := by cases w <;> rfl

section
variable {w : Width} {x y : Word} {k : FlagKind} {c : Bool}

/-- The borrow, with and without a borrow in (R230, R233). -/
theorem formulaCf_difference (hx : x.toNat < 2 ^ w.bits) (hy : y.toNat < 2 ^ w.bits)
    (hk : k = .sbb ∨ (k = .sub ∧ c = false) ∨ (k = .cmp ∧ c = false)) :
    formulaCf k w x y (trunc w (x - y - bitWord c)) = some (decide (x.toNat < y.toNat + c.toNat)) := by
  have hdiff := toNat_trunc_sub_cases hx hy c
  have hmask := toNat_maskOf w
  have hborrow : trunc w (x - y - trunc w (x - y - bitWord c)) = 0 ↔ c = false :=
    (borrowIn_of_difference w x y (bitWord c)).symm ▸ trunc_bitWord_eq_zero w c
  rcases hk with rfl | ⟨rfl, rfl⟩ | ⟨rfl, rfl⟩
  · simp only [formulaCf, hborrow, BitVec.lt_def, ← BitVec.toNat_inj]
    cases c
    · simp
    · simp at hdiff ⊢
      rw [← Bool.decide_or, decide_eq_decide]
      omega
  · simp only [formulaCf, BitVec.lt_def, Bool.toNat_false, Nat.add_zero]
  · simp only [formulaCf, BitVec.lt_def, Bool.toNat_false, Nat.add_zero]

theorem formulaAf_difference (hk : k = .sbb ∨ (k = .sub ∧ c = false) ∨ (k = .cmp ∧ c = false)) :
    formulaAf k x y (trunc w (x - y - bitWord c)) = some (decide (x.toNat % 16 < y.toNat % 16 + c.toNat)) := by
  rw [← halfBorrow_sub w]
  rcases hk with rfl | ⟨rfl, _⟩ | ⟨rfl, _⟩ <;> rfl

theorem formulaOf_difference (hx : x.toNat < 2 ^ w.bits) (hy : y.toNat < 2 ^ w.bits)
    (hk : k = .sbb ∨ (k = .sub ∧ c = false) ∨ (k = .cmp ∧ c = false)) :
    formulaOf k w x y (trunc w (x - y - bitWord c)) =
      some (decide (signed w x - signed w y - c.toInt < -2 ^ (w.bits - 1) ∨
        2 ^ (w.bits - 1) ≤ signed w x - signed w y - c.toInt)) := by
  rw [← overflow_sub hx hy]
  rcases hk with rfl | ⟨rfl, _⟩ | ⟨rfl, _⟩ <;> rfl

end

/-! ### NEG -/

theorem toNat_and_15 (r : Word) : (r &&& 0xF).toNat = r.toNat % 16 := by
  rw [BitVec.toNat_and]
  exact Nat.and_two_pow_sub_one_eq_mod r.toNat 4

theorem toNat_msbWord (w : Width) : (msbWord w).toNat = halfRange w := by cases w <;> rfl

/-- The low four bits of a number of a width wrap with it. -/
theorem sixteen_dvd_two_pow_bits (w : Width) : 2 ^ w.bits % 16 = 0 := by cases w <;> rfl

theorem toNat_trunc_neg_cases {w : Width} {x : Word} (hx : x.toNat < 2 ^ w.bits) :
    (x.toNat = 0 ∧ (trunc w (0 - x)).toNat = 0) ∨ (0 < x.toNat ∧ (trunc w (0 - x)).toNat + x.toNat = 2 ^ w.bits) := by
  have h := toNat_trunc_sub_cases (w := w) (x := 0) (y := x) (Nat.two_pow_pos _) hx false
  have hz : 0 - x - bitWord false = 0 - x := BitVec.sub_zero _
  rw [hz] at h
  simp at h ⊢
  omega

/-- NEG's rows (R230 to R232). -/
theorem neg_flags (s : State) (w : Width) (x : Word) (hx : x.toNat < 2 ^ w.bits) :
    flagOf (lazyStore s .neg w x 0 (trunc w (0 - x))) .cf = decide (x ≠ 0) ∧
    flagOf (lazyStore s .neg w x 0 (trunc w (0 - x))) .af = decide (x.toNat % 16 ≠ 0) ∧
    flagOf (lazyStore s .neg w x 0 (trunc w (0 - x))) .zf = decide (x = 0) ∧
    flagOf (lazyStore s .neg w x 0 (trunc w (0 - x))) .ovf = decide (x = msbWord w) ∧
    ResultFlags w (trunc w (0 - x)) (lazyStore s .neg w x 0 (trunc w (0 - x))) := by
  have hneg := toNat_trunc_neg_cases hx
  have h16 := sixteen_dvd_two_pow_bits w
  have hhalf := two_pow_bits w
  have hlt := trunc_lt w (0 - x)
  have hzero : (0 : Word).toNat < 2 ^ w.bits := Nat.two_pow_pos _
  have hres := resultFlags_lazyStore s .neg w x 0 (0 - x)
  have hz : trunc w (0 - x) = 0 ↔ x = 0 := by
    rw [eq_zero_iff_toNat, eq_zero_iff_toNat]
    omega
  refine ⟨flagOf_cf_lazyStore hx hzero hlt s ?_, flagOf_af_lazyStore hx hzero hlt s ?_, ?_,
    flagOf_ovf_lazyStore hx hzero hlt s ?_, hres⟩
  · simp only [formulaCf, ne_eq, hz]
  · rw [formulaAf, Option.some.injEq, decide_eq_decide, ne_eq, eq_zero_iff_toNat, toNat_and_15]
    omega
  · rw [hres.zf, decide_eq_decide, hz]
  · rw [formulaOf, Option.some.injEq, decide_eq_decide, ← BitVec.toNat_inj, ← BitVec.toNat_inj, toNat_msbWord]
    omega

/-- Settles O19: as for the sums, with the borrow; then NEG. -/
theorem subtractionFlags : Obligations.SubtractionFlags := by
  refine ⟨fun s w x y c k hx hy hk => ?_, neg_flags⟩
  have hlt := trunc_lt w (x - y - bitWord c)
  have hres := resultFlags_lazyStore s k w x y (x - y - bitWord c)
  refine ⟨flagOf_cf_lazyStore hx hy hlt s (formulaCf_difference hx hy hk),
    flagOf_af_lazyStore hx hy hlt s (formulaAf_difference hk), ?_,
    flagOf_ovf_lazyStore hx hy hlt s (formulaOf_difference hx hy hk), hres⟩
  rw [hres.zf, decide_eq_decide, eq_zero_iff_toNat, toNat_trunc_sub x hy]

/-! ### MUL and IMUL -/

theorem signed_trunc (w : Width) (v : Word) : signed w (trunc w v) = signed w v := by
  rw [signed_eq_bmod, signed_eq_bmod, toNat_trunc, Int.natCast_emod, Int.emod_bmod]

/-- The low half of a product counts as the balanced remainder of the signed product. -/
theorem signed_mul (w : Width) (x y : Word) : signed w (x * y) = (signed w x * signed w y).bmod (2 ^ w.bits) := by
  rw [signed_eq_bmod, signed_eq_bmod, signed_eq_bmod, Int.bmod_mul_bmod, Int.mul_bmod_bmod, BitVec.toNat_mul,
    ← Int.emod_bmod, Int.natCast_emod, Int.emod_emod_of_dvd _ (two_pow_bits_dvd w), Int.emod_bmod, Int.natCast_mul]

/-- A signed number is its balanced remainder modulo 2^N exactly when N bits hold it. -/
theorem ne_bmod_iff (w : Width) (p : Int) :
    p ≠ p.bmod (2 ^ w.bits) ↔ p < -2 ^ (w.bits - 1) ∨ 2 ^ (w.bits - 1) ≤ p := by
  have hpos : 0 < halfRange w := Nat.two_pow_pos _
  rw [ne_comm, Ne, two_pow_bits, Int.bmod_eq_iff (by omega), int_two_pow_halfRange, sub_self]
  simp only [dvd_zero, and_true]
  omega

section
variable {w : Width} {x y : Word} (hx : x.toNat < 2 ^ w.bits) (hy : y.toNat < 2 ^ w.bits) (s : State)
include hx hy

/-- The unsigned product does not fit its low half (R230, R232). -/
theorem flagOf_lazyStore_mul {f : Flag} (hf : f = .cf ∨ f = .ovf) :
    flagOf (lazyStore s .mul w x y (trunc w (x * y))) f = decide (2 ^ w.bits ≤ x.toNat * y.toNat) := by
  have hrow : formulaCf .mul w x y (trunc w (x * y)) = some (decide (2 ^ w.bits ≤ x.toNat * y.toNat)) := by
    rw [formulaCf, Option.some.injEq, decide_eq_decide, Nat.div_ne_zero_iff]
    exact and_iff_right (Nat.two_pow_pos _).ne'
  rcases hf with rfl | rfl
  · exact flagOf_cf_lazyStore hx hy (trunc_lt _ _) s hrow
  · exact flagOf_ovf_lazyStore hx hy (trunc_lt _ _) s hrow

/-- The signed product does not fit its low half. -/
theorem flagOf_lazyStore_imul {f : Flag} (hf : f = .cf ∨ f = .ovf) :
    flagOf (lazyStore s .imul w x y (trunc w (x * y))) f =
      decide (signed w x * signed w y < -2 ^ (w.bits - 1) ∨ 2 ^ (w.bits - 1) ≤ signed w x * signed w y) := by
  have hrow : formulaCf .imul w x y (trunc w (x * y)) = some (decide
      (signed w x * signed w y < -2 ^ (w.bits - 1) ∨ 2 ^ (w.bits - 1) ≤ signed w x * signed w y)) := by
    rw [formulaCf, Option.some.injEq, decide_eq_decide, signed_trunc, signed_mul, ne_bmod_iff]
  rcases hf with rfl | rfl
  · exact flagOf_cf_lazyStore hx hy (trunc_lt _ _) s hrow
  · exact flagOf_ovf_lazyStore hx hy (trunc_lt _ _) s hrow

end

theorem af_resultFlags_of_product (s : State) (w : Width) (x y : Word) {k : FlagKind} (hk : k = .mul ∨ k = .imul) :
    flagOf (lazyStore s k w x y (trunc w (x * y))) .af = false ∧
      ResultFlags w (trunc w (x * y)) (lazyStore s k w x y (trunc w (x * y))) := by
  refine ⟨?_, resultFlags_lazyStore s k w x y (x * y)⟩
  rw [flagOf_lazyStore]
  rcases hk with rfl | rfl <;> rfl

/-! ### INC and DEC -/

theorem one_lt_two_pow_bits (w : Width) : (1 : Word).toNat < 2 ^ w.bits := by cases w <;> decide

section
variable {w : Width} {x : Word} (hx : x.toNat < 2 ^ w.bits) (s : State)
include hx

theorem inc_ovf_af :
    flagOf (lazyStore s .inc w x 1 (trunc w (x + 1))) .ovf = decide (2 ^ (w.bits - 1) ≤ signed w x + 1) ∧
    flagOf (lazyStore s .inc w x 1 (trunc w (x + 1))) .af = decide (x.toNat % 16 = 15) := by
  have hone := one_lt_two_pow_bits w
  have hsum := toNat_trunc_add_cases hx hone false
  rw [show x + 1 + bitWord false = x + 1 from BitVec.add_zero _] at hsum
  have h16 := sixteen_dvd_two_pow_bits w
  have hhalf := two_pow_bits w
  have hsx := signed_cases hx
  have hlt := trunc_lt w (x + 1)
  simp only [Bool.toNat_false, show (1 : Word).toNat = 1 from rfl] at hsum
  refine ⟨flagOf_ovf_lazyStore hx hone hlt s ?_, flagOf_af_lazyStore hx hone hlt s ?_⟩
  · rw [formulaOf, Option.some.injEq, decide_eq_decide, ← BitVec.toNat_inj, toNat_msbWord, int_two_pow_halfRange]
    omega
  · rw [formulaAf, Option.some.injEq, decide_eq_decide, eq_zero_iff_toNat, toNat_and_15]
    omega

theorem dec_ovf_af :
    flagOf (lazyStore s .dec w x 1 (trunc w (x - 1))) .ovf = decide (signed w x - 1 < -2 ^ (w.bits - 1)) ∧
    flagOf (lazyStore s .dec w x 1 (trunc w (x - 1))) .af = decide (x.toNat % 16 = 0) := by
  have hone := one_lt_two_pow_bits w
  have hdiff := toNat_trunc_sub_cases hx hone false
  rw [show x - 1 - bitWord false = x - 1 from BitVec.sub_zero _] at hdiff
  have h16 := sixteen_dvd_two_pow_bits w
  have hhalf := two_pow_bits w
  have hsx := signed_cases hx
  have hlt := trunc_lt w (x - 1)
  have hmsb : (msbWord w - 1).toNat + 1 = halfRange w := by cases w <;> rfl
  simp only [Bool.toNat_false, show (1 : Word).toNat = 1 from rfl] at hdiff
  refine ⟨flagOf_ovf_lazyStore hx hone hlt s ?_, flagOf_af_lazyStore hx hone hlt s ?_⟩
  · rw [formulaOf, Option.some.injEq, decide_eq_decide, ← BitVec.toNat_inj, int_two_pow_halfRange]
    omega
  · rw [formulaAf, Option.some.injEq, decide_eq_decide, ← BitVec.toNat_inj, toNat_and_15,
      show (0xF : Word).toNat = 15 from rfl]
    omega

end

/-- INC and DEC put CF back; ZF, SF and PF follow the result (R225, R227). -/
theorem stepFlags_keepCf (s : State) (k : FlagKind) (w : Width) (x v : Word) (c : Bool) :
    flagOf (setFlag (lazyStore s k w x 1 (trunc w v)) .cf c) .cf = c ∧
      ResultFlags w (trunc w v) (setFlag (lazyStore s k w x 1 (trunc w v)) .cf c) :=
  ⟨by rw [flagOf_setFlag, if_pos rfl], (resultFlags_lazyStore s k w x 1 v).setFlag .cf c (by decide)⟩

/-- Settles O20: each row by its formula. -/
theorem multiplyAndStepFlags : Obligations.MultiplyAndStepFlags := by
  refine ⟨fun s w x y f hx hy hf => ⟨flagOf_lazyStore_mul hx hy s hf, flagOf_lazyStore_imul hx hy s hf⟩,
    fun s w x y k hk => af_resultFlags_of_product s w x y hk, fun s w x c hx => ?_⟩
  obtain ⟨hincOf, hincAf⟩ := inc_ovf_af hx s
  obtain ⟨hdecOf, hdecAf⟩ := dec_ovf_af hx s
  refine ⟨?_, ?_, ?_, ?_, ?_⟩
  · rintro k r (⟨rfl, rfl⟩ | ⟨rfl, rfl⟩) <;> exact stepFlags_keepCf s _ w x _ c
  · rw [flagOf_setFlag, if_neg (by decide), hincOf]
  · rw [flagOf_setFlag, if_neg (by decide), hincAf]
  · rw [flagOf_setFlag, if_neg (by decide), hdecOf]
  · rw [flagOf_setFlag, if_neg (by decide), hdecAf]

end Sys2Proof.Machine
end

section
/-! PROOFS. Of 42_arithmetic_logic R335 to R364: logic, compare, one operand, multiply, in every form. -/

namespace Sys2Proof.Machine

/-! ### Two operands in order -/

theorem readTwo_of_ready {a : Attrs} {s : State} {p q : Operand} (hp : p.ready a s) (hq : q.ready a s) :
    ∃ x y s1 s2, readOp a s p = .ok x s1 ∧ readOp a s1 q = .ok y s2 ∧ DeviceOnly s s2 := by
  obtain ⟨x, s1, hx, h1⟩ := readOp_ok a s p hp
  obtain ⟨y, s2, hy, h2⟩ := readOp_ok a s1 q ((h1.ready a q).mpr hq)
  exact ⟨x, y, s1, s2, hx, hy, h1.trans h2⟩

/-- What a write leaves after reads alone. -/
theorem writeOp_after_reads {a : Attrs} {s u : State} {op : Operand} (hd : DeviceOnly s u) (h : op.ready a s)
    (v : Word) : ∃ t, writeOp a u op v = .ok () t ∧ OperandFrame a op s t ∧ t.flags = s.flags := by
  obtain ⟨t, ht, hw⟩ := writeOp_ok a u op v ((hd.ready a op).mpr h)
  obtain ⟨_, _, _, hflags, _⟩ := hw.frame
  exact ⟨t, ht, operandFrame_of_read hd hw, hflags.trans hd.flags⟩

/-! ### A snapshot of which some flags are undefined (40_lazy_flags R226, R235) -/

/-- The snapshot, and then a free value for each flag of `fs` where the parameters allow one. -/
def storeLeavingFree (s : State) (k : FlagKind) (w : Width) (x y r : Word) (fs : List Flag) : State :=
  leaveAllFree (lazyStore s k w x y r) fs

section
variable (s : State) (k : FlagKind) (w : Width) (x y r : Word) (fs : List Flag)

theorem storeLeavingFree_eq : storeLeavingFree s k w x y r fs = { s with
    flags := (storeLeavingFree s k w x y r fs).flags, freeCount := (storeLeavingFree s k w x y r fs).freeCount } :=
  (leaveAllFree_spec fs (lazyStore s k w x y r)).1

theorem flagOf_storeLeavingFree {g : Flag} (hg : g ∉ fs) :
    flagOf (storeLeavingFree s k w x y r fs) g = flagOf (lazyStore s k w x y r) g :=
  (leaveAllFree_spec fs (lazyStore s k w x y r)).2.1 g hg

theorem keepsPlainFlags_storeLeavingFree : keepsPlainFlags s (storeLeavingFree s k w x y r fs) :=
  keepsPlainFlags_trans (keepsPlainFlags_lazyStore s k w x y r) (leaveAllFree_spec fs (lazyStore s k w x y r)).2.2

theorem storeLeavingFree_regs : (storeLeavingFree s k w x y r fs).regs = s.regs := by rw [storeLeavingFree_eq]

theorem storeLeavingFree_mem : (storeLeavingFree s k w x y r fs).mem = s.mem := by rw [storeLeavingFree_eq]

theorem storeLeavingFree_decided (h : s.cfg.undefFlags = .decided) :
    storeLeavingFree s k w x y r fs = lazyStore s k w x y r := leaveAllFree_decided _ fs h

end

theorem OperandFrame.storeLeavingFree {a : Attrs} {op : Operand} {s v : State} (h : OperandFrame a op s v)
    (k : FlagKind) (w : Width) (x y r : Word) (fs : List Flag) :
    OperandFrame a op s (storeLeavingFree v k w x y r fs) :=
  h.afterFlags (storeLeavingFree_eq v k w x y r fs) (keepsPlainFlags_storeLeavingFree v k w x y r fs)

/-- Storing flags afterwards keeps the frame. -/
theorem RegsFrame.afterFlags {but : List Reg} {s v t : State} (h : RegsFrame but s v)
    (e : t = { v with flags := t.flags, freeCount := t.freeCount }) (hp : keepsPlainFlags v t) : RegsFrame but s t := by
  rw [e]
  refine ⟨h.regs, h.memory, fun i hi => (hp i hi).trans (h.plain i hi), h.system.trans ?_, h.eip⟩
  exact ⟨rfl, rfl, rfl, rfl, rfl, rfl, rfl, rfl, rfl, rfl, rfl, rfl, rfl⟩

theorem RegsFrame.storeLeavingFree {but : List Reg} {s v : State} (h : RegsFrame but s v) (k : FlagKind) (w : Width)
    (x y r : Word) (fs : List Flag) : RegsFrame but s (storeLeavingFree v k w x y r fs) :=
  h.afterFlags (storeLeavingFree_eq v k w x y r fs) (keepsPlainFlags_storeLeavingFree v k w x y r fs)

/-! ### AND, OR, XOR, TEST (R360 to R363) -/

/-- The flags of a logic result, AF left undefined (40_lazy_flags R230 to R232, R235). -/
theorem logic_flags_leavingFree (s : State) {w : Width} {r : Word} (x y : Word) (hr : r.toNat < 2 ^ w.bits) :
    flagOf (storeLeavingFree s .logic w x y r [.af]) .cf = false ∧
    flagOf (storeLeavingFree s .logic w x y r [.af]) .ovf = false ∧
    flagOf (storeLeavingFree s .logic w x y r [.af]) .zf = decide (r = 0) ∧
    flagOf (storeLeavingFree s .logic w x y r [.af]) .sf = signBit w r ∧
    flagOf (storeLeavingFree s .logic w x y r [.af]) .pf = evenParity r ∧
    (s.cfg.undefFlags = .decided → flagOf (storeLeavingFree s .logic w x y r [.af]) .af = false) := by
  have hres := resultFlags_lazyStore s .logic w x y r
  rw [trunc_of_lt w r hr] at hres
  have hfree : ∀ g, g ≠ .af →
      flagOf (storeLeavingFree s .logic w x y r [.af]) g = flagOf (lazyStore s .logic w x y r) g :=
    fun g hg => flagOf_storeLeavingFree _ _ _ _ _ _ _ (List.mem_singleton.not.mpr hg)
  refine ⟨(hfree .cf (by decide)).trans (flagOf_lazyStore ..), (hfree .ovf (by decide)).trans (flagOf_lazyStore ..),
    (hfree .zf (by decide)).trans hres.zf, (hfree .sf (by decide)).trans hres.sf,
    (hfree .pf (by decide)).trans (hres.pf.trans (evenParity_eq_countP r).symm), fun h => ?_⟩
  rw [storeLeavingFree_decided _ _ _ _ _ _ _ h]
  exact flagOf_lazyStore ..

section
variable {a : Attrs} {s s1 s2 : State} {t : TwoOperands} {x y : Word} {op : Word → Word → Word}
  (hx : readOp a s t.dst = .ok x s1) (hy : readOp a s1 t.src = .ok y s2) (hr : (op x y).toNat < 2 ^ t.width.bits)
include hx hy hr

theorem logicWrite_of_reads {u : State} (hu : writeOp a s2 t.dst (op x y) = .ok () u) :
    logicWrite a t op s = .ok () (storeLeavingFree u .logic t.width x y (op x y) [.af]) := by
  simp only [logicWrite, aluWrite, hx, hy, andThen_ok, trunc_of_lt _ _ hr, Bool.false_eq_true, if_false, hu]
  rfl

theorem logicTest_of_reads :
    ((aluTest a t .logic op s).andThen fun _ s => .ok () (leaveFree s .af)) =
      .ok () (storeLeavingFree s2 .logic t.width x y (op x y) [.af]) := by
  simp only [aluTest, hx, hy, andThen_ok, trunc_of_lt _ _ hr]
  rfl

end

/-- AND, OR and XOR are the logic form with their operation. -/
theorem exec_logic {mk : Attrs → AluForm → Instr} {x y r : Word}
    (h : (mk = .and ∧ r = x &&& y) ∨ (mk = .or ∧ r = x ||| y) ∨ (mk = .xor ∧ r = x ^^^ y)) :
    ∃ op : Word → Word → Word, op x y = r ∧ (∀ n, x.toNat < 2 ^ n → y.toNat < 2 ^ n → r.toNat < 2 ^ n) ∧
      ∀ a f s, exec (mk a f) s = complete (logicWrite a (AluForm.operands a f) op s) := by
  rcases h with ⟨rfl, rfl⟩ | ⟨rfl, rfl⟩ | ⟨rfl, rfl⟩
  · refine ⟨(· &&& ·), rfl, fun n _ hy => ?_, fun _ _ _ => rfl⟩
    rw [BitVec.toNat_and]
    exact Nat.and_lt_two_pow _ hy
  · refine ⟨(· ||| ·), rfl, fun n hx hy => ?_, fun _ _ _ => rfl⟩
    rw [BitVec.toNat_or]
    exact Nat.or_lt_two_pow hx hy
  · refine ⟨(· ^^^ ·), rfl, fun n hx hy => ?_, fun _ _ _ => rfl⟩
    rw [BitVec.toNat_xor]
    exact Nat.xor_lt_two_pow hx hy

/-- Settles O34: both reads, the write, then the snapshot. -/
theorem logicResults : Obligations.LogicResults := by
  intro a f s h
  obtain ⟨x, y, s1, s2, hx, hy, hd⟩ := readTwo_of_ready h.1 h.2
  refine ⟨x, y, s1, s2, hx, hy, fun mk r hm => ?_⟩
  obtain ⟨op, rfl, hfit, hexec⟩ := exec_logic hm
  have hr := hfit _ (readOp_lt hx (alu_fits a f).1) (readOp_lt hy (alu_fits a f).2)
  obtain ⟨u, hu, hframe, _⟩ := writeOp_after_reads hd h.1 (op x y)
  have hflags := logic_flags_leavingFree u x y hr
  rw [hframe.system.cfg] at hflags
  refine ⟨u, _, hu, ?_, hframe.storeLeavingFree .logic _ x y (op x y) [.af], storeLeavingFree_regs ..,
    storeLeavingFree_mem .., hflags⟩
  rw [hexec, logicWrite_of_reads hx hy hr hu, complete_ok]

/-- CMP, once both operands are read (R335). -/
theorem exec_cmp_of_reads {a : Attrs} {f : AluForm} {s s1 s2 : State} {x y : Word}
    (hx : readOp a s (AluForm.operands a f).dst = .ok x s1) (hy : readOp a s1 (AluForm.operands a f).src = .ok y s2) :
    exec (.cmp a f) s =
      .next (lazyStore s2 .cmp (AluForm.operands a f).width x y (trunc (AluForm.operands a f).width (x - y))) := by
  have hexec : exec (.cmp a f) s = execCmp a f s := rfl
  rw [hexec, execCmp, aluTest, hx, andThen_ok, hy, andThen_ok, complete_ok]

/-- Settles O35: both reads, then the snapshot. -/
theorem compareResults : Obligations.CompareResults := by
  refine fun a s => ⟨fun f h => ?_, fun f h => ?_⟩
  · obtain ⟨x, y, s1, s2, hx, hy, hd⟩ := readTwo_of_ready h.1 h.2
    exact ⟨x, y, s1, s2, hx, hy, exec_cmp_of_reads hx hy, hd.readFrame⟩
  · obtain ⟨x, y, s1, s2, hx, hy, hd⟩ := readTwo_of_ready h.1 h.2
    have hr : (x &&& y).toNat < 2 ^ (TestForm.operands a f).width.bits := by
      rw [BitVec.toNat_and]
      exact Nat.and_lt_two_pow _ (readOp_lt hy (testForm_fits a f).2)
    have hexec : exec (.test a f) s = execTest a f s := rfl
    have hflags := logic_flags_leavingFree s2 x y hr
    rw [hd.cfg] at hflags
    refine ⟨x, y, s1, s2, _, hx, hy, ?_,
      (hd.readFrame.regsFrame []).storeLeavingFree .logic _ x y (x &&& y) [.af], hflags⟩
    rw [hexec, execTest, logicTest_of_reads (op := fun x y => x &&& y) hx hy hr, complete_ok]

/-! ### INC, DEC, NEG, NOT (R336 to R338, R364) -/

theorem storesFrame_touchFlag (s : State) (f : Flag) : StoresFrame [] s (touchFlag s f) :=
  storesFrame_of_onlyFlags rfl (keepsFlags_touchFlag s f)

/-- INC and DEC, once the operand is read: CF is read, the result written, CF put back (40_lazy_flags R227). -/
theorem stepOperand_of_read {a : Attrs} {s u : State} {t : OneOperand} {x : Word} (h : t.op.ready a s)
    (hx : readOp a s t.op = .ok x u) (k : FlagKind) (op : Word → Word) :
    ∃ v z, writeOp a (touchFlag u .cf) t.op (trunc t.width (op x)) = .ok () v ∧
      complete (stepOperand a t k op s) = .next z ∧
      z = setFlag (lazyStore v k t.width x 1 (trunc t.width (op x))) .cf (flagOf s .cf) ∧
      flagOf z .cf = flagOf s .cf ∧ OperandFrame a t.op s z := by
  have hd := readOp_device hx
  have hcf := flagOf_congr s u hd.flags .cf
  have htouch := (storesFrame_of_readOp hx).trans (storesFrame_touchFlag u .cf)
  have hready := (ready_of_system a htouch.system htouch.regs t.op).mpr h
  obtain ⟨v, hv, hw⟩ := writeOp_ok a (touchFlag u .cf) t.op (trunc t.width (op x)) hready
  refine ⟨v, _, hv, ?_, rfl, by rw [flagOf_setFlag, if_pos rfl], ?_⟩
  · simp only [stepOperand, hx, andThen_ok, hv, hcf, complete_ok]
  · have hframe := operandFrame_of_written htouch.regs hd.mem htouch.flags.2 htouch.system htouch.eip hw
    exact hframe.afterFlags rfl
      (keepsPlainFlags_trans (keepsPlainFlags_lazyStore v k t.width x 1 _) (keepsPlainFlags_setFlag _ .cf _))

section
variable {a : Attrs} {f : UnaryForm} {s u v : State} {x : Word}

theorem exec_neg_of_writes (hx : readOp a s (UnaryForm.operand a f).op = .ok x u)
    (hv : writeOp a u (UnaryForm.operand a f).op (trunc (UnaryForm.operand a f).width (0 - x)) = .ok () v) :
    exec (.neg a f) s = .next (lazyStore v .neg (UnaryForm.operand a f).width x 0
      (trunc (UnaryForm.operand a f).width (0 - x))) := by
  have hexec : exec (.neg a f) s = execNeg a f s := rfl
  rw [hexec, execNeg, hx, andThen_ok]
  dsimp only
  rw [hv, andThen_ok, complete_ok]

theorem exec_not_of_writes (hx : readOp a s (UnaryForm.operand a f).op = .ok x u)
    (hv : writeOp a u (UnaryForm.operand a f).op (x ^^^ maskOf (UnaryForm.operand a f).width) = .ok () v) :
    exec (.not a f) s = .next v := by
  have hexec : exec (.not a f) s = execNot a f s := rfl
  rw [hexec, execNot, hx, andThen_ok, hv, complete_ok]

end

/-- Settles O36: the read, the write, and what is stored of the flags. -/
theorem unaryResults : Obligations.UnaryResults := by
  refine fun a s => ⟨fun f h => ?_, fun f h => ?_⟩
  · obtain ⟨x, u, hx, _⟩ := readOp_ok a s _ h
    exact ⟨x, u, hx, stepOperand_of_read h hx .inc fun x => x + 1, stepOperand_of_read h hx .dec fun x => x - 1⟩
  · obtain ⟨x, u, hx, hd⟩ := readOp_ok a s _ h
    obtain ⟨v, hv, hvframe, _⟩ := writeOp_after_reads hd h (trunc (UnaryForm.operand a f).width (0 - x))
    obtain ⟨t, ht, htframe, htflags⟩ := writeOp_after_reads hd h (x ^^^ maskOf (UnaryForm.operand a f).width)
    exact ⟨x, u, hx, ⟨v, hv, exec_neg_of_writes hx hv, hvframe⟩, t, ht, exec_not_of_writes hx ht, htframe, htflags⟩

/-! ### Products and their low halves -/

theorem ofNat_product (x y : Word) : BitVec.ofNat 64 (x.toNat * y.toNat) = x.setWidth 64 * y.setWidth 64 := by
  apply BitVec.eq_of_toNat_eq
  rw [BitVec.toNat_mul, BitVec.toNat_setWidth_of_le (by decide), BitVec.toNat_setWidth_of_le (by decide),
    BitVec.toNat_ofNat]

theorem trunc_product (w : Width) (x y : Word) :
    trunc w ((x.setWidth 64 * y.setWidth 64).setWidth 32) = trunc w (x * y) := by
  rw [BitVec.setWidth_mul _ _ (by decide), BitVec.setWidth_setWidth_of_le _ (by decide),
    BitVec.setWidth_setWidth_of_le _ (by decide), BitVec.setWidth_eq, BitVec.setWidth_eq]

theorem ofNat_product_mod (w : Width) (x y : Word) :
    BitVec.ofNat 32 (x.toNat * y.toNat % 2 ^ w.bits) = trunc w (x * y) := by
  apply BitVec.eq_of_toNat_eq
  rw [toNat_trunc, BitVec.toNat_mul, BitVec.toNat_ofNat, Nat.mod_mod_of_dvd _ (pow_dvd_pow 2 (bits_le w))]
  have hlt := Nat.mod_lt (x.toNat * y.toNat) (Nat.two_pow_pos w.bits)
  exact Nat.mod_eq_of_lt (lt_of_lt_of_le hlt (Nat.pow_le_pow_right (by decide) (bits_le w)))

/-- The low half of an integer of 64 bits is that of its low 32. -/
theorem trunc_ofInt_double (w : Width) (p : Int) : trunc w ((BitVec.ofInt 64 p).setWidth 32) = ofIntTrunc w p := by
  have h : (BitVec.ofInt 64 p).setWidth 32 = BitVec.ofInt 32 p := by
    apply BitVec.eq_of_toNat_eq
    rw [BitVec.toNat_setWidth, BitVec.toNat_ofInt, BitVec.toNat_ofInt]
    omega
  rw [h, ofIntTrunc]

/-- The signed and the unsigned product have the same low half. -/
theorem ofIntTrunc_product (w : Width) (x y : Word) : ofIntTrunc w (signed w x * signed w y) = trunc w (x * y) := by
  have hdvd := two_pow_bits_dvd w
  apply BitVec.eq_of_toNat_eq
  apply Int.ofNat_inj.mp
  rw [ofIntTrunc, toNat_trunc, toNat_trunc, BitVec.toNat_ofInt, BitVec.toNat_mul, Int.natCast_emod, Int.natCast_emod,
    Int.toNat_of_nonneg (Int.emod_nonneg _ (by decide)), Int.emod_emod_of_dvd _ hdvd, Int.natCast_emod,
    Int.emod_emod_of_dvd _ hdvd, Int.natCast_mul, signed_eq_bmod, signed_eq_bmod, Int.mul_emod, Int.bmod_emod,
    Int.bmod_emod, ← Int.mul_emod]

/-! ### MUL and IMUL (R350 to R352) -/

theorem setDouble_frame {s u : State} (h : ReadFrame s u) (w : Width) (p : BitVec 64) :
    RegsFrame [.ax, .dx] s (setDouble u w p) := by
  have hu := h.regsFrame [.ax, .dx]
  cases w with
  | byte => exact hu.setReg (by decide) _
  | word => exact (hu.setReg (by decide) _).setReg (by decide) _
  | dword => exact (hu.setReg (by decide) _).setReg (by decide) _

theorem setDouble_regs_congr {s u : State} (h : u.regs = s.regs) (w : Width) (p : BitVec 64) :
    (setDouble u w p).regs = (setDouble s w p).regs := by
  cases w <;> simp only [setDouble, setReg, reg32, h]

/-- Where the halves of a double-width value go, and no other bit (R350). -/
theorem setDouble_halves (s : State) (w : Width) (p : BitVec 64) :
    keepsRegs [.ax, .dx] s (setDouble s w p) ∧ setDouble s w p = { s with regs := (setDouble s w p).regs } ∧
    (w = .byte → reg32 (setDouble s w p) .ax = (reg32 s .ax &&& 0xFFFF0000) ||| (p.setWidth 32 &&& 0xFFFF) ∧
      reg32 (setDouble s w p) .dx = reg32 s .dx) ∧
    (w = .word → reg32 (setDouble s w p) .ax = (reg32 s .ax &&& 0xFFFF0000) ||| (p.setWidth 32 &&& 0xFFFF) ∧
      reg32 (setDouble s w p) .dx = (reg32 s .dx &&& 0xFFFF0000) ||| ((p >>> 16).setWidth 32 &&& 0xFFFF)) ∧
    (w = .dword → reg32 (setDouble s w p) .ax = p.setWidth 32 ∧
      reg32 (setDouble s w p) .dx = (p >>> 32).setWidth 32) := by
  refine ⟨(setDouble_frame (.refl s) w p).regs, by cases w <;> rfl, fun h => ?_, fun h => ?_, fun h => ?_⟩ <;>
    subst h <;> exact ⟨rfl, rfl⟩

/-- The flags of a product, four of them left undefined (40_lazy_flags R230 to R232, R235). -/
theorem product_flags_leavingFree (s : State) (w : Width) (x y : Word) {k : FlagKind} (hk : k = .mul ∨ k = .imul) :
    (∀ g, g = .cf ∨ g = .ovf → flagOf (storeLeavingFree s k w x y (trunc w (x * y)) mulUndefined) g =
      flagOf (lazyStore s k w x y (trunc w (x * y))) g) ∧
    (s.cfg.undefFlags = .decided →
      flagOf (storeLeavingFree s k w x y (trunc w (x * y)) mulUndefined) .af = false ∧
      ResultFlags w (trunc w (x * y)) (storeLeavingFree s k w x y (trunc w (x * y)) mulUndefined)) := by
  refine ⟨fun g hg => flagOf_storeLeavingFree _ _ _ _ _ _ _ ?_, fun h => ?_⟩
  · rcases hg with rfl | rfl <;> decide
  · rw [storeLeavingFree_decided _ _ _ _ _ _ _ h]
    exact af_resultFlags_of_product s w x y hk

/-- What MUL and the one-operand IMUL leave when their operand is read: the product `p`, and its snapshot. -/
def afterDouble (u : State) (k : FlagKind) (w : Width) (x y : Word) (p : BitVec 64) : State :=
  storeLeavingFree (setDouble u w p) k w x y (trunc w (x * y)) mulUndefined

theorem afterDouble_spec {s u : State} (hu : ReadFrame s u) (w : Width) (x y : Word) (p : BitVec 64) {k : FlagKind}
    (hk : k = .mul ∨ k = .imul) :
    (afterDouble u k w x y p).regs = (setDouble s w p).regs ∧
    (∀ g, g = .cf ∨ g = .ovf → flagOf (afterDouble u k w x y p) g =
      flagOf (lazyStore (setDouble u w p) k w x y (trunc w (x * y))) g) ∧
    (s.cfg.undefFlags = .decided → flagOf (afterDouble u k w x y p) .af = false ∧
      ResultFlags w (trunc w (x * y)) (afterDouble u k w x y p)) ∧
    RegsFrame [.ax, .dx] s (afterDouble u k w x y p) := by
  have hframe := setDouble_frame hu w p
  obtain ⟨hover, hdecided⟩ := product_flags_leavingFree (setDouble u w p) w x y hk
  rw [hframe.system.cfg] at hdecided
  exact ⟨(storeLeavingFree_regs ..).trans (setDouble_regs_congr hu.regs w p), hover, hdecided,
    hframe.storeLeavingFree k w x y _ mulUndefined⟩

section
variable {a : Attrs} {f : UnaryForm} {s u : State} {y : Word} (hy : readOp a s (UnaryForm.operand a f).op = .ok y u)
include hy

theorem exec_mul_of_read : exec (.mul a f) s = .next (afterDouble u .mul (UnaryForm.operand a f).width
    (accumulator s (UnaryForm.operand a f).width) y
    (BitVec.ofNat 64 ((accumulator s (UnaryForm.operand a f).width).toNat * y.toNat))) := by
  have hexec : exec (.mul a f) s = execMul a f s := rfl
  have hacc := getReg_congr s u (readOp_device hy).regs (UnaryForm.operand a f).width .ax
  simp only [hexec, execMul, hy, andThen_ok, complete_ok, accumulator, hacc, trunc_product, ofNat_product, afterDouble,
    storeLeavingFree]

theorem exec_imulOne_of_read : exec (.imulOne a f) s = .next (afterDouble u .imul (UnaryForm.operand a f).width
    (accumulator s (UnaryForm.operand a f).width) y
    (BitVec.ofInt 64 (signed (UnaryForm.operand a f).width (accumulator s (UnaryForm.operand a f).width) *
      signed (UnaryForm.operand a f).width y))) := by
  have hexec : exec (.imulOne a f) s = execImulOne a f s := rfl
  have hacc := getReg_congr s u (readOp_device hy).regs (UnaryForm.operand a f).width .ax
  simp only [hexec, execImulOne, hy, andThen_ok, complete_ok, accumulator, hacc, trunc_ofInt_double, ofIntTrunc_product,
    afterDouble, storeLeavingFree]

end

theorem imul_fits (a : Attrs) (f : ImulForm) :
    (ImulForm.operands a f).src1.fits a.osz.width ∧ (ImulForm.operands a f).src2.fits a.osz.width := by
  cases f with
  | gvEv g e => exact ⟨rfl, rmOp_fits _ e⟩
  | gvEvIv g e i => exact ⟨rmOp_fits _ e, trunc_lt _ _⟩
  | gvEvIb g e i => exact ⟨rmOp_fits _ e, trunc_lt _ _⟩

/-- IMUL writes a register. -/
theorem imul_dst_ready (a : Attrs) (f : ImulForm) (s : State) : (ImulForm.operands a f).dst.ready a s := by
  cases f <;> trivial

theorem exec_imul_of_writes {a : Attrs} {f : ImulForm} {s s1 s2 u : State} {x y : Word}
    (hx : readOp a s (ImulForm.operands a f).src1 = .ok x s1) (hy : readOp a s1 (ImulForm.operands a f).src2 = .ok y s2)
    (hu : writeOp a s2 (ImulForm.operands a f).dst (trunc a.osz.width (x * y)) = .ok () u) :
    exec (.imul a f) s =
      .next (storeLeavingFree u .imul a.osz.width x y (trunc a.osz.width (x * y)) mulUndefined) := by
  have hexec : exec (.imul a f) s = execImul a f s := rfl
  simp only [hexec, execImul, hx, hy, andThen_ok, ofIntTrunc_product, hu, complete_ok, storeLeavingFree]

/-- Settles O37: the read, the product written, then the snapshot; both products have the same low half. -/
theorem multiplyResults : Obligations.MultiplyResults := by
  refine ⟨setDouble_halves, fun a s => ⟨fun f h => ?_, fun f h1 h2 => ?_⟩⟩
  · obtain ⟨y, u, hy, hd⟩ := readOp_ok a s _ h
    have hu := hd.readFrame
    have hylt := readOp_lt hy (unary_fits a f)
    have hmul := exec_mul_of_read hy
    have himul := exec_imulOne_of_read hy
    generalize (UnaryForm.operand a f).width = w at *
    have hx : (accumulator s w).toNat < 2 ^ w.bits := getReg_lt s w .ax
    generalize accumulator s w = x at *
    obtain ⟨hregs, hover, hdecided, hframe⟩ :=
      afterDouble_spec hu w x y (BitVec.ofNat 64 (x.toNat * y.toNat)) (.inl rfl)
    obtain ⟨hregs', hover', hdecided', hframe'⟩ :=
      afterDouble_spec hu w x y (BitVec.ofInt 64 (signed w x * signed w y)) (.inr rfl)
    refine ⟨y, u, _, _, hy, hmul, himul, hregs, hregs', fun g hg => ⟨?_, ?_⟩, fun hcfg => ?_, hframe, hframe'⟩
    · rw [hover g hg, flagOf_lazyStore_mul hx hylt _ hg]
    · rw [hover' g hg, flagOf_lazyStore_imul hx hylt _ hg]
    · rw [ofNat_product_mod, ofIntTrunc_product]
      exact ⟨(hdecided hcfg).1, (hdecided' hcfg).1, (hdecided hcfg).2, (hdecided' hcfg).2⟩
  · obtain ⟨x, y, s1, s2, hx, hy, hd⟩ := readTwo_of_ready h1 h2
    have hxlt := readOp_lt hx (imul_fits a f).1
    have hylt := readOp_lt hy (imul_fits a f).2
    obtain ⟨u, hu, hframe, _⟩ := writeOp_after_reads hd (imul_dst_ready a f s) (trunc a.osz.width (x * y))
    obtain ⟨hover, hdecided⟩ := product_flags_leavingFree u a.osz.width x y (.inr rfl)
    rw [hframe.system.cfg] at hdecided
    refine ⟨x, y, s1, s2, u, _, hx, hy, ?_, exec_imul_of_writes hx hy hu, storeLeavingFree_regs ..,
      hframe.storeLeavingFree .imul _ x y _ mulUndefined, ?_, fun g hg => ?_⟩
    · rw [ofIntTrunc_product, hu]
    · rw [ofIntTrunc_product]
      exact hdecided
    · rw [hover g hg, flagOf_lazyStore_imul hxlt hylt _ hg]

end Sys2Proof.Machine
end

section
/-! PROOFS. Of 41_data_movement R271 to R297: MOV and XCHG by their accesses, the stack pointer and its slots, and the
instructions that push and pop. -/

namespace Sys2Proof.Machine

/-! ### MOV and XCHG (R271 to R276) -/

/-- A move reads its source, then writes its destination. -/
theorem moveOp_of_ready {a : Attrs} {s : State} {o : TwoOperands} (h : o.ready a s) :
    ∃ v u t, readOp a s o.src = .ok v u ∧ writeOp a u o.dst v = .ok () t ∧ moveOp a o s = .ok () t ∧
      OperandFrame a o.dst s t ∧ t.flags = s.flags := by
  obtain ⟨v, u, hv, hd⟩ := readOp_ok a s o.src h.2
  obtain ⟨t, ht, hframe, hflags⟩ := writeOp_after_reads hd h.1 v
  exact ⟨v, u, t, hv, ht, by rw [moveOp, hv, andThen_ok, ht], hframe, hflags⟩

/-- Settles O23: each form is one read and one write. -/
theorem moveResults : Obligations.MoveResults := by
  refine fun a s => ⟨fun f h => ?_, fun f h => ?_, fun e g h => ?_⟩
  · obtain ⟨v, u, t, hv, ht, hmove, hframe⟩ := moveOp_of_ready h
    exact ⟨v, u, t, hv, ht, congrArg complete hmove, hframe⟩
  · obtain ⟨v, u, t, hv, ht, hmove, hframe⟩ := moveOp_of_ready h
    exact ⟨v, u, t, hv, ht, congrArg complete hmove, hframe⟩
  · obtain ⟨t, ht, hframe⟩ := writeOp_after_reads (.refl s) h ((getSeg s g).value.setWidth 32)
    exact ⟨t, ht, congrArg complete ht, hframe⟩

/-- XCHG exchanges its first operand with a register. -/
theorem xchg_src_eq_reg (a : Attrs) (f : XchgForm) : ∃ w r, (XchgForm.operands a f).src = .reg w r := by
  cases f <;> exact ⟨_, _, rfl⟩

/-- Settles O24: both reads, the write of the first operand, then the register. -/
theorem exchangeResults : Obligations.ExchangeResults := by
  refine fun a s => ⟨fun f h => ?_, rfl⟩
  obtain ⟨x, y, s1, s2, hx, hy, hd⟩ := readTwo_of_ready h.1 h.2
  obtain ⟨s3, h3, hframe, hflags⟩ := writeOp_after_reads hd h.1 y
  obtain ⟨w, r, hsrc⟩ := xchg_src_eq_reg a f
  have h4 : writeOp a s3 (XchgForm.operands a f).src x = .ok () (setReg s3 w r x) := by rw [hsrc, writeOp]
  have hexec : exec (.xchg a f) s = execXchg a f s := rfl
  refine ⟨x, y, s1, s2, s3, _, hx, hy, h3, h4, ?_, fun q hq => ?_, hframe.memory,
    hframe.system.trans ⟨rfl, rfl, rfl, rfl, rfl, rfl, rfl, rfl, rfl, rfl, rfl, rfl, rfl⟩, hflags⟩
  · rw [hexec, execXchg, exchangeOps, hx, andThen_ok, hy, andThen_ok, h3, andThen_ok, h4, complete_ok]
  · rw [List.mem_append, not_or, hsrc, Operand.changes, List.mem_singleton] at hq
    exact (reg32_setReg_other s3 w r q x hq.2).trans (hframe.regs q hq.1)

/-! ### The stack pointer and its slots (R290, R291) -/

section
variable {s : State}

theorem reg32_setStackPtr_of_big (h : stackBig s = true) (v : Word) : reg32 (setStackPtr s v) .sp = v := by
  rw [setStackPtr, if_pos h]
  exact reg32_setReg_home s .dword .sp v

theorem reg32_setStackPtr_of_small (h : stackBig s = false) (v : Word) :
    reg32 (setStackPtr s v) .sp = (reg32 s .sp &&& 0xFFFF0000) ||| (v &&& 0xFFFF) := by
  rw [setStackPtr, h, if_neg Bool.false_ne_true]
  exact reg32_setReg_home s .word .sp v

/-- With a big SS the slots wrap modulo 2^32. -/
theorem slots_of_big (h : stackBig s = true) (k : Nat) :
    (slotAbove s k).toNat = ((reg32 s .sp).toNat + k) % 2 ^ 32 ∧
    ((slotBelow s k).toNat + k) % 2 ^ 32 = (reg32 s .sp).toNat := by
  have hlt := (reg32 s .sp).isLt
  simp only [slotAbove, slotBelow, wrapSp, stackPtr, h, if_true, BitVec.toNat_add, BitVec.toNat_sub, BitVec.toNat_ofNat]
  omega

/-- With a small SS the slots wrap modulo 2^16. -/
theorem slots_of_small (h : stackBig s = false) (k : Nat) :
    (slotAbove s k).toNat = ((reg32 s .sp).toNat % 65536 + k) % 65536 ∧ (slotBelow s k).toNat < 65536 ∧
    ((slotBelow s k).toNat + k) % 65536 = (reg32 s .sp).toNat % 65536 := by
  have hwrap : ∀ v : Word, (v &&& 0xFFFF).toNat = v.toNat % 65536 := toNat_trunc .word
  simp only [slotAbove, slotBelow, wrapSp, stackPtr, h, Bool.false_eq_true, if_false, hwrap, BitVec.toNat_add,
    BitVec.toNat_sub, BitVec.toNat_ofNat, toNat_getReg_word]
  omega

/-- Moving the stack pointer keeps every frame that leaves ESP out. -/
theorem RegsFrame.setStackPtr {but : List Reg} {u : State} (h : RegsFrame but s u) (hsp : Reg.sp ∈ but) (v : Word) :
    RegsFrame but s (setStackPtr u v) := by
  refine h.setReg ?_ v
  split <;> exact hsp

end

/-! ### PUSH (R290, R292, R293) -/

/-- A push after reads alone. -/
theorem push_after_reads {s u : State} (hd : DeviceOnly s u) {sz : Size} (h : canStore s sz sz.bytes) (v : Word) :
    ∃ t, segWrite u .ss (slotBelow s sz.bytes) sz.width v = .ok () t ∧
      push u sz v = .ok () (setStackPtr t (slotBelow s sz.bytes)) ∧
      StackFrame s (setStackPtr t (slotBelow s sz.bytes)) sz.bytes sz.width ∧ t.eip = s.eip := by
  obtain ⟨t, ht, hpush, hst⟩ := push_ok u sz v ((hd.canStore sz sz.bytes).mpr h)
  rw [slotBelow_congr s u hd.regs hd.segs] at ht hpush
  exact ⟨t, ht, hpush, stackFrame_of_push hd.readFrame.storesFrame ht, hst.eip.trans hd.eip⟩

/-- Settles O26: the operand is read, then pushed. -/
theorem pushResults : Obligations.PushResults := by
  refine fun a s hs => ⟨fun f h => ?_, fun g => ?_⟩
  · obtain ⟨v, u, hv, hd⟩ := readOp_ok a s _ h
    obtain ⟨t, ht, hpush, hframe⟩ := push_after_reads hd hs v
    have hexec : exec (.push a f) s = execPush a f s := rfl
    exact ⟨v, u, t, hv, ht, by rw [hexec, execPush, hv, andThen_ok, hpush, complete_ok], hframe⟩
  · obtain ⟨t, ht, hpush, hframe⟩ := push_after_reads (.refl s) hs ((getSeg s g).value.setWidth 32)
    exact ⟨t, ht, congrArg complete hpush, hframe⟩

/-! ### POP (R291, R294) -/

section
variable {a : Attrs} {s u : State} {v : Word} (hv : peek s a.osz 0 = .ok v u)
include hv

/-- POP to a register: both forms move the pointer, then write the register. -/
theorem exec_pop_reg_of_peek (g : Reg) :
    exec (.pop a (.r g)) s = .next (setRegSize (drop u a.osz.bytes) a.osz g v) ∧
    exec (.pop a (.ev (.reg g))) s = .next (setRegSize (drop u a.osz.bytes) a.osz g v) := by
  have hexec : ∀ f, exec (.pop a f) s = execPop a f s := fun _ => rfl
  simp only [hexec, execPop, hv, andThen_ok, complete_ok, and_self]

/-- POP to memory: the operand is written, then the pointer moves. -/
theorem exec_pop_mem_of_write {m : MemRef} {t : State} (ht : writeOp a u (.mem a.osz.width m) v = .ok () t) :
    exec (.pop a (.ev (.mem m))) s = .next (drop t a.osz.bytes) := by
  have hexec : exec (.pop a (.ev (.mem m))) s = execPop a (.ev (.mem m)) s := rfl
  simp only [hexec, execPop, hv, andThen_ok, ht, complete_ok]

end

theorem storesFrame_of_writeOp_mem {a : Attrs} {s u t : State} (hd : DeviceOnly s u) {w : Width} {m : MemRef} {v : Word}
    (h : writeOp a u (.mem w m) v = .ok () t) : StoresFrame [((Operand.mem w m).home a s, w)] s t := by
  rw [← hd.home]
  exact hd.readFrame.storesFrame.trans (segWrite_stored h).storesFrame

/-- Settles O27: the pointer by its width, and each destination after the read of the slot. -/
theorem popResults : Obligations.PopResults := by
  refine ⟨fun s k v => ⟨rfl, keepsRegs_setStackPtr s v, rfl, fun h => ⟨reg32_setStackPtr_of_big h v, slots_of_big h k⟩,
    fun h => ⟨reg32_setStackPtr_of_small h v, slots_of_small h k⟩⟩, fun a s hs => ?_⟩
  obtain ⟨v, u, hv, hd⟩ := peek_ok s a.osz 0 hs
  refine ⟨fun g => ?_, fun m hm => ?_⟩
  · obtain ⟨hr, hev⟩ := exec_pop_reg_of_peek hv g
    have hdrop : RegsFrame [.sp, g] s (drop u a.osz.bytes) := (hd.readFrame.regsFrame _).setStackPtr (by simp) _
    exact ⟨v, u, hv, hd.readFrame, hr, hev, hdrop.setReg (by simp [regHome_size]) v⟩
  · obtain ⟨t, ht, _⟩ := writeOp_ok a u _ v ((hd.ready a _).mpr hm)
    have hframe := storesFrame_of_writeOp_mem hd ht
    exact ⟨v, u, t, hv, ht, exec_pop_mem_of_write hv ht,
      fun r hr => (keepsRegs_setStackPtr t _ r hr).trans (reg32_congr s t hframe.regs r), hframe⟩

/-! ### PUSHA (R296) -/

/-- The first slot is written, then the others. -/
theorem storeSlots_cons_eq_ok {s₀ s t : State} {sz : Size} {i : Nat} {v : Word} {vs : List Word} :
    storeSlots s₀ sz i (v :: vs) s = .ok () t ↔
      ∃ u, segWrite s .ss (slotBelow s₀ ((i + 1) * sz.bytes)) sz.width v = .ok () u ∧
        storeSlots s₀ sz (i + 1) vs u = .ok () t := by
  refine ⟨fun h => ?_, fun ⟨u, hu, h⟩ => by rw [storeSlots, hu, andThen_ok, h]⟩
  obtain ⟨_, u, hu, h⟩ := andThen_eq_ok h
  exact ⟨u, hu, h⟩

/-- All slots are written when each can be. -/
theorem storeSlots_of_canStore {s u : State} {sz : Size} (vs : List Word) (i : Nat) (hk : KeepsSystem s u)
    (h : ∀ j, j < vs.length → canStore s sz ((i + j + 1) * sz.bytes)) : ∃ t, storeSlots s sz i vs u = .ok () t := by
  induction vs generalizing i u with
  | nil => exact ⟨u, rfl⟩
  | cons v vs ih =>
    obtain ⟨w, hw, hst⟩ := segWrite_ok u .ss _ sz.width v ((canAccess_of_system hk _ _ _).mpr (h 0 (Nat.succ_pos _)))
    obtain ⟨t, ht⟩ := ih (i + 1) (hk.trans hst.keepsSystem) fun j hj => by
      rw [Nat.add_right_comm i 1 j]
      exact h (j + 1) (Nat.succ_lt_succ hj)
    exact ⟨t, storeSlots_cons_eq_ok.mpr ⟨w, hw, ht⟩⟩

/-- The pointer moves to the last slot written. -/
theorem exec_pusha_of_storeSlots {a : Attrs} {s t : State}
    (h : storeSlots s a.osz 0 (regOrder.map (pushedReg s)) s = .ok () t) :
    exec (.pusha a) s = .next (setStackPtr t (slotBelow s (8 * a.osz.bytes))) := by
  have hexec : exec (.pusha a) s = execPusha a s := rfl
  have hframe := storeSlots_frame (.refl s) h
  rw [hexec, execPusha, pushaWrites_eq_storeSlots a.osz regOrder 0 s rfl rfl, h, andThen_ok, complete_ok,
    slotBelow_congr s t hframe.regs hframe.system.segs]

/-! ### POPA (R297) -/

/-- The first slot is read, then the others. -/
theorem popaReads_cons_eq_ok {s t : State} {sz : Size} {i : Nat} {r : Reg} {rs : List Reg} {vs : List (Reg × Word)} :
    popaReads sz i (r :: rs) s = .ok vs t ↔
      ∃ v u ws, peek s sz (sz.bytes * i) = .ok v u ∧ (r, v) :: ws = vs ∧ popaReads sz (i + 1) rs u = .ok ws t := by
  refine ⟨fun h => ?_, fun ⟨v, u, ws, hv, e, hws⟩ => by rw [popaReads, hv, andThen_ok, hws, andThen_ok, e]⟩
  obtain ⟨v, u, hv, h⟩ := andThen_eq_ok h
  obtain ⟨ws, t', hws, h⟩ := andThen_eq_ok h
  cases h
  exact ⟨v, u, ws, hv, rfl, hws⟩

/-- All slots are read when each can be. -/
theorem popaReads_of_canFetch {s : State} {sz : Size} (rs : List Reg) (i : Nat)
    (h : ∀ j, j < rs.length → canFetch s sz (sz.bytes * (i + j))) :
    ∃ vs t, popaReads sz i rs s = .ok vs t ∧ DeviceOnly s t := by
  induction rs generalizing i s with
  | nil => exact ⟨[], s, rfl, .refl s⟩
  | cons r rs ih =>
    obtain ⟨v, u, hv, hd⟩ := peek_ok s sz _ (h 0 (Nat.succ_pos _))
    obtain ⟨ws, t, hws, ht⟩ := ih (s := u) (i + 1) fun j hj => by
      rw [Nat.add_assoc, Nat.add_comm 1 j]
      exact (hd.canFetch _ _).mpr (h (j + 1) (Nat.succ_lt_succ hj))
    exact ⟨_, t, popaReads_cons_eq_ok.mpr ⟨v, u, ws, hv, rfl, hws⟩, hd.trans ht⟩

theorem exec_popa_of_reads {a : Attrs} {s u : State} {vs : List (Reg × Word)}
    (h : popaReads a.osz 0 regOrder.reverse s = .ok vs u) :
    exec (.popa a) s = .next (drop (vs.foldl (popaStore a.osz) u) (8 * a.osz.bytes)) := by
  have hexec : exec (.popa a) s = execPopa a s := rfl
  rw [hexec, execPopa, h, andThen_ok, complete_ok]

/-- Settles O28: the slots one by one, then the pointer; the reads one by one, then the registers. -/
theorem pushAllPopAll : Obligations.PushAllPopAll := by
  refine fun a s => ⟨fun hs => ?_, fun hs => ?_⟩
  · have hslots : slotStores s a.osz 8 = (List.range 8).map fun i =>
        (storeHome s .ss (slotBelow s (a.osz.bytes * (i + 1))) a.osz.width, a.osz.width) := by
      simp only [slotStores, Nat.mul_comm]
    obtain ⟨t, ht⟩ := storeSlots_of_canStore (regOrder.map (pushedReg s)) 0 (.refl s) fun j hj => by
      rw [Nat.zero_add, Nat.mul_comm]
      exact hs j hj
    have hexec := exec_pusha_of_storeSlots ht
    have hframe : StoresFrame (slotStores s a.osz 8) s t := storeSlots_frame (.refl s) ht
    have hkeeps : keepsRegs [.sp] s (setStackPtr t (slotBelow s (8 * a.osz.bytes))) := fun r hr =>
      (keepsRegs_setStackPtr t _ r hr).trans (reg32_congr s t hframe.regs r)
    rw [hslots] at hframe
    simp only [regOrder, List.map_cons, List.map_nil, storeSlots_cons_eq_ok, Nat.zero_add, Nat.one_mul,
      Nat.reduceAdd] at ht
    obtain ⟨t1, h1, t2, h2, t3, h3, t4, h4, t5, h5, t6, h6, t7, h7, t8, h8, hnil⟩ := ht
    cases hnil
    exact ⟨t1, t2, t3, t4, t5, t6, t7, t, h1, h2, h3, h4, h5, h6, h7, h8, hexec, hframe, hkeeps⟩
  · obtain ⟨vs, u, hu, hd⟩ := popaReads_of_canFetch regOrder.reverse 0 fun j hj => by
      rw [Nat.zero_add]
      exact hs j hj
    have hexec := exec_popa_of_reads hu
    have horder : regOrder.reverse = [.di, .si, .bp, .sp, .bx, .dx, .cx, .ax] := rfl
    simp only [horder, popaReads_cons_eq_ok, Nat.mul_comm a.osz.bytes, Nat.zero_add, Nat.zero_mul, Nat.one_mul,
      Nat.reduceAdd] at hu
    obtain ⟨di, u1, _, h1, rfl, si, u2, _, h2, rfl, bp, u3, _, h3, rfl, sp, u4, _, h4, rfl, bx, u5, _, h5, rfl,
      dx, u6, _, h6, rfl, cx, u7, _, h7, rfl, ax, u8, _, h8, rfl, hnil⟩ := hu
    cases hnil
    exact ⟨di, si, bp, sp, bx, dx, cx, ax, u1, u2, u3, u4, u5, u6, u7, u, h1, h2, h3, h4, h5, h6, h7, h8,
      hd.readFrame, hexec⟩

end Sys2Proof.Machine
end

section
/-! PROOFS. Of 42_arithmetic_logic R330 to R334, R353, R354: ADD, ADC, SUB and SBB in every form, then DIV and IDIV. -/

namespace Sys2Proof.Machine

/-! ### ADD, ADC, SUB, SBB (R330 to R334) -/

/-- Both operands are read, and CF by the forms that use it; then one write and one snapshot. -/
theorem aluWrite_of_reads {a : Attrs} {s s1 s2 : State} {o : TwoOperands} {x y : Word} (h : o.dst.ready a s)
    (hx : readOp a s o.dst = .ok x s1) (hy : readOp a s1 o.src = .ok y s2) (k : FlagKind) (useCf : Bool)
    (op : Word → Word → Word → Word) :
    ∃ u, writeOp a (if useCf then touchFlag s2 .cf else s2) o.dst (trunc o.width (op x y (bitWord (flagOf s .cf)))) =
        .ok () u ∧
      complete (aluWrite a o k useCf op s) =
        .next (lazyStore u k o.width x y (trunc o.width (op x y (bitWord (flagOf s .cf))))) ∧
      OperandFrame a o.dst s u := by
  have hd := (readOp_device hx).trans (readOp_device hy)
  have hread : StoresFrame [] s (if useCf then touchFlag s2 .cf else s2) := by
    cases useCf with
    | false => exact hd.readFrame.storesFrame
    | true => exact hd.readFrame.storesFrame.trans (storesFrame_touchFlag s2 .cf)
  have hmem : (if useCf then touchFlag s2 .cf else s2).mem = s.mem := by
    cases useCf <;> exact hd.mem
  obtain ⟨u, hu, hw⟩ := writeOp_ok a _ o.dst (trunc o.width (op x y (bitWord (flagOf s .cf))))
    ((ready_of_system a hread.system hread.regs o.dst).mpr h)
  refine ⟨u, hu, ?_, operandFrame_of_written hread.regs hmem hread.flags.2 hread.system hread.eip hw⟩
  simp only [aluWrite, hx, hy, andThen_ok, flagOf_congr s s2 hd.flags, hu, complete_ok]

/-- Settles O33: both reads, then each instruction with its operation. -/
theorem addSubtractResults : Obligations.AddSubtractResults := by
  intro a f s h
  obtain ⟨x, y, s1, s2, hx, hy, _⟩ := readTwo_of_ready h.1 h.2
  exact ⟨x, y, s1, s2, hx, hy, readOp_lt hx (alu_fits a f).1, readOp_lt hy (alu_fits a f).2,
    aluWrite_of_reads h.1 hx hy .add false fun x y _ => x + y,
    aluWrite_of_reads h.1 hx hy .adc true fun x y c => x + y + c,
    aluWrite_of_reads h.1 hx hy .sub false fun x y _ => x - y,
    aluWrite_of_reads h.1 hx hy .sbb true fun x y c => x - y - c⟩

/-! ### Where quotient and remainder go (R353) -/

theorem setReg_trunc (s : State) (w : Width) (r : Reg) (v : Word) : setReg s w r (trunc w v) = setReg s w r v := by
  cases w <;> simp [setReg, writeReg32, trunc, BitVec.and_assoc]

theorem setQuotient_trunc (s : State) (w : Width) (q m : Word) :
    setQuotient s w (trunc w q) (trunc w m) = setQuotient s w q m := by
  cases w <;> simp only [setQuotient, setReg_trunc]

theorem setQuotient_regs_congr {s u : State} (h : u.regs = s.regs) (w : Width) (q m : Word) :
    (setQuotient u w q m).regs = (setQuotient s w q m).regs := by
  cases w <;> simp only [setQuotient, setReg, reg32, h]

theorem setQuotient_frame {s u : State} (h : ReadFrame s u) (w : Width) (q m : Word) :
    RegsFrame [.ax, .dx] s (setQuotient u w q m) := by
  have hu := h.regsFrame [.ax, .dx]
  cases w with
  | byte => exact (hu.setReg (by decide) _).setReg (by decide) _
  | word => exact (hu.setReg (by decide) _).setReg (by decide) _
  | dword => exact (hu.setReg (by decide) _).setReg (by decide) _

/-- AL is written, then AH beside it. -/
theorem writeReg32_low_then_high (old q m : Word) : writeReg32 .byte true (writeReg32 .byte false old q) m =
    (old &&& 0xFFFF0000) ||| ((m &&& 0xFF) <<< 8) ||| (q &&& 0xFF) := by
  have hkeep : ((old &&& 0xFFFFFF00) ||| (q &&& 0xFF)) &&& 0xFFFF00FF = (old &&& 0xFFFF0000) ||| (q &&& 0xFF) := by
    rw [BitVec.and_or_distrib_right, BitVec.and_assoc, BitVec.and_assoc]
    rfl
  simp only [writeReg32, if_true, Bool.false_eq_true, if_false, Nat.cast_ofNat]
  rw [hkeep, BitVec.or_assoc, BitVec.or_comm (q &&& 0xFF), BitVec.or_assoc]

/-- The halves `setQuotient` writes, and no other bit. -/
theorem setQuotient_halves (s : State) (w : Width) (q m : Word) :
    keepsRegs [.ax, .dx] s (setQuotient s w q m) ∧ setQuotient s w q m = { s with regs := (setQuotient s w q m).regs } ∧
    (w = .byte → reg32 (setQuotient s w q m) .ax =
        (reg32 s .ax &&& 0xFFFF0000) ||| ((m &&& 0xFF) <<< 8) ||| (q &&& 0xFF) ∧
      reg32 (setQuotient s w q m) .dx = reg32 s .dx) ∧
    (w = .word → reg32 (setQuotient s w q m) .ax = (reg32 s .ax &&& 0xFFFF0000) ||| (q &&& 0xFFFF) ∧
      reg32 (setQuotient s w q m) .dx = (reg32 s .dx &&& 0xFFFF0000) ||| (m &&& 0xFFFF)) ∧
    (w = .dword → reg32 (setQuotient s w q m) .ax = q ∧ reg32 (setQuotient s w q m) .dx = m) := by
  refine ⟨(setQuotient_frame (.refl s) w q m).regs, by cases w <;> rfl, fun h => ?_, fun h => ?_, fun h => ?_⟩ <;>
    subst h
  · exact ⟨writeReg32_low_then_high (reg32 s .ax) q m, rfl⟩
  · exact ⟨rfl, rfl⟩
  · exact ⟨rfl, rfl⟩

/-! ### DIV and IDIV (R353, R354) -/

theorem dividend_congr {s u : State} (h : u.regs = s.regs) (w : Width) : dividend u w = dividend s w := by
  cases w <;> simp only [dividend, getReg_congr s u h]

theorem signedDividend_congr {s u : State} (h : u.regs = s.regs) (w : Width) :
    signedDividend u w = signedDividend s w := by
  simp only [signedDividend, dividend_congr h]

/-- What a division that fits leaves: quotient and remainder, the flags left undefined (40_lazy_flags R235). -/
def afterDivide (u : State) (w : Width) (q m : Word) : State := leaveAllFree (setQuotient u w q m) divUndefined

theorem afterDivide_spec {s u : State} (h : ReadFrame s u) (w : Width) (q m : Word) :
    (afterDivide u w q m).regs = (setQuotient s w q m).regs ∧ RegsFrame [.ax, .dx] s (afterDivide u w q m) ∧
    (s.cfg.undefFlags = .decided → (afterDivide u w q m).flags = s.flags) := by
  have hframe := setQuotient_frame h w q m
  obtain ⟨heq, _, hplain⟩ := leaveAllFree_spec divUndefined (setQuotient u w q m)
  refine ⟨?_, hframe.afterFlags heq hplain, fun hcfg => ?_⟩
  · rw [← setQuotient_regs_congr h.regs w q m, afterDivide, heq]
  · rw [afterDivide, leaveAllFree_decided _ _ (by rw [hframe.system.cfg, hcfg]), (setQuotient_halves u w q m).2.1]
    exact h.flags

/-- The two checks of a division, then its end. -/
theorem complete_checks (u : State) (zero big : Bool) (w : Width) (q m : Word) :
    complete ((raiseIf zero .de u).andThen fun _ s => (raiseIf big .de s).andThen fun _ s =>
      .ok () (leaveAllFree (setQuotient s w q m) divUndefined)) =
    if zero = true ∨ big = true then .next (takeException u .de) else .next (afterDivide u w q m) := by
  cases zero <;> cases big <;> rfl

section
variable {a : Attrs} {f : UnaryForm} {s u : State} {y : Word} (hy : readOp a s (UnaryForm.operand a f).op = .ok y u)
include hy

/-- DIV once its operand is read: #DE where the divisor is 0 or the quotient does not fit, else the division. -/
theorem exec_div_of_read : exec (.div a f) s =
    if y = 0 ∨ 2 ^ (UnaryForm.operand a f).width.bits ≤ dividend s (UnaryForm.operand a f).width / y.toNat then
      .next (takeException u .de)
    else .next (afterDivide u (UnaryForm.operand a f).width
      (BitVec.ofNat 32 (dividend s (UnaryForm.operand a f).width / y.toNat))
      (BitVec.ofNat 32 (dividend s (UnaryForm.operand a f).width % y.toNat))) := by
  have hexec : exec (.div a f) s = execDiv a f s := rfl
  rw [hexec, execDiv, hy, andThen_ok]
  simp only [complete_checks, dividend_congr (readOp_device hy).regs, decide_eq_true_eq, ← toNat_maskOf,
    Nat.succ_le_iff]

/-- IDIV once its operand is read. -/
theorem exec_idiv_of_read {d b : Int} (hd : signedDividend s (UnaryForm.operand a f).width = d)
    (hb : signed (UnaryForm.operand a f).width y = b) : exec (.idiv a f) s =
    if y = 0 ∨ d.tdiv b < -2 ^ ((UnaryForm.operand a f).width.bits - 1) ∨
        2 ^ ((UnaryForm.operand a f).width.bits - 1) ≤ d.tdiv b then
      .next (takeException u .de)
    else .next (afterDivide u (UnaryForm.operand a f).width (BitVec.ofInt 32 (d.tdiv b))
      (BitVec.ofInt 32 (d - d.tdiv b * b))) := by
  have hexec : exec (.idiv a f) s = execIdiv a f s := rfl
  rw [hexec, execIdiv, hy, andThen_ok]
  simp only [complete_checks, signedDividend_congr (readOp_device hy).regs, hd, hb, quotientOverflows,
    Bool.or_eq_true, decide_eq_true_eq, ofIntTrunc, afterDivide, setQuotient_trunc]

end

/-- The quotient that truncates toward zero is the one whose remainder has the sign of the dividend. -/
theorem tdiv_eq_of_remainder {d b q m : Int} (hd : d = q * b + m) (hm : |m| < |b|) (hs : 0 ≤ m * d) : d.tdiv b = q := by
  have hb : b ≠ 0 := abs_pos.mp ((abs_nonneg m).trans_lt hm)
  rw [Int.abs_eq_natAbs, Int.abs_eq_natAbs] at hm
  have hsum : m + b * q = d := by rw [hd, Int.add_comm, Int.mul_comm]
  rcases mul_nonneg_iff.mp hs with ⟨hm0, hd0⟩ | ⟨hm0, hd0⟩
  · exact ((Int.tdiv_tmod_unique hd0 hb).mpr ⟨hsum, hm0, by omega⟩).1
  · exact ((Int.tdiv_tmod_unique' hd0 hb).mpr ⟨hsum, by omega, hm0⟩).1

/-- Settles O38: the division of the operand read, its quotient in range. -/
theorem divideResults : Obligations.DivideResults := by
  refine ⟨setQuotient_halves, fun a f s y u hy hy0 => ⟨fun hfit => ?_, fun q m hd hm hs hlow hhigh => ?_⟩⟩
  · have hpos := BitVec.toNat_pos_of_ne_zero hy0
    obtain ⟨hregs, hframe, hflags⟩ := afterDivide_spec (readOp_device hy).readFrame (UnaryForm.operand a f).width
      (BitVec.ofNat 32 (dividend s (UnaryForm.operand a f).width / y.toNat))
      (BitVec.ofNat 32 (dividend s (UnaryForm.operand a f).width % y.toNat))
    refine ⟨_, _, _, (Nat.div_add_mod' _ _).symm, Nat.mod_lt _ hpos, ?_, hregs, hframe, hflags⟩
    have hlt := Nat.div_lt_of_lt_mul hfit
    rw [exec_div_of_read hy, if_neg (not_or.mpr ⟨hy0, Nat.not_le.mpr hlt⟩)]
  · have hq := tdiv_eq_of_remainder hd hm hs
    obtain ⟨hregs, hframe, hflags⟩ := afterDivide_spec (readOp_device hy).readFrame (UnaryForm.operand a f).width
      (BitVec.ofInt 32 q) (BitVec.ofInt 32 m)
    refine ⟨_, ?_, hregs, hframe, hflags⟩
    have hfits : ¬(y = 0 ∨ q < -2 ^ ((UnaryForm.operand a f).width.bits - 1) ∨
        2 ^ ((UnaryForm.operand a f).width.bits - 1) ≤ q) :=
      not_or.mpr ⟨hy0, not_or.mpr ⟨Int.not_lt.mpr hlow, Int.not_le.mpr hhigh⟩⟩
    rw [exec_idiv_of_read hy rfl rfl, hq, if_neg hfits, hd, add_sub_cancel_left]

/-- Settles O39: the two checks, each where it fails. -/
theorem divideErrors : Obligations.DivideErrors := by
  refine fun a f s y u hy => ⟨fun h => ⟨?_, ?_⟩, fun hy0 hover => ?_, fun _ hover => ?_⟩
  · rw [exec_div_of_read hy, if_pos (.inl h)]
  · rw [exec_idiv_of_read hy rfl rfl, if_pos (.inl h)]
  · have hpos := BitVec.toNat_pos_of_ne_zero hy0
    rw [exec_div_of_read hy, if_pos (.inr ((Nat.le_div_iff_mul_le hpos).mpr (by rwa [Nat.mul_comm])))]
  · rw [exec_idiv_of_read hy rfl rfl, if_pos (.inr hover.symm)]

end Sys2Proof.Machine
end

section
/-! PROOFS. Of 43_shift_rotate R390 to R397: rotations bit by bit, shifts in integers, and the end that both have: a
write, then CF and OF. -/

namespace Sys2Proof.Machine

/-! ### The count (R390) -/

theorem count_lt {y c : Word} (h : y &&& 0x1F = c) : c.toNat < 32 := by
  rw [← h, BitVec.toNat_and]
  exact Nat.and_lt_two_pow (n := 5) _ (by decide)

section
variable {a : Attrs} {s s1 s2 : State} {o : TwoOperands} {x y c : Word} (hx : readOp a s o.dst = .ok x s1)
  (hy : readOp a s1 o.src = .ok y s2) (hcount : y &&& 0x1F = c) (body : Word → Nat → State → Res Unit)
include hx hy hcount

theorem shiftForm_of_count_zero (hc : c = 0) : shiftForm a o body s = .ok () s2 := by
  rw [shiftForm, hx, andThen_ok, hy, andThen_ok, hcount, hc]
  rfl

theorem shiftForm_of_count_ne_zero (hc : c ≠ 0) : shiftForm a o body s = body x c.toNat s2 := by
  rw [shiftForm, hx, andThen_ok, hy, andThen_ok, hcount]
  exact if_neg ((eq_zero_iff_toNat c).not.mp hc)

end

/-- Settles O40: each instruction is the common form, which ends after the reads. -/
theorem shiftByZero : Obligations.ShiftByZero := by
  intro a f s x y s1 s2 hx hy hc
  have hend : ∀ body, complete (shiftForm a (ShiftForm.operands a f) body s) = .next s2 := fun body =>
    congrArg complete (shiftForm_of_count_zero hx hy rfl body hc)
  exact ⟨hend _, hend _, hend _, hend _, hend _, hend _, hend _,
    ((readOp_device hx).trans (readOp_device hy)).readFrame⟩

/-! ### CF and OF stored, some flags undefined (40_lazy_flags R235) -/

/-- CF and OF take values, and then each flag of `fs` a free value where the parameters allow one. -/
def storeCfOf (s : State) (cf ovf : Bool) (fs : List Flag) : State :=
  leaveAllFree (setFlag (setFlag s .cf cf) .ovf ovf) fs

section
variable (s : State) (cf ovf : Bool) (fs : List Flag)

theorem storeCfOf_eq : storeCfOf s cf ovf fs = { s with
    flags := (storeCfOf s cf ovf fs).flags, freeCount := (storeCfOf s cf ovf fs).freeCount } :=
  (leaveAllFree_spec fs (setFlag (setFlag s .cf cf) .ovf ovf)).1

theorem storeCfOf_regs : (storeCfOf s cf ovf fs).regs = s.regs := by rw [storeCfOf_eq]

theorem storeCfOf_mem : (storeCfOf s cf ovf fs).mem = s.mem := by rw [storeCfOf_eq]

theorem keepsPlainFlags_storeCfOf : keepsPlainFlags s (storeCfOf s cf ovf fs) :=
  keepsPlainFlags_trans (keepsPlainFlags_trans (keepsPlainFlags_setFlag s .cf cf) (keepsPlainFlags_setFlag _ .ovf ovf))
    (leaveAllFree_spec fs _).2.2

/-- A flag that is not left free. -/
theorem flagOf_storeCfOf {g : Flag} (h : s.cfg.undefFlags = .decided ∨ g ∉ fs) :
    flagOf (storeCfOf s cf ovf fs) g = if g = .ovf then ovf else if g = .cf then cf else flagOf s g := by
  have hfree : flagOf (storeCfOf s cf ovf fs) g = flagOf (setFlag (setFlag s .cf cf) .ovf ovf) g := by
    rcases h with hcfg | hg
    · rw [storeCfOf, leaveAllFree_decided (setFlag (setFlag s .cf cf) .ovf ovf) fs hcfg]
    · exact (leaveAllFree_spec fs _).2.1 g hg
  rw [hfree, flagOf_setFlag, flagOf_setFlag]

/-- Another flag that is not left free keeps its value. -/
theorem flagOf_storeCfOf_other {g : Flag} (hcf : g ≠ .cf) (hovf : g ≠ .ovf)
    (h : s.cfg.undefFlags = .decided ∨ g ∉ fs) : flagOf (storeCfOf s cf ovf fs) g = flagOf s g := by
  rw [flagOf_storeCfOf s cf ovf fs h, if_neg hovf, if_neg hcf]

end

theorem OperandFrame.storeCfOf {a : Attrs} {op : Operand} {s v : State} (h : OperandFrame a op s v) (cf ovf : Bool)
    (fs : List Flag) : OperandFrame a op s (storeCfOf v cf ovf fs) :=
  h.afterFlags (storeCfOf_eq v cf ovf fs) (keepsPlainFlags_storeCfOf v cf ovf fs)

/-! ### The end of a rotate (R391 to R394) -/

theorem cf_not_mem_rotateUndefined (c : Nat) {k : Nat} (hk : k ≠ 0) : Flag.cf ∉ rotateUndefined c k := by
  rw [rotateUndefined, if_neg hk]
  split <;> decide

theorem ovf_not_mem_rotateUndefined {m : Nat} (hm : 1 < m) : Flag.ovf ∉ rotateUndefined 1 (1 % m) := by
  rw [rotateUndefined, Nat.mod_eq_of_lt hm, if_neg Nat.one_ne_zero, if_neg (Nat.lt_irrefl 1)]
  exact List.not_mem_nil

theorem not_mem_rotateUndefined (c k : Nat) {g : Flag} (hcf : g ≠ .cf) (hovf : g ≠ .ovf) :
    g ∉ rotateUndefined c k := by
  rw [rotateUndefined]
  split
  · simp [hcf, hovf]
  · split <;> simp [hovf]

/-- A rotate of `m` bits, after its reads: one write, then CF and OF. -/
theorem rotateEnd_of_ready {a : Attrs} {s v : State} {o : TwoOperands} (h : o.dst.ready a s)
    (hread : StoresFrame [] s v) (hv : v.mem = s.mem) {m : Nat} (hm : 1 < m) (c r : Word) (cf ovf : Bool) :
    ∃ u t, writeOp a v o.dst r = .ok () u ∧
      complete (rotateEnd a o r cf ovf (rotateUndefined c.toNat (c.toNat % m)) v) = .next t ∧
      t.regs = u.regs ∧ t.mem = u.mem ∧
      (s.cfg.undefFlags = .decided ∨ c.toNat % m ≠ 0 → flagOf t .cf = cf) ∧
      (s.cfg.undefFlags = .decided ∨ c = 1 → flagOf t .ovf = ovf) ∧
      (∀ g, g ≠ .cf → g ≠ .ovf → flagOf t g = flagOf s g) ∧ OperandFrame a o.dst s t := by
  obtain ⟨u, hu, hw⟩ := writeOp_ok a v o.dst r ((ready_of_system a hread.system hread.regs o.dst).mpr h)
  have hframe := operandFrame_of_written hread.regs hv hread.flags.2 hread.system hread.eip hw
  obtain ⟨_, _, _, huflags, _⟩ := hw.frame
  rw [← hframe.system.cfg]
  refine ⟨u, storeCfOf u cf ovf (rotateUndefined c.toNat (c.toNat % m)), hu, ?_, storeCfOf_regs .., storeCfOf_mem ..,
    fun hcf => ?_, fun hovf => ?_, fun g hgcf hgovf => ?_, hframe.storeCfOf ..⟩
  · rw [rotateEnd, hu, andThen_ok, complete_ok, storeCfOf]
  · exact flagOf_storeCfOf u cf ovf _ (hcf.imp_right (cf_not_mem_rotateUndefined _))
  · refine flagOf_storeCfOf u cf ovf _ (hovf.imp_right ?_)
    rintro rfl
    exact ovf_not_mem_rotateUndefined hm
  · rw [flagOf_storeCfOf_other u cf ovf _ hgcf hgovf (.inr (not_mem_rotateUndefined _ _ hgcf hgovf)),
      flagOf_congr v u huflags, hread.flags.1]

/-! ### Rotations bit by bit -/

/-- A number below 2^n has no bit from `n` on. -/
theorem getLsbD_of_toNat_lt {W n i : Nat} {v : BitVec W} (hv : v.toNat < 2 ^ n) (hi : n ≤ i) : v.getLsbD i = false := by
  rw [← BitVec.testBit_toNat]
  exact Nat.testBit_lt_two_pow (hv.trans_le (Nat.pow_le_pow_right (by decide) hi))

/-- A left rotation of an `n`-bit value by `k`. -/
theorem getLsbD_rotateLeft {W n k i : Nat} {v : BitVec W} (hv : v.toNat < 2 ^ n) (hn : n ≤ W) (hk : k ≤ n)
    (hi : i < n) : ((v <<< k) ||| (v >>> (n - k))).getLsbD i = v.getLsbD ((i + n - k) % n) := by
  rw [BitVec.getLsbD_or, BitVec.getLsbD_shiftLeft, BitVec.getLsbD_ushiftRight, decide_eq_true (hi.trans_le hn),
    Bool.true_and]
  by_cases hik : i < k
  · rw [decide_eq_true hik, Bool.not_true, Bool.false_and, Bool.false_or, Nat.mod_eq_of_lt (by omega)]
    congr 1
    omega
  · have hhigh : v.getLsbD (n - k + i) = false := getLsbD_of_toNat_lt hv (by omega)
    rw [decide_eq_false hik, Bool.not_false, Bool.true_and, hhigh, Bool.or_false,
      show i + n - k = i - k + n by omega, Nat.add_mod_right, Nat.mod_eq_of_lt (by omega)]

/-- A right rotation is the left rotation by the rest. -/
theorem getLsbD_rotateRight {W n k i : Nat} {v : BitVec W} (hv : v.toNat < 2 ^ n) (hn : n ≤ W) (hk : k ≤ n)
    (hi : i < n) : ((v >>> k) ||| (v <<< (n - k))).getLsbD i = v.getLsbD ((i + k) % n) := by
  have hleft := getLsbD_rotateLeft hv hn (Nat.sub_le n k) hi
  rwa [Nat.sub_sub_self hk, show i + n - (n - k) = i + k by omega, BitVec.or_comm] at hleft

theorem bits_pos (w : Width) : 0 < w.bits := Nat.zero_lt_of_lt (four_lt_bits w)

theorem one_lt_bits (w : Width) : 1 < w.bits := Nat.lt_trans (by decide) (four_lt_bits w)

/-- A count below 32, taken modulo 8, 16 or 32: 32 is a multiple of all three. -/
theorem sub_count_mod (w : Width) (i : Nat) {c : Nat} (hc : c < 32) :
    (i + w.bits - c % w.bits) % w.bits = (i + 32 - c) % w.bits := by
  cases w <;> simp only [Width.bits] <;> omega

section
variable {w : Width} {x : Word} (hx : x.toNat < 2 ^ w.bits)
include hx

theorem getLsbD_rolResult {c : Nat} (hc : c < 32) (i : Nat) : (rolResult w x (c % w.bits)).getLsbD i =
    (decide (i < w.bits) && x.getLsbD ((i + 32 - c) % w.bits)) := by
  rw [rolResult, getLsbD_trunc]
  by_cases hi : i < w.bits
  · rw [getLsbD_rotateLeft hx (bits_le w) (Nat.mod_lt c (bits_pos w)).le hi, sub_count_mod w i hc]
  · simp only [hi, decide_false, Bool.false_and]

theorem getLsbD_rorResult (c i : Nat) : (rorResult w x (c % w.bits)).getLsbD i =
    (decide (i < w.bits) && x.getLsbD ((i + c) % w.bits)) := by
  rw [rorResult, getLsbD_trunc]
  by_cases hi : i < w.bits
  · rw [getLsbD_rotateRight hx (bits_le w) (Nat.mod_lt c (bits_pos w)).le hi, Nat.add_mod_mod]
  · simp only [hi, decide_false, Bool.false_and]

end

/-! ### ROL and ROR (R391, R392) -/

section
variable {a : Attrs} {f : ShiftForm} {o : TwoOperands} {s s1 s2 : State} {x y c r : Word}
  (ho : ShiftForm.operands a f = o) (hx : readOp a s o.dst = .ok x s1) (hy : readOp a s1 o.src = .ok y s2)
  (hcount : y &&& 0x1F = c) (hc : c ≠ 0)
include ho hx hy hcount hc

theorem exec_rol_of_reads (hr : rolResult o.width x (c.toNat % o.width.bits) = r) : exec (.rol a f) s =
    complete (rotateEnd a o r (r.getLsbD 0) (signBit o.width r ^^ r.getLsbD 0)
      (rotateUndefined c.toNat (c.toNat % o.width.bits)) s2) := by
  subst ho hr
  exact congrArg complete (shiftForm_of_count_ne_zero hx hy hcount _ hc)

theorem exec_ror_of_reads (hr : rorResult o.width x (c.toNat % o.width.bits) = r) : exec (.ror a f) s =
    complete (rotateEnd a o r (signBit o.width r) (signBit o.width r ^^ secondBit o.width r)
      (rotateUndefined c.toNat (c.toNat % o.width.bits)) s2) := by
  subst ho hr
  exact congrArg complete (shiftForm_of_count_ne_zero hx hy hcount _ hc)

end

/-- Settles O41: both rotations bit by bit, and the end they share. -/
theorem rotateResults : Obligations.RotateResults := by
  intro a f s x y s1 s2 h hx hy hc
  have hd := (readOp_device hx).trans (readOp_device hy)
  have hxlt := readOp_lt hx (shift_fits a f)
  generalize ho : ShiftForm.operands a f = o at *
  generalize hcount : y &&& 0x1F = c at *
  have hend := rotateEnd_of_ready h hd.readFrame.storesFrame hd.mem (one_lt_bits o.width) c
  refine ⟨?_, ?_⟩
  · obtain ⟨u, t, hu, ht, hrest⟩ := hend (rolResult o.width x (c.toNat % o.width.bits)) _ _
    exact ⟨_, u, t, fun i _ => getLsbD_rolResult hxlt (count_lt hcount) i, hu,
      (exec_rol_of_reads ho hx hy hcount hc rfl).trans ht, hrest⟩
  · obtain ⟨u, t, hu, ht, hrest⟩ := hend (rorResult o.width x (c.toNat % o.width.bits)) _ _
    exact ⟨_, u, t, fun i _ => getLsbD_rorResult hxlt c.toNat i, hu,
      (exec_ror_of_reads ho hx hy hcount hc rfl).trans ht, hrest⟩

/-! ### RCL and RCR (R393, R394) -/

/-- `trunc_{N+1}`. -/
theorem getLsbD_truncPlusOne (w : Width) (v : BitVec 64) (i : Nat) :
    (truncPlusOne w v).getLsbD i = (decide (i ≤ w.bits) && v.getLsbD i) := by
  have hmask : (((1 : BitVec 64) <<< (w.bits + 1)) - 1).toNat = 2 ^ (w.bits + 1) - 1 := by cases w <;> rfl
  rw [truncPlusOne, BitVec.getLsbD_and, ← BitVec.testBit_toNat (_ - 1), hmask, Nat.testBit_two_pow_sub_one,
    Bool.and_comm]
  simp only [Nat.lt_succ_iff]

section
variable {w : Width} {v : BitVec 64} (hv : v.toNat < 2 ^ (w.bits + 1)) (c i : Nat)
include hv

theorem getLsbD_rclResult : (rclResult w v (c % (w.bits + 1))).getLsbD i =
    (decide (i ≤ w.bits) && v.getLsbD ((i + 2 * (w.bits + 1) - c % (w.bits + 1)) % (w.bits + 1))) := by
  have hn := bits_le w
  have hk := Nat.mod_lt c (Nat.add_one_pos w.bits)
  rw [rclResult, getLsbD_truncPlusOne]
  by_cases hi : i ≤ w.bits
  · rw [getLsbD_rotateLeft hv (by omega) hk.le (Nat.lt_succ_of_le hi), ← Nat.add_mod_right,
      show i + (w.bits + 1) - c % (w.bits + 1) + (w.bits + 1) = i + 2 * (w.bits + 1) - c % (w.bits + 1) by omega]
  · simp only [hi, decide_false, Bool.false_and]

theorem getLsbD_rcrResult : (rcrResult w v (c % (w.bits + 1))).getLsbD i =
    (decide (i ≤ w.bits) && v.getLsbD ((i + c) % (w.bits + 1))) := by
  have hn := bits_le w
  have hk := Nat.mod_lt c (Nat.add_one_pos w.bits)
  rw [rcrResult, getLsbD_truncPlusOne]
  by_cases hi : i ≤ w.bits
  · rw [getLsbD_rotateRight hv (by omega) hk.le (Nat.lt_succ_of_le hi), Nat.add_mod_mod]
  · simp only [hi, decide_false, Bool.false_and]

end

/-- CF goes on top of an operand that fits. -/
theorem withCarry_lt {w : Width} {x : Word} (hx : x.toNat < 2 ^ w.bits) (cf : Bool) :
    (withCarry w cf x).toNat < 2 ^ (w.bits + 1) := by
  have hcarry : ((bitWord cf).setWidth 64 <<< w.bits).toNat < 2 ^ (w.bits + 1) := by cases w <;> cases cf <;> decide
  rw [withCarry, BitVec.toNat_or, BitVec.toNat_setWidth_of_le (by decide)]
  exact Nat.or_lt_two_pow (hx.trans (Nat.pow_lt_pow_succ (by decide))) hcarry

/-- The low N bits of a 64-bit value, as a word. -/
theorem getLsbD_trunc_setWidth (w : Width) (z : BitVec 64) {i : Nat} (hi : i < w.bits) :
    (trunc w (z.setWidth 32)).getLsbD i = z.getLsbD i := by
  rw [getLsbD_trunc, BitVec.getLsbD_setWidth, decide_eq_true hi, decide_eq_true (hi.trans_le (bits_le w)),
    Bool.true_and, Bool.true_and]

section
variable {a : Attrs} {f : ShiftForm} {o : TwoOperands} {s s1 s2 : State} {x y c : Word} {z : BitVec 64}
  (ho : ShiftForm.operands a f = o) (hx : readOp a s o.dst = .ok x s1) (hy : readOp a s1 o.src = .ok y s2)
  (hcount : y &&& 0x1F = c) (hc : c ≠ 0)
include ho hx hy hcount hc

theorem exec_rcl_of_reads
    (hz : rclResult o.width (withCarry o.width (flagOf s .cf) x) (c.toNat % (o.width.bits + 1)) = z) :
    exec (.rcl a f) s = complete (rotateEnd a o (trunc o.width (z.setWidth 32)) (z.getLsbD o.width.bits)
      (z.getLsbD (o.width.bits - 1) ^^ z.getLsbD o.width.bits)
      (rotateUndefined c.toNat (c.toNat % (o.width.bits + 1))) (touchFlag s2 .cf)) := by
  have hcf := flagOf_congr s s2 ((readOp_device hx).trans (readOp_device hy)).flags .cf
  rw [← hcf] at hz
  rw [← getLsbD_trunc_setWidth _ _ (Nat.sub_lt (bits_pos o.width) Nat.one_pos)]
  subst ho hz
  exact congrArg complete (shiftForm_of_count_ne_zero hx hy hcount _ hc)

theorem exec_rcr_of_reads
    (hz : rcrResult o.width (withCarry o.width (flagOf s .cf) x) (c.toNat % (o.width.bits + 1)) = z) :
    exec (.rcr a f) s = complete (rotateEnd a o (trunc o.width (z.setWidth 32)) (z.getLsbD o.width.bits)
      (z.getLsbD (o.width.bits - 1) ^^ z.getLsbD (o.width.bits - 2))
      (rotateUndefined c.toNat (c.toNat % (o.width.bits + 1))) (touchFlag s2 .cf)) := by
  have hcf := flagOf_congr s s2 ((readOp_device hx).trans (readOp_device hy)).flags .cf
  rw [← hcf] at hz
  rw [← getLsbD_trunc_setWidth _ _ (Nat.sub_lt (bits_pos o.width) Nat.one_pos),
    ← getLsbD_trunc_setWidth _ _ (Nat.sub_lt (bits_pos o.width) Nat.two_pos)]
  subst ho hz
  exact congrArg complete (shiftForm_of_count_ne_zero hx hy hcount _ hc)

end

/-- Settles O42: both rotations of the N+1-bit value, and the end they share. -/
theorem rotateThroughCarryResults : Obligations.RotateThroughCarryResults := by
  intro a f s x y s1 s2 h hx hy hc
  have hd := (readOp_device hx).trans (readOp_device hy)
  have hv := withCarry_lt (readOp_lt hx (shift_fits a f)) (flagOf s .cf)
  generalize ho : ShiftForm.operands a f = o at *
  generalize hcount : y &&& 0x1F = c at *
  have hm := Nat.succ_lt_succ (bits_pos o.width)
  have hread := hd.readFrame.storesFrame.trans (storesFrame_touchFlag s2 .cf)
  have hend := rotateEnd_of_ready h hread hd.mem hm c
  refine ⟨?_, ?_⟩
  · obtain ⟨u, t, hu, ht, hrest⟩ := hend _ _ _
    exact ⟨_, u, t, fun i _ => getLsbD_rclResult hv c.toNat i, hu,
      (exec_rcl_of_reads ho hx hy hcount hc rfl).trans ht, hrest⟩
  · obtain ⟨u, t, hu, ht, hrest⟩ := hend _ _ _
    exact ⟨_, u, t, fun i _ => getLsbD_rcrResult hv c.toNat i, hu,
      (exec_rcr_of_reads ho hx hy hcount hc rfl).trans ht, hrest⟩

/-! ### The end of a shift (R395 to R397) -/

theorem cf_not_mem_shiftUndefined {w : Width} {c : Nat} {sar : Bool} (h : c < w.bits ∨ sar = true) :
    Flag.cf ∉ shiftUndefined w c sar := by
  have hfree : (!sar && decide (w ≠ .dword) && decide (w.bits ≤ c)) = false := by
    rcases h with h | rfl
    · rw [decide_eq_false (Nat.not_le.mpr h), Bool.and_false]
    · rfl
  rw [shiftUndefined, hfree]
  split <;> decide

theorem ovf_not_mem_shiftUndefined (w : Width) (sar : Bool) : Flag.ovf ∉ shiftUndefined w 1 sar := by
  rw [shiftUndefined, if_neg (Nat.lt_irrefl 1)]
  split <;> decide

theorem not_mem_shiftUndefined (w : Width) (c : Nat) (sar : Bool) {g : Flag} (haf : g ≠ .af) (hcf : g ≠ .cf)
    (hovf : g ≠ .ovf) : g ∉ shiftUndefined w c sar := by
  rw [shiftUndefined]
  split <;> split <;> simp [haf, hcf, hovf]

/-- AF of a shift's snapshot (40_lazy_flags R231). -/
theorem flagOf_af_lazyStore_shift (s : State) {k : FlagKind} (hk : k = .shl ∨ k = .shr ∨ k = .sar) (w : Width)
    (x y r : Word) : flagOf (lazyStore s k w x y r) .af = false := by
  rw [flagOf_lazyStore]
  rcases hk with rfl | rfl | rfl <;> rfl

/-- CF, OF and the flags a shift leaves undefined are none of ZF, SF and PF. -/
theorem ResultFlags.storeCfOf_shift {w w' : Width} {r : Word} {s : State} (h : ResultFlags w r s) (cf ovf : Bool)
    (c : Nat) (sar : Bool) : ResultFlags w r (storeCfOf s cf ovf (shiftUndefined w' c sar)) := by
  have hkeep : ∀ g, g ≠ .af → g ≠ .cf → g ≠ .ovf →
      flagOf (Machine.storeCfOf s cf ovf (shiftUndefined w' c sar)) g = flagOf s g := fun g haf hcf hovf =>
    flagOf_storeCfOf_other s cf ovf _ hcf hovf (.inr (not_mem_shiftUndefined w' c sar haf hcf hovf))
  exact ⟨(hkeep .zf (by decide) (by decide) (by decide)).trans h.zf,
    (hkeep .sf (by decide) (by decide) (by decide)).trans h.sf,
    (hkeep .pf (by decide) (by decide) (by decide)).trans h.pf⟩

/-- A shift, after its reads: one write, the snapshot, then CF and OF. -/
theorem shiftEnd_of_ready {a : Attrs} {s v : State} {o : TwoOperands} (h : o.dst.ready a s) (hd : DeviceOnly s v)
    {k : FlagKind} (hk : k = .shl ∨ k = .shr ∨ k = .sar) (x c : Word) {r : Word}
    (hr : r.toNat < 2 ^ o.width.bits) (cf ovf : Bool) :
    ∃ u t, writeOp a v o.dst r = .ok () u ∧ complete (shiftEnd a o k x c.toNat r cf ovf v) = .next t ∧
      t.regs = u.regs ∧ t.mem = u.mem ∧
      flagOf t .zf = decide (r = 0) ∧ flagOf t .sf = signBit o.width r ∧ flagOf t .pf = evenParity r ∧
      (s.cfg.undefFlags = .decided → flagOf t .af = false) ∧
      (s.cfg.undefFlags = .decided ∨ (c.toNat < o.width.bits ∨ k = .sar) → flagOf t .cf = cf) ∧
      (s.cfg.undefFlags = .decided ∨ c = 1 → flagOf t .ovf = ovf) ∧ OperandFrame a o.dst s t := by
  obtain ⟨u, hu, hframe, _⟩ := writeOp_after_reads hd h r
  have hsnap := resultFlags_lazyStore u k o.width x (BitVec.ofNat 32 c.toNat) r
  have haf := flagOf_af_lazyStore_shift u hk o.width x (BitVec.ofNat 32 c.toNat) r
  have hstored := hframe.afterFlags (t := lazyStore u k o.width x (BitVec.ofNat 32 c.toNat) r) rfl
    (keepsPlainFlags_lazyStore u k o.width x _ r)
  rw [trunc_of_lt _ _ hr] at hsnap
  rw [← hstored.system.cfg]
  have hres := hsnap.storeCfOf_shift (w' := o.width) cf ovf c.toNat (decide (k = .sar))
  refine ⟨u, storeCfOf (lazyStore u k o.width x (BitVec.ofNat 32 c.toNat) r) cf ovf
    (shiftUndefined o.width c.toNat (decide (k = .sar))), hu, ?_, storeCfOf_regs .., storeCfOf_mem .., hres.zf,
    hres.sf, hres.pf.trans (evenParity_eq_countP r).symm, fun hcfg => ?_, fun hcf => ?_, fun hovf => ?_,
    hstored.storeCfOf ..⟩
  · rw [shiftEnd, hu, andThen_ok, complete_ok, storeCfOf]
  · rw [flagOf_storeCfOf_other _ cf ovf _ (by decide) (by decide) (.inl hcfg), haf]
  · exact flagOf_storeCfOf _ cf ovf _ (hcf.imp_right fun h => cf_not_mem_shiftUndefined (h.imp_right decide_eq_true))
  · refine flagOf_storeCfOf _ cf ovf _ (hovf.imp_right ?_)
    rintro rfl
    exact ovf_not_mem_shiftUndefined _ _

/-! ### Shifts in integers -/

/-- A shift left by less than 32 loses nothing of 32 bits in 64. -/
theorem toNat_shiftLeft_double (x : Word) {c : Nat} (hc : c < 32) :
    (x.setWidth 64 <<< c : BitVec 64).toNat = x.toNat * 2 ^ c := by
  have hpow : 2 ^ c ≤ 2 ^ 31 := Nat.pow_le_pow_right (by decide) (Nat.le_of_lt_succ hc)
  have hlt : x.toNat * 2 ^ c < 2 ^ 64 := (Nat.mul_lt_mul_of_lt_of_le x.isLt hpow (by decide)).trans (by decide)
  rw [BitVec.toNat_shiftLeft, BitVec.toNat_setWidth_of_le (by decide), Nat.shiftLeft_eq, Nat.mod_eq_of_lt hlt]

/-- What SHL writes (R395). -/
theorem trunc_shiftLeft_double (w : Width) (x : Word) {c : Nat} (hc : c < 32) :
    trunc w ((x.setWidth 64 <<< c : BitVec 64).setWidth 32) = BitVec.ofNat 32 (x.toNat * 2 ^ c % 2 ^ w.bits) := by
  apply BitVec.eq_of_toNat_eq
  rw [toNat_trunc, BitVec.toNat_setWidth, toNat_shiftLeft_double x hc, BitVec.toNat_ofNat,
    Nat.mod_mod_of_dvd _ (pow_dvd_pow 2 (bits_le w)),
    Nat.mod_eq_of_lt ((Nat.mod_lt _ (Nat.two_pow_pos _)).trans_le (Nat.pow_le_pow_right (by decide) (bits_le w)))]

/-- What SHR writes (R396). -/
theorem ushiftRight_eq_ofNat (x : Word) (c : Nat) : x >>> c = BitVec.ofNat 32 (x.toNat / 2 ^ c) := by
  rw [← Nat.shiftRight_eq_div_pow, ← BitVec.toNat_ushiftRight, BitVec.ofNat_toNat, BitVec.setWidth_eq]

/-- The last bit SHR shifts out; beyond the operand all bits are 0. -/
theorem shr_carry {w : Width} {x : Word} (hx : x.toNat < 2 ^ w.bits) (c : Nat) :
    (decide (c ≤ w.bits) && x.getLsbD (c - 1)) = x.getLsbD (c - 1) := by
  by_cases hc : c ≤ w.bits
  · rw [decide_eq_true hc, Bool.true_and]
  · rw [getLsbD_of_toNat_lt hx (by omega), Bool.and_false]

/-- Shifting an integer right is dividing and rounding down (R397). -/
theorem int_shiftRight_eq_div (p : Int) (c : Nat) : p >>> c = p / 2 ^ c := by
  rw [Int.shiftRight_eq_div_pow, Int.natCast_pow]
  rfl

/-- A bit of a word is the parity of the signed number shifted down to it. -/
theorem getLsbD_eq_toInt_div (v : Word) {i : Nat} (hi : i < 32) : v.getLsbD i = decide (v.toInt / 2 ^ i % 2 = 1) := by
  have hbit : v.getLsbD i = (v.sshiftRight i).getLsbD 0 := by
    rw [BitVec.getLsbD_sshiftRight, Nat.add_zero, if_pos hi]
    rfl
  have hint : v.toInt / 2 ^ i = (v.sshiftRight i).toInt := by
    rw [BitVec.toInt_sshiftRight, int_shiftRight_eq_div]
  rw [hbit, hint, BitVec.toInt_eq_toNat_cond, ← BitVec.testBit_toNat, Nat.testBit_zero, decide_eq_decide]
  split <;> omega

/-! ### SHL, SHR and SAR (R395 to R397) -/

section
variable {a : Attrs} {f : ShiftForm} {o : TwoOperands} {s s1 s2 : State} {x y c r : Word}
  (ho : ShiftForm.operands a f = o) (hx : readOp a s o.dst = .ok x s1) (hy : readOp a s1 o.src = .ok y s2)
  (hcount : y &&& 0x1F = c) (hc : c ≠ 0)
include ho hx hy hcount hc

theorem exec_shl_of_reads (hr : BitVec.ofNat 32 (x.toNat * 2 ^ c.toNat % 2 ^ o.width.bits) = r) :
    exec (.shl a f) s = complete (shiftEnd a o .shl x c.toNat r ((x.toNat * 2 ^ c.toNat).testBit o.width.bits)
      (signBit o.width r ^^ (x.toNat * 2 ^ c.toNat).testBit o.width.bits) s2) := by
  have hlt := count_lt hcount
  rw [← trunc_shiftLeft_double o.width x hlt] at hr
  subst ho hr
  rw [← toNat_shiftLeft_double x hlt, BitVec.testBit_toNat]
  exact congrArg complete (shiftForm_of_count_ne_zero hx hy hcount _ hc)

theorem exec_shr_of_reads (hr : BitVec.ofNat 32 (x.toNat / 2 ^ c.toNat) = r) :
    exec (.shr a f) s = complete (shiftEnd a o .shr x c.toNat r (x.getLsbD (c.toNat - 1))
      (signBit o.width r ^^ secondBit o.width r) s2) := by
  rw [← ushiftRight_eq_ofNat] at hr
  subst ho hr
  rw [← shr_carry (readOp_lt hx (shift_fits a f))]
  exact congrArg complete (shiftForm_of_count_ne_zero hx hy hcount _ hc)

theorem exec_sar_of_reads (hr : ofIntTrunc o.width (signed o.width x / 2 ^ c.toNat) = r) :
    exec (.sar a f) s = complete (shiftEnd a o .sar x c.toNat r
      (decide (signed o.width x / 2 ^ (c.toNat - 1) % 2 = 1)) false s2) := by
  have hlt := count_lt hcount
  rw [← int_shiftRight_eq_div] at hr
  subst ho hr
  rw [signed, ← getLsbD_eq_toInt_div _ (by omega)]
  exact congrArg complete (shiftForm_of_count_ne_zero hx hy hcount _ hc)

end

/-- Settles O43: each result in integers, and the end they share. -/
theorem shiftResults : Obligations.ShiftResults := by
  intro a f s x y s1 s2 h hx hy hc
  have hd := (readOp_device hx).trans (readOp_device hy)
  have hxlt := readOp_lt hx (shift_fits a f)
  generalize ho : ShiftForm.operands a f = o at *
  generalize hcount : y &&& 0x1F = c at *
  refine ⟨?_, ?_, ?_⟩
  · have hr : (BitVec.ofNat 32 (x.toNat * 2 ^ c.toNat % 2 ^ o.width.bits)).toNat < 2 ^ o.width.bits := by
      rw [← trunc_shiftLeft_double o.width x (count_lt hcount)]
      exact trunc_lt _ _
    obtain ⟨u, t, hu, ht, hregs, hmem, hzf, hsf, hpf, haf, hcf, hovf, hframe⟩ :=
      shiftEnd_of_ready h hd (.inl rfl) x c hr _ _
    refine ⟨_, u, t, rfl, hu, (exec_shl_of_reads ho hx hy hcount hc rfl).trans ht, hregs, hmem, hzf, hsf, hpf, haf,
      fun hdef => hcf (hdef.imp_right .inl), fun hdef => ?_, hframe⟩
    have hone : c = 1 → c.toNat < o.width.bits := by
      rintro rfl
      exact one_lt_bits o.width
    rw [hovf hdef, hcf (hdef.imp_right fun h1 => .inl (hone h1))]
  · have hr : (BitVec.ofNat 32 (x.toNat / 2 ^ c.toNat)).toNat < 2 ^ o.width.bits := by
      rw [← ushiftRight_eq_ofNat, BitVec.toNat_ushiftRight]
      exact (Nat.shiftRight_le ..).trans_lt hxlt
    obtain ⟨u, t, hu, ht, hregs, hmem, hzf, hsf, hpf, haf, hcf, hovf, hframe⟩ :=
      shiftEnd_of_ready h hd (.inr (.inl rfl)) x c hr _ _
    exact ⟨_, u, t, rfl, hu, (exec_shr_of_reads ho hx hy hcount hc rfl).trans ht, hregs, hmem, hzf, hsf, hpf, haf,
      fun hdef => hcf (hdef.imp_right .inl), hovf, hframe⟩
  · obtain ⟨u, t, hu, ht, hregs, hmem, hzf, hsf, hpf, haf, hcf, hovf, hframe⟩ :=
      shiftEnd_of_ready h hd (.inr (.inr rfl)) x c (trunc_lt o.width _) _ _
    exact ⟨_, u, t, rfl, hu, (exec_sar_of_reads ho hx hy hcount hc rfl).trans ht, hregs, hmem, hzf, hsf, hpf, haf,
      hovf, hcf (.inr (.inr rfl)), hframe⟩

end Sys2Proof.Machine
end

section
/-! PROOFS. Of 44_string R410 to R419: the index registers, one element of each instruction, and the repeat loop as one
element and then the rest. -/

namespace Sys2Proof.Machine

/-! ### The index and count registers (R410 to R412) -/

section
variable (a : Attrs) (s : State) (r : Reg) (v : Word)

theorem reg32_setRegSize_other (sz : Size) {q : Reg} (h : q ≠ r) : reg32 (setRegSize s sz r v) q = reg32 s q :=
  reg32_setReg_other s sz.width r q v (by rwa [regHome_size])

theorem toNat_getRegSize_setRegSize (sz : Size) :
    (getRegSize (setRegSize s sz r v) sz r).toNat = v.toNat % 2 ^ sz.width.bits := by
  rw [getRegSize, setRegSize, getReg_setReg_same, toNat_trunc]

/-- A write of 16 bits leaves the upper half (10_state R24). -/
theorem upperHalf_setRegSize : reg32 (setRegSize s .s16 r v) r >>> 16 = reg32 s r >>> 16 := by
  have hw : reg32 (setRegSize s .s16 r v) r = writeReg32 .word (isHighByte r) (reg32 s r) v :=
    reg32_setReg_home s .word r v
  apply BitVec.eq_of_getLsbD_eq
  intro i _
  rw [hw, BitVec.getLsbD_ushiftRight, BitVec.getLsbD_ushiftRight, getLsbD_writeReg32, if_neg]
  simp only [fieldLow, Width.bits]
  omega

/-- An index moves up or down by the element's size, modulo the address size (R411). -/
theorem toNat_getRegSize_advanceIndex (w : Width) : (getRegSize (advanceIndex a w r s) a.asz r).toNat =
    ((getRegSize s a.asz r).toNat + (if plainFlag s dfPos = true then 2 ^ a.asz.width.bits - w.bytes else w.bytes)) %
      2 ^ a.asz.width.bits := by
  have hn := width_bytes_pos w
  rw [advanceIndex, toNat_getRegSize_setRegSize]
  generalize getRegSize s a.asz r = x, w.bytes = n at *
  cases plainFlag s dfPos with
  | true =>
    simp only [if_true, BitVec.toNat_sub, BitVec.toNat_ofNat]
    cases a.asz <;> simp only [Size.width, Width.bits] <;> omega
  | false =>
    simp only [Bool.false_eq_true, if_false, BitVec.toNat_add, BitVec.toNat_ofNat]
    cases a.asz <;> simp only [Size.width, Width.bits] <;> omega

end

section
variable (a : Attrs) {s t : State}

theorem dstIndex_congr (h : t.regs = s.regs) : dstIndex a t = dstIndex a s := getReg_congr s t h _ _

theorem repCount_congr (h : reg32 t .cx = reg32 s .cx) : repCount a t = repCount a s := by
  rw [repCount, repCount, getRegSize, getRegSize, getReg_size, getReg_size, h]

theorem repCount_advanceIndex {r : Reg} (h : r ≠ .cx) (w : Width) (s : State) :
    repCount a (advanceIndex a w r s) = repCount a s :=
  repCount_congr a (reg32_setRegSize_other s r _ a.asz h.symm)

/-- What is left to repeat: the count goes down by one (R412). -/
theorem toNat_repCount_decCount (h : repCount a s ≠ 0) : (repCount a (decCount a s)).toNat + 1 = (repCount a s).toNat := by
  have hlt : (repCount a s).toNat < 2 ^ a.asz.width.bits := getReg_lt s a.asz.width .cx
  have hpos : 0 < (repCount a s).toNat := Nat.pos_of_ne_zero ((eq_zero_iff_toNat _).not.mp h)
  have hdec : (repCount a (decCount a s)).toNat = (repCount a s - 1).toNat % 2 ^ a.asz.width.bits :=
    toNat_getRegSize_setRegSize s .cx _ a.asz
  have hsub : (repCount a s - 1).toNat = (repCount a s).toNat - 1 := BitVec.toNat_sub_of_le (by bv_omega)
  rw [hdec, hsub, Nat.mod_eq_of_lt (by omega)]
  omega

end

/-! ### The five instructions as one -/

/-- A string instruction, whether it compares (R412), and one element of it. -/
inductive StringOp : (Attrs → StrForm → Instr) → Bool → (Attrs → Width → State → Res Unit) → Prop
  | movs : StringOp .movs false movsOnce
  | cmps : StringOp .cmps true cmpsOnce
  | stos : StringOp .stos false stosOnce
  | lods : StringOp .lods false lodsOnce
  | scas : StringOp .scas true scasOnce

section
variable {mk : Attrs → StrForm → Instr} {compare : Bool} {once : Attrs → Width → State → Res Unit}
  (h : StringOp mk compare once)
include h

theorem StringOp.exec_eq (a : Attrs) (f : StrForm) (s : State) :
    exec (mk a f) s = complete (repeated a compare (once a (StrForm.width a f)) s) := by
  cases h <;> rfl

/-- Without a repeat prefix the instruction is one element (R412). -/
theorem StringOp.exec_of_not_repeated {a : Attrs} {f : StrForm} {s t : State} (hrep : a.rep = .none)
    (ho : once a (StrForm.width a f) s = .ok () t) : exec (mk a f) s = .next t := by
  rw [h.exec_eq, repeated, hrep, ho, complete_ok]

end

/-! ### One element (R413 to R417) -/

section
variable {a : Attrs} {w : Width} {s : State}

theorem movsOnce_of_access (hsrc : canAccess s (implicitSeg a) (srcIndex a s) w) (hdst : canAccess s .es (dstIndex a s) w) :
    ∃ v u t, segRead s (implicitSeg a) (srcIndex a s) w = .ok v u ∧ segWrite u .es (dstIndex a s) w v = .ok () t ∧
      movsOnce a w s = .ok () (advanceIndex a w .di (advanceIndex a w .si t)) ∧
      StoresFrame [(storeHome s .es (dstIndex a s) w, w)] s t := by
  obtain ⟨v, u, hv, hd⟩ := segRead_ok s _ _ w hsrc
  obtain ⟨t, ht, hs⟩ := segWrite_ok u _ _ w v (hd.canAccess.mpr hdst)
  rw [storeHome_of_system hd.keepsSystem] at hs
  refine ⟨v, u, t, hv, ht, ?_, hd.readFrame.storesFrame.trans hs.storesFrame⟩
  rw [movsOnce, hv, andThen_ok, dstIndex_congr a hd.regs, ht, andThen_ok]

theorem cmpsOnce_of_access (hsrc : canAccess s (implicitSeg a) (srcIndex a s) w) (hdst : canAccess s .es (dstIndex a s) w) :
    ∃ x y u t, segRead s (implicitSeg a) (srcIndex a s) w = .ok x u ∧ segRead u .es (dstIndex a s) w = .ok y t ∧
      cmpsOnce a w s = .ok () (advanceIndex a w .di (advanceIndex a w .si (lazyStore t .cmp w x y (trunc w (x - y))))) ∧
      ReadFrame s t := by
  obtain ⟨x, u, hx, hd⟩ := segRead_ok s _ _ w hsrc
  obtain ⟨y, t, hy, hd'⟩ := segRead_ok u _ _ w (hd.canAccess.mpr hdst)
  refine ⟨x, y, u, t, hx, hy, ?_, (hd.trans hd').readFrame⟩
  rw [cmpsOnce, hx, andThen_ok, dstIndex_congr a hd.regs, hy, andThen_ok]

theorem stosOnce_of_access (hdst : canAccess s .es (dstIndex a s) w) :
    ∃ t, segWrite s .es (dstIndex a s) w (getReg s w .ax) = .ok () t ∧
      stosOnce a w s = .ok () (advanceIndex a w .di t) ∧ StoresFrame [(storeHome s .es (dstIndex a s) w, w)] s t := by
  obtain ⟨t, ht, hs⟩ := segWrite_ok s _ _ w (getReg s w .ax) hdst
  exact ⟨t, ht, by rw [stosOnce, ht, andThen_ok], hs.storesFrame⟩

theorem lodsOnce_of_access (hsrc : canAccess s (implicitSeg a) (srcIndex a s) w) :
    ∃ v t, segRead s (implicitSeg a) (srcIndex a s) w = .ok v t ∧
      lodsOnce a w s = .ok () (advanceIndex a w .si (setReg t w .ax v)) ∧ ReadFrame s t := by
  obtain ⟨v, t, hv, hd⟩ := segRead_ok s _ _ w hsrc
  exact ⟨v, t, hv, by rw [lodsOnce, hv, andThen_ok], hd.readFrame⟩

theorem scasOnce_of_access (hdst : canAccess s .es (dstIndex a s) w) :
    ∃ y t, segRead s .es (dstIndex a s) w = .ok y t ∧
      scasOnce a w s = .ok () (advanceIndex a w .di
        (lazyStore t .cmp w (getReg s w .ax) y (trunc w (getReg s w .ax - y)))) ∧ ReadFrame s t := by
  obtain ⟨y, t, hy, hd⟩ := segRead_ok s _ _ w hdst
  refine ⟨y, t, hy, ?_, hd.readFrame⟩
  rw [scasOnce, hy, andThen_ok, getReg_congr s t hd.regs]

end

/-- Settles O44: the index moves by its field, and each instruction is one element of its accesses. -/
theorem stringElements : Obligations.StringElements := by
  refine ⟨fun a w r s => ⟨fun q hq => ?_, rfl, toNat_getRegSize_advanceIndex a s r w, fun hasz => ?_⟩,
    fun a f s hrep => ⟨fun hsrc hdst => ⟨?movs, ?cmps⟩, fun hdst => ⟨?stos, ?scas⟩, fun hsrc => ?lods⟩⟩
  · exact reg32_setRegSize_other s r _ a.asz (by simpa using hq)
  · rw [advanceIndex, hasz]
    exact upperHalf_setRegSize s r _
  case movs =>
    obtain ⟨v, u, t, hv, ht, ho, hframe⟩ := movsOnce_of_access hsrc hdst
    exact ⟨v, u, t, hv, ht, StringOp.movs.exec_of_not_repeated hrep ho, hframe⟩
  case cmps =>
    obtain ⟨x, y, u, t, hx, hy, ho, hframe⟩ := cmpsOnce_of_access hsrc hdst
    exact ⟨x, y, u, t, hx, hy, StringOp.cmps.exec_of_not_repeated hrep ho, hframe⟩
  case stos =>
    obtain ⟨t, ht, ho, hframe⟩ := stosOnce_of_access hdst
    exact ⟨t, ht, StringOp.stos.exec_of_not_repeated hrep ho, hframe⟩
  case scas =>
    obtain ⟨y, t, hy, ho, hframe⟩ := scasOnce_of_access hdst
    exact ⟨y, t, hy, StringOp.scas.exec_of_not_repeated hrep ho, hframe⟩
  case lods =>
    obtain ⟨v, t, hv, ho, hframe⟩ := lodsOnce_of_access hsrc
    exact ⟨v, t, hv, StringOp.lods.exec_of_not_repeated hrep ho, hframe⟩

/-! ### An element that faults (R419) -/

theorem failsReading_segRead {s u : State} (h : ReadFrame s u) (r : SegReg) (off : Word) (w : Width) :
    FailsReading s (segRead u r off w) := by
  rcases segRead_cases u r off w with ⟨x, t, c, -⟩ | ⟨e, c⟩ | ⟨k, c⟩ <;> rw [c]
  exacts [.of_ok _ _ _, .of_raised h e, .of_aborted h k]

theorem failsReading_segWrite {s u : State} (h : ReadFrame s u) (r : SegReg) (off : Word) (w : Width) (v : Word) :
    FailsReading s (segWrite u r off w v) := by
  rcases segWrite_cases u r off w v with ⟨t, home, c, -⟩ | ⟨e, c⟩ | ⟨k, c⟩ <;> rw [c]
  exacts [.of_ok _ _ _, .of_raised h e, .of_aborted h k]

section
variable {mk : Attrs → StrForm → Instr} {compare : Bool} {once : Attrs → Width → State → Res Unit}
  (h : StringOp mk compare once)
include h

/-- Every access of an element comes before its updates of registers and flags. -/
theorem StringOp.failsReading (a : Attrs) (w : Width) (s : State) : FailsReading s (once a w s) := by
  have hread := fun r off => failsReading_segRead (.refl s) r off w
  cases h with
  | movs =>
    exact (hread _ _).andThen fun _ _ hv =>
      (failsReading_segWrite (segRead_device hv).readFrame _ _ _ _).andThen fun _ _ _ => .of_ok _ _ _
  | cmps =>
    exact (hread _ _).andThen fun _ _ hx =>
      (failsReading_segRead (segRead_device hx).readFrame _ _ _).andThen fun _ _ _ => .of_ok _ _ _
  | stos => exact (failsReading_segWrite (.refl s) _ _ _ _).andThen fun _ _ _ => .of_ok _ _ _
  | lods => exact (hread _ _).andThen fun _ _ _ => .of_ok _ _ _
  | scas => exact (hread _ _).andThen fun _ _ _ => .of_ok _ _ _

/-- A repeated instruction ends where its first element faults, in the state that element was begun in. -/
theorem StringOp.exec_of_fault {a : Attrs} {f : StrForm} {s : State} (hc : repCount a s ≠ 0) :
    (∀ e t, once a (StrForm.width a f) s = .raised e t →
      exec (mk a f) s = .next (takeException t e) ∧ ReadFrame s t ∧ t.start = s.start) ∧
    ∀ k t, once a (StrForm.width a f) s = .aborted k t →
      exec (mk a f) s = .next (abortState t k) ∧ ReadFrame s t ∧ t.start = s.start := by
  have hlike := repeated_failsLike a s compare (once a (StrForm.width a f)) (.inr hc)
  have hfails := h.failsReading a (StrForm.width a f) s
  refine ⟨fun e t ho => ?_, fun k t ho => ?_⟩
  · have hframe := hfails.raised e t ho
    exact ⟨by rw [h.exec_eq, hlike.raised e t ho, complete_raised], hframe, hframe.system.start⟩
  · have hframe := hfails.aborted k t ho
    exact ⟨by rw [h.exec_eq, hlike.aborted k t ho, complete_aborted], hframe, hframe.system.start⟩

/-! ### One element and then the rest (R412) -/

/-- An element does not touch the count. -/
theorem StringOp.keeps_repCount {a : Attrs} {w : Width} {s t : State} (ho : once a w s = .ok () t) :
    repCount a t = repCount a s := by
  have hregs : ∀ {u : State}, u.regs = s.regs → repCount a u = repCount a s := fun hu =>
    repCount_congr a (reg32_congr s _ hu _)
  cases h with
  | movs =>
    obtain ⟨v, u, hv, ho⟩ := andThen_eq_ok ho
    obtain ⟨_, t', ht, ho⟩ := andThen_eq_ok ho
    cases ho
    rw [repCount_advanceIndex a (by decide), repCount_advanceIndex a (by decide)]
    exact hregs ((segWrite_stored ht).regs.trans (segRead_device hv).regs)
  | cmps =>
    obtain ⟨x, u, hx, ho⟩ := andThen_eq_ok ho
    obtain ⟨y, t', hy, ho⟩ := andThen_eq_ok ho
    cases ho
    rw [repCount_advanceIndex a (by decide), repCount_advanceIndex a (by decide)]
    exact hregs ((segRead_device hy).regs.trans (segRead_device hx).regs)
  | stos =>
    obtain ⟨_, t', ht, ho⟩ := andThen_eq_ok ho
    cases ho
    rw [repCount_advanceIndex a (by decide)]
    exact hregs (segWrite_stored ht).regs
  | lods =>
    obtain ⟨v, t', hv, ho⟩ := andThen_eq_ok ho
    cases ho
    have hax : Reg.cx ≠ regHome w .ax := by cases w <;> decide
    rw [repCount_advanceIndex a (by decide), repCount_congr a (reg32_setReg_other t' w .ax .cx v hax)]
    exact hregs (segRead_device hv).regs
  | scas =>
    obtain ⟨y, t', hy, ho⟩ := andThen_eq_ok ho
    cases ho
    rw [repCount_advanceIndex a (by decide)]
    exact hregs (segRead_device hy).regs

end

section
variable {a : Attrs} {s : State} (hrep : a.rep ≠ .none)
include hrep

theorem repeated_eq_repeatLoop (compare : Bool) (one : State → Res Unit) (s : State) :
    repeated a compare one s = repeatLoop a compare one (repCount a s).toNat s := by
  cases hr : a.rep with
  | none => exact absurd hr hrep
  | rep => rw [repeated, hr]
  | repne => rw [repeated, hr]

theorem repeated_of_count_zero (compare : Bool) (one : State → Res Unit) (hc : repCount a s = 0) :
    repeated a compare one s = .ok () s := by
  rw [repeated_eq_repeatLoop hrep, hc]
  rfl

/-- The loop's fuel after one element is the count that element left, so the rest is the whole instruction again. -/
theorem repeated_of_element (compare : Bool) {one : State → Res Unit} {t : State} (hc : repCount a s ≠ 0)
    (ho : one s = .ok () t) (hk : repCount a t = repCount a s) :
    repeated a compare one s = if repStops a.rep compare (decCount a t) then .ok () (repTouch compare (decCount a t))
      else repeated a compare one (repTouch compare (decCount a t)) := by
  have htouch : repCount a (repTouch compare (decCount a t)) = repCount a (decCount a t) := by cases compare <;> rfl
  have hfuel : (repCount a s).toNat = (repCount a (repTouch compare (decCount a t))).toNat + 1 := by
    rw [htouch, toNat_repCount_decCount a (hk ▸ hc), hk]
  rw [repeated_eq_repeatLoop hrep, hfuel, repeatLoop, if_neg hc, ho, andThen_ok, ← repeated_eq_repeatLoop hrep]

/-- A repeated compare goes on while ZF agrees with the prefix (R412). -/
theorem repStops_compare (t : State) :
    repStops a.rep true (decCount a t) = !decide (flagOf t .zf = decide (a.rep = .rep)) := by
  have hzf : flagOf (decCount a t) .zf = flagOf t .zf := rfl
  cases hr : a.rep with
  | none => exact absurd hr hrep
  | rep => simp [repStops, hzf]
  | repne => simp [repStops, hzf]

variable {mk : Attrs → StrForm → Instr} {once : Attrs → Width → State → Res Unit} {f : StrForm}

theorem StringOp.exec_of_count_zero {compare : Bool} (h : StringOp mk compare once) (hc : repCount a s = 0) :
    exec (mk a f) s = .next s := by
  rw [h.exec_eq, repeated_of_count_zero hrep compare _ hc, complete_ok]

variable {t : State} (hc : repCount a s ≠ 0) (ho : once a (StrForm.width a f) s = .ok () t)
include hc ho

/-- MOVS, STOS and LODS go on whatever the flags. -/
theorem StringOp.exec_of_element (h : StringOp mk false once) :
    exec (mk a f) s = exec (mk a f) (decCount a t) := by
  have hstops : repStops a.rep false (decCount a t) = false := by cases a.rep <;> rfl
  rw [h.exec_eq, h.exec_eq, repeated_of_element hrep false hc ho (h.keeps_repCount ho), hstops, if_neg Bool.false_ne_true]
  rfl

/-- CMPS and SCAS go on while ZF agrees with the prefix. -/
theorem StringOp.exec_of_compare (h : StringOp mk true once) :
    exec (mk a f) s = if flagOf t .zf = decide (a.rep = .rep) then exec (mk a f) (touchFlag (decCount a t) .zf)
      else .next (touchFlag (decCount a t) .zf) := by
  rw [h.exec_eq, h.exec_eq, repeated_of_element hrep true hc ho (h.keeps_repCount ho), repStops_compare hrep]
  by_cases hz : flagOf t .zf = decide (a.rep = .rep) <;> simp [hz, repTouch]

end

/-- Settles O45: each part once for the five instructions. -/
theorem repeatedStrings : Obligations.RepeatedStrings := by
  refine fun a f s hrep => ⟨fun hc mk once hop => ?_, fun hc => ?_, fun hc t => ?_⟩
  · have hop : ∃ compare, StringOp mk compare once := by
      rcases hop with ⟨rfl, rfl⟩ | ⟨rfl, rfl⟩ | ⟨rfl, rfl⟩ | ⟨rfl, rfl⟩ | ⟨rfl, rfl⟩
      exacts [⟨_, .movs⟩, ⟨_, .cmps⟩, ⟨_, .stos⟩, ⟨_, .lods⟩, ⟨_, .scas⟩]
    obtain ⟨compare, h⟩ := hop
    exact h.exec_of_fault hc
  · exact ⟨StringOp.movs.exec_of_count_zero hrep hc, StringOp.cmps.exec_of_count_zero hrep hc,
      StringOp.stos.exec_of_count_zero hrep hc, StringOp.lods.exec_of_count_zero hrep hc,
      StringOp.scas.exec_of_count_zero hrep hc⟩
  · exact ⟨fun ho => StringOp.movs.exec_of_element hrep hc ho, fun ho => StringOp.stos.exec_of_element hrep hc ho,
      fun ho => StringOp.lods.exec_of_element hrep hc ho, fun ho => StringOp.cmps.exec_of_compare hrep hc ho,
      fun ho => StringOp.scas.exec_of_compare hrep hc ho⟩

end Sys2Proof.Machine
end

section
/-! PROOFS. Of 45_control_transfer R430 to R468: jumps and loops as one branch, near and far calls and returns by their
stack slots, and IRET outside protected mode. -/

namespace Sys2Proof.Machine

/-! ### Branches (R430, R435) -/

/-- A branch from a state in which at most flags have become clean: taken, EIP is the target; not taken, it stays. -/
theorem onlyJumps_branch {u t : State} (ht : onlyFlags u t) (hf : keepsFlags u t) (a : Attrs) (d : Word) (c : Prop)
    [Decidable c] : OnlyJumps u (if c then jumpRel a d t else t) ∧
      (if c then jumpRel a d t else t).eip = if c then truncSize a.osz (u.eip + d) else u.eip := by
  have heip : t.eip = u.eip := by rw [ht]
  split
  · refine ⟨⟨?_, hf⟩, ?_⟩
    · rw [ht]
      rfl
    · rw [jumpRel, setEip_eip, relTarget, heip]
  · exact ⟨⟨ht.trans (by rw [heip]), hf⟩, heip⟩

/-- The sixteen Jcc are one instruction with a condition (R435 to R451). -/
theorem exec_jcc (c : Cond) (a : Attrs) (f : RelForm) (s : State) : exec (c.jcc a f) s = .next
    (if condHolds c s then jumpRel a (RelForm.offset a f) (touchCond c s) else touchCond c s) := by
  cases c <;> rfl

/-! ### Loops (R453 to R455) -/

/-- The decremented count is 0 exactly where the count was 1, at either address size. -/
theorem loopCount_loopDec_eq_zero (a : Attrs) (s : State) :
    loopCount a (loopDec a s) = 0 ↔ getRegSize s a.asz .cx = 1 := by
  have hlt : (getRegSize s a.asz .cx).toNat < 2 ^ a.asz.width.bits := getReg_lt s _ .cx
  have hone : (1 : Word).toNat = 1 := rfl
  rw [loopCount, loopDec, eq_zero_iff_toNat, toNat_getRegSize_setRegSize, loopCount, ← BitVec.toNat_inj,
    BitVec.toNat_sub, hone]
  generalize getRegSize s a.asz .cx = x, a.asz = sz at *
  cases sz <;> simp only [Size.width, Width.bits] at * <;> omega

/-- The branch of a loop, taken or not after the decrement of the count. -/
theorem onlyJumps_loop {a : Attrs} {s t : State} (ht : onlyFlags (loopDec a s) t) (hf : keepsFlags (loopDec a s) t)
    (d : Byte) {go stay : Prop} [Decidable go] [Decidable stay] (h : go ↔ ¬stay) :
    OnlyJumps (loopDec a s) (if go then jumpRel a (sextByte d) t else t) ∧
      (if go then jumpRel a (sextByte d) t else t).eip =
        if stay then s.eip else truncSize a.osz (s.eip + sextByte d) := by
  obtain ⟨honly, heip⟩ := onlyJumps_branch ht hf a (sextByte d) go
  exact ⟨honly, heip.trans ((if_congr h rfl rfl).trans (ite_not stay _ _))⟩

/-- LOOPE and LOOPNE: ZF is read after the decrement and is that of the state before. -/
theorem onlyJumps_loopCond (a : Attrs) (d : Byte) (want : Bool) (s : State) :
    OnlyJumps (loopDec a s) (loopCond a d want s) ∧ (loopCond a d want s).eip =
      if getRegSize s a.asz .cx = 1 ∨ flagOf s .zf = !want then s.eip else truncSize a.osz (s.eip + sextByte d) := by
  have hcount : loopCount a (touchFlag (loopDec a s) .zf) = loopCount a (loopDec a s) := rfl
  refine onlyJumps_loop (t := touchFlag (loopDec a s) .zf) rfl (keepsFlags_touchFlag (loopDec a s) .zf) d ?_
  rw [hcount, Ne, loopCount_loopDec_eq_zero, not_or, Bool.eq_not, not_not]

/-! ### Near jumps -/

/-- JMP through a register or memory (R432). -/
theorem jmpInd_of_ready {a : Attrs} {s : State} {e : Rm} (h : (rmOp a.osz.width e).ready a s) :
    ∃ v u, readOp a s (rmOp a.osz.width e) = .ok v u ∧ exec (.jmpInd a e) s = .next (setEip u v) ∧
      v.toNat < 2 ^ a.osz.width.bits ∧ ReadFrame s u := by
  obtain ⟨v, u, hv, hd⟩ := readOp_ok a s _ h
  have hexec : exec (.jmpInd a e) s = execJmpInd a e s := rfl
  exact ⟨v, u, hv, by rw [hexec, execJmpInd, hv, andThen_ok, complete_ok], readOp_lt hv (rmOp_fits _ e), hd.readFrame⟩

/-- Settles O46: the conditions flag by flag, then each instruction as one branch. -/
theorem nearJumps : Obligations.NearJumps := by
  refine ⟨fun s => ?conditions, fun a s => ⟨fun f => rfl, fun c f => ?jcc, fun d => rfl, fun d => ?loops,
    fun e h => jmpInd_of_ready h⟩⟩
  case conditions =>
    refine ⟨⟨rfl, rfl⟩, ⟨rfl, rfl⟩, ⟨rfl, rfl⟩, ⟨?_, ?_⟩, ⟨rfl, rfl⟩, ⟨rfl, rfl⟩, ⟨?_, rfl⟩, ?_, ?_⟩ <;>
      simp [condHolds, bne, Bool.beq_eq_decide_eq]
  case jcc =>
    obtain ⟨honly, hflags⟩ := touchCond_spec c s
    exact ⟨_, exec_jcc c a f s, onlyJumps_branch honly hflags a _ _⟩
  case loops =>
    obtain ⟨honly, heip⟩ := onlyJumps_loop (t := loopDec a s) rfl (keepsFlags_refl _) d
      (loopCount_loopDec_eq_zero a s).not
    obtain ⟨honly', heip'⟩ := onlyJumps_loopCond a d true s
    obtain ⟨honly'', heip''⟩ := onlyJumps_loopCond a d false s
    exact ⟨_, _, _, rfl, rfl, rfl, honly, honly', honly'', heip, heip', heip''⟩

/-! ### Near calls (R456, R457) -/

section
variable {a : Attrs} {s : State} (h : canStore s a.osz a.osz.bytes)
include h

theorem callRel_of_ready (d : Word) : ∃ u,
    segWrite s .ss (slotBelow s a.osz.bytes) a.osz.width s.eip = .ok () u ∧
    exec (.callRel a d) s = .next (setEip (setStackPtr u (slotBelow s a.osz.bytes))
      (truncSize a.osz (s.eip + sext a.osz.width d))) ∧
    StackFrame s (setStackPtr u (slotBelow s a.osz.bytes)) a.osz.bytes a.osz.width := by
  obtain ⟨u, hu, hpush, hframe, heip⟩ := push_after_reads (.refl s) h s.eip
  have hexec : exec (.callRel a d) s = execCallRel a d s := rfl
  have hptr : (setStackPtr u (slotBelow s a.osz.bytes)).eip = s.eip := heip
  exact ⟨u, hu, by rw [hexec, execCallRel, hpush, andThen_ok, complete_ok, jumpRel, relTarget, hptr], hframe⟩

theorem callInd_of_ready {e : Rm} (he : (rmOp a.osz.width e).ready a s) : ∃ v u t,
    readOp a s (rmOp a.osz.width e) = .ok v u ∧
    segWrite u .ss (slotBelow s a.osz.bytes) a.osz.width s.eip = .ok () t ∧
    exec (.callInd a e) s = .next (setEip (setStackPtr t (slotBelow s a.osz.bytes)) v) ∧
    StackFrame s (setStackPtr t (slotBelow s a.osz.bytes)) a.osz.bytes a.osz.width := by
  obtain ⟨v, u, hv, hd⟩ := readOp_ok a s _ he
  obtain ⟨t, ht, hpush, hframe, _⟩ := push_after_reads hd h s.eip
  have hexec : exec (.callInd a e) s = execCallInd a e s := rfl
  exact ⟨v, u, t, hv, ht, by rw [hexec, execCallInd, hv, andThen_ok, hd.eip, hpush, andThen_ok, complete_ok], hframe⟩

end

/-! ### Near returns (R460, R461) -/

/-- Writing back what a register holds changes nothing (10_state R24). -/
theorem setReg_getReg (s : State) (w : Width) (r : Reg) : setReg s w r (getReg s w r) = s := by
  have hold : writeReg32 w (isHighByte r) (reg32 s (regHome w r)) (getReg s w r) = reg32 s (regHome w r) := by
    apply BitVec.eq_of_getLsbD_eq
    intro i _
    rw [getLsbD_writeReg32, getReg_eq_trunc, getLsbD_trunc, BitVec.getLsbD_ushiftRight]
    split
    · rename_i hi
      rw [Nat.add_sub_cancel' hi.1, decide_eq_true (by omega), Bool.true_and]
    · rfl
  have hset : ∀ q, s.regs.set q (s.regs.get q) = s.regs := fun q => by cases q <;> rfl
  rw [setReg, hold, reg32, hset]

theorem drop_zero (s : State) : drop s 0 = s := by
  have habove : slotAbove s 0 = wrapSp s (stackPtr s) := congrArg (wrapSp s) (BitVec.add_zero (stackPtr s))
  rw [drop, habove, wrapSp, stackPtr, setStackPtr]
  split
  · exact setReg_getReg s .dword .sp
  · have hwrap : getReg s .word .sp &&& 0xFFFF = getReg s .word .sp := trunc_trunc .word (reg32 s .sp)
    rw [hwrap]
    exact setReg_getReg s .word .sp

theorem nearReturn_of_ready {a : Attrs} {s : State} (h : canFetch s a.osz 0) : ∃ v u,
    peek s a.osz 0 = .ok v u ∧ ReadFrame s u ∧
    ∀ k, complete (nearReturn a k s) = .next (setEip (drop (drop u a.osz.bytes) k) v) := by
  obtain ⟨v, u, hv, hpop, hd⟩ := pop_ok s a.osz h
  exact ⟨v, u, hv, hd.readFrame, fun k => by rw [nearReturn, hpop, andThen_ok, complete_ok]⟩

/-- Settles O47: the one slot of each instruction, and RET as the return that drops nothing more. -/
theorem nearCallsAndReturns : Obligations.NearCallsAndReturns := by
  refine fun a s => ⟨fun h => ⟨fun d => callRel_of_ready h d, fun e he => callInd_of_ready h he⟩, fun h => ?_⟩
  obtain ⟨v, u, hv, hu, hret⟩ := nearReturn_of_ready h
  have hzero := hret 0
  rw [drop_zero] at hzero
  exact ⟨v, u, hv, hu, hzero, fun i => hret i.toNat⟩

/-! ### Far transfers outside protected mode (R433 to R463, R468) -/

/-- Outside protected mode what ends as a CS load, after reads and stores, ends normally (20_memory R96). -/
theorem EndsAs.next_of_real {o : Host.Outcome State Fault Refusal} {stores : List (Option Nat × Width)} {s t : State}
    {v : BitVec 16} {kind : CsKind} {g : State → State} (h : EndsAs o (loadSeg t .cs v kind false) g)
    (ht : StoresFrame stores s t) (hs : isProt s = false) : o = .next (g (loadSegReal t .cs v)) := by
  have hmode : isProt t = isProt s := by
    rw [isProt, isProt, pe, pe, vmFlag, vmFlag, ht.system.ctl, ht.flags.2 17 (by decide)]
  exact h.normal _ (loadSeg_real (hmode.trans hs) _ _ _ _)

/-- Settles O48: each instruction ends as its CS load, which answers without a check. -/
theorem farTransfersRealMode : Obligations.FarTransfersRealMode := by
  refine fun a s hs => ⟨fun off sel => (jmpFar_endsAs a s off sel).next_of_real (.refl s) hs,
    fun m h => ?jmpFarInd, fun h1 h2 => ⟨fun off sel => ?callFar, fun m h => ?callFarInd⟩, fun h1 h2 => ?retf⟩
  case jmpFarInd =>
    obtain ⟨off, sel, u, hv, hu, he⟩ := jmpFarInd_of_ready a s h
    exact ⟨off, sel, u, hv, hu, he.next_of_real hu.storesFrame hs⟩
  case callFar =>
    obtain ⟨u, t, hu, ht, hf, he⟩ := farCall_of_ready a (.refl s) h1 h2 (truncSize a.osz off) sel
    exact ⟨u, t, hu, ht, he.next_of_real hf hs, hf⟩
  case callFarInd =>
    obtain ⟨off, sel, r, u, t, hv, hu, ht, hf, he⟩ := callFarInd_of_ready a s h1 h2 h
    exact ⟨off, sel, r, u, t, hv, hu, ht, he.next_of_real hf hs, hf⟩
  case retf =>
    obtain ⟨off, sel, u, t, hu, ht, hf, he⟩ := farReturn_of_ready a s h1 h2
    exact ⟨off, sel, u, t, hu, ht, hf, (he 0).next_of_real hf.storesFrame hs,
      fun i => (he i.toNat).next_of_real hf.storesFrame hs⟩

/-! ### IRET outside protected mode (R466) -/

theorem iret_of_low {a : Attrs} {s : State} (h : ¬mayV86 s) : exec (.iret a) s = .next (takeException s (.gp 0)) := by
  have hexec : exec (.iret a) s = execIret a s := rfl
  rw [hexec, execIret, returnFromInterrupt, v86Guard_of_low h, andThen_raised, complete_raised]

/-- The bits IRET may load: those of POPF, and RF at operand size 32. -/
theorem iretMask_getLsbD (s : State) (sz : Size) (i : Nat) :
    (iretMask s sz).getLsbD i = true ↔ (loadableFlags s).getLsbD i = true ∨ (i = 16 ∧ sz = .s32) := by
  have hrf := getLsbD_mask (m := 0x00010000) (p := fun i => decide (i = 16)) (by decide)
    (fun i h => by rw [decide_eq_true_eq] at h; omega) i
  rw [iretMask, BitVec.getLsbD_or, Bool.or_eq_true]
  cases sz with
  | s16 => simp
  | s32 =>
    rw [if_pos rfl, hrf]
    simp

/-- IRET past its guard, once its three slots can be read. -/
theorem iret_real_of_ready {a : Attrs} {s : State} (hs : isProt s = false) (hv : mayV86 s) (h1 : canFetch s a.osz 0)
    (h2 : canFetch s a.osz a.osz.bytes) (h3 : canFetch s a.osz (2 * a.osz.bytes)) :
    ∃ off sel f s1 s2 s3, peek s a.osz 0 = .ok off s1 ∧ peek s1 a.osz a.osz.bytes = .ok sel s2 ∧
      peek s2 a.osz (2 * a.osz.bytes) = .ok f s3 ∧ ReadFrame s s3 ∧
      exec (.iret a) s = .next (writeFlags
        (drop (setEip (loadSegReal s3 .cs (sel.setWidth 16)) off) (3 * a.osz.bytes)) f (iretMask s a.osz)) := by
  obtain ⟨off, s1, e1, d1⟩ := peek_ok s a.osz 0 h1
  obtain ⟨sel, s2, e2, d2⟩ := peek_ok s1 a.osz a.osz.bytes ((d1.canFetch _ _).mpr h2)
  obtain ⟨f, s3, e3, d3⟩ := peek_ok s2 a.osz (2 * a.osz.bytes) (((d1.trans d2).canFetch _ _).mpr h3)
  have hf := ((d1.trans d2).trans d3).readFrame
  have hexec : exec (.iret a) s = execIret a s := rfl
  have he : EndsAs (exec (.iret a) s) (loadSeg s3 .cs (sel.setWidth 16) .ret false) fun w =>
      writeFlags (drop (setEip w off) (3 * a.osz.bytes)) f (iretMask s a.osz) := by
    rw [hexec, execIret, returnFromInterrupt, v86Guard_of_may hv, andThen_ok, hs, Bool.false_and, abortIf_false rfl,
      andThen_ok, e1, andThen_ok, e2, andThen_ok, e3, andThen_ok, hf.isProt, hs, Bool.false_and, Bool.false_and,
      abortIf_false rfl, andThen_ok, hf.iretMask]
    exact farTransfer_endsAs fun _ _ => rfl
  exact ⟨off, sel, f, s1, s2, s3, e1, e2, e3, hf, he.next_of_real hf.storesFrame hs⟩

/-- Settles O51: the guard, the mask bit by bit, and the three slots in order. -/
theorem interruptReturnRealMode : Obligations.InterruptReturnRealMode := by
  refine ⟨fun a s h => iret_of_low h, fun s sz i => ?_, fun a s hs hv h1 h2 h3 => iret_real_of_ready hs hv h1 h2 h3⟩
  rw [iretMask_getLsbD, loadableFlags_getLsbD, or_assoc, or_assoc]

end Sys2Proof.Machine
end

section
/-! PROOFS. Of 46_system R480 to R496: the privilege check that the privileged instructions share, the moves of system
registers, the pseudo-descriptors of GDTR and IDTR, and the load of LDTR. -/

namespace Sys2Proof.Machine

/-! ### The privilege check (R480) -/

theorem privileged_of_user {s : State} (hp : pe s = true) (hc : s.cpl ≠ 0) : privileged s = .raised (.gp 0) s := by
  rw [privileged, hp, decide_eq_true hc]
  rfl

/-- Above level 0 a privileged instruction ends at the check, whatever follows it. -/
theorem complete_privileged_of_user {s : State} (hp : pe s = true) (hc : s.cpl ≠ 0) (f : Unit → State → Res Unit) :
    complete ((privileged s).andThen f) = .next (takeException s (.gp 0)) := by
  rw [privileged_of_user hp hc, andThen_raised, complete_raised]

/-- Where privilege allows, a privileged instruction is what follows the check. -/
theorem complete_privileged_of_may {s : State} (h : mayPrivileged s) (f : Unit → State → Res Unit) :
    complete ((privileged s).andThen f) = complete (f () s) := by
  rw [privileged_of_may h, andThen_ok]

/-- LLDT checks the mode before the privilege (R488). -/
theorem exec_lldt_of_prot {s : State} (hp : isProt s = true) (a : Attrs) (e : Rm) : exec (.lldt a e) s =
    complete ((privileged s).andThen fun _ s =>
      (readOp a s (rmOp .word e)).andThen fun v s => loadLdtr s (v.setWidth 16)) := by
  have hexec : exec (.lldt a e) s = execLldt a e s := rfl
  rw [hexec, execLldt, protectedOnly_of_prot hp, andThen_ok]

/-- Settles O57: each instruction is the check and what follows it. -/
theorem privilegeChecks : Obligations.PrivilegeChecks := by
  intro s a hp hc
  have hgp := complete_privileged_of_user hp hc
  exact ⟨hgp _, fun m => ⟨hgp _, hgp _⟩, fun e => ⟨hgp _, fun hm => (exec_lldt_of_prot hm a e).trans (hgp _)⟩,
    fun r c => ⟨hgp _, hgp _⟩, fun r c => ⟨hgp _, hgp _⟩⟩

/-! ### The machine status word (R490, R491) -/

/-- CR0 after LMSW: bit 0 is set or kept, bits 3:1 come from the operand, the others stay. -/
theorem getLsbD_lmswValue (cr0 v : Word) (i : Nat) : (lmswValue cr0 v).getLsbD i =
    if i = 0 then cr0.getLsbD 0 || v.getLsbD 0 else if i ≤ 3 then v.getLsbD i else cr0.getLsbD i := by
  have hlow := getLsbD_mask (m := 1) (p := fun i => decide (i = 0)) (by decide)
    (fun i h => by rw [decide_eq_true_eq] at h; omega) i
  have hmid := getLsbD_mask (m := 0xE) (p := fun i => decide (1 ≤ i ∧ i ≤ 3)) (by decide)
    (fun i h => by rw [decide_eq_true_eq] at h; omega) i
  rw [lmswValue, BitVec.getLsbD_or, getLsbD_mergeBits, BitVec.getLsbD_and, hlow, hmid]
  by_cases h0 : i = 0
  · simp [h0]
  · have h1 : 1 ≤ i := Nat.one_le_iff_ne_zero.mpr h0
    simp [h0, h1]

theorem lmsw_of_ready {a : Attrs} {s : State} {e : Rm} (hp : mayPrivileged s) (h : (rmOp .word e).ready a s) :
    ∃ v u, readOp a s (rmOp .word e) = .ok v u ∧ ReadFrame s u ∧
      exec (.lmsw a e) s = .next (setCtl u .cr0 (lmswValue s.ctl.cr0 v)) := by
  obtain ⟨v, u, hv, hd⟩ := readOp_ok a s _ h
  have hexec : exec (.lmsw a e) s = execLmsw a e s := rfl
  exact ⟨v, u, hv, hd.readFrame, by
    rw [hexec, execLmsw, complete_privileged_of_may hp, hv, andThen_ok, complete_ok, hd.ctl]⟩

/-- Settles O58: each privileged move is what follows the check; LMSW bit by bit; SMSW is one write. -/
theorem systemRegisterMoves : Obligations.SystemRegisterMoves := by
  refine fun a s => ⟨fun hp => ?privileged, fun e h => ?smsw⟩
  case privileged =>
    have hmay := complete_privileged_of_may hp
    refine ⟨⟨haltState s false, hmay _, rfl, rfl, rfl, rfl, rfl, rfl⟩, fun r c => ⟨hmay _, hmay _⟩,
      fun r c => ⟨hmay _, hmay _⟩, fun e h => ?lmsw⟩
    obtain ⟨v, u, hv, hu, hexec⟩ := lmsw_of_ready hp h
    have hbits := getLsbD_lmswValue s.ctl.cr0 v
    refine ⟨v, u, _, hv, hexec, rfl, hu, hbits 0, fun i h1 h3 => (hbits i).trans ?_, fun i h4 => (hbits i).trans ?_⟩
    · rw [if_neg (by omega), if_pos h3]
    · rw [if_neg (by omega), if_neg (by omega)]
  case smsw =>
    obtain ⟨t, ht, hframe, hflags⟩ := writeOp_after_reads (.refl s) h (s.ctl.cr0 &&& 0xFFFF)
    exact ⟨t, ht, congrArg complete ht, hframe, hflags⟩

/-! ### Pseudo-descriptors (R483 to R486) -/

section
variable {a : Attrs} {s : State} {m : MemRef} (h : tableReady a s m)
include h

/-- The limit is stored, then the base. -/
theorem storeTable_of_ready (r : TableRegister) : ∃ u t,
    segWrite s (segFor a m) (effAddr s m 0) .word (r.limit.setWidth 32) = .ok () u ∧
    segWrite u (segFor a m) (effAddr s m 2) .dword r.base = .ok () t ∧ storeTable a m r s = .ok () t ∧
    StoresFrame [(storeHome s (segFor a m) (effAddr s m 0) .word, .word),
      (storeHome s (segFor a m) (effAddr s m 2) .dword, .dword)] s t := by
  obtain ⟨u, hu, hlim⟩ := segWrite_ok s _ _ _ (r.limit.setWidth 32) h.1
  obtain ⟨t, ht, hbase⟩ := segWrite_ok u _ _ _ r.base (hlim.canAccess.mpr h.2)
  rw [storeHome_of_system hlim.keepsSystem] at hbase
  exact ⟨u, t, hu, ht, by rw [storeTable, hu, andThen_ok, effAddr_congr s u hlim.regs, ht],
    hlim.storesFrame.trans hbase.storesFrame⟩

/-- The limit is read, then the base, cut to 24 bits at operand size 16. -/
theorem loadTable_of_ready : ∃ lim base u t,
    segRead s (segFor a m) (effAddr s m 0) .word = .ok lim u ∧
    segRead u (segFor a m) (effAddr s m 2) .dword = .ok base t ∧ ReadFrame s t ∧
    loadTable a m s = .ok ⟨if a.osz = .s16 then base &&& 0x00FFFFFF else base, lim.setWidth 16⟩ t := by
  obtain ⟨lim, u, hu, hlim⟩ := segRead_ok s _ _ _ h.1
  obtain ⟨base, t, ht, hbase⟩ := segRead_ok u _ _ _ (hlim.canAccess.mpr h.2)
  exact ⟨lim, base, u, t, hu, ht, (hlim.trans hbase).readFrame, by
    rw [loadTable, hu, andThen_ok, effAddr_congr s u hlim.regs, ht, andThen_ok]⟩

end

/-- Settles O59: SGDT and SIDT are the two stores, LGDT and LIDT the two reads after the check. -/
theorem descriptorTableMoves : Obligations.DescriptorTableMoves := by
  refine fun a m s h => ⟨?sgdt, ?sidt, fun hp => ?loads⟩
  case sgdt =>
    obtain ⟨u, t, hu, ht, hstore, hframe⟩ := storeTable_of_ready h s.gdtr
    exact ⟨u, t, hu, ht, congrArg complete hstore, hframe⟩
  case sidt =>
    obtain ⟨u, t, hu, ht, hstore, hframe⟩ := storeTable_of_ready h s.idtr
    exact ⟨u, t, hu, ht, congrArg complete hstore, hframe⟩
  case loads =>
    obtain ⟨lim, base, u, t, hu, ht, hframe, hload⟩ := loadTable_of_ready h
    have hlgdt : exec (.lgdt a m) s = execLgdt a m s := rfl
    have hlidt : exec (.lidt a m) s = execLidt a m s := rfl
    refine ⟨lim, base, u, t, hu, ht, hframe, ?_, ?_⟩
    · rw [hlgdt, execLgdt, complete_privileged_of_may hp, hload, andThen_ok, complete_ok]
    · rw [hlidt, execLidt, complete_privileged_of_may hp, hload, andThen_ok, complete_ok]

/-! ### The selector of LDTR, read as a word (20_memory R92, R110) -/

/-- The mask of the index and table bits clears what the cut to 16 bits drops. -/
theorem selError_setWidth (v : Word) : selError (v.setWidth 16) = v &&& 0xFFFC := by
  have hmask : ∀ i < 32, (decide (i < 16) && (0xFFFC : BitVec 16).getLsbD i) = (0xFFFC : Word).getLsbD i := by decide
  apply BitVec.eq_of_getLsbD_eq
  intro i hi
  rw [selError, BitVec.getLsbD_setWidth, decide_eq_true hi, Bool.true_and, BitVec.getLsbD_and, BitVec.getLsbD_and,
    BitVec.getLsbD_setWidth, ← hmask i hi, Bool.and_comm (decide (i < 16)), Bool.and_assoc]

/-- A selector is null exactly where its error code is 0 (R100). -/
theorem selNull_iff (x : BitVec 16) : selNull x = true ↔ selError x = 0 := by
  rw [selNull, beq_iff_eq, selError, ← BitVec.toNat_inj, ← BitVec.toNat_inj, BitVec.toNat_setWidth_of_le (by decide)]
  rfl

theorem selNull_setWidth (v : Word) : selNull (v.setWidth 16) = true ↔ v &&& 0xFFFC = 0 := by
  rw [selNull_iff, selError_setWidth]

theorem selLocal_setWidth (v : Word) : selLocal (v.setWidth 16) = v.getLsbD 2 := by
  rw [selLocal, BitVec.getLsbD_setWidth, decide_eq_true (by decide), Bool.true_and]

theorem selectorOutside_of_system {s t : State} (h : KeepsSystem s t) (v : BitVec 16) :
    selectorOutside t v ↔ selectorOutside s v := by
  rw [selectorOutside, selectorOutside, h.ldtr, h.gdtr]

/-- A read of the descriptor that aborts has changed nothing but the device's record. -/
theorem fetchRawDescriptor_aborted_frame {s u : State} {v : BitVec 16} {ext : Bool} {k : AbortInfo}
    (h : fetchRawDescriptor s v ext = .aborted k u) : ReadFrame s u := by
  rcases fetchRawDescriptor_cases s v ext with ⟨d, t, e, _⟩ | ⟨e, g⟩ | ⟨k', t, g, f⟩
  · rw [h] at e
    cases e
  · rw [h] at g
    cases g
  · rw [h] at g
    cases g
    exact f

/-! ### The load of LDTR (20_memory R110) -/

section
variable {u : State} {v : Word}

theorem loadLdtr_null (hn : v &&& 0xFFFC = 0) : loadLdtr u (v.setWidth 16) =
    .ok () (setLdtr u { u.ldtr with value := v.setWidth 16, valid := false }) := by
  rw [loadLdtr, if_pos ((selNull_setWidth v).mpr hn)]

theorem loadLdtr_local (hn : v &&& 0xFFFC ≠ 0) (hl : v.getLsbD 2 = true) :
    loadLdtr u (v.setWidth 16) = .raised (.gp (v &&& 0xFFFC)) u := by
  rw [loadLdtr, if_neg ((selNull_setWidth v).not.mpr hn), selLocal_setWidth, if_pos hl, selError_setWidth]

/-- A selector of the GDT that is not null is loaded from its descriptor. -/
theorem loadLdtr_of_descriptor (hn : v &&& 0xFFFC ≠ 0) (hl : v.getLsbD 2 = false) : loadLdtr u (v.setWidth 16) =
    (fetchRawDescriptor u (v.setWidth 16) false).andThen fun da s =>
      if descS da.1 || decide (descType da.1 ≠ 2) then .raised (.gp (v &&& 0xFFFC)) s
      else if !descP da.1 then .raised (.np (v &&& 0xFFFC)) s
      else .ok () (setLdtr s ⟨v.setWidth 16, descBase da.1, descLimitScaled da.1, true⟩) := by
  rw [loadLdtr, if_neg ((selNull_setWidth v).not.mpr hn), selLocal_setWidth, if_neg (by rw [hl]; decide),
    selError_setWidth]

end

/-! ### SLDT and LLDT (R487, R488) -/

theorem protectedOnly_outside {s : State} (h : isProt s = false) :
    protectedOnly s = .aborted (.decodeError .outsideProtected []) s := by
  rw [protectedOnly, h]
  rfl

theorem sldt_lldt_outside {s : State} (h : isProt s = false) (a : Attrs) (e : Rm) :
    exec (.sldt a e) s = .next (abortState s (.decodeError .outsideProtected [])) ∧
      exec (.lldt a e) s = .next (abortState s (.decodeError .outsideProtected [])) := by
  have hsldt : exec (.sldt a e) s = execSldt a e s := rfl
  have hlldt : exec (.lldt a e) s = execLldt a e s := rfl
  rw [hsldt, hlldt, execSldt, execLldt, protectedOnly_outside h]
  exact ⟨rfl, rfl⟩

/-- LLDT at level 0 reads its operand and ends as the load of LDTR. -/
theorem lldt_of_ready {a : Attrs} {s : State} {e : Rm} (hp : isProt s = true) (hc : s.cpl = 0)
    (h : (rmOp .word e).ready a s) : ∃ v u, readOp a s (rmOp .word e) = .ok v u ∧ ReadFrame s u ∧
      exec (.lldt a e) s = complete (loadLdtr u (v.setWidth 16)) := by
  obtain ⟨v, u, hv, hd⟩ := readOp_ok a s _ h
  exact ⟨v, u, hv, hd.readFrame, by
    rw [exec_lldt_of_prot hp, complete_privileged_of_may (.inr hc), hv, andThen_ok]⟩

/-- Settles O60: the mode, then SLDT as one write and LLDT as the load's checks in order. -/
theorem localTableMoves : Obligations.LocalTableMoves := by
  refine fun a e s => ⟨fun hp => sldt_lldt_outside hp a e, fun hp h => ⟨?sldt, fun hc => ?lldt⟩⟩
  case sldt =>
    obtain ⟨t, ht, hframe, hflags⟩ := writeOp_after_reads (.refl s) h (s.ldtr.value.setWidth 32)
    have hexec : exec (.sldt a e) s = execSldt a e s := rfl
    exact ⟨t, ht, by rw [hexec, execSldt, protectedOnly_of_prot hp, andThen_ok, ht, complete_ok], hframe, hflags⟩
  case lldt =>
    obtain ⟨v, u, hv, hu, hexec⟩ := lldt_of_ready hp hc h
    rw [hexec]
    refine ⟨v, u, hv, hu, fun hn => ?null, fun hn hl => ?ldtSelector, fun hn hl ho => ?outside,
      fun hn hl k r hd => ⟨?aborts, hu.trans (fetchRawDescriptor_aborted_frame hd)⟩, fun d ad r hn hl hd => ?descriptor⟩
    case null => rw [loadLdtr_null hn, complete_ok, hu.system.ldtr]
    case ldtSelector => rw [loadLdtr_local hn hl, complete_raised]
    case outside =>
      rw [loadLdtr_of_descriptor hn hl,
        fetchRawDescriptor_outside ((selectorOutside_of_system hu.system _).mpr ho), andThen_raised, complete_raised,
        selFault_false, selError_setWidth]
    case aborts => rw [loadLdtr_of_descriptor hn hl, hd, andThen_aborted, complete_aborted]
    case descriptor =>
      rw [loadLdtr_of_descriptor hn hl, hd, andThen_ok]
      refine ⟨fun hkind => ?_, fun hs ht hpresent => ?_, fun hs ht hpresent => ?_⟩
      · rw [if_pos (by simpa using hkind), complete_raised]
      · rw [if_neg (by simp [hs, ht]), if_pos (by rw [hpresent]; rfl), complete_raised]
      · rw [if_neg (by simp [hs, ht]), if_neg (by simp [hpresent]), complete_ok]

end Sys2Proof.Machine
end

section
/-! PROOFS. Of 47_setcc R590 to R606: the byte sets. -/

namespace Sys2Proof.Machine

/-- What a write leaves after flags were evaluated: the evaluation shows in no flag's value. -/
theorem writeOp_after_onlyFlags {a : Attrs} {s u : State} {op : Operand} (hu : onlyFlags s u) (hf : keepsFlags s u)
    (h : op.ready a s) (v : Word) :
    ∃ t, writeOp a u op v = .ok () t ∧ OperandFrame a op s t ∧ ∀ f, flagOf t f = flagOf s f := by
  have hstores := storesFrame_of_onlyFlags hu hf
  have hmem : u.mem = s.mem := by rw [hu]
  obtain ⟨t, ht, hw⟩ := writeOp_ok a u op v ((ready_of_system a hstores.system hstores.regs op).mpr h)
  obtain ⟨_, _, _, hflags, _⟩ := hw.frame
  exact ⟨t, ht, operandFrame_of_written hstores.regs hmem hf.2 hstores.system hstores.eip hw,
    fun f => (flagOf_congr u t hflags f).trans (hf.1 f)⟩

/-- Every SETcc is the common form R590 of its condition. -/
theorem exec_setcc (c : Cond) (a : Attrs) (e : Rm) (s : State) :
    exec (c.setcc a e) s = complete (setCond c a e s) := by
  cases c <;> rfl

/-- Settles O49: the condition's flags become clean, which no flag's value shows, and then the byte is one write. -/
theorem setByteResults : Obligations.SetByteResults := by
  intro a s c e h
  obtain ⟨honly, hflags⟩ := touchCond_spec c s
  obtain ⟨t, ht, hframe, hkept⟩ := writeOp_after_onlyFlags honly hflags h (bitWord (condHolds c s))
  exact ⟨t, ht, by rw [exec_setcc, setCond, ht, complete_ok], hframe, hkept⟩

end Sys2Proof.Machine
end

section
/-! PROOFS. Of 60_exceptions R500 to R530: how a slice starts, counts and ends, what runs in it, and that every step
answers. -/

namespace Sys2Proof.Machine

/-! ### One instruction of a running slice (R526) -/

theorem step_of_fetch_ok {s t : State} {i : Instr} {len : Nat} (h : runsNext s)
    (hf : fetchDecode (setStart s s.eip) = .ok (i, len) t) :
    step s = endOutcome (exec i (setEip t (t.eip + BitVec.ofNat 32 len))) := by
  rw [step_of_runsNext h, runInstr, hf]

/-- Where the held bytes are an encoding, fetching them and whatever follows decodes to the instruction, and the state is left
by the fetch of the encoding alone (30_encoding R131, R132). -/
theorem fetchDecode_of_encoded {s : State} {i : Instr} (hw : i.wf = true)
    (h : holdsAt s s.eip (encode (getSeg s .cs).cache.big i)) :
    fetchDecode s = .ok (i, (encode (getSeg s .cs).cache.big i).length) s := by
  obtain ⟨hdecode, _, hmax⟩ := decodeOfEncode s.cfg.sizePrefix (getSeg s .cs).cache.big i hw
  have hahead := fetchBytes_holds s _ s.eip (Config.maxInsnLen - (encode (getSeg s .cs).cache.big i).length) h
  rw [Nat.add_sub_of_le hmax] at hahead
  simp only [fetchDecode, hahead, hdecode, List.length_append, Nat.add_sub_cancel, fetchBytes_holds_all s _ s.eip h,
    andThen_ok]

/-- Settles O4: the fetch decodes the encoding back, and the step is that of a decoded instruction. -/
theorem stepRunsEncoded : Obligations.StepRunsEncoded := fun _ _ hrun hw hcode =>
  step_of_fetch_ok hrun (fetchDecode_of_encoded hw (holdsAt_setStart hcode))

/-! ### How a step starts (R525) -/

section
variable {s : State}

theorem step_of_running (h : s.sched.runState = .running) : step s = runLoop s := by
  rw [step, schedule, h]

theorem step_of_resting (h : s.sched.runState = .halted ∨ s.sched.runState = .idle ∨ s.sched.runState = .yielded) :
    step s = enterSlice s := by
  rcases h with h | h | h <;> rw [step, schedule, h]

/-! ### How a slice ends (R526, R527) -/

theorem runLoop_of_budget (h : s.cfg.sliceBudget ≤ s.sched.sliceCount) : runLoop s = .next (setRunState s .yielded) :=
  if_pos h

theorem runLoop_of_pause (h : s.sched.sliceCount < s.cfg.sliceBudget) (hp : s.inputs.pauseReq = true) :
    runLoop s = .next (clearPause (setRunState s .idle)) := by
  rw [runLoop, if_neg (Nat.not_le.mpr h), if_pos hp]

theorem endInstr_of_live (h : s.sched.runState ≠ .aborted) :
    endInstr s = { s with sched := { s.sched with
      sliceCount := s.sched.sliceCount + 1
      runState := if s.sched.runState = .running ∧ s.cfg.sliceBudget ≤ s.sched.sliceCount + 1 then .yielded
        else s.sched.runState } } := by
  rw [endInstr, if_neg h]
  by_cases hb : s.sched.runState = .running ∧ s.cfg.sliceBudget ≤ s.sched.sliceCount + 1
  · simp only [if_pos hb]
    exact if_pos hb
  · simp only [if_neg hb]
    exact if_neg hb

/-! ### How a slice starts (R504, R521, R524) -/

theorem pendingInterrupt_of_quiet (h : s.sched.shutdown = true ∨ plainFlag s ifPos = false ∨ s.inputs.intr = []) :
    pendingInterrupt s = none := by
  rcases h with h | h | h <;> simp [pendingInterrupt, h]

theorem pendingInterrupt_of_enabled {v : Byte} {vs : List Byte} (hs : s.sched.shutdown = false)
    (hi : plainFlag s ifPos = true) (hv : s.inputs.intr = v :: vs) : pendingInterrupt s = some v := by
  simp [pendingInterrupt, hs, hi, hv]

theorem enterSlice_of_pause (hp : s.inputs.pauseReq = true) (hr : s.sched.runState ≠ .halted) :
    enterSlice s = .next (clearPause (setRunState (setSliceCount s 0) .idle)) :=
  if_pos ⟨hp, hr⟩

/-- Where no pause comes first. -/
theorem not_pauseFirst (h : s.sched.runState = .halted ∨ s.inputs.pauseReq = false) :
    ¬((setSliceCount s 0).inputs.pauseReq = true ∧ (setSliceCount s 0).sched.runState ≠ .halted) := by
  rintro ⟨hp, hr⟩
  rcases h with h | h
  · exact hr h
  · exact Bool.false_ne_true (h.symm.trans hp)

theorem enterSlice_of_pending {v : Byte} (h : s.sched.runState = .halted ∨ s.inputs.pauseReq = false)
    (hv : pendingInterrupt s = some v) :
    enterSlice s = .next (takeInterrupt (setRunState (setSliceCount s 0) .running) v) := by
  have hv : pendingInterrupt (setSliceCount s 0) = some v := hv
  simp only [enterSlice, if_neg (not_pauseFirst h), hv]

/-- A slice with nothing to take: a halted block stays, another one runs. -/
theorem enterSlice_of_quiet (h : s.sched.runState = .halted ∨ s.inputs.pauseReq = false)
    (hq : s.sched.shutdown = true ∨ plainFlag s ifPos = false ∨ s.inputs.intr = []) : enterSlice s =
      if s.sched.runState = .halted then .next (setSliceCount s 0)
      else runLoop (setRunState (setSliceCount s 0) .running) := by
  have hv : pendingInterrupt (setSliceCount s 0) = none := pendingInterrupt_of_quiet hq
  simp only [enterSlice, if_neg (not_pauseFirst h), hv]
  rfl

theorem step_of_halted_quiet (h : s.sched.runState = .halted)
    (hq : s.sched.shutdown = true ∨ plainFlag s ifPos = false ∨ s.inputs.intr = []) :
    step s = .next (setSliceCount s 0) := by
  rw [step_of_resting (.inl h), enterSlice_of_quiet (.inl h) hq, if_pos h]

end

/-- Settles O3: the fetch, the count, the two ends of a slice, and its start. -/
theorem stepRunsDecoded : Obligations.StepRunsDecoded := by
  refine ⟨fun s t i len hrun hf => step_of_fetch_ok hrun hf,
    fun t => ⟨endInstr t, rfl, fun h => if_pos h, fun h => endInstr_of_live h⟩,
    fun s hr hb => (step_of_running hr).trans (runLoop_of_budget hb),
    fun s hr hb hp => (step_of_running hr).trans (runLoop_of_pause hb hp), fun s hr hp hq => ?_⟩
  have hhalted : s.sched.runState ≠ .halted := by rcases hr with hr | hr <;> rw [hr] <;> decide
  rw [step_of_resting (.inr hr), enterSlice_of_quiet (.inr hp) hq, if_neg hhalted]
  exact (step_of_running rfl).symm

/-! ### Every instruction and every step answers (R500) -/

/-- Every instruction is pieces in order, and ends as the last of them does. -/
theorem exec_eq_complete (i : Instr) (s : State) : ∃ r, exec i s = complete r := by
  cases i <;> exact ⟨_, rfl⟩

theorem exec_answers (i : Instr) (s : State) : ∃ t, exec i s = .next t := by
  obtain ⟨r, h⟩ := exec_eq_complete i s
  exact ⟨settle r, h⟩

theorem runInstr_answers (s : State) : ∃ t, runInstr s = .next t := by
  unfold runInstr
  split
  case h_1 i len u _ =>
    obtain ⟨t, ht⟩ := exec_answers i (setEip u (u.eip + BitVec.ofNat 32 len))
    exact ⟨endInstr t, by rw [ht, endOutcome]⟩
  case h_2 => exact ⟨_, rfl⟩
  case h_3 => exact ⟨_, rfl⟩

theorem runLoop_answers (s : State) : ∃ t, runLoop s = .next t := by
  unfold runLoop
  split
  · exact ⟨_, rfl⟩
  · split
    · exact ⟨_, rfl⟩
    · exact runInstr_answers s

theorem enterSlice_answers (s : State) : ∃ t, enterSlice s = .next t := by
  unfold enterSlice
  dsimp only
  split
  · exact ⟨_, rfl⟩
  · split
    · exact ⟨_, rfl⟩
    · split
      · exact ⟨_, rfl⟩
      · exact runLoop_answers _

theorem step_answers (s : State) : ∃ t, step s = .next t := by
  unfold step schedule
  split
  case h_1 => exact ⟨s, rfl⟩
  case h_2 => exact runLoop_answers s
  all_goals exact enterSlice_answers s

/-! ### Actions of the host in HALTED (R513, R525) -/

section
variable {s : State} (h : s.sched.runState = .halted)
include h

/-- An access of the host that aborts leaves the scheduler of a halted block. -/
theorem hostAbort_halted_sched {t : State} (ht : t.sched = s.sched) (k : AbortInfo) : (hostAbort t k).sched = s.sched := by
  rw [hostAbort_halted t k (by rw [ht, h]), ht]

theorem hostMemRead_halted_sched (x : Word) (w : Width) : (hostMemRead s x w).2.sched = s.sched := by
  have hread := memRead_within keepsInv_stable.1 s x w
  unfold hostMemRead
  split
  · cases e : memRead s x w with
    | ok v t => rw [e] at hread; exact hread.1
    | raised v t => rw [e] at hread; exact hread.1
    | aborted k t => rw [e] at hread; exact hostAbort_halted_sched h hread.1 k
  · rfl

theorem hostMemWrite_halted_sched (x v : Word) (w : Width) : (hostMemWrite s x w v).sched = s.sched := by
  have hwrite := memWrite_within keepsInv_stable.1 s x w v
  unfold hostMemWrite
  split
  · cases e : memWrite s x w v with
    | ok y t => rw [e] at hwrite; exact hwrite.1
    | raised y t => rw [e] at hwrite; exact hwrite.1
    | aborted k t => rw [e] at hwrite; exact hostAbort_halted_sched h hwrite.1 k
  · rfl

theorem hostRegisterHandlers_halted (b e : Nat) (d : Bool) : hostRegisterHandlers s b e d = s := by
  rw [hostRegisterHandlers, h]
  rfl

end

theorem hostSetA20_sched (s : State) (c : Bool) : (hostSetA20 s c).sched = s.sched := by
  unfold hostSetA20
  split <;> rfl

theorem hostSetInterrupts_sched (s : State) (vs : List Byte) : (hostSetInterrupts s vs).sched = s.sched := by
  unfold hostSetInterrupts
  split <;> rfl

/-- Settles O9: each piece of the scheduler answers, and what HALTED and ABORTED leave. -/
theorem everyInstructionAnswers : Obligations.EveryInstructionAnswers :=
  ⟨exec_answers, step_answers, fun s h => by rw [step, schedule, h], fun s h hs => step_of_halted_quiet h (.inl hs),
    fun s x v w b e d c vs h => ⟨hostMemRead_halted_sched h x w, hostMemWrite_halted_sched h x v w,
      congrArg State.sched (hostRegisterHandlers_halted h b e d), hostSetA20_sched s c, hostSetInterrupts_sched s vs, rfl⟩,
    fun s h hq => step_of_halted_quiet h (.inr hq)⟩

/-! ### An interrupt is taken (R521, R522) -/

/-- The state in which a slice that takes an interrupt delivers it: running with the count 0, the EIP of the boundary as start,
the vector acknowledged, `vs` left pending. -/
def interruptStart (s : State) (vs : List Byte) : State :=
  { setRunState (setSliceCount s 0) .running with start := s.eip, inputs := { s.inputs with intr := vs } }

theorem takeInterrupt_of_pending {s : State} {v : Byte} {vs : List Byte} (h : s.inputs.intr = v :: vs) :
    takeInterrupt (setRunState (setSliceCount s 0) .running) v =
      settle (deliver (interruptStart s vs) v .ext none s.eip) := by
  simp only [takeInterrupt, interruptStart, setRunState_inputs, setSliceCount_inputs, h, List.tail_cons, setRunState_eip,
    setSliceCount_eip]

/-- A slice that starts with an enabled interrupt is its delivery. -/
theorem step_of_interrupt {s : State} {v : Byte} {vs : List Byte}
    (hr : s.sched.runState = .halted ∨
      ((s.sched.runState = .idle ∨ s.sched.runState = .yielded) ∧ s.inputs.pauseReq = false))
    (hs : s.sched.shutdown = false) (hi : plainFlag s ifPos = true) (hv : s.inputs.intr = v :: vs) :
    step s = .next (settle (deliver (interruptStart s vs) v .ext none s.eip)) := by
  rw [step_of_resting (hr.imp_right And.left), enterSlice_of_pending (hr.imp_right And.right)
    (pendingInterrupt_of_enabled hs hi hv), takeInterrupt_of_pending hv]

/-- Settles O56: the interrupt is the step's delivery, and a pause comes before it. -/
theorem interruptsAtSliceStart : Obligations.InterruptsAtSliceStart := by
  refine ⟨fun s v vs hr hs hi hv t ht => ?_, fun s hr hp => ?_⟩
  · rw [step_of_interrupt hr hs hi hv, interruptStart, ht, settle]
  · have hhalted : s.sched.runState ≠ .halted := by rcases hr with hr | hr <;> rw [hr] <;> decide
    rw [step_of_resting (.inr hr), enterSlice_of_pause hp hhalted]
    rfl

end Sys2Proof.Machine
end

section
/-! PROOFS. Of 60_exceptions R501 to R513: what taking an exception keeps, how one raised while another is delivered ends,
the software interrupts in every mode, and the checks of a gate. -/

namespace Sys2Proof.Machine

/-! ### What taking an exception keeps (R507, R509) -/

/-- The control, debug and table registers. -/
def systemFields (s : State) : CtlRegs × DbgRegs × TableRegister × TableRegister × LdtRegister :=
  (s.ctl, s.dbg, s.gdtr, s.idtr, s.ldtr)

theorem systemFields_reading : SystemReading systemFields := by constructor <;> intros <;> rfl

/-- Every general register but ESP, and every status flag. -/
def KeepsVisible (s t : State) : Prop := keepsRegs [.sp] s t ∧ ∀ f, flagOf t f = flagOf s f

theorem keepsVisible_of_eq {s t : State} (hr : t.regs = s.regs) (hf : t.flags = s.flags) : KeepsVisible s t :=
  ⟨fun r _ => reg32_congr s t hr r, flagOf_congr s t hf⟩

/-- The bits that delivery clears are no status flags (10_state R27). -/
theorem plainPos_ne_pos {i : Nat} (h : i = tfPos ∨ i = ifPos ∨ i = dfPos ∨ i = ntPos ∨ i = rfPos) (f : Flag) :
    i ≠ f.pos := by
  rcases h with rfl | rfl | rfl | rfl | rfl <;> cases f <;> decide

theorem keepsVisible_stable : StableDelivery KeepsVisible where
  refl _ := keepsVisible_of_eq rfl rfl
  trans h g := ⟨fun r hr => (g.1 r hr).trans (h.1 r hr), fun f => (g.2 f).trans (h.2 f)⟩
  sp s v := ⟨keepsRegs_setStackPtr s v, fun _ => rfl⟩
  eip _ _ := keepsVisible_of_eq rfl rfl
  seg _ _ _ := keepsVisible_of_eq rfl rfl
  touchAll s := ⟨fun _ _ => rfl, flagOf_touchAllFlags s⟩
  plain s i b hi :=
    ⟨fun _ _ => rfl, fun f => flagOf_setPlainFlag s i b f (plainPos_not_reserved hi).1 (plainPos_ne_pos hi f)⟩
  mem _ _ _ _ := keepsVisible_of_eq rfl rfl
  vga _ _ _ := keepsVisible_of_eq rfl rfl

/-- Halting and aborting move the scheduler and EIP alone. -/
theorem keepsVisible_of_ends {s t : State} (h : Ends KeepsVisible s t) : KeepsVisible s t := by
  obtain ⟨u, hu, rfl | ⟨b, rfl⟩ | ⟨k, rfl⟩⟩ := h
  · exact hu
  · exact keepsVisible_stable.trans hu (keepsVisible_of_eq rfl rfl)
  · exact keepsVisible_stable.trans hu (keepsVisible_of_eq rfl rfl)

/-- Settles O55: every update that delivery makes keeps them, and an exception ends in deliveries. -/
theorem takingAnExceptionKeepsRegisters : Obligations.TakingAnExceptionKeepsRegisters := by
  intro s e
  obtain ⟨hregs, hflags⟩ := keepsVisible_of_ends (takeException_ends keepsVisible_stable s e)
  have hsystem := systemFields_reading.of_ends (takeException_ends systemFields_reading.stable.1 s e)
  simp only [systemFields, Prod.mk.injEq] at hsystem
  exact ⟨hregs, hflags, hsystem⟩

/-! ### Exceptions during a delivery (R512, R513) -/

section
variable {s t : State} {e : Exc}

theorem takeException_of_delivered (h : deliver (setEip s s.start) e.vector .exc e.error s.start = .ok () t) :
    takeException s e = t := by
  rw [takeException, h]

theorem takeException_of_aborted {k : AbortInfo}
    (h : deliver (setEip s s.start) e.vector .exc e.error s.start = .aborted k t) : takeException s e = abortState t k := by
  rw [takeException, h]

theorem takeException_of_raised {e2 : Exc}
    (h : deliver (setEip s s.start) e.vector .exc e.error s.start = .raised e2 t) :
    takeException s e = doubleFault t s.start := by
  rw [takeException, h]

/-- A double fault is #DF's delivery; one that raises is a shutdown. -/
theorem doubleFault_cases (t : State) (ret : Word) :
    (∀ u, deliver t 8 .exc (some 0) ret = .ok () u → doubleFault t ret = u) ∧
    (∀ k u, deliver t 8 .exc (some 0) ret = .aborted k u → doubleFault t ret = abortState u k) ∧
    ∀ e u, deliver t 8 .exc (some 0) ret = .raised e u → doubleFault t ret = haltState u true := by
  refine ⟨fun u h => ?_, fun k u h => ?_, fun e u h => ?_⟩ <;> rw [doubleFault, h]

/-- Delivery keeps the start of the instruction, which is the saved EIP (R506). -/
theorem deliver_raised_start {v : Byte} {kind : EventKind} {err : Option Word} {ret : Word}
    (h : deliver s v kind err ret = .raised e t) : t.start = s.start := by
  have hstart : SystemReading State.start := by constructor <;> intros <;> rfl
  have hw := deliver_within hstart.stable.1 s v kind err ret
  rwa [h] at hw

end

/-! ### INT n, INT3, INTO (45_control_transfer R464, R465, R467) -/

section
variable (a : Attrs) {s : State}

theorem exec_int_of_may (h : mayV86 s) (v : Byte) : exec (.int a v) s = complete (deliver s v .soft none s.eip) := by
  have hexec : exec (.int a v) s = execInt v s := rfl
  rw [hexec, execInt, v86Guard_of_may h, andThen_ok, softInterrupt]

theorem exec_int_of_low (h : ¬mayV86 s) (v : Byte) : exec (.int a v) s = .next (takeException s (.gp 0)) := by
  have hexec : exec (.int a v) s = execInt v s := rfl
  rw [hexec, execInt, v86Guard_of_low h, andThen_raised, complete_raised]

theorem exec_int3 (s : State) : exec (.int3 a) s = complete (deliver s 3 .soft none s.eip) := rfl

theorem exec_into_of_overflow (h : flagOf s .ovf = true) :
    exec (.into a) s = complete (deliver (touchFlag s .ovf) 4 .soft none s.eip) := by
  have hexec : exec (.into a) s = execInto s := rfl
  rw [hexec, execInto, if_pos h]
  rfl

theorem exec_into_of_no_overflow (h : flagOf s .ovf = false) : exec (.into a) s = .next (touchFlag s .ovf) := by
  have hexec : exec (.into a) s = execInto s := rfl
  rw [hexec, execInto, h, if_neg Bool.false_ne_true, complete_ok]

end

/-- Settles O54: the vectors, the nesting case by case, and the benign events as their own deliveries. -/
theorem exceptionNesting : Obligations.ExceptionNesting := by
  refine ⟨⟨rfl, rfl, fun c => ⟨⟨rfl, rfl, rfl⟩, rfl, rfl, rfl⟩⟩,
    fun s e => ⟨fun t => takeException_of_delivered, fun k t => takeException_of_aborted, fun e2 t h => ?nested⟩,
    fun a s => ⟨fun v h => ?int, fun v h => exec_int_of_low a h v, endsAs_complete _, fun h => ?into,
      exec_into_of_no_overflow a, fun v e t => deliver_raised_start⟩,
    fun s v vs e t hr hs hi hv h => ?interrupt⟩
  case nested =>
    obtain ⟨hdelivered, haborted, hraised⟩ := doubleFault_cases t s.start
    rw [takeException_of_raised h]
    refine ⟨hdelivered, haborted, fun e3 u hu => ?_⟩
    rw [hraised e3 u hu]
    exact ⟨rfl, rfl, rfl⟩
  case int =>
    rw [exec_int_of_may a h]
    exact endsAs_complete _
  case into =>
    rw [exec_into_of_overflow a h]
    exact endsAs_complete _
  case interrupt =>
    refine ⟨?_, deliver_raised_start h⟩
    rw [step_of_interrupt hr hs hi hv, interruptStart, h, settle]

/-! ### The gate (R509) -/

theorem deliver_of_real {s : State} (h : isReal s = true) (v : Byte) (kind : EventKind) (err : Option Word) (ret : Word) :
    deliver s v kind err ret = deliverReal s v ret := if_pos h

theorem deliver_of_prot {s : State} (h : isProt s = true) (v : Byte) (kind : EventKind) (err : Option Word) (ret : Word) :
    deliver s v kind err ret = deliverProt s v kind err ret := by
  have hreal : isReal s = false := by
    rw [isProt, Bool.and_eq_true] at h
    rw [isReal, h.1, Bool.not_true]
  rw [deliver, hreal, if_neg Bool.false_ne_true, if_pos h]

/-- The error code of a fault of delivery itself (R502). -/
theorem gateError_eq (v : Byte) (kind : EventKind) : gateError v (decide (kind ≠ .soft)) =
    BitVec.ofNat 32 (8 * v.toNat + (if kind = .soft then 2 else 3)) := by
  by_cases h : kind = .soft
  · rw [if_pos h, decide_eq_false (not_not_intro h)]
    exact BitVec.add_zero _
  · rw [if_neg h, decide_eq_true h]
    exact (BitVec.ofNat_add (8 * v.toNat + 2) 1).symm

theorem gateTypeKnown_iff (g : Descriptor) : gateTypeKnown g = true ↔ descType g ∈ [5, 6, 7, 14, 15] := by
  simp [gateTypeKnown, or_assoc]

section
variable {s : State} {g : Descriptor} {v : Byte} {kind : EventKind} {ext : Bool}

theorem gateChecks_of_no_gate (h : descS g = true ∨ descType g ∉ [5, 6, 7, 14, 15]) :
    gateChecks s g v kind ext = .raised (.gp (gateError v ext)) s := by
  refine if_pos ?_
  rcases h with h | h
  · rw [h, Bool.true_or]
  · rw [Bool.eq_false_iff.mpr (mt (gateTypeKnown_iff g).mp h), Bool.not_false, Bool.or_true]

theorem gateChecks_of_gate (hs : descS g = false) (ht : descType g ∈ [5, 6, 7, 14, 15]) : gateChecks s g v kind ext =
    if descType g == 5 then .aborted (.unimplemented .taskGate) s
    else if decide (kind = .soft) && decide (descDpl g < s.cpl) then .raised (.gp (gateError v ext)) s
    else if !descP g then .raised (.np (gateError v ext)) s
    else .ok () s := by
  refine if_neg ?_
  rw [hs, (gateTypeKnown_iff g).mpr ht]
  decide

theorem gateChecks_of_task (hs : descS g = false) (ht : descType g = 5) :
    gateChecks s g v kind ext = .aborted (.unimplemented .taskGate) s := by
  rw [gateChecks_of_gate hs (by rw [ht]; decide), ht]
  rfl

variable (hs : descS g = false) (ht : descType g ∈ [6, 7, 14, 15])
include hs ht

/-- An interrupt or trap gate is checked for its level, then for its presence. -/
theorem gateChecks_of_int_or_trap : gateChecks s g v kind ext =
    if decide (kind = .soft) && decide (descDpl g < s.cpl) then .raised (.gp (gateError v ext)) s
    else if !descP g then .raised (.np (gateError v ext)) s
    else .ok () s := by
  rw [gateChecks_of_gate hs (List.mem_cons_of_mem 5 ht)]
  refine if_neg fun h => ?_
  rw [eq_of_beq h] at ht
  revert ht
  decide

theorem gateChecks_of_lower (hk : kind = .soft) (hl : descDpl g < s.cpl) :
    gateChecks s g v kind ext = .raised (.gp (gateError v ext)) s := by
  rw [gateChecks_of_int_or_trap hs ht, if_pos (by rw [decide_eq_true hk, decide_eq_true hl]; rfl)]

variable (hl : kind = .soft → s.cpl ≤ descDpl g)
include hl

theorem gateChecks_of_level : gateChecks s g v kind ext =
    if !descP g then .raised (.np (gateError v ext)) s else .ok () s := by
  rw [gateChecks_of_int_or_trap hs ht]
  refine if_neg fun h => ?_
  simp only [Bool.and_eq_true, decide_eq_true_eq] at h
  exact absurd h.2 (BitVec.not_lt.mpr (hl h.1))

theorem gateChecks_of_absent (hp : descP g = false) : gateChecks s g v kind ext = .raised (.np (gateError v ext)) s := by
  rw [gateChecks_of_level hs ht hl, hp]
  rfl

theorem gateChecks_of_present (hp : descP g = true) : gateChecks s g v kind ext = .ok () s := by
  rw [gateChecks_of_level hs ht hl, hp]
  rfl

end

/-- What delivery through a gate does after its checks (R509): the frame, CS, the pointer, the flags, EIP. -/
def enterGate (s : State) (g : Descriptor) (ret : Word) (code : Option Word) (ext : Bool) : Res Unit :=
  (frameRes ext (writeFrame s (gateSize g) ret code)).andThen fun _ s =>
  (loadSeg s .cs (gateSelector g) .int ext).andThen fun _ s =>
  .ok () (setEip (clearGateFlags (setStackPtr s (slotBelow s ((if code.isSome then 4 else 3) * (gateSize g).bytes))) g)
    (truncSize (gateSize g) (gateOffset g)))

section
variable {s : State} {v : Byte} (hp : isProt s = true)
include hp

theorem deliver_beyond_limit (hl : s.idtr.limit.toNat < 8 * v.toNat + 7) (kind : EventKind) (err : Option Word)
    (ret : Word) :
    deliver s v kind err ret = .raised (.gp (gateError v (decide (kind ≠ .soft)))) s := by
  rw [deliver_of_prot hp, deliverProt]
  exact if_pos hl

variable (hl : 8 * v.toNat + 7 ≤ s.idtr.limit.toNat)
include hl

/-- Within the table's limit delivery is the read of the gate and what follows it. -/
theorem deliver_within_limit (kind : EventKind) (err : Option Word) (ret : Word) : deliver s v kind err ret =
    (readQuad s (s.idtr.base + BitVec.ofNat 32 (8 * v.toNat))).andThen fun g s =>
      (gateChecks s g v kind (decide (kind ≠ .soft))).andThen fun _ s =>
        enterGate s g ret (if kind = .exc then err else none) (decide (kind ≠ .soft)) := by
  rw [deliver_of_prot hp, deliverProt]
  exact if_neg (Nat.not_lt.mpr hl)

end

theorem readQuad_frame {s t : State} {a : Word} {g : Descriptor} (h : readQuad s a = .ok g t) : ReadFrame s t := by
  rcases readQuad_cases s a with ⟨d, u, e, hu⟩ | ⟨k, u, e, _⟩
  · rw [h] at e
    cases e
    exact hu
  · rw [h] at e
    cases e

/-- Settles O53: the limit, the read, then each check of the gate in its order. -/
theorem gateFaults : Obligations.GateFaults := by
  refine fun s s1 v kind err ret g hp => ⟨fun hl => ?limit, fun hl k t h => ?aborts, fun hl h => ?gate⟩
  case limit => rw [deliver_beyond_limit hp hl, gateError_eq]
  case aborts => rw [deliver_within_limit hp hl, h, andThen_aborted]
  case gate =>
    have hcpl : s1.cpl = s.cpl := (readQuad_frame h).system.cpl
    rw [deliver_within_limit hp hl, h, andThen_ok, ← gateError_eq, ← hcpl]
    refine ⟨fun hg => ?_, fun hs ht => ?_, fun hs ht hk hd => ?_, fun hs ht hd ha => ?_⟩
    · rw [gateChecks_of_no_gate hg, andThen_raised]
    · rw [gateChecks_of_task hs ht, andThen_aborted]
    · rw [gateChecks_of_lower hs ht hk hd, andThen_raised, gateError_eq, if_pos hk]
    · rw [gateChecks_of_absent hs ht hd ha, andThen_raised]

end Sys2Proof.Machine
end

section
/-! PROOFS. Of 60_exceptions R507: delivery outside protected mode, its two reads and its three pushes. -/

namespace Sys2Proof.Machine

/-! ### The stack pointer after a move (41_data_movement R290) -/

theorem wrapSp_eq_trunc (s : State) (x : Word) : wrapSp s x = trunc (if stackBig s then .dword else .word) x := by
  unfold wrapSp
  split <;> rfl

/-- Wrapping before a subtraction adds nothing to wrapping after it. -/
theorem wrapSp_wrapSp_sub (s : State) (x y : Word) : wrapSp s (wrapSp s x - y) = wrapSp s (x - y) := by
  simp only [wrapSp_eq_trunc]
  split
  · rfl
  · apply BitVec.eq_of_toNat_eq
    rw [toNat_trunc, toNat_trunc, BitVec.toNat_sub, BitVec.toNat_sub, toNat_trunc]
    simp only [Width.bits]
    omega

theorem wrapSp_slotBelow (s : State) (k : Nat) : wrapSp s (slotBelow s k) = slotBelow s k := by
  rw [slotBelow, wrapSp_eq_trunc, wrapSp_eq_trunc, trunc_trunc]

theorem wrapSp_stackPtr (s : State) : wrapSp s (stackPtr s) = stackPtr s := by
  unfold wrapSp stackPtr
  split
  · rfl
  · exact trunc_trunc .word _

theorem stackPtr_setStackPtr (s : State) (v : Word) : stackPtr (setStackPtr s v) = wrapSp s v := by
  have hbig : stackBig (setStackPtr s v) = stackBig s := rfl
  unfold stackPtr wrapSp
  rw [hbig]
  split
  · rename_i h
    exact reg32_setStackPtr_of_big h v
  · rename_i h
    rw [setStackPtr, if_neg h]
    exact getReg_setReg_same s .word .sp v

/-! ### Pushes in order (R290) -/

/-- What pushes that reach `n` bytes below the pointer of `s` leave: ESP and the listed stores are all that changed. -/
structure PushedBelow (stores : List (Option Nat × Width)) (n : Nat) (s t : State) : Prop where
  regs : keepsRegs [.sp] s t
  pointer : stackPtr t = slotBelow s n
  memory : keepsMemoryButAll stores s t
  flags : keepsFlags s t
  system : KeepsSystem s t

/-- Nothing pushed yet. -/
theorem StoresFrame.pushedBelow {s t : State} (h : StoresFrame [] s t) : PushedBelow [] 0 s t where
  regs r _ := reg32_congr s t h.regs r
  pointer := by
    rw [stackPtr_congr s t h.regs h.system.segs, ← wrapSp_stackPtr s]
    exact congrArg (wrapSp s) (BitVec.sub_zero _).symm
  memory := h.memory
  flags := h.flags
  system := h.system

section
variable {stores : List (Option Nat × Width)} {n : Nat} {s t : State} (h : PushedBelow stores n s t)
include h

/-- The next slot lies below those already pushed. -/
theorem PushedBelow.slotBelow_eq (k : Nat) : slotBelow t k = slotBelow s (n + k) := by
  rw [slotBelow, h.pointer, wrapSp_congr s t h.system.segs]
  refine (wrapSp_wrapSp_sub s _ _).trans (congrArg (wrapSp s) ?_)
  rw [BitVec.ofNat_add, ← BitVec.sub_sub]

/-- One more push. -/
theorem PushedBelow.push {sz : Size} (hc : canStore s sz (n + sz.bytes)) (v : Word) : ∃ u, push t sz v = .ok () u ∧
    PushedBelow (stores ++ [(storeHome s .ss (slotBelow s (n + sz.bytes)) sz.width, sz.width)]) (n + sz.bytes) s u := by
  have hslot := h.slotBelow_eq sz.bytes
  have hstore : canStore t sz sz.bytes := by
    rw [canStore, hslot]
    exact (canAccess_of_system h.system _ _ _).mpr hc
  obtain ⟨w, _, hpush, hw⟩ := push_ok t sz v hstore
  rw [hslot, storeHome_of_system h.system] at hw
  rw [hslot] at hpush
  refine ⟨_, hpush, ?_, ?_, ?_, ?_, ?_⟩
  · exact fun r hr => (keepsRegs_setStackPtr w _ r hr).trans ((reg32_congr t w hw.regs r).trans (h.regs r hr))
  · rw [stackPtr_setStackPtr, wrapSp_congr s w (hw.segs.trans h.system.segs)]
    exact wrapSp_slotBelow s _
  · exact keepsMemoryButAll_trans h.memory hw.storesFrame.memory
  · exact keepsFlags_trans h.flags hw.storesFrame.flags
  · exact (h.system.trans hw.keepsSystem).trans ⟨rfl, rfl, rfl, rfl, rfl, rfl, rfl, rfl, rfl, rfl, rfl, rfl, rfl⟩

end

theorem push_segs {s t : State} {sz : Size} {v : Word} (h : push s sz v = .ok () t) : t.segs = s.segs := by
  obtain ⟨_, u, hu, h⟩ := andThen_eq_ok h
  cases h
  exact (segWrite_stored hu).segs

theorem linRead_device {s t : State} {x : Word} {w : Width} {v : Word} (h : linRead s x w = .ok v t) : DeviceOnly s t := by
  rcases linRead_cases s x w with ⟨y, u, e, hu⟩ | ⟨k, e⟩ <;> rw [h] at e <;> cases e
  exact hu

/-! ### The delivery (R507) -/

/-- The address of a vector's entry in the table: the offset, then two bytes above it the selector. -/
def vectorEntry (s : State) (v : Byte) : Word := s.idtr.base + BitVec.ofNat 32 (4 * v.toNat)

/-- The state real-mode delivery leaves after its pushes: IF and TF clear, CS:EIP from the entry. -/
def enterVector (s : State) (sel off : Word) : State :=
  setEip (loadSegReal (setPlainFlag (setPlainFlag s ifPos false) tfPos false) .cs (sel.setWidth 16)) off

/-- IF and TF are clear, and no status flag changed. -/
theorem enterVector_flags (s : State) (sel off : Word) : plainFlag (enterVector s sel off) ifPos = false ∧
    plainFlag (enterVector s sel off) tfPos = false ∧ ∀ f, flagOf (enterVector s sel off) f = flagOf s f := by
  have hflags : (enterVector s sel off).flags = (setPlainFlag (setPlainFlag s ifPos false) tfPos false).flags := rfl
  have hplain : ∀ i, plainFlag (enterVector s sel off) i =
      plainFlag (setPlainFlag (setPlainFlag s ifPos false) tfPos false) i := fun _ => rfl
  refine ⟨?_, ?_, fun f => ?_⟩
  · rw [hplain, plainFlag_setPlainFlag _ _ _ _ (by decide), if_neg (by decide), plainFlag_setPlainFlag _ _ _ _ (by decide),
      if_pos rfl]
  · rw [hplain, plainFlag_setPlainFlag _ _ _ _ (by decide), if_pos rfl]
  · rw [flagOf_congr _ _ hflags, flagOf_setPlainFlag _ _ _ f (by decide) (plainPos_ne_pos (.inl rfl) f),
      flagOf_setPlainFlag _ _ _ f (by decide) (ifPos_plain f)]

section
variable {s : State} {v : Byte} {kind : EventKind} {err : Option Word} {ret : Word} (hr : isReal s = true)
include hr

theorem deliver_beyond_vectors (hl : s.idtr.limit.toNat < 4 * v.toNat + 3) :
    deliver s v kind err ret = .aborted (.memoryFaultIvt v) s := by
  rw [deliver_of_real hr, deliverReal, if_pos hl]

variable (hl : 4 * v.toNat + 3 ≤ s.idtr.limit.toNat)
include hl

/-- Within the table's limit delivery is its two reads, its three pushes, and the entry. -/
theorem deliver_within_vectors : deliver s v kind err ret =
    (linRead s (vectorEntry s v) .word).andThen fun off t =>
    (linRead t (vectorEntry s v + 2) .word).andThen fun sel t =>
    (push (touchAllFlags t) .s16 (flagsImage t)).andThen fun _ t =>
    (push t .s16 ((getSeg t .cs).value.setWidth 32)).andThen fun _ t =>
    (push t .s16 ret).andThen fun _ t => .ok () (enterVector t sel off) := by
  rw [deliver_of_real hr, deliverReal]
  exact if_neg (Nat.not_lt.mpr hl)

variable {off : Word} {s1 : State} (h1 : linRead s (vectorEntry s v) .word = .ok off s1)
include h1

variable {sel : Word} {s2 : State} (h2 : linRead s1 (vectorEntry s v + 2) .word = .ok sel s2)
include h2

/-- After the reads the three pushes, of values that neither the reads nor the pushes before them changed. -/
theorem deliver_of_entry : deliver s v kind err ret =
    (push (touchAllFlags s2) .s16 (flagsImage s)).andThen fun _ t =>
    (push t .s16 ((getSeg s .cs).value.setWidth 32)).andThen fun _ t =>
    (push t .s16 ret).andThen fun _ t => .ok () (enterVector t sel off) := by
  have hd := (linRead_device h1).trans (linRead_device h2)
  have himage : flagsImage s2 = flagsImage s := flagsImage_congr (keepsFlags_of_flags hd.flags)
  rw [deliver_within_vectors hr hl, h1, andThen_ok, h2, andThen_ok, himage]
  cases hpush : push (touchAllFlags s2) .s16 (flagsImage s) with
  | ok _ t => rw [andThen_ok, andThen_ok, getSeg_congr s t ((push_segs hpush).trans hd.segs)]
  | raised e t => rfl
  | aborted k t => rfl

end

section
variable {s : State} {v : Byte} (hr : isReal s = true) (hl : 4 * v.toNat + 3 ≤ s.idtr.limit.toNat)
  (hoff : canAccessLinear s (vectorEntry s v) .word) (hsel : canAccessLinear s (vectorEntry s v + 2) .word)
  (hstack : ∀ k, k < 3 → canStore s .s16 (2 * (k + 1)))
include hr hl hoff hsel hstack

/-- Delivery whose two reads and three pushes can be made. -/
theorem deliver_real_of_ready (ret : Word) : ∃ off sel s1 s2 s3 s4 s5,
      linRead s (vectorEntry s v) .word = .ok off s1 ∧ linRead s1 (vectorEntry s v + 2) .word = .ok sel s2 ∧
      push (touchAllFlags s2) .s16 (flagsImage s) = .ok () s3 ∧
      push s3 .s16 ((getSeg s .cs).value.setWidth 32) = .ok () s4 ∧ push s4 .s16 ret = .ok () s5 ∧
      PushedBelow ([2, 4, 6].map fun k => (storeHome s .ss (slotBelow s k) .word, .word)) 6 s s5 ∧
      ∀ kind err, deliver s v kind err ret = .ok () (enterVector s5 sel off) := by
  obtain ⟨off, s1, h1, d1⟩ := linRead_ok s _ .word hoff
  obtain ⟨sel, s2, h2, d2⟩ := linRead_ok s1 _ .word (d1.canAccessLinear.mpr hsel)
  have hstart := ((d1.trans d2).readFrame.storesFrame.trans (storesFrame_touchAllFlags s2)).pushedBelow
  obtain ⟨s3, h3, p3⟩ := hstart.push (sz := .s16) (hstack 0 (by decide)) (flagsImage s)
  obtain ⟨s4, h4, p4⟩ := p3.push (sz := .s16) (hstack 1 (by decide)) ((getSeg s .cs).value.setWidth 32)
  obtain ⟨s5, h5, p5⟩ := p4.push (sz := .s16) (hstack 2 (by decide)) ret
  refine ⟨off, sel, s1, s2, s3, s4, s5, h1, h2, h3, h4, h5, p5, fun kind err => ?_⟩
  rw [deliver_of_entry hr hl h1 h2, h3, andThen_ok, h4, andThen_ok, h5, andThen_ok]

/-- The same of a software interrupt, whose return address is the next instruction. -/
theorem deliver_soft_of_ready : ∃ t, deliver s v .soft none s.eip = .ok () t := by
  obtain ⟨off, sel, _, _, _, _, s5, _, _, _, _, _, _, hd⟩ := deliver_real_of_ready hr hl hoff hsel hstack s.eip
  exact ⟨enterVector s5 sel off, hd _ _⟩

end

/-- V8086 mode is a protected mode, so no guard stops an interrupt in real mode. -/
theorem mayV86_of_real {s : State} (h : isReal s = true) : mayV86 s := by
  rw [isReal, Bool.not_eq_true'] at h
  exact .inl (by rw [isV86, h, Bool.false_and])

/-- Settles O50: the limit, each access in its order, and the instructions as their deliveries. -/
theorem realModeDelivery : Obligations.RealModeDelivery := by
  refine ⟨fun s v kind err ret hr hl => deliver_beyond_vectors hr hl, fun s v kind err ret hr hl => ?order,
    fun s v hr hl hoff hsel hstack => ?ready⟩
  case order =>
    have hdeliver := deliver_within_vectors (kind := kind) (err := err) (ret := ret) hr hl
    refine ⟨fun k t h => ?_, fun off s1 h1 => ⟨fun k t h => ?_, fun sel s2 h2 => ?_⟩⟩
    · exact hdeliver ▸ (FailsLike.left _ _).aborted k t h
    · exact hdeliver ▸ (FailsLike.after h1 (.left _ _)).aborted k t h
    · rw [deliver_of_entry hr hl h1 h2]
      refine ⟨(FailsLike.left _ _).aborted, fun s3 h3 => ⟨?_, fun s4 h4 => ?_⟩⟩
      · exact (FailsLike.after h3 (.left _ _)).aborted
      · exact (FailsLike.after h3 (.after h4 (.left _ _))).aborted
  case ready =>
    refine ⟨fun ret => ?_, fun a => ?_, fun a hv => ?_, fun a hv ho => ?_, fun a ho => exec_into_of_no_overflow a ho⟩
    · obtain ⟨off, sel, s1, s2, s3, s4, s5, h1, h2, h3, h4, h5, hp, hd⟩ := deliver_real_of_ready hr hl hoff hsel hstack ret
      obtain ⟨hif, htf, hflags⟩ := enterVector_flags s5 sel off
      exact ⟨off, sel, s1, s2, s3, s4, s5, h1, h2, h3, h4, h5, hp.regs, hp.pointer, hp.system, hp.flags, hp.memory, _, hd,
        rfl, hif, htf, fun f => (hflags f).trans (hp.flags.1 f)⟩
    · obtain ⟨t, ht⟩ := deliver_soft_of_ready hr hl hoff hsel hstack
      exact ⟨t, ht, by rw [exec_int_of_may a (mayV86_of_real hr), ht, complete_ok]⟩
    · obtain ⟨t, ht⟩ := deliver_soft_of_ready hr hl hoff hsel hstack
      rw [hv] at ht ⊢
      exact ⟨t, ht, by rw [exec_int3, ht, complete_ok]⟩
    · obtain ⟨t, ht⟩ := deliver_soft_of_ready (s := touchFlag s .ovf) hr hl hoff hsel hstack
      rw [hv] at ht ⊢
      exact ⟨t, ht, by rw [exec_into_of_overflow a ho]; exact congrArg complete ht⟩

end Sys2Proof.Machine
end

section
/-! PROOFS. Of 60_exceptions R509 to R511: delivery in protected mode through a present gate. -/

namespace Sys2Proof.Machine

/-! ### The fields of a gate (R510) -/

theorem toNat_gateOffset (g : Descriptor) : (gateOffset g).toNat = g.toNat % 2 ^ 16 + 2 ^ 16 * (g.toNat / 2 ^ 48) := by
  have hlow : g.toNat % 2 ^ 16 < 2 ^ 16 := Nat.mod_lt _ (by decide)
  have hhigh : g.toNat / 2 ^ 48 < 2 ^ 16 := Nat.div_lt_of_lt_mul g.isLt
  have hor := Nat.two_pow_add_eq_or_of_lt hlow (g.toNat / 2 ^ 48)
  simp only [gateOffset, BitVec.toNat_or, BitVec.toNat_shiftLeft, BitVec.toNat_setWidth, BitVec.extractLsb'_toNat,
    Nat.shiftRight_eq_div_pow, Nat.shiftLeft_eq]
  rw [Nat.add_comm, hor, Nat.or_comm]
  congr 1 <;> omega

theorem gateSize_iff (g : Descriptor) : gateSize g = .s32 ↔ descType g = 14 ∨ descType g = 15 := by
  unfold gateSize
  split
  · rename_i h
    simpa using h
  · rename_i h
    simpa using h

theorem toNat_truncSize (sz : Size) (v : Word) :
    (truncSize sz v).toNat = if sz = .s32 then v.toNat else v.toNat % 65536 := by
  cases sz with
  | s16 => exact toNat_trunc .word v
  | s32 => rfl

/-! ### The flags delivery clears (R509) -/

theorem gateClearsIf_iff (g : Descriptor) : gateClearsIf g = true ↔ descType g = 6 ∨ descType g = 14 := by
  simp [gateClearsIf]

theorem onlyFlags_clearGateFlags (s : State) (g : Descriptor) : onlyFlags s (clearGateFlags s g) := by
  unfold clearGateFlags
  dsimp only
  split <;> rfl

/-- TF, NT and RF are cleared, and IF through an interrupt gate; every other stored bit stays. -/
theorem plainFlag_clearGateFlags (s : State) (g : Descriptor) (i : Nat) : plainFlag (clearGateFlags s g) i =
    if i ∈ [tfPos, ntPos, rfPos] ∨ (i = ifPos ∧ gateClearsIf g = true) then false else plainFlag s i := by
  have hclear : ∀ u : State,
      plainFlag (setPlainFlag (setPlainFlag (setPlainFlag u tfPos false) ntPos false) rfPos false) i =
        if i ∈ [tfPos, ntPos, rfPos] then false else plainFlag u i := by
    intro u
    rw [plainFlag_setPlainFlag _ _ _ _ (by decide), plainFlag_setPlainFlag _ _ _ _ (by decide),
      plainFlag_setPlainFlag _ _ _ _ (by decide)]
    by_cases htf : i = tfPos <;> by_cases hnt : i = ntPos <;> simp [htf, hnt]
  unfold clearGateFlags
  dsimp only
  rw [hclear]
  cases gateClearsIf g with
  | false => simp
  | true =>
    rw [if_pos rfl, plainFlag_setPlainFlag _ _ _ _ (by decide)]
    by_cases hif : i = ifPos <;> simp [hif]

/-! ### The frame (R509, R511) -/

theorem andThen_congr {α β : Type} {r : Res α} {f g : α → State → Res β} (h : ∀ x t, r = .ok x t → f x t = g x t) :
    r.andThen f = r.andThen g := by
  cases r with
  | ok x t => exact h x t rfl
  | raised e t => rfl
  | aborted k t => rfl

theorem storeSlots_one (s₀ s : State) (sz : Size) (i : Nat) (v : Word) :
    storeSlots s₀ sz i [v] s = segWrite s .ss (slotBelow s₀ ((i + 1) * sz.bytes)) sz.width v := by
  rw [storeSlots]
  cases segWrite s .ss (slotBelow s₀ ((i + 1) * sz.bytes)) sz.width v <;> rfl

/-- What the slots of a frame hold, in order. -/
def frameSlots (s : State) (ret : Word) (code : Option Word) : List Word :=
  [flagsImage s, (getSeg s .cs).value.setWidth 32, ret] ++ code.toList

theorem length_frameSlots (s : State) (ret : Word) (code : Option Word) :
    (frameSlots s ret code).length = if code.isSome then 4 else 3 := by
  cases code <;> rfl

/-- The writes of a frame are its slots in order, below the pointer and of the values before delivery. -/
theorem writeFrame_eq_storeSlots {s s1 : State} (h : ReadFrame s s1) (sz : Size) (ret : Word) (code : Option Word) :
    writeFrame s1 sz ret code = storeSlots s sz 0 (frameSlots s ret code) (touchAllFlags s1) := by
  have himage : flagsImage s1 = flagsImage s := flagsImage_congr (keepsFlags_of_flags h.flags)
  have hslot : ∀ {t : State}, t.regs = s1.regs → t.segs = s1.segs → ∀ k, slotBelow t k = slotBelow s k :=
    fun hr hg k => slotBelow_congr s _ (hr.trans h.regs) (hg.trans h.system.segs) k
  rw [writeFrame, frameSlots, himage, hslot rfl rfl, List.cons_append, List.cons_append, List.cons_append, storeSlots,
    Nat.zero_add, Nat.one_mul]
  refine andThen_congr fun _ t ht => ?_
  have hst := segWrite_stored ht
  rw [hslot hst.regs hst.segs, getSeg_congr s t (hst.segs.trans h.system.segs), storeSlots]
  refine andThen_congr fun _ u hu => ?_
  have hsu := segWrite_stored hu
  rw [hslot (hsu.regs.trans hst.regs) (hsu.segs.trans hst.segs), storeSlots]
  refine andThen_congr fun _ x hx => ?_
  have hsx := segWrite_stored hx
  cases code with
  | none => rfl
  | some e =>
    rw [pushErrorSlot, hslot ((hsx.regs.trans hsu.regs).trans hst.regs) ((hsx.segs.trans hsu.segs).trans hst.segs)]
    exact (storeSlots_one s x sz 3 e).symm

/-- The code of a frame's #SS by the parameter `frameErr` (log entry 12). -/
theorem frameFault_ss (s : State) (kind : EventKind) (c : Word) : frameFault s (decide (kind ≠ .soft)) (.ss c) =
    .ss (c ||| if s.cfg.frameErr = .ext ∧ kind ≠ .soft then 1 else 0) := by
  unfold frameFault
  cases s.cfg.frameErr with
  | zero => simp
  | ext => by_cases h : kind = .soft <;> simp [h, extBit, bitWord]

/-! ### Through a present gate -/

section
variable {s s1 : State} (h : ReadFrame s s1) {g : Descriptor} {ret : Word} {code : Option Word}
include h

theorem storesFrame_touchAllFlags_of_read : StoresFrame [] s (touchAllFlags s1) :=
  h.storesFrame.trans (storesFrame_touchAllFlags s1)

/-- A frame write that fails leaves the slots before it. -/
theorem leaves_frameSlot {i : Nat} (hi : i < (frameSlots s ret code).length) {t : State} {sz : Size}
    (ht : storeSlots s sz 0 ((frameSlots s ret code).take i) (touchAllFlags s1) = .ok () t) :
    LeavesStores (slotStores s sz i) s
      (segWrite t .ss (slotBelow s ((i + 1) * sz.bytes)) sz.width (frameSlots s ret code)[i]) := by
  have hframe := storeSlots_frame (storesFrame_touchAllFlags_of_read h) ht
  rw [List.length_take_of_le (Nat.le_of_lt hi)] at hframe
  exact leaves_segWrite hframe _ _ _ _

/-- A frame write that fails is how the entry ends, with the code of its fault as `frameErr` says. -/
theorem enterGate_of_failing_slot {ext : Bool} {i : Nat} (hi : i < (frameSlots s ret code).length) {t u : State}
    (ht : storeSlots s (gateSize g) 0 ((frameSlots s ret code).take i) (touchAllFlags s1) = .ok () t) :
    (∀ e, segWrite t .ss (slotBelow s ((i + 1) * (gateSize g).bytes)) (gateSize g).width (frameSlots s ret code)[i] =
      .raised e u → enterGate s1 g ret code ext = .raised (frameFault u ext e) u) ∧
    ∀ k, segWrite t .ss (slotBelow s ((i + 1) * (gateSize g).bytes)) (gateSize g).width (frameSlots s ret code)[i] =
      .aborted k u → enterGate s1 g ret code ext = .aborted k u := by
  have hfails := storeSlots_failsLike i hi ht
  refine ⟨fun e he => ?_, fun k hk => ?_⟩
  · rw [enterGate, writeFrame_eq_storeSlots h, hfails.raised e u he]
    rfl
  · rw [enterGate, writeFrame_eq_storeSlots h, hfails.aborted k u hk]
    rfl

/-- Once the frame is stored the CS load decides; the pointer then moves below the slots. -/
theorem enterGate_of_frame {ext : Bool} {u : State}
    (hu : storeSlots s (gateSize g) 0 (frameSlots s ret code) (touchAllFlags s1) = .ok () u) :
    enterGate s1 g ret code ext = (loadSeg u .cs (gateSelector g) .int ext).andThen fun _ w =>
      .ok () (setEip (clearGateFlags
        (setStackPtr w (slotBelow s ((frameSlots s ret code).length * (gateSize g).bytes))) g)
        (truncSize (gateSize g) (gateOffset g))) := by
  have hframe := storeSlots_frame (storesFrame_touchAllFlags_of_read h) hu
  rw [enterGate, writeFrame_eq_storeSlots h, hu, frameRes, andThen_ok, length_frameSlots]
  refine andThen_congr fun _ w hw => ?_
  obtain ⟨hregs, hss⟩ := loadSeg_cs_keeps_stack hw
  rw [slotBelow_of_stack (hregs.trans hframe.regs) (hss.trans (getSeg_congr s u hframe.system.segs .ss))]

end

/-- Past its checks delivery is the entry through the gate. -/
theorem deliver_of_present_gate {s s1 : State} {v : Byte} {kind : EventKind} {err : Option Word} {ret : Word}
    {g : Descriptor} (hp : isProt s = true) (hl : 8 * v.toNat + 7 ≤ s.idtr.limit.toNat)
    (hg : readQuad s (s.idtr.base + BitVec.ofNat 32 (8 * v.toNat)) = .ok g s1) (hs : descS g = false)
    (ht : descType g ∈ [6, 7, 14, 15]) (hd : kind = .soft → s.cpl ≤ descDpl g) (ha : descP g = true) :
    deliver s v kind err ret =
      enterGate s1 g ret (if kind = .exc then err else none) (decide (kind ≠ .soft)) := by
  rw [← (readQuad_frame hg).system.cpl] at hd
  rw [deliver_within_limit hp hl, hg, andThen_ok, gateChecks_of_present hs ht hd ha, andThen_ok]

/-- Settles O52: the gate's fields, the flags it clears, and the entry through it as its frame and its CS load end. -/
theorem protectedDelivery : Obligations.ProtectedDelivery := by
  refine ⟨fun g => ⟨gateSize_iff g, ?selector, toNat_gateOffset g, ?type, rfl, ?dpl, rfl, toNat_truncSize _ _⟩,
    fun s g => ⟨onlyFlags_clearGateFlags s g, (clearGateFlags_rel keepsVisible_stable s g).2, ?interrupts, ?tf, ?nt, ?rf,
      ?others⟩,
    fun s s1 v kind err ret g vs hp hl hg hs ht hd ha hvs => ?deliver⟩
  case selector => rw [gateSelector, BitVec.extractLsb'_toNat, Nat.shiftRight_eq_div_pow]
  case type => rw [descType, BitVec.extractLsb'_toNat, Nat.shiftRight_eq_div_pow]
  case dpl => rw [descDpl, BitVec.extractLsb'_toNat, Nat.shiftRight_eq_div_pow]
  case interrupts =>
    refine (plainFlag_clearGateFlags s g ifPos).trans ?_
    by_cases hg : gateClearsIf g = true
    · have htype := (gateClearsIf_iff g).mp hg
      rw [if_pos (.inr ⟨rfl, hg⟩), decide_eq_false fun ⟨h6, h14⟩ => htype.elim h6 h14, Bool.and_false]
    · have htype := not_or.mp (mt (gateClearsIf_iff g).mpr hg)
      rw [if_neg (not_or.mpr ⟨by decide, fun h => hg h.2⟩), decide_eq_true htype, Bool.and_true]
      rfl
  case tf => exact (plainFlag_clearGateFlags s g tfPos).trans (if_pos (.inl (by decide)))
  case nt => exact (plainFlag_clearGateFlags s g ntPos).trans (if_pos (.inl (by decide)))
  case rf => exact (plainFlag_clearGateFlags s g rfPos).trans (if_pos (.inl (by decide)))
  case others =>
    intro i hi
    rw [plainFlag_clearGateFlags]
    have hmem : i ∉ [tfPos, ntPos, rfPos] := fun h => hi (by revert h; simp [tfPos, ntPos, rfPos]; omega)
    have hif : i ≠ ifPos := fun h => hi (by rw [h]; decide)
    simp only [hmem, hif, false_and, or_false, if_false]
  case deliver =>
    have hread := readQuad_frame hg
    have hvs : vs = frameSlots s ret (if kind = .exc then err else none) := hvs
    subst hvs
    rw [deliver_of_present_gate hp hl hg hs (by simpa using ht) hd ha]
    generalize (if kind = .exc then err else none) = code
    refine ⟨fun i hi t hi' => ?fails, fun hstore => ?stored⟩
    case fails =>
      have hleaves := leaves_frameSlot hread hi hi'
      refine ⟨fun c u hu => ⟨?_, hleaves.raised _ _ hu⟩, fun k u hu =>
        ⟨(enterGate_of_failing_slot hread hi hi').2 k hu, hleaves.aborted _ _ hu⟩⟩
      rw [(enterGate_of_failing_slot hread hi hi').1 _ hu, frameFault_ss, (hleaves.raised _ _ hu).system.cfg]
    case stored =>
      have htouch := storesFrame_touchAllFlags_of_read hread
      obtain ⟨u, hu⟩ := storeSlots_of_canStore (frameSlots s ret code) 0 htouch.system fun j hj => by
        rw [Nat.zero_add]
        exact hstore j hj
      rw [enterGate_of_frame hread hu]
      refine ⟨u, hu, storeSlots_frame htouch hu, fun w hw => ?_, fun e w hw => ?_, fun k w hw => ?_⟩
      · rw [hw, andThen_ok]
      · rw [hw, andThen_raised]
      · rw [hw, andThen_aborted]

end Sys2Proof.Machine
end
